-- ==== Sys2Proof/Word.lean ====
section
/-! DEFINITION. The words of the engine: byte, device id, channel, enable mask, device reference (00_scope.md R7, R9). -/
namespace Sys2Proof

/-- A byte of 8 bits, bit 0 least significant (00_scope.md R9). -/
abbrev Byte := BitVec 8

/-- A device id, `ID_BITS` = 5 bits (00_scope.md R7). -/
abbrev DeviceId := BitVec 5

/-- A channel, `CH_BITS` = 4 bits (00_scope.md R7). -/
abbrev Channel := BitVec 4

/-- The enabled-device bitmask, `MASK_BITS` = 32 bits (00_scope.md R7). -/
abbrev Mask := BitVec 32

/-- A device reference: opaque, only compared for equality (10_state.md R36), so it is a plain name. -/
abbrev DeviceRef := Nat

end Sys2Proof
end

