-- ==== Sys2Proof/Config.lean ====
section
/-! DEFINITION. The open parameters of 00_scope.md R7 and the fixed constants beside them.
Every OPEN parameter is an opaque constant with no body: no proof can see its value (R8; log 1). -/
namespace Sys2Proof

/-- One parameter set of the engine (00_scope.md R7). The two constraints of R8 and of 93_implementation_defined.md F9
are carried as proofs, so a parameter set the spec refuses cannot be built. Times are microseconds. -/
structure Params where
  /-- `HAS_SRQ`: the SRQ line is present. -/
  hasSrq : Bool
  /-- `MAXLEN`: the bound of the auxiliary buffer, in bytes. -/
  maxLen : Nat
  /-- `T_TIMEOUT`: the deadline of every `timeoutWait`. -/
  tTimeout : Nat
  /-- `T_EOI`: CLK released this long reads as EOI. -/
  tEoi : Nat
  /-- `T_EOI_ACK`: how long the receiver holds DATA pulled to acknowledge EOI. -/
  tEoiAck : Nat
  /-- `T_BIT`: half-period of one bit cell on the sender. -/
  tBit : Nat
  /-- `T_TURN`: settle delay inside turnaround. -/
  tTurn : Nat
  /-- `T_FNF`: hold time of `sendFileNotFound`. -/
  tFnf : Nat
  /-- `ENABLED_INIT`: the power-on value of the enable mask. -/
  enabledInit : Mask
  /-- R8: the single constraint `T_EOI < T_TIMEOUT`. -/
  eoi_lt_timeout : tEoi < tTimeout
  /-- F9: `MAXLEN = 0` is refused. -/
  maxLen_pos : 0 < maxLen
deriving DecidableEq, Repr

/-- `HAS_SRQ`, OPEN. -/
opaque Config.hasSrq : Bool
/-- `MAXLEN` less one, OPEN (`MAXLEN >= 1`, 92_eei_decisions.md D13). -/
opaque Config.maxLenPred : Nat
/-- `T_EOI`, OPEN. -/
opaque Config.tEoi : Nat
/-- `T_TIMEOUT` less `T_EOI` less one, OPEN: so `T_EOI < T_TIMEOUT` holds and nothing else is said. -/
opaque Config.timeoutSlack : Nat
/-- `T_EOI_ACK`, OPEN. -/
opaque Config.tEoiAck : Nat
/-- `T_BIT`, OPEN. -/
opaque Config.tBit : Nat
/-- `T_TURN`, OPEN. -/
opaque Config.tTurn : Nat
/-- `T_FNF`, OPEN. -/
opaque Config.tFnf : Nat
/-- `ENABLED_INIT`, OPEN. -/
opaque Config.enabledInit : Mask

/-- The parameter set of the machine at power-on: the open constants, under the two constraints only. -/
def Config.params : Params :=
  { hasSrq := Config.hasSrq
    maxLen := Config.maxLenPred + 1
    tTimeout := Config.tEoi + 1 + Config.timeoutSlack
    tEoi := Config.tEoi
    tEoiAck := Config.tEoiAck
    tBit := Config.tBit
    tTurn := Config.tTurn
    tFnf := Config.tFnf
    enabledInit := Config.enabledInit
    eoi_lt_timeout := by omega
    maxLen_pos := Nat.succ_pos _ }

/-- `N_SLOTS`: the registry's capacity (00_scope.md R7; 92_eei_decisions.md D31). -/
def Config.nSlots : Nat := 27
/-- `ID_MIN`: the lowest assignable device id (00_scope.md R7). -/
def Config.idMin : Nat := 4
/-- `ID_MAX`: the highest assignable device id (00_scope.md R7). -/
def Config.idMax : Nat := 30

end Sys2Proof
end

