-- ==== Sys2Proof/Syntax.lean ====
section
/-! DEFINITION. The lines, the operation request as it is laid out (format OP), the two encoded forms, and the ONE
inductive of instructions: one constructor per row of spec/opcode_table.json, in the table's order. -/
namespace Sys2Proof

/-- The five lines (00_scope.md R10). -/
inductive Line where
  | atn | clk | data | srq | reset
deriving DecidableEq, Repr

/-- A line's state (00_scope.md R10): `pulled` is asserted, electrically low, logically true. -/
inductive LineState where
  | released | pulled
deriving DecidableEq, Repr

/-- An operation request of format OP as its caller hands it over (30_encoding.md R100, R101): the select code and every
operand field at the width R101 gives it. A request uses the fields its select code names. `ref` and `buffer` are opaque
to the engine; a buffer stands for the bytes the device's buffer holds (log 10, log 24). -/
structure OpRequest where
  /-- `op[4:0]`, the select code. -/
  op : BitVec 5
  /-- `line`. -/
  line : BitVec 3
  /-- `expectedState`. -/
  expected : BitVec 1
  /-- `id` or `newId`. -/
  id : DeviceId
  /-- `value` or `byte`. -/
  value : Byte
  /-- `signalEOI`. -/
  eoi : BitVec 1
  /-- `deviceRef`. -/
  ref : DeviceRef
  /-- `buffer`. -/
  buffer : List Byte
  /-- `length`. -/
  length : Nat
deriving DecidableEq, Repr

/-- The request with this select code and every operand field zero or empty. -/
def OpRequest.ofSelect (sel : BitVec 5) : OpRequest :=
  { op := sel, line := 0, expected := 0, id := 0, value := 0, eoi := 0, ref := 0, buffer := [], length := 0 }

/-- The two things the engine decodes (30_encoding.md R90): a command byte of format CMD8, or a request of format OP. -/
inductive Encoded where
  | cmd (b : Byte)
  | op (r : OpRequest)
deriving DecidableEq, Repr

/-- The instructions: the command bytes (42_atn_decoder.md), the four rows of illegal byte space (30_encoding.md R93, R95)
and the 23 operations (30_encoding.md R100). -/
inductive Instr where
  /-- GLOBAL, R187. -/
  | globalCmd
  /-- UNLISTEN, R188. -/
  | unlisten
  /-- UNTALK, R200. -/
  | untalk
  /-- LISTEN id, R189. -/
  | listen (id : DeviceId)
  /-- TALK id, R185. -/
  | talk (id : DeviceId)
  /-- DATA ch, R193. -/
  | dataCmd (ch : Channel)
  /-- CLOSE ch, R195. -/
  | closeCmd (ch : Channel)
  /-- OPEN ch, R194. -/
  | openCmd (ch : Channel)
  /-- The illegal bytes `000xxxxx` but 0x00, R186. -/
  | invalid01_1F (x : BitVec 5)
  /-- The illegal bytes `0111xxxx`, R186. -/
  | invalid70_7F (x : BitVec 4)
  /-- The illegal bytes `10xxxxxx`, R186. -/
  | invalid80_BF (x : BitVec 6)
  /-- The illegal bytes `110xxxxx`, R186. -/
  | invalidC0_DF (x : BitVec 5)
  /-- `service`, R250. -/
  | service
  /-- `pull`, R121. -/
  | pull (l : Line)
  /-- `release`, R122. -/
  | release (l : Line)
  /-- `read`, R123. -/
  | read (l : Line)
  /-- `sendByte`, R160. -/
  | sendByte (value : Byte) (signalEOI : Bool)
  /-- `receiveByte`, R150. -/
  | receiveByte
  /-- `turnAround`, R170. -/
  | turnAround
  /-- `undoTurnAround`, R174. -/
  | undoTurnAround
  /-- `timeoutWait`, R141. -/
  | timeoutWait (l : Line) (expected : LineState)
  /-- `addDevice`, R222. -/
  | addDevice (ref : DeviceRef) (id : DeviceId)
  /-- `removeDevice`, R223. -/
  | removeDevice (ref : DeviceRef)
  /-- `deviceById`, R224. -/
  | deviceById (id : DeviceId)
  /-- `changeDeviceId`, R225. -/
  | changeDeviceId (ref : DeviceRef) (newId : DeviceId)
  /-- `numDevices`, R229. -/
  | numDevices
  /-- `isEnabled`, R226. -/
  | isEnabled (id : DeviceId)
  /-- `enableDevice`, R227. -/
  | enableDevice (id : DeviceId)
  /-- `disableDevice`, R228. -/
  | disableDevice (id : DeviceId)
  /-- `send`, R302. -/
  | send (byte : Byte)
  /-- `sendBuffer`, R303. -/
  | sendBuffer (buffer : List Byte) (length : Nat)
  /-- `sendEOI`, R304. -/
  | sendEOI (byte : Byte)
  /-- `sendFileNotFound`, R305. -/
  | sendFileNotFound
  /-- `receive`, R306. -/
  | receive
  /-- `receiveBuffer`, R307. -/
  | receiveBuffer (buffer : List Byte) (length : Nat)
deriving DecidableEq, Repr

end Sys2Proof
end

