-- ==== Sys2Proof/WellFormed.lean ====
section
/-! DEFINITION. When an instruction is well formed: the operand values its encoding and its rule admit. -/
namespace Sys2Proof

/-- The operand checks. `id = 31` is UNLISTEN or UNTALK, never LISTEN or TALK (10_state.md R25; 30_encoding.md R92); the byte
0x00 is GLOBAL, not illegal space (R93); a buffer operand has at least `length` bytes (45_device_contract.md R303, R307).
Every other constructor's operands are legal at every value of their type. -/
def WellFormed : Instr → Bool
  | .listen id => id != 31
  | .talk id => id != 31
  | .invalid01_1F x => x != 0
  | .sendBuffer buffer length => length ≤ buffer.length
  | .receiveBuffer buffer length => length ≤ buffer.length
  | .globalCmd | .unlisten | .untalk | .dataCmd _ | .closeCmd _ | .openCmd _ => true
  | .invalid70_7F _ | .invalid80_BF _ | .invalidC0_DF _ => true
  | .service | .pull _ | .release _ | .read _ => true
  | .sendByte _ _ | .receiveByte | .turnAround | .undoTurnAround | .timeoutWait _ _ => true
  | .addDevice _ _ | .removeDevice _ | .deviceById _ | .changeDeviceId _ _ => true
  | .numDevices | .isEnabled _ | .enableDevice _ | .disableDevice _ => true
  | .send _ | .sendEOI _ | .sendFileNotFound | .receive => true

end Sys2Proof
end

