-- ==== Sys2Proof/Decode.lean ====
section
/-! DEFINITION. The decoder of both formats, total, rejecting by name, and after it the encoder written from the same
tables (30_encoding.md R91 to R102). -/
namespace Sys2Proof

/-! ### Operand codes (30_encoding.md R101) -/

/-- The line a 3-bit code names; codes 5 to 7 are reserved. -/
def decodeLine (c : BitVec 3) : Option Line :=
  match c.toNat with
  | 0 => some .atn
  | 1 => some .clk
  | 2 => some .data
  | 3 => some .srq
  | 4 => some .reset
  | _ => none

/-- The 3-bit code of a line. -/
def lineCode : Line → BitVec 3
  | .atn => 0
  | .clk => 1
  | .data => 2
  | .srq => 3
  | .reset => 4

/-- The line state a 1-bit code names: released = 0, pulled = 1. -/
def decodeLineState (c : BitVec 1) : LineState :=
  if c = 1#1 then .pulled else .released

/-- The 1-bit code of a line state. -/
def lineStateCode : LineState → BitVec 1
  | .released => 0#1
  | .pulled => 1#1

/-- The bool a 1-bit code names: false = 0, true = 1. -/
def decodeBool (c : BitVec 1) : Bool := c == 1#1

/-- The 1-bit code of a bool. -/
def boolCode (b : Bool) : BitVec 1 := if b then 1#1 else 0#1

/-! ### Format CMD8 -/

/-- The instruction a command byte stands for, by the match/mask pairs of 30_encoding.md R93 in their order. Total: every
one of the 256 bytes is a row. -/
def decodeCmd8 (b : Byte) : Instr :=
  if b = 0x00#8 then .globalCmd
  else if b = 0x3F#8 then .unlisten
  else if b = 0x5F#8 then .untalk
  else if b &&& 0xE0#8 = 0x20#8 then .listen (b.extractLsb' 0 5)
  else if b &&& 0xE0#8 = 0x40#8 then .talk (b.extractLsb' 0 5)
  else if b &&& 0xF0#8 = 0x60#8 then .dataCmd (b.extractLsb' 0 4)
  else if b &&& 0xF0#8 = 0xE0#8 then .closeCmd (b.extractLsb' 0 4)
  else if b &&& 0xF0#8 = 0xF0#8 then .openCmd (b.extractLsb' 0 4)
  else if b &&& 0xE0#8 = 0x00#8 then .invalid01_1F (b.extractLsb' 0 5)
  else if b &&& 0xF0#8 = 0x70#8 then .invalid70_7F (b.extractLsb' 0 4)
  else if b &&& 0xC0#8 = 0x80#8 then .invalid80_BF (b.extractLsb' 0 6)
  else .invalidC0_DF (b.extractLsb' 0 5)

/-! ### Format OP -/

/-- Why a request does not decode. -/
inductive DecodeError where
  /-- Select codes 0x09 to 0x0F, 0x1E, 0x1F (30_encoding.md R102). -/
  | reservedSelect
  /-- Line codes 5 to 7 (30_encoding.md R101). -/
  | reservedLine
  /-- A buffer of fewer than `length` bytes (45_device_contract.md R303, R307). -/
  | shortBuffer
deriving DecidableEq, Repr

/-- What a decoder answers. -/
inductive Decoded where
  | instr (i : Instr)
  | reject (e : DecodeError)
deriving DecidableEq, Repr

/-- An operation on the line a code names, or the rejection of a reserved code. -/
def decodeOnLine (c : BitVec 3) (mk : Line → Instr) : Decoded :=
  match decodeLine c with
  | some l => .instr (mk l)
  | none => .reject .reservedLine

/-- An operation on `length` bytes of a buffer, or the rejection of a buffer that has fewer. -/
def decodeOnBuffer (buffer : List Byte) (length : Nat) (mk : List Byte → Nat → Instr) : Decoded :=
  if length ≤ buffer.length then .instr (mk buffer length) else .reject .shortBuffer

/-- The instruction a request stands for, by the select codes of 30_encoding.md R100. -/
def decodeOp (r : OpRequest) : Decoded :=
  match r.op.toNat with
  | 0x00 => .instr .service
  | 0x01 => decodeOnLine r.line .pull
  | 0x02 => decodeOnLine r.line .release
  | 0x03 => decodeOnLine r.line .read
  | 0x04 => .instr (.sendByte r.value (decodeBool r.eoi))
  | 0x05 => .instr .receiveByte
  | 0x06 => .instr .turnAround
  | 0x07 => .instr .undoTurnAround
  | 0x08 => decodeOnLine r.line fun l => .timeoutWait l (decodeLineState r.expected)
  | 0x10 => .instr (.addDevice r.ref r.id)
  | 0x11 => .instr (.removeDevice r.ref)
  | 0x12 => .instr (.deviceById r.id)
  | 0x13 => .instr (.changeDeviceId r.ref r.id)
  | 0x14 => .instr .numDevices
  | 0x15 => .instr (.isEnabled r.id)
  | 0x16 => .instr (.enableDevice r.id)
  | 0x17 => .instr (.disableDevice r.id)
  | 0x18 => .instr (.send r.value)
  | 0x19 => decodeOnBuffer r.buffer r.length .sendBuffer
  | 0x1A => .instr (.sendEOI r.value)
  | 0x1B => .instr .sendFileNotFound
  | 0x1C => .instr .receive
  | 0x1D => decodeOnBuffer r.buffer r.length .receiveBuffer
  | _ => .reject .reservedSelect

/-- The decoder of both formats (30_encoding.md R90). -/
def decode : Encoded → Decoded
  | .cmd b => .instr (decodeCmd8 b)
  | .op r => decodeOp r

/-- The decoder seen through the opcode table's numbering. The table gives a word of one byte and does not say which of the
two formats it is in, and the formats overlap below 0x20: an assigned select code is read as a request of format OP with
every operand zero, every other byte as a command byte (log 11). -/
def decodeTableWord (nbits w : Nat) : Option Instr :=
  if w < 256 then
    match (if w < 32 then decodeOp (OpRequest.ofSelect (BitVec.ofNat 5 w)) else .reject .reservedSelect) with
    | .instr i => some i
    | .reject _ => if nbits = 8 then some (decodeCmd8 (BitVec.ofNat 8 w)) else none
  else none

/-! ### The encoder -/

/-- The byte with this group in its high bits and this 5-bit field in bits 4..0 (30_encoding.md R91, address layout). -/
def byteOfGroup5 (group : BitVec 3) (x : BitVec 5) : Byte := group ++ x

/-- The byte with this group in bits 7..4 and this 4-bit field in bits 3..0 (30_encoding.md R91, channel layout). -/
def byteOfGroup4 (group : BitVec 4) (x : BitVec 4) : Byte := group ++ x

/-- The command byte of LISTEN id. -/
def listenByte (id : DeviceId) : Byte := byteOfGroup5 0b001#3 id
/-- The command byte of TALK id. -/
def talkByte (id : DeviceId) : Byte := byteOfGroup5 0b010#3 id
/-- The command byte of DATA ch. -/
def dataByte (ch : Channel) : Byte := byteOfGroup4 0b0110#4 ch
/-- The command byte of CLOSE ch. -/
def closeByte (ch : Channel) : Byte := byteOfGroup4 0b1110#4 ch
/-- The command byte of OPEN ch. -/
def openByte (ch : Channel) : Byte := byteOfGroup4 0b1111#4 ch
/-- The illegal byte `000xxxxx`. -/
def invalid01Byte (x : BitVec 5) : Byte := byteOfGroup5 0b000#3 x
/-- The illegal byte `0111xxxx`. -/
def invalid70Byte (x : BitVec 4) : Byte := byteOfGroup4 0b0111#4 x
/-- The illegal byte `10xxxxxx`. -/
def invalid80Byte (x : BitVec 6) : Byte := 0b10#2 ++ x
/-- The illegal byte `110xxxxx`. -/
def invalidC0Byte (x : BitVec 5) : Byte := byteOfGroup5 0b110#3 x

/-- The encoded form of an instruction. Operand fields a request does not use are zero or empty. -/
def encode : Instr → Encoded
  | .globalCmd => .cmd 0x00#8
  | .unlisten => .cmd 0x3F#8
  | .untalk => .cmd 0x5F#8
  | .listen id => .cmd (listenByte id)
  | .talk id => .cmd (talkByte id)
  | .dataCmd ch => .cmd (dataByte ch)
  | .closeCmd ch => .cmd (closeByte ch)
  | .openCmd ch => .cmd (openByte ch)
  | .invalid01_1F x => .cmd (invalid01Byte x)
  | .invalid70_7F x => .cmd (invalid70Byte x)
  | .invalid80_BF x => .cmd (invalid80Byte x)
  | .invalidC0_DF x => .cmd (invalidC0Byte x)
  | .service => .op (OpRequest.ofSelect 0x00#5)
  | .pull l => .op { OpRequest.ofSelect 0x01#5 with line := lineCode l }
  | .release l => .op { OpRequest.ofSelect 0x02#5 with line := lineCode l }
  | .read l => .op { OpRequest.ofSelect 0x03#5 with line := lineCode l }
  | .sendByte v e => .op { OpRequest.ofSelect 0x04#5 with value := v, eoi := boolCode e }
  | .receiveByte => .op (OpRequest.ofSelect 0x05#5)
  | .turnAround => .op (OpRequest.ofSelect 0x06#5)
  | .undoTurnAround => .op (OpRequest.ofSelect 0x07#5)
  | .timeoutWait l x => .op { OpRequest.ofSelect 0x08#5 with line := lineCode l, expected := lineStateCode x }
  | .addDevice ref id => .op { OpRequest.ofSelect 0x10#5 with ref := ref, id := id }
  | .removeDevice ref => .op { OpRequest.ofSelect 0x11#5 with ref := ref }
  | .deviceById id => .op { OpRequest.ofSelect 0x12#5 with id := id }
  | .changeDeviceId ref newId => .op { OpRequest.ofSelect 0x13#5 with ref := ref, id := newId }
  | .numDevices => .op (OpRequest.ofSelect 0x14#5)
  | .isEnabled id => .op { OpRequest.ofSelect 0x15#5 with id := id }
  | .enableDevice id => .op { OpRequest.ofSelect 0x16#5 with id := id }
  | .disableDevice id => .op { OpRequest.ofSelect 0x17#5 with id := id }
  | .send b => .op { OpRequest.ofSelect 0x18#5 with value := b }
  | .sendBuffer buf len => .op { OpRequest.ofSelect 0x19#5 with buffer := buf, length := len }
  | .sendEOI b => .op { OpRequest.ofSelect 0x1A#5 with value := b }
  | .sendFileNotFound => .op (OpRequest.ofSelect 0x1B#5)
  | .receive => .op (OpRequest.ofSelect 0x1C#5)
  | .receiveBuffer buf len => .op { OpRequest.ofSelect 0x1D#5 with buffer := buf, length := len }

end Sys2Proof
end

