-- ==== Sys2Proof/Machine/State.lean ====
section
/-! DEFINITION. The state of the engine as plain data: everything spec/10_state.md gives it, its inputs held as lists
(10_state.md R39), the position of the running service() call, and the state at power-on. -/
namespace Sys2Proof.Machine
open Sys2Proof

/-! ### Enumerated registers -/

/-- The values of `rec.mode` (10_state.md R22). -/
inductive ATNMode where
  | idle | cmd | listen | talk | error | reset
deriving DecidableEq, Repr

/-- The values of `rec.kind` (10_state.md R22). -/
inductive CmdKind where
  | none | global | listen | unlisten | talk | untalk | data | close | opn | invalid
deriving DecidableEq, Repr

/-- The values of `role` (10_state.md R31). -/
inductive Role where
  | none | listener | talker
deriving DecidableEq, Repr

/-- The values of `turn` (10_state.md R46). -/
inductive Turn where
  | notTurned | turned | undone
deriving DecidableEq, Repr

/-- The values of `cause` (10_state.md R41; 60_exceptions.md R330). -/
inductive Cause where
  | none | timeout | malformed | overflow | reset | protocolError | configError | refused
deriving DecidableEq, Repr

/-! ### The line set -/

/-- One line state for each line. -/
structure Lines where
  atn : LineState
  clk : LineState
  data : LineState
  srq : LineState
  reset : LineState
deriving DecidableEq, Repr

/-- One move of the environment (00_scope.md R12; 20_memory.md R62, R70): what every other party does to each line from
now on, and how many microseconds pass. `now` never decreases because `dt` is a natural. -/
structure EnvMove where
  ext : Lines
  dt : Nat
deriving DecidableEq, Repr

/-- One change of a line the engine makes, as the other parties on the bus see it (20_memory.md R74; log 15). -/
structure WireEvent where
  time : Nat
  line : Line
  state : LineState
deriving DecidableEq, Repr

/-- The engine's side and the environment's side of the line set, and time. -/
structure Bus where
  /-- `own[l]` (10_state.md R21). -/
  own : Lines
  /-- `ext[l]` (10_state.md R24): an input. -/
  ext : Lines
  /-- `now` (20_memory.md R70): an input. -/
  now : Nat
  /-- The environment's coming moves, one before each atomic action of the engine; when none is left the lines stay as they
  are and time goes on (log 2, log 3). -/
  env : List EnvMove
  /-- Every change of `own[l]` so far, newest first (log 15). -/
  wire : List WireEvent
deriving DecidableEq, Repr

/-- The handshake flag register (10_state.md R40). -/
structure Flags where
  eoi : Bool
  atn : Bool
  err : Bool
  rst : Bool
deriving DecidableEq, Repr

/-- What the handshake operations read and write: the bus and the flags. -/
structure Link where
  bus : Bus
  flags : Flags
deriving DecidableEq, Repr

/-! ### The record and the registry -/

/-- The auxiliary buffer's cells: (index, byte) pairs with strictly rising indices; a cell that is not listed holds no value
(10_state.md R26; 20_memory.md R66; log 19). -/
abbrev Memory := List Host.Cell

/-- The ATNRecord (10_state.md R22). -/
structure ATNRecord where
  mode : ATNMode
  raw : Byte
  kind : CmdKind
  channel : Channel
  deviceId : DeviceId
  /-- `rec.aux`. -/
  aux : Memory
  /-- `rec.aux_len`. -/
  auxLen : Nat
deriving DecidableEq, Repr

/-- One registration (10_state.md R34). -/
structure Registration where
  deviceId : DeviceId
  ref : DeviceRef
deriving DecidableEq, Repr

/-! ### Where a service() call stands -/

/-- The hook of the Device Contract that is running (45_device_contract.md R310), with what the engine handed to it. All but
`reset` run on the active device. -/
inductive Hook where
  /-- `reset()` of one device of the broadcast, and the devices that are still to come (44_bus_coordinator.md R253). -/
  | reset (dev : DeviceRef) (rest : List DeviceRef)
  /-- `processCommand(rec)`, with the decoder's `ended` (44_bus_coordinator.md R264, R270). -/
  | processCommand (record : ATNRecord) (ended : Bool)
  /-- `listenData(b, eoi)` (44_bus_coordinator.md R265). -/
  | listenData (b : Byte) (eoi : Bool)
  /-- `talkData()` (44_bus_coordinator.md R270). -/
  | talkData
deriving DecidableEq, Repr

/-- Where the engine stands between two steps (log 8). -/
inductive Ctl where
  /-- No service() call is running: the host program's turn. -/
  | idle
  /-- In decode(), about to read the primary command byte (42_atn_decoder.md R184). -/
  | primary
  /-- In decode(), about to read the secondary command byte (42_atn_decoder.md R191). -/
  | secondary
  /-- In decode(), at the top of the OPEN payload loop (42_atn_decoder.md R194). -/
  | payload
  /-- At the top of the listen loop (44_bus_coordinator.md R265). -/
  | listening
  /-- Inside a hook: the device's turn. `phaseDone` is the local `phase_done` (45_device_contract.md R301). -/
  | hook (h : Hook) (phaseDone : Bool)
deriving DecidableEq, Repr

/-- One move of the device oracle inside a hook (45_device_contract.md R310, R314; log 6). -/
inductive DevMove where
  /-- The device issues a request. -/
  | request (r : OpRequest)
  /-- The device reads byte `i` of the record's auxiliary buffer (20_memory.md R66; 70_reset_and_hazards.md R389). -/
  | readAux (i : Nat)
  /-- The device writes byte `i` of the record's auxiliary buffer (93_implementation_defined.md F7). -/
  | writeAux (i : Nat) (b : Byte)
  /-- The hook does not return (70_reset_and_hazards.md R388; 93_implementation_defined.md U24; log 27). -/
  | hang
  /-- The hook returns; `answer` is talkData's result and means nothing for the other hooks. -/
  | ret (answer : Option (Byte × Bool))
deriving DecidableEq, Repr

/-! ### Results -/

/-- A result value (30_encoding.md R100, R101). -/
inductive Value where
  | none
  | bool (b : Bool)
  | byte (b : Byte)
  | line (s : LineState)
  | mode (m : ATNMode)
  | count (n : Nat)
  | ref (r : Option DeviceRef)
  /-- receiveBuffer's result and the device's buffer after it (log 24). -/
  | buffer (ok : Bool) (bytes : List Byte)
deriving DecidableEq, Repr

/-- How the last operation ended for its caller. A refusal is an outcome of its own, not a value (00_scope.md R13;
60_exceptions.md R337); `v` is what the caller is handed with it. -/
inductive Result where
  | completed (v : Value)
  | refused (v : Value)
deriving DecidableEq, Repr

/-! ### The state -/

/-- The Bus State (10_state.md R20), its inputs, and the model's own fields. -/
structure State where
  /-- The parameters (00_scope.md R7): written by nothing. -/
  cfg : Params
  /-- `own`, and the inputs `ext` and `now`. -/
  bus : Bus
  /-- `flags`. -/
  flags : Flags
  /-- `rec`. -/
  record : ATNRecord
  /-- `role`. -/
  role : Role
  /-- `active`. -/
  active : Option DeviceId
  /-- `enabled`. -/
  enabled : Mask
  /-- `slot[0..n-1]`, in chain order. -/
  slots : List Registration
  /-- `cause`. -/
  cause : Cause
  /-- `cause_info`. -/
  causeInfo : Byte
  /-- `reset_latch`. -/
  resetLatch : Bool
  /-- `turn`. -/
  turn : Turn
  /-- Where the running service() call stands (log 8). -/
  ctl : Ctl
  /-- The host program's coming requests; when none is left it calls service() (log 7). -/
  host : List OpRequest
  /-- The device oracle's coming moves; when none is left a hook returns its default (log 6). -/
  device : List DevMove
  /-- What the last operation returned (log 16). -/
  result : Result
deriving DecidableEq, Repr

/-- The reasons the machine stops with a fault: there are none. "Nothing in this core is fatal" (44_bus_coordinator.md
R250): every condition of 60_exceptions.md R330 is a next state. Safe: no state is left out. -/
inductive Fault where
deriving DecidableEq, Repr

/-- The reasons the machine refuses. A request the spec refuses is NOT one of them: it raises the condition Refused, writes
`cause`, and the engine goes on (60_exceptions.md R337; log 9). -/
inductive Refusal where
  /-- An arm of exec that has no meaning yet; raised by exec alone, and by no arm now. Safe. -/
  | notModelled (mnemonic : String)
deriving DecidableEq, Repr

/-- What a fetch finds: an instruction to run in a state, or the state the engine reaches without one (log 8). -/
inductive Fetched where
  | run (i : Instr) (s : State)
  | done (s : State)
deriving DecidableEq, Repr

/-! ### Power-on -/

/-- Every line released. -/
def Lines.released : Lines :=
  { atn := .released, clk := .released, data := .released, srq := .released, reset := .released }

/-- Power-on: column 2 of 10_state.md R52; the model's own fields and inputs by log 18. -/
def State.reset : State :=
  { cfg := Config.params
    bus := { own := Lines.released, ext := Lines.released, now := 0, env := [], wire := [] }
    flags := { eoi := false, atn := false, err := false, rst := false }
    record := { mode := .idle, raw := 0x00#8, kind := .none, channel := 0#4, deviceId := 0#5, aux := [], auxLen := 0 }
    role := .none
    active := none
    enabled := Config.params.enabledInit
    slots := []
    cause := .none
    causeInfo := 0x00#8
    resetLatch := false
    turn := .notTurned
    ctl := .idle
    host := []
    device := []
    result := .completed .none }

end Sys2Proof.Machine
end

