-- ==== Sys2Proof/Machine/Flags.lean ====
section
/-! DEFINITION. The flag register's updates (10_state.md R40) and the numeric codes of the enumerated registers
(10_state.md R22, R31, R41, R46). -/
namespace Sys2Proof.Machine
open Sys2Proof

/-- The start of receiveByte: `flags.eoi <- 0 ; flags.atn <- 0 ; flags.err <- 0` (41_byte_handshake.md R150). -/
def Flags.clearForReceive (f : Flags) : Flags := { f with eoi := false, atn := false, err := false }

/-- `flags.err <- 0`: the start of sendByte, turnAround, undoTurnAround. -/
def Flags.clearErr (f : Flags) : Flags := { f with err := false }

/-- `flags.err <- 1`. -/
def Flags.setErr (f : Flags) : Flags := { f with err := true }

/-- `flags.rst <- 1`. -/
def Flags.setRst (f : Flags) : Flags := { f with rst := true }

/-- `flags.rst <- 0`. -/
def Flags.clearRst (f : Flags) : Flags := { f with rst := false }

/-- `flags.eoi <- 1`. -/
def Flags.setEoi (f : Flags) : Flags := { f with eoi := true }

/-- `flags.atn <- 1`. -/
def Flags.setAtn (f : Flags) : Flags := { f with atn := true }

/-- `flags.rst <- 1 ; flags.err <- 1`: a wait that samples RESET pulled (41_byte_handshake.md R141). -/
def Flags.sawReset (f : Flags) : Flags := { f with rst := true, err := true }

/-- `flags.eoi <- 0 ; flags.atn <- 0 ; flags.err <- 0` of a served reset (44_bus_coordinator.md R253). -/
def Flags.clearAfterBroadcast (f : Flags) : Flags := { f with eoi := false, atn := false, err := false }

/-- The 3-bit code of `rec.mode` (10_state.md R22). -/
def modeCode : ATNMode → BitVec 3
  | .idle => 0
  | .cmd => 1
  | .listen => 2
  | .talk => 3
  | .error => 4
  | .reset => 5

/-- The 4-bit code of `rec.kind` (10_state.md R22). -/
def kindCode : CmdKind → BitVec 4
  | .none => 0
  | .global => 1
  | .listen => 2
  | .unlisten => 3
  | .talk => 4
  | .untalk => 5
  | .data => 6
  | .close => 7
  | .opn => 8
  | .invalid => 9

/-- The 2-bit code of `role` (10_state.md R31). -/
def roleCode : Role → BitVec 2
  | .none => 0
  | .listener => 1
  | .talker => 2

/-- The 2-bit code of `turn` (10_state.md R46). -/
def turnCode : Turn → BitVec 2
  | .notTurned => 0
  | .turned => 1
  | .undone => 2

/-- The 3-bit code of `cause` (10_state.md R41). -/
def causeCode : Cause → BitVec 3
  | .none => 0
  | .timeout => 1
  | .malformed => 2
  | .overflow => 3
  | .reset => 4
  | .protocolError => 5
  | .configError => 6
  | .refused => 7

end Sys2Proof.Machine
end

