-- ==== Sys2Proof/Machine/Memory.lean ====
section
/-! DEFINITION. The auxiliary buffer's cells in their one canonical form, and the three operations on them
(20_memory.md R66; 10_state.md R26; log 19). -/
namespace Sys2Proof.Machine
open Sys2Proof

/-- The canonical form: indices strictly rise, so no index is listed twice. An unlisted cell holds no value, so there is no
listed cell that could equal it. -/
abbrev Memory.wf (m : Memory) : Prop := m.Pairwise fun a b => a.1 < b.1

/-- The byte a cell holds, or none for a cell that holds no value. -/
def Memory.read : Memory → Nat → Option Byte
  | [], _ => none
  | (a, v) :: rest, i => if a = i then some v else Memory.read rest i

/-- The cells after byte `v` is written at index `i`. -/
def Memory.write : Memory → Nat → Byte → Memory
  | [], i, v => [(i, v)]
  | (a, w) :: rest, i, v =>
    if i < a then (i, v) :: (a, w) :: rest
    else if i = a then (i, v) :: rest
    else (a, w) :: Memory.write rest i v

/-- The cells below index `n`; those at `n` and above hold no value any more. -/
def Memory.truncate : Memory → Nat → Memory
  | [], _ => []
  | (a, w) :: rest, n => if a < n then (a, w) :: Memory.truncate rest n else Memory.truncate rest n

/-- `rec.aux_len <- n`: cells at `n` and above hold no value (10_state.md R26). -/
def ATNRecord.setAuxLen (r : ATNRecord) (n : Nat) : ATNRecord :=
  { r with auxLen := n, aux := Memory.truncate r.aux n }

/-- `MemRead(i, 1)` (20_memory.md R66): none for a read at or beyond `rec.aux_len`, which `State.deviceRead`
refuses. -/
def ATNRecord.memRead (r : ATNRecord) (i : Nat) : Option Byte :=
  if i < r.auxLen then Memory.read r.aux i else none

/-- `MemWrite(rec.aux_len, 1, v) ; rec.aux_len <- rec.aux_len + 1` (42_atn_decoder.md R194). -/
def ATNRecord.append (r : ATNRecord) (v : Byte) : ATNRecord :=
  { r with aux := Memory.write r.aux r.auxLen v, auxLen := r.auxLen + 1 }

/-- The payload as a list, `rec.aux[0]` first. -/
def ATNRecord.payload (r : ATNRecord) : List Byte := (r.aux.filter fun c => c.1 < r.auxLen).map fun c => c.2

/-- The fresh record (10_state.md R27). -/
def ATNRecord.fresh : ATNRecord :=
  { mode := .cmd, raw := 0x00#8, kind := .none, channel := 0#4, deviceId := 0#5, aux := [], auxLen := 0 }

end Sys2Proof.Machine
end

