-- ==== Sys2Proof/Machine/Operands.lean ====
section
/-! DEFINITION. The operand forms: lines and their sides, ids and mask bits, references, buffers; and which requests are
accepted when (30_encoding.md R101; 43_device_registry.md R221; 45_device_contract.md R300). -/
namespace Sys2Proof.Machine
open Sys2Proof

/-! ### Lines -/

/-- The state of one line. -/
def Lines.get (ls : Lines) : Line → LineState
  | .atn => ls.atn
  | .clk => ls.clk
  | .data => ls.data
  | .srq => ls.srq
  | .reset => ls.reset

/-- The lines with one of them changed. -/
def Lines.set (ls : Lines) (l : Line) (v : LineState) : Lines :=
  match l with
  | .atn => { ls with atn := v }
  | .clk => { ls with clk := v }
  | .data => { ls with data := v }
  | .srq => { ls with srq := v }
  | .reset => { ls with reset := v }

/-- `dir[l] = OUTPUT`: a view of `own[l]` (10_state.md R21). -/
def Lines.isOutput (own : Lines) (l : Line) : Bool := own.get l == .pulled

/-- A line operand names a line that exists: SRQ only when `HAS_SRQ` (30_encoding.md R101). -/
def State.linePresent (s : State) (l : Line) : Bool :=
  match l with
  | .srq => s.cfg.hasSrq
  | .atn | .clk | .data | .reset => true

/-! ### Ids and the mask -/

/-- `1 << id` on 32 bits (30_encoding.md R94). -/
def maskBit (id : DeviceId) : Mask := 1#32 <<< id.toNat

/-- `(enabled >> id) & 1 = 1` (43_device_registry.md R226). -/
def maskHas (m : Mask) (id : DeviceId) : Bool := (m >>> id.toNat) &&& 1#32 == 1#32

/-- An id that may be assigned: `ID_MIN..ID_MAX` (43_device_registry.md R222). -/
def idAssignable (id : DeviceId) : Bool := Config.idMin ≤ id.toNat && id.toNat ≤ Config.idMax

/-- `cause_info` of an offending id: the id, zero-extended (60_exceptions.md R330). -/
def idInfo (id : DeviceId) : Byte := id.zeroExtend 8

/-- The bit of `value` that travels in cell `n` (20_memory.md R65). -/
def bitLevel (value : Byte) (n : Nat) : LineState := if value.getLsbD n then .released else .pulled

/-- The eight DATA levels of a byte, cell 0 first (20_memory.md R65). -/
def cellsOf (v : Byte) : List LineState := (List.range 8).map (bitLevel v)

/-! ### References: the registration a request names -/

/-- "Lookup is by linear scan of the chain" (43_device_registry.md R224). -/
def slotById : List Registration → DeviceId → Option DeviceRef
  | [], _ => none
  | r :: rest, id => if r.deviceId = id then some r.ref else slotById rest id

/-- Some slot has this id. -/
def hasId (slots : List Registration) (id : DeviceId) : Bool := slots.any fun r => r.deviceId == id

/-- Some slot has this reference. -/
def hasRef (slots : List Registration) (ref : DeviceRef) : Bool := slots.any fun r => r.ref == ref

/-- The id of the slot that has this reference. -/
def idOfRef : List Registration → DeviceRef → Option DeviceId
  | [], _ => none
  | r :: rest, ref => if r.ref = ref then some r.deviceId else idOfRef rest ref

/-- The chain without the slot that has this reference: the gap is closed and the order kept (43_device_registry.md R223). -/
def removeRef : List Registration → DeviceRef → List Registration
  | [], _ => []
  | r :: rest, ref => if r.ref = ref then rest else r :: removeRef rest ref

/-- The chain with the id of the slot that has this reference changed; its place stays (43_device_registry.md R225). -/
def renumberRef : List Registration → DeviceRef → DeviceId → List Registration
  | [], _, _ => []
  | r :: rest, ref, id => if r.ref = ref then { r with deviceId := id } :: rest else r :: renumberRef rest ref id

/-- The `active flag` of the slot with this id (10_state.md R35). -/
def State.activeFlag (s : State) (id : DeviceId) : Bool := s.active == some id

/-- The device a hook runs on: `dev(active)`, or the one the reset broadcast has reached (45_device_contract.md R312). -/
def State.hookTarget (s : State) : Option DeviceRef :=
  match s.ctl with
  | .hook (.reset dev _) _ => some dev
  | .hook (.processCommand _ _) _ => s.active.bind (slotById s.slots)
  | .hook (.listenData _ _) _ => s.active.bind (slotById s.slots)
  | .hook .talkData _ => s.active.bind (slotById s.slots)
  | .idle => none
  | .primary => none
  | .secondary => none
  | .payload => none
  | .listening => none

/-! ### Buffers -/

/-- The buffer after `got` has been stored from index 0 on (45_device_contract.md R307). -/
def bufferAfter (buffer got : List Byte) : List Byte := got ++ buffer.drop got.length

/-! ### When a request is accepted -/

/-- Setup time: `rec.mode = IDLE` and no service() call running (43_device_registry.md R221). -/
def State.setupTime (s : State) : Bool := s.record.mode == .idle && s.ctl == .idle

/-- Inside a hook of the active device, which is any hook but `reset` (45_device_contract.md R300 (a), (c)). -/
def State.inDeviceHook (s : State) : Bool :=
  match s.ctl with
  | .hook (.reset _ _) _ => false
  | .hook (.processCommand _ _) _ => true
  | .hook (.listenData _ _) _ => true
  | .hook .talkData _ => true
  | .idle => false
  | .primary => false
  | .secondary => false
  | .payload => false
  | .listening => false

/-- A send primitive is accepted (45_device_contract.md R300). -/
def State.acceptsSend (s : State) : Bool := s.inDeviceHook && s.role == .talker && s.turn == .turned

/-- A receive primitive is accepted (45_device_contract.md R300). -/
def State.acceptsReceive (s : State) : Bool := s.inDeviceHook && s.role == .listener

/-- The data primitives: the only operations a device may request (30_encoding.md R103; 60_exceptions.md R350; log 14). -/
def isDataPrimitive (sel : BitVec 5) : Bool := 0x18 ≤ sel.toNat && sel.toNat ≤ 0x1D

/-- What the caller of a refused request is handed: false, 0x00 or nothing, "as the operation's rule says" (60_exceptions.md
R337). The rules of the registry writers (43_device_registry.md R221) and of the data primitives (45_device_contract.md R300)
say it. DESIGN CHOICE (log 9): for every other operation no rule says it, and the model hands out `false` where the operation
has a bool result (`sendByte`, `turnAround`, `undoTurnAround`, `timeoutWait`) and nothing elsewhere (`service`, `read`,
`receiveByte`, the registry's queries, a reserved select code). `pull` and `release` have no result to hand out. -/
def refusalValue (sel : BitVec 5) : Value :=
  match sel.toNat with
  | 0x04 => .bool false
  | 0x06 => .bool false
  | 0x07 => .bool false
  | 0x08 => .bool false
  | 0x10 => .bool false
  | 0x11 => .bool false
  | 0x13 => .bool false
  | 0x18 => .bool false
  | 0x19 => .bool false
  | 0x1A => .bool false
  | 0x1B => .bool false
  | 0x1C => .byte 0x00#8
  | 0x1D => .bool false
  | _ => .none

end Sys2Proof.Machine
end

