-- ==== Sys2Proof/Machine/Ops.lean ====
section
/-! DEFINITION. The shared operations: the line set and time, the bounded wait, one byte each way, the turnaround, the
conditions (raise, serve a reset, recover, return to IDLE), selection and the data phases. -/
namespace Sys2Proof.Machine
open Sys2Proof

/-! ### The line set and time (20_memory.md R61, R70, R71; 40_line_driver.md) -/

/-- What the environment does before an atomic action of the engine (00_scope.md R12; log 3). -/
def Bus.envMove (b : Bus) : Bus :=
  match b.env with
  | [] => b
  | m :: rest => { b with ext := m.ext, now := b.now + m.dt, env := rest }

/-- `level(l)`: the wired-AND of an open-drain line (20_memory.md R61). -/
def Bus.level (b : Bus) (l : Line) : LineState :=
  if b.own.get l = .pulled ∨ b.ext.get l = .pulled then .pulled else .released

/-- `own[l] <- v`, recorded on the wire when it is a change. -/
def Bus.drive (b : Bus) (l : Line) (v : LineState) : Bus :=
  if b.own.get l = v then b
  else { b with own := b.own.set l v, wire := { time := b.now, line := l, state := v } :: b.wire }

/-- `pull(l)` (40_line_driver.md R121). -/
def Bus.pull (b : Bus) (l : Line) : Bus := b.envMove.drive l .pulled

/-- `release(l)` (40_line_driver.md R122). -/
def Bus.release (b : Bus) (l : Line) : Bus := b.envMove.drive l .released

/-- The bus after `read(l)`: the line has been let go (40_line_driver.md R123). -/
def Bus.afterRead (b : Bus) (l : Line) : Bus := b.envMove.drive l .released

/-- What `read(l)` returns: the level after the line has been let go (40_line_driver.md R123). -/
def Bus.sample (b : Bus) (l : Line) : LineState := (b.afterRead l).level l

/-- The bus after one reading of `now`, whose value is then `now` (20_memory.md R70). -/
def Bus.tick (b : Bus) : Bus := b.envMove

/-- `delay(d)`: at least `d` passes, and whatever more the environment lets pass (20_memory.md R71; log 5). -/
def Bus.delay (b : Bus) (d : Nat) : Bus := { b.envMove with now := b.envMove.now + d }

/-- `release(ATN)`, `release(SRQ)` where there is an SRQ line, `release(RESET)` (10_state.md R52, column 3; 40_line_driver.md
R120, R122; log 31). -/
def Bus.letGoUndriven (hasSrq : Bool) (b : Bus) : Bus :=
  let b1 := b.release .atn
  let b2 := if hasSrq then b1.release .srq else b1
  b2.release .reset

/-- With no move of the environment left, time goes on until `t` and nothing else happens (log 4). -/
def Bus.passTo (b : Bus) (t : Nat) : Bus := { b with now := max b.now t }

/-! ### The same on bus and flags together -/

def Link.pull (k : Link) (l : Line) : Link := { k with bus := k.bus.pull l }
def Link.release (k : Link) (l : Line) : Link := { k with bus := k.bus.release l }
def Link.afterRead (k : Link) (l : Line) : Link := { k with bus := k.bus.afterRead l }
def Link.sample (k : Link) (l : Line) : LineState := k.bus.sample l
def Link.tick (k : Link) : Link := { k with bus := k.bus.tick }
def Link.delay (k : Link) (d : Nat) : Link := { k with bus := k.bus.delay d }
def Link.passTo (k : Link) (t : Nat) : Link := { k with bus := k.bus.passTo t }
def Link.setErr (k : Link) : Link := { k with flags := k.flags.setErr }

/-! ### The bounded wait (41_byte_handshake.md R141) -/

/-- The loop of `timeoutWait`. `quiet` at the top of an iteration says that the environment has no move left: then this
iteration's samples are the last that can differ, and only the deadline is still to come. `fuel` bounds the iterations by
the moves that are left, one of which every other iteration uses up, so the case 0 is never reached from `timeoutWait`. -/
def Link.waitLoop (timeout : Nat) (l : Line) (expected : LineState) (t0 : Nat) : Nat → Link → Bool × Link
  | 0, k => (false, (k.passTo (t0 + timeout)).setErr)
  | fuel + 1, k =>
    let quiet := k.bus.env.isEmpty
    let k1 := k.afterRead .reset
    if k.sample .reset = .pulled then (false, { k1 with flags := k1.flags.sawReset })
    else
      let k2 := k1.afterRead l
      if k1.sample l = expected then (true, k2)
      else if quiet then (false, (k2.passTo (t0 + timeout)).setErr)
      else
        let k3 := k2.tick
        if timeout ≤ k3.bus.now - t0 then (false, k3.setErr)
        else Link.waitLoop timeout l expected t0 fuel k3

/-- `timeoutWait(l, s) -> bool`: true means the line was seen in state `s` before the deadline. -/
def Link.timeoutWait (p : Params) (k : Link) (l : Line) (expected : LineState) : Bool × Link :=
  let k0 := k.tick
  Link.waitLoop p.tTimeout l expected k0.bus.now (k0.bus.env.length + 1) k0

/-! ### Receiving a byte (41_byte_handshake.md R150 to R156) -/

/-- Step 3, when CLK has stayed released for `T_EOI`: flag, acknowledge pulse, wait for CLK pulled (R152). -/
def Link.acknowledgeEoi (p : Params) (k : Link) : Bool × Link :=
  let k1 := { k with flags := k.flags.setEoi }
  let k2 := ((k1.pull .data).delay p.tEoiAck).release .data
  Link.timeoutWait p k2 .clk .pulled

/-- Step 3's loop: how long CLK stays released. `quiet` and `fuel` as in `Link.waitLoop`. -/
def Link.eoiLoop (p : Params) (t0 : Nat) : Nat → Link → Bool × Link
  | 0, k => Link.acknowledgeEoi p (k.passTo (t0 + p.tEoi))
  | fuel + 1, k =>
    let quiet := k.bus.env.isEmpty
    let k1 := k.afterRead .clk
    if k.sample .clk = .pulled then (true, k1)
    else if quiet then Link.acknowledgeEoi p (k1.passTo (t0 + p.tEoi))
    else
      let k2 := k1.tick
      if p.tEoi ≤ k2.bus.now - t0 then Link.acknowledgeEoi p k2
      else Link.eoiLoop p t0 fuel k2

/-- Step 3 whole. -/
def Link.measureEoi (p : Params) (k : Link) : Bool × Link :=
  let k0 := k.tick
  Link.eoiLoop p k0.bus.now (k0.bus.env.length + 1) k0

/-- `v <- (v >> 1) | (0x80 if d = released else 0x00)` (R154). -/
def insertBit (v : Byte) (d : LineState) : Byte :=
  (v >>> 1) ||| (if d = .released then 0x80#8 else 0x00#8)

/-- Step 5 for the cells that are left, and step 6. -/
def Link.receiveCells (p : Params) : Nat → Byte → Link → Byte × Link
  | 0, v, k => (v, k.pull .data)
  | n + 1, v, k =>
    let w1 := Link.timeoutWait p k .clk .released
    if w1.1 = false then (0x00#8, w1.2)
    else
      let d := w1.2.sample .data
      let k1 := w1.2.afterRead .data
      let w2 := Link.timeoutWait p k1 .clk .pulled
      if w2.1 = false then (0x00#8, w2.2)
      else Link.receiveCells p n (insertBit v d) w2.2

/-- Step 4: `if read(ATN) = pulled: flags.atn <- 1` (R153). -/
def Link.noteAtn (k : Link) : Link :=
  let k1 := k.afterRead .atn
  if k.sample .atn = .pulled then { k1 with flags := k1.flags.setAtn } else k1

/-- `receiveByte() -> value` (R150). -/
def Link.receiveByte (p : Params) (k : Link) : Byte × Link :=
  let k0 := { k with flags := k.flags.clearForReceive }
  let w1 := Link.timeoutWait p k0 .clk .released
  if w1.1 = false then (0x00#8, w1.2)
  else
    let w2 := Link.measureEoi p (w1.2.release .data)
    if w2.1 = false then (0x00#8, w2.2)
    else Link.receiveCells p 8 0x00#8 w2.2.noteAtn

/-! ### Sending a byte (41_byte_handshake.md R160 to R163) -/

/-- One bit cell of step 4: DATA changes only while CLK is pulled (R162). -/
def Link.sendCell (p : Params) (value : Byte) (n : Nat) (k : Link) : Link :=
  let k1 := k.pull .clk
  let k2 := if value.getLsbD n then k1.release .data else k1.pull .data
  ((k2.delay p.tBit).release .clk).delay p.tBit

/-- Step 4 for cells `n`, `n + 1`, ... , as many as are left. -/
def Link.sendCells (p : Params) (value : Byte) : Nat → Nat → Link → Link
  | 0, _, k => k
  | left + 1, n, k => Link.sendCells p value left (n + 1) (k.sendCell p value n)

/-- Step 3: the two waits for the listener's EOI acknowledge (R161). -/
def Link.awaitEoiAck (p : Params) (signalEOI : Bool) (k : Link) : Bool × Link :=
  if signalEOI then
    let w := Link.timeoutWait p k .data .pulled
    if w.1 = false then (false, w.2) else Link.timeoutWait p w.2 .data .released
  else (true, k)

/-- `sendByte(value, signalEOI) -> bool` (R160). -/
def Link.sendByte (p : Params) (value : Byte) (signalEOI : Bool) (k : Link) : Bool × Link :=
  let k0 := { k with flags := k.flags.clearErr }
  let w1 := Link.timeoutWait p (k0.release .clk) .data .released
  if w1.1 = false then (false, w1.2)
  else
    let w2 := Link.awaitEoiAck p signalEOI w1.2
    if w2.1 = false then (false, w2.2)
    else
      let k1 := Link.sendCells p value 8 0 w2.2
      Link.timeoutWait p ((k1.pull .clk).release .data) .data .pulled

/-! ### The operations on the whole state -/

def State.link (s : State) : Link := { bus := s.bus, flags := s.flags }
def State.withLink (s : State) (k : Link) : State := { s with bus := k.bus, flags := k.flags }
def State.pull (s : State) (l : Line) : State := { s with bus := s.bus.pull l }
def State.release (s : State) (l : Line) : State := { s with bus := s.bus.release l }
def State.afterRead (s : State) (l : Line) : State := { s with bus := s.bus.afterRead l }
def State.sample (s : State) (l : Line) : LineState := s.bus.sample l
def State.delay (s : State) (d : Nat) : State := { s with bus := s.bus.delay d }
def State.letGoUndriven (s : State) : State := { s with bus := s.bus.letGoUndriven s.cfg.hasSrq }

def State.timeoutWait (s : State) (l : Line) (expected : LineState) : Bool × State :=
  let w := Link.timeoutWait s.cfg s.link l expected
  (w.1, s.withLink w.2)

def State.receiveByte (s : State) : Byte × State :=
  let w := Link.receiveByte s.cfg s.link
  (w.1, s.withLink w.2)

def State.sendByte (s : State) (value : Byte) (signalEOI : Bool) : Bool × State :=
  let w := Link.sendByte s.cfg value signalEOI s.link
  (w.1, s.withLink w.2)

def State.setErr (s : State) : State := { s with flags := s.flags.setErr }
def State.clearErr (s : State) : State := { s with flags := s.flags.clearErr }
def State.setRst (s : State) : State := { s with flags := s.flags.setRst }

/-! ### Conditions and results (60_exceptions.md R330) -/

/-- `raise C(info)`: the cause register. What the condition's own rule adds is done by `recover`, `serveReset` or the
operation's result. -/
def State.raise (s : State) (c : Cause) (info : Byte) : State := { s with cause := c, causeInfo := info }

/-- The operation ends with this result. -/
def State.complete (s : State) (v : Value) : State := { s with result := .completed v }

/-- A refused request: Refused is raised with the select code and nothing else changes (R337). -/
def State.refuse (s : State) (sel : BitVec 5) : State :=
  { s.raise .refused (sel.zeroExtend 8) with result := .refused (refusalValue sel) }

/-- A refused access to the record's auxiliary buffer: Refused, with 0x00 for the select code it does not have and nothing for
the caller (R337; DESIGN CHOICE: log 30). -/
def State.refuseAccess (s : State) : State := { s.raise .refused 0x00#8 with result := .refused .none }

/-- `MemRead(i, 1)` by a device: the byte, or the refusal of a cell that holds no value (20_memory.md R66; 10_state.md R26). -/
def State.deviceRead (s : State) (i : Nat) : State :=
  match s.record.memRead i with
  | some b => s.complete (.byte b)
  | none => s.refuseAccess

/-- The running service() call returns `m`. -/
def State.returnMode (s : State) (m : ATNMode) : State :=
  { s with ctl := .idle, result := .completed (.mode m) }

/-- `phase_done <- true` (45_device_contract.md R301). -/
def State.setPhaseDone (s : State) : State :=
  match s.ctl with
  | .hook h _ => { s with ctl := .hook h true }
  | .idle => s
  | .primary => s
  | .secondary => s
  | .payload => s
  | .listening => s

/-- `rec.mode <- m`. -/
def State.setMode (s : State) (m : ATNMode) : State := { s with record := { s.record with mode := m } }

/-! ### The turnaround (41_byte_handshake.md R170, R174) -/

/-- `flags.err <- 1 ; raise ProtocolError(turn)`. -/
def State.turnError (s : State) : State := (s.setErr).raise .protocolError ((turnCode s.turn).zeroExtend 8)

/-- `turnAround() -> bool` (R170). -/
def State.turnAround (s : State) : Bool × State :=
  let s0 := s.clearErr
  if s0.turn ≠ .notTurned then (false, s0.turnError)
  else
    let w := s0.timeoutWait .clk .released
    if w.1 = false then (false, w.2)
    else
      let s1 := (w.2.release .data).delay s.cfg.tTurn
      let s2 := (s1.pull .clk).delay s.cfg.tTurn
      (true, { s2 with turn := .turned })

/-- `undoTurnAround() -> bool` (R174). -/
def State.undoTurnAround (s : State) : Bool × State :=
  let s0 := s.clearErr
  if s0.turn ≠ .turned then (false, s0.turnError)
  else
    let s1 := (s0.pull .data).delay s.cfg.tTurn
    let s2 := (s1.release .clk).delay s.cfg.tTurn
    State.timeoutWait { s2 with turn := .undone } .clk .pulled

/-! ### Return to IDLE, reset service, recovery (44_bus_coordinator.md R253, R281, R282) -/

/-- `toIdle()` (R282). -/
def State.toIdle (s : State) : State :=
  let s1 := { s with active := none, role := .none, turn := .notTurned }
  let s2 := (s1.release .clk).release .data
  { s2 with record := { s2.record.setAuxLen 0 with mode := .idle } }

/-- The end of `serveReset()`: `flags.rst <- 0 ; reset_latch <- 1 ; return RESET`. -/
def State.endReset (s : State) : State :=
  State.returnMode { s with flags := s.flags.clearRst, resetLatch := true } .reset

/-- The broadcast from the devices that are still to come, and what follows it (R253). Each `reset()` hook is a stop. A pull
of ATN, SRQ or RESET that the host program left standing ends here (10_state.md R52, column 3; log 31).
DESIGN CHOICE (log 33): `cause` is written before the hooks, as R253 has it, and not again after them. So a request refused in a
`reset()` hook leaves cause 7 and its `cause_info`, the last one raised (60_exceptions.md R344), where column 3 has 4 and 0. -/
def State.broadcast (s : State) : List DeviceRef → State
  | [] =>
    let s1 := s.toIdle.letGoUndriven
    State.endReset { s1 with flags := s1.flags.clearAfterBroadcast }
  | dev :: rest => { s with ctl := .hook (.reset dev rest) false }

/-- `serveReset()` (R253). -/
def State.serveReset (s : State) : State :=
  if s.resetLatch then s.endReset
  else State.broadcast (s.raise .reset 0x00#8) (s.slots.map fun r => r.ref)

/-- `recover()` (R281). -/
def State.recover (s : State) : State :=
  let s1 := s.setMode .error
  let s2 := if s1.turn = .turned then s1.undoTurnAround.2 else s1
  if s2.flags.rst then s2.serveReset else s2.toIdle.returnMode .error

/-- A `raise` inside `decode()`: `rec.mode <- ERROR`, `rec.aux_len <- 0`, result ERROR, and then `recover()`
(42_atn_decoder.md R183; 60_exceptions.md R331 to R333). -/
def State.decodeError (s : State) (c : Cause) (info : Byte) : State :=
  let s1 := s.raise c info
  State.recover { s1 with record := { s1.record.setAuxLen 0 with mode := .error } }

/-- `raise Reset` inside `decode()`: `rec.mode <- RESET`, result RESET, and then `serveReset()` (60_exceptions.md R334). -/
def State.decodeReset (s : State) : State := ((s.raise .reset 0x00#8).setMode .reset).serveReset

/-- A `raise` in the coordinator's own phases, and then `recover()` (44_bus_coordinator.md R265, R270). -/
def State.phaseError (s : State) (c : Cause) (info : Byte) : State := (s.raise c info).recover

/-! ### Selection and the data phases (44_bus_coordinator.md R260 to R274) -/

/-- `select(id, r)` succeeds: the device is registered and enabled (R260). -/
def State.selectable (s : State) (id : DeviceId) : Bool := (slotById s.slots id).isSome && maskHas s.enabled id

/-- The writes of a `select(id, r)` that succeeds. -/
def State.selected (s : State) (id : DeviceId) (r : Role) : State :=
  { s with active := some id, role := r, turn := .notTurned }

/-- `notAddressed()` (42_atn_decoder.md R198), then result IDLE: `toIdle() ; return IDLE` (R262). -/
def State.notAddressed (s : State) : State :=
  let s1 := ((s.release .data).release .clk).setMode .idle
  s1.toIdle.returnMode .idle

/-- Result CMD: `toIdle() ; return CMD` (R263). -/
def State.endTransaction (s : State) : State := s.toIdle.returnMode .cmd

/-- The engine calls a hook: `phase_done` is false when it starts. -/
def State.callHook (s : State) (h : Hook) : State := { s with ctl := .hook h false }

/-- `listenPhase(ended)` up to the hook (R264). -/
def State.listenPhase (s : State) (ended : Bool) : State := s.callHook (.processCommand s.record ended)

/-- `talkPhase()` up to the hook (R270). -/
def State.talkPhase (s : State) : State :=
  let w := s.timeoutWait .atn .released
  if w.1 = false then
    if w.2.flags.rst then w.2.serveReset else w.2.phaseError .timeout 0x00#8
  else
    let t := w.2.turnAround
    if t.1 = false then
      if t.2.flags.rst then t.2.serveReset
      else if t.2.turn = .notTurned then t.2.phaseError .timeout 0x00#8
      else t.2.recover
    else t.2.callHook (.processCommand t.2.record false)

/-- The tests after a hook that is not `reset` (R264, R265, R270): a reset seen, then a failure, then the phase goes on. -/
def State.afterHook (s : State) (goOn : State → State) : State :=
  if s.flags.rst then s.serveReset else if s.flags.err then s.recover else goOn s

/-- The top of the talk loop, up to the hook (R270, R273). -/
def State.talkTop (s : State) : State :=
  let s1 := s.afterRead .reset
  if s.sample .reset = .pulled then s1.setRst.serveReset
  else
    let s2 := s1.afterRead .atn
    if s1.sample .atn = .pulled then s2.returnMode .talk else s2.callHook .talkData

/-- The talk loop from talkData's answer (R270, R274). -/
def State.talkAnswer (s : State) (answer : Option (Byte × Bool)) : State :=
  match answer with
  | none => (s.release .clk).returnMode .talk
  | some (b, last) =>
    let w := s.sendByte b last
    if w.2.flags.rst then w.2.serveReset
    else if w.1 = false then w.2.phaseError .timeout 0x00#8
    else if last then (w.2.release .clk).returnMode .talk
    else w.2.talkTop

/-- A hook returns and the service() call goes on to its next stop (R253, R264, R265, R270). -/
def State.hookReturn (s : State) (h : Hook) (phaseDone : Bool) (answer : Option (Byte × Bool)) : State :=
  match h with
  | .reset _ rest => s.broadcast rest
  | .processCommand record ended =>
    s.afterHook fun s =>
      if record.mode = .talk then
        if phaseDone then s.returnMode .talk else s.talkTop
      else if ended then s.endTransaction
      else if record.kind = .data ∧ phaseDone = false then { s with ctl := .listening }
      else s.returnMode .listen
  | .listenData _ eoi =>
    s.afterHook fun s => if eoi = true ∨ phaseDone = true then s.returnMode .listen else { s with ctl := .listening }
  | .talkData =>
    s.afterHook fun s => if phaseDone then s.returnMode .talk else s.talkAnswer answer

end Sys2Proof.Machine
end

