-- ==== Sys2Proof/Machine/AtnDecoder.lean ====
section
/-! DEFINITION. ATN Decoder: the meanings of the command bytes, by where the decoder or the listen loop reads them
(42_atn_decoder.md R184 to R200; 44_bus_coordinator.md R265). -/
namespace Sys2Proof.Machine
open Sys2Proof

/-! ### Writing the record -/

/-- `rec.raw <- b ; rec.kind <- k` (R184, R191). -/
def State.setCommand (s : State) (b : Byte) (k : CmdKind) : State :=
  { s with record := { s.record with raw := b, kind := k } }

/-- `rec.device_id <- id` (30_encoding.md R92). -/
def State.setDeviceId (s : State) (id : DeviceId) : State := { s with record := { s.record with deviceId := id } }

/-- `rec.channel <- ch` (30_encoding.md R92). -/
def State.setChannel (s : State) (ch : Channel) : State := { s with record := { s.record with channel := ch } }

/-! ### The places a command byte is read at -/

/-- One meaning for each place: the primary (R184), the secondary (R191), an OPEN payload (R194), listen data
(44_bus_coordinator.md R265). Where the engine reads no byte it sees none: nothing happens (20_memory.md R74; log 13). -/
def State.byPlace (s : State) (atPrimary atSecondary atPayload atListening : State → State) : State :=
  match s.ctl with
  | .primary => atPrimary s
  | .secondary => atSecondary s
  | .payload => atPayload s
  | .listening => atListening s
  | .idle => s
  | .hook _ _ => s

/-- `raise Malformed(b)` inside `decode()` (60_exceptions.md R332). -/
def malformedInDecode (b : Byte) (s : State) : State := s.decodeError .malformed b

/-- `raise Malformed(b) ; return recover()` in the listen loop (44_bus_coordinator.md R265). -/
def malformedInListen (b : Byte) (s : State) : State := s.phaseError .malformed b

/-! ### Shared meanings -/

/-- LISTEN and TALK as primary (R189, R185): select before the secondary is read. -/
def addressDevice (id : DeviceId) (r : Role) (m : ATNMode) (s : State) : State :=
  if s.selectable id then { (s.selected id r).setMode m with ctl := .secondary } else s.notAddressed

/-- UNLISTEN and UNTALK as primary or in place of the secondary: `rec.mode <- CMD ; return (CMD, ended = true)`
(R188, R200, R191), and then R263. -/
def endEpisode (b : Byte) (k : CmdKind) (s : State) : State := ((s.setCommand b k).setMode .cmd).endTransaction

/-- A DATA, CLOSE or OPEN byte as primary (R192): served in the current role, or not addressed. -/
def secondaryAsPrimary (s : State) (goOn : State → State) : State :=
  match s.role with
  | .none => s.notAddressed
  | .listener => goOn (s.setMode .listen)
  | .talker => goOn (s.setMode .talk)

/-- DATA and CLOSE: `return (rec.mode, ended = false)` (R193, R195), and then the phase. -/
def enterPhase (s : State) : State := if s.record.mode = .talk then s.talkPhase else s.listenPhase false

/-- OPEN (R194): no payload when the engine is to talk, else the payload loop. -/
def enterOpen (s : State) : State := if s.record.mode = .talk then s.talkPhase else { s with ctl := .payload }

/-- The unclassifiable byte as primary (R184, R186). -/
def invalidPrimary (b : Byte) (s : State) : State := malformedInDecode b (s.setCommand b .invalid)

/-- The unclassifiable byte, everywhere (R186, R191, R194; 44_bus_coordinator.md R265). -/
def invalidByte (b : Byte) (s : State) : State :=
  s.byPlace (invalidPrimary b) (malformedInDecode b) (malformedInDecode b) (malformedInListen b)

/-! ### The instructions -/

/-- GLOBAL (R187): not addressed. -/
def execGlobalCmd (s : State) : Host.Outcome State Fault Refusal :=
  .next (s.byPlace (fun s => (s.setCommand 0x00#8 .global).notAddressed)
    (malformedInDecode 0x00#8) (malformedInDecode 0x00#8) (malformedInListen 0x00#8))

/-- UNLISTEN (R188). It ends an OPEN payload, whose record stays (R194), and listen data (44_bus_coordinator.md R265). -/
def execUnlisten (s : State) : Host.Outcome State Fault Refusal :=
  .next (s.byPlace (endEpisode 0x3F#8 .unlisten) (endEpisode 0x3F#8 .unlisten)
    (fun s => s.listenPhase true) (fun s => s.endTransaction))

/-- UNTALK (R200). -/
def execUntalk (s : State) : Host.Outcome State Fault Refusal :=
  .next (s.byPlace (endEpisode 0x5F#8 .untalk) (endEpisode 0x5F#8 .untalk)
    (malformedInDecode 0x5F#8) (malformedInListen 0x5F#8))

/-- LISTEN id (R189). In place of a secondary it is classified and then Malformed, and `rec.raw` and `rec.kind`
stay (R191; log 17). -/
def execListen (id : DeviceId) (s : State) : Host.Outcome State Fault Refusal :=
  .next (s.byPlace
    (fun s => addressDevice id .listener .listen ((s.setCommand (listenByte id) .listen).setDeviceId id))
    (fun s => malformedInDecode (listenByte id) (s.setDeviceId id))
    (malformedInDecode (listenByte id)) (malformedInListen (listenByte id)))

/-- TALK id (R185). -/
def execTalk (id : DeviceId) (s : State) : Host.Outcome State Fault Refusal :=
  .next (s.byPlace
    (fun s => addressDevice id .talker .talk ((s.setCommand (talkByte id) .talk).setDeviceId id))
    (fun s => malformedInDecode (talkByte id) (s.setDeviceId id))
    (malformedInDecode (talkByte id)) (malformedInListen (talkByte id)))

/-- DATA ch (R193). -/
def execDataCmd (ch : Channel) (s : State) : Host.Outcome State Fault Refusal :=
  .next (s.byPlace
    (fun s => secondaryAsPrimary ((s.setCommand (dataByte ch) .data).setChannel ch) enterPhase)
    (fun s => enterPhase ((s.setCommand (dataByte ch) .data).setChannel ch))
    (malformedInDecode (dataByte ch)) (malformedInListen (dataByte ch)))

/-- CLOSE ch (R195). -/
def execCloseCmd (ch : Channel) (s : State) : Host.Outcome State Fault Refusal :=
  .next (s.byPlace
    (fun s => secondaryAsPrimary ((s.setCommand (closeByte ch) .close).setChannel ch) enterPhase)
    (fun s => enterPhase ((s.setCommand (closeByte ch) .close).setChannel ch))
    (malformedInDecode (closeByte ch)) (malformedInListen (closeByte ch)))

/-- OPEN ch (R194). -/
def execOpenCmd (ch : Channel) (s : State) : Host.Outcome State Fault Refusal :=
  .next (s.byPlace
    (fun s => secondaryAsPrimary ((s.setCommand (openByte ch) .opn).setChannel ch) enterOpen)
    (fun s => enterOpen ((s.setCommand (openByte ch) .opn).setChannel ch))
    (malformedInDecode (openByte ch)) (malformedInListen (openByte ch)))

/-- The illegal bytes 0x01 to 0x1F (R186). -/
def execInvalid01_1F (x : BitVec 5) (s : State) : Host.Outcome State Fault Refusal := .next (invalidByte (invalid01Byte x) s)

/-- The illegal bytes 0x70 to 0x7F (R186). -/
def execInvalid70_7F (x : BitVec 4) (s : State) : Host.Outcome State Fault Refusal := .next (invalidByte (invalid70Byte x) s)

/-- The illegal bytes 0x80 to 0xBF (R186). -/
def execInvalid80_BF (x : BitVec 6) (s : State) : Host.Outcome State Fault Refusal := .next (invalidByte (invalid80Byte x) s)

/-- The illegal bytes 0xC0 to 0xDF (R186). -/
def execInvalidC0_DF (x : BitVec 5) (s : State) : Host.Outcome State Fault Refusal := .next (invalidByte (invalidC0Byte x) s)

end Sys2Proof.Machine
end

