-- ==== Sys2Proof/Machine/ByteHandshake.lean ====
section
/-! DEFINITION. Byte Handshake: the meanings of `sendByte`, `receiveByte`, `turnAround`, `undoTurnAround`, `timeoutWait`
(41_byte_handshake.md). A direct request has its literal meaning (70_reset_and_hazards.md R385; log 14). -/
namespace Sys2Proof.Machine
open Sys2Proof

/-- `sendByte(value, signalEOI) -> bool` (R160). -/
def execSendByte (value : Byte) (signalEOI : Bool) (s : State) : Host.Outcome State Fault Refusal :=
  .next ((s.sendByte value signalEOI).2.complete (.bool (s.sendByte value signalEOI).1))

/-- `receiveByte() -> value` (R150). -/
def execReceiveByte (s : State) : Host.Outcome State Fault Refusal :=
  .next (s.receiveByte.2.complete (.byte s.receiveByte.1))

/-- `turnAround() -> bool` (R170). -/
def execTurnAround (s : State) : Host.Outcome State Fault Refusal :=
  .next (s.turnAround.2.complete (.bool s.turnAround.1))

/-- `undoTurnAround() -> bool` (R174). -/
def execUndoTurnAround (s : State) : Host.Outcome State Fault Refusal :=
  .next (s.undoTurnAround.2.complete (.bool s.undoTurnAround.1))

/-- `timeoutWait(l, s) -> bool` (R141); SRQ without `HAS_SRQ` is refused (30_encoding.md R101). -/
def execTimeoutWait (l : Line) (expected : LineState) (s : State) : Host.Outcome State Fault Refusal :=
  .next (if s.linePresent l then (s.timeoutWait l expected).2.complete (.bool (s.timeoutWait l expected).1)
    else s.refuse 0x08#5)

end Sys2Proof.Machine
end

