-- ==== Sys2Proof/Machine/DataPrimitives.lean ====
section
/-! DEFINITION. The bus-to-device data primitives (45_device_contract.md R300 to R307). -/
namespace Sys2Proof.Machine
open Sys2Proof

/-- What follows a failed handshake inside a primitive: `phase_done <- true`, and Timeout unless a reset was seen
(R302, R303, R304, R306). -/
def State.primitiveFailed (s : State) : State :=
  if s.flags.rst then s.setPhaseDone else (s.setPhaseDone).raise .timeout 0x00#8

/-- `send(byte)` once accepted (R302). -/
def State.sendPrimitive (s : State) (b : Byte) : Bool × State :=
  let w := s.sendByte b false
  if w.1 = false then (false, w.2.primitiveFailed) else (true, w.2)

/-- `sendBuffer` once accepted: the bytes that are left (R303). -/
def State.sendAll : List Byte → State → Bool × State
  | [], s => (true, s)
  | b :: rest, s =>
    let w := s.sendPrimitive b
    if w.1 = false then (false, w.2) else State.sendAll rest w.2

/-- `sendEOI(byte)` once accepted (R304). -/
def State.sendEoiPrimitive (s : State) (b : Byte) : Bool × State :=
  let w := s.sendByte b true
  if w.1 = false then (false, w.2.primitiveFailed) else (true, w.2.setPhaseDone.release .clk)

/-- `receive()` once accepted (R306). -/
def State.receivePrimitive (s : State) : Byte × State :=
  let w := s.receiveByte
  if w.2.flags.err then (w.1, w.2.primitiveFailed)
  else if w.2.flags.atn then (w.1, (w.2.setErr.setPhaseDone).raise .malformed w.1)
  else if w.2.flags.eoi then (w.1, w.2.setPhaseDone)
  else (w.1, w.2)

/-- `receiveBuffer` once accepted, with this many bytes still to come: whether all came, and the bytes stored, in order
(R307). -/
def State.receiveAll : Nat → State → Bool × List Byte × State
  | 0, s => (true, [], s)
  | left + 1, s =>
    let w := s.receivePrimitive
    if w.2.flags.err then (false, [], w.2)
    else if w.2.flags.eoi = true ∧ left ≠ 0 then (false, [w.1], w.2)
    else
      let r := State.receiveAll left w.2
      (r.1, w.1 :: r.2.1, r.2.2)

/-- `send(byte) -> bool` (R302). -/
def execSend (b : Byte) (s : State) : Host.Outcome State Fault Refusal :=
  .next (if s.acceptsSend = false then s.refuse 0x18#5
    else (s.sendPrimitive b).2.complete (.bool (s.sendPrimitive b).1))

/-- `sendBuffer(buffer, length) -> bool` (R303). A buffer of fewer than `length` bytes is no operand (log 24). -/
def execSendBuffer (buffer : List Byte) (length : Nat) (s : State) : Host.Outcome State Fault Refusal :=
  .next (if s.acceptsSend = false ∨ buffer.length < length then s.refuse 0x19#5
    else (State.sendAll (buffer.take length) s).2.complete (.bool (State.sendAll (buffer.take length) s).1))

/-- `sendEOI(byte) -> bool` (R304). -/
def execSendEOI (b : Byte) (s : State) : Host.Outcome State Fault Refusal :=
  .next (if s.acceptsSend = false then s.refuse 0x1A#5
    else (s.sendEoiPrimitive b).2.complete (.bool (s.sendEoiPrimitive b).1))

/-- `sendFileNotFound() -> bool` (R305). -/
def execSendFileNotFound (s : State) : Host.Outcome State Fault Refusal :=
  .next (if s.acceptsSend = false then s.refuse 0x1B#5
    else ((((s.release .data).release .clk).delay s.cfg.tFnf).setPhaseDone).complete (.bool true))

/-- `receive() -> byte` (R306). -/
def execReceive (s : State) : Host.Outcome State Fault Refusal :=
  .next (if s.acceptsReceive = false then s.refuse 0x1C#5
    else s.receivePrimitive.2.complete (.byte s.receivePrimitive.1))

/-- `receiveBuffer(buffer, length) -> bool` (R307), with the device's buffer after it (log 24). -/
def execReceiveBuffer (buffer : List Byte) (length : Nat) (s : State) : Host.Outcome State Fault Refusal :=
  .next (if s.acceptsReceive = false ∨ buffer.length < length then s.refuse 0x1D#5
    else
      let r := State.receiveAll length s
      r.2.2.complete (.buffer r.1 (bufferAfter buffer r.2.1)))

end Sys2Proof.Machine
end

