-- ==== Sys2Proof/Machine/LineDriver.lean ====
section
/-! DEFINITION. Line Driver: the meanings of `pull`, `release`, `read` (40_line_driver.md). -/
namespace Sys2Proof.Machine
open Sys2Proof

/-- `pull(l)` (R121); SRQ without `HAS_SRQ` is refused (30_encoding.md R101). -/
def execPull (l : Line) (s : State) : Host.Outcome State Fault Refusal :=
  .next (if s.linePresent l then (s.pull l).complete .none else s.refuse 0x01#5)

/-- `release(l)` (R122). -/
def execRelease (l : Line) (s : State) : Host.Outcome State Fault Refusal :=
  .next (if s.linePresent l then (s.release l).complete .none else s.refuse 0x02#5)

/-- `read(l) -> LineState` (R123). -/
def execRead (l : Line) (s : State) : Host.Outcome State Fault Refusal :=
  .next (if s.linePresent l then (s.afterRead l).complete (.line (s.sample l)) else s.refuse 0x03#5)

end Sys2Proof.Machine
end

