-- ==== Sys2Proof/Machine/Registry.lean ====
section
/-! DEFINITION. Device Registry and enable mask: the meanings of its eight operations (43_device_registry.md). -/
namespace Sys2Proof.Machine
open Sys2Proof

/-- `raise ConfigError(info) ; return false` (60_exceptions.md R336). -/
def State.configError (s : State) (info : Byte) : State := (s.raise .configError info).complete (.bool false)

/-- `addDevice(ref, id) -> bool` (R222), the tests in the order of 60_exceptions.md R342. R222 writes `ConfigError(ref)` for a
repeated reference and `ConfigError(full)` for a full chain, and 60_exceptions.md R330 records "the offending id, or 0" without
saying which; DESIGN CHOICE (log 34): `cause_info` is 0x00 for both, no id being at fault. -/
def execAddDevice (ref : DeviceRef) (id : DeviceId) (s : State) : Host.Outcome State Fault Refusal :=
  .next (
    if s.setupTime = false then s.refuse 0x10#5
    else if idAssignable id = false then s.configError (idInfo id)
    else if hasId s.slots id then s.configError (idInfo id)
    else if hasRef s.slots ref then s.configError 0x00#8
    else if s.slots.length = Config.nSlots then s.configError 0x00#8
    else State.complete { s with slots := s.slots ++ [{ deviceId := id, ref := ref }] } (.bool true))

/-- `removeDevice(ref) -> bool` (R223). -/
def execRemoveDevice (ref : DeviceRef) (s : State) : Host.Outcome State Fault Refusal :=
  .next (
    if s.setupTime = false then s.refuse 0x11#5
    else if hasRef s.slots ref = false then s.complete (.bool false)
    else State.complete { s with slots := removeRef s.slots ref } (.bool true))

/-- `deviceById(id) -> optional reference` (R224). -/
def execDeviceById (id : DeviceId) (s : State) : Host.Outcome State Fault Refusal :=
  .next (s.complete (.ref (slotById s.slots id)))

/-- `changeDeviceId(ref, newId) -> bool` (R225). -/
def execChangeDeviceId (ref : DeviceRef) (newId : DeviceId) (s : State) : Host.Outcome State Fault Refusal :=
  .next (
    if s.setupTime = false then s.refuse 0x13#5
    else match idOfRef s.slots ref with
      | none => s.complete (.bool false)
      | some old =>
        if old = newId then s.complete (.bool true)
        else if idAssignable newId = false then s.configError (idInfo newId)
        else if hasId s.slots newId then s.configError (idInfo newId)
        else State.complete { s with slots := renumberRef s.slots ref newId } (.bool true))

/-- `numDevices() -> count` (R229). -/
def execNumDevices (s : State) : Host.Outcome State Fault Refusal := .next (s.complete (.count s.slots.length))

/-- `isEnabled(id) -> bool` (R226). -/
def execIsEnabled (id : DeviceId) (s : State) : Host.Outcome State Fault Refusal :=
  .next (s.complete (.bool (maskHas s.enabled id)))

/-- `enableDevice(id)` (R227). -/
def execEnableDevice (id : DeviceId) (s : State) : Host.Outcome State Fault Refusal :=
  .next (if s.setupTime = false then s.refuse 0x16#5
    else State.complete { s with enabled := s.enabled ||| maskBit id } .none)

/-- `disableDevice(id)` (R228). -/
def execDisableDevice (id : DeviceId) (s : State) : Host.Outcome State Fault Refusal :=
  .next (if s.setupTime = false then s.refuse 0x17#5
    else State.complete { s with enabled := s.enabled &&& ~~~ (maskBit id) } .none)

end Sys2Proof.Machine
end

