-- ==== Sys2Proof/Machine/Service.lean ====
section
/-! DEFINITION. Bus Coordinator: the meaning of `service` up to its first stop (44_bus_coordinator.md R250 to R255). -/
namespace Sys2Proof.Machine
open Sys2Proof

/-- The entry of `decode()`: the fresh record (42_atn_decoder.md R181) and the answer to ATN (R182). -/
def State.startDecode (s : State) : State :=
  let s1 := { s with record := ATNRecord.fresh }
  { (s1.release .clk).pull .data with ctl := .primary }

/-- `service() -> ATNMode` (R250): RESET first, then ATN. Refused while a service() call is running (R251). -/
def execService (s : State) : Host.Outcome State Fault Refusal :=
  .next (
    if s.ctl ≠ .idle then s.refuse 0x00#5
    else
      let s1 := s.afterRead .reset
      if s.sample .reset = .pulled ∨ s1.flags.rst = true then s1.serveReset
      else
        let s2 := { s1 with resetLatch := false }
        let s3 := s2.afterRead .atn
        if s2.sample .atn = .released then s3.returnMode s3.record.mode
        else s3.startDecode)

end Sys2Proof.Machine
end

