-- ==== Sys2Proof/Machine/Dispatch.lean ====
section
/-! DEFINITION. exec: one arm per constructor of Instr, each one direct call of its meaning. -/
namespace Sys2Proof.Machine
open Sys2Proof

def exec (i : Instr) (s : State) : Host.Outcome State Fault Refusal :=
  match i with
  | .globalCmd => Sys2Proof.Machine.execGlobalCmd s
  | .unlisten => Sys2Proof.Machine.execUnlisten s
  | .untalk => Sys2Proof.Machine.execUntalk s
  | .listen id => Sys2Proof.Machine.execListen id s
  | .talk id => Sys2Proof.Machine.execTalk id s
  | .dataCmd ch => Sys2Proof.Machine.execDataCmd ch s
  | .closeCmd ch => Sys2Proof.Machine.execCloseCmd ch s
  | .openCmd ch => Sys2Proof.Machine.execOpenCmd ch s
  | .invalid01_1F x => Sys2Proof.Machine.execInvalid01_1F x s
  | .invalid70_7F x => Sys2Proof.Machine.execInvalid70_7F x s
  | .invalid80_BF x => Sys2Proof.Machine.execInvalid80_BF x s
  | .invalidC0_DF x => Sys2Proof.Machine.execInvalidC0_DF x s
  | .service => Sys2Proof.Machine.execService s
  | .pull l => Sys2Proof.Machine.execPull l s
  | .release l => Sys2Proof.Machine.execRelease l s
  | .read l => Sys2Proof.Machine.execRead l s
  | .sendByte value signalEOI => Sys2Proof.Machine.execSendByte value signalEOI s
  | .receiveByte => Sys2Proof.Machine.execReceiveByte s
  | .turnAround => Sys2Proof.Machine.execTurnAround s
  | .undoTurnAround => Sys2Proof.Machine.execUndoTurnAround s
  | .timeoutWait l expected => Sys2Proof.Machine.execTimeoutWait l expected s
  | .addDevice ref id => Sys2Proof.Machine.execAddDevice ref id s
  | .removeDevice ref => Sys2Proof.Machine.execRemoveDevice ref s
  | .deviceById id => Sys2Proof.Machine.execDeviceById id s
  | .changeDeviceId ref newId => Sys2Proof.Machine.execChangeDeviceId ref newId s
  | .numDevices => Sys2Proof.Machine.execNumDevices s
  | .isEnabled id => Sys2Proof.Machine.execIsEnabled id s
  | .enableDevice id => Sys2Proof.Machine.execEnableDevice id s
  | .disableDevice id => Sys2Proof.Machine.execDisableDevice id s
  | .send byte => Sys2Proof.Machine.execSend byte s
  | .sendBuffer buffer length => Sys2Proof.Machine.execSendBuffer buffer length s
  | .sendEOI byte => Sys2Proof.Machine.execSendEOI byte s
  | .sendFileNotFound => Sys2Proof.Machine.execSendFileNotFound s
  | .receive => Sys2Proof.Machine.execReceive s
  | .receiveBuffer buffer length => Sys2Proof.Machine.execReceiveBuffer buffer length s

end Sys2Proof.Machine
end

