-- ==== Sys2Proof/Machine/Fetch.lean ====
section
/-! DEFINITION. Where the next instruction comes from: the host program's requests, a device's requests inside a hook, or a
command byte read from the bus (20_memory.md R77); and what the engine does when it gets none. -/
namespace Sys2Proof.Machine
open Sys2Proof

/-! ### Requests -/

/-- A request that decodes is run; one that does not is refused (30_encoding.md R101, R102; 60_exceptions.md R337). -/
def fetchRequest (r : OpRequest) (s : State) : Fetched :=
  match decodeOp r with
  | .instr i => .run i s
  | .reject _ => .done (s.refuse r.op)

/-- The host program's next request; with none pending it calls service(), as it does "repeatedly" (R250; log 7). -/
def fetchHost (s : State) : Fetched :=
  match s.host with
  | [] => .run .service s
  | r :: rest => fetchRequest r { s with host := rest }

/-- A device's request: a data primitive, or refused whatever it is (30_encoding.md R103; 60_exceptions.md R350; log 14). -/
def fetchDeviceRequest (r : OpRequest) (s : State) : Fetched :=
  if isDataPrimitive r.op then fetchRequest r s else .done (s.refuse r.op)

/-- The device's next move inside a hook; with none left the hook returns its default (45_device_contract.md R313, R314;
log 6). A write of the record is refused, the decoder being its only writer (10_state.md R22; 93_implementation_defined.md
F7). While a hook does not return the environment moves on and the engine stands still (70_reset_and_hazards.md R388).
DESIGN CHOICE (log 30), which device reads `rec.aux` in which hook: 10_state.md R22 names the target device, 20_memory.md R60
the active one through the record handed to `processCommand`, and a device may keep the reference (70_reset_and_hazards.md
R389). Here the device of every hook reads the engine's record as it stands, below `rec.aux_len`: in `listenData` and
`talkData` too, and in `reset`, whose device may not be active, was handed no record, and reads even the payload that RESET
abandoned. -/
def fetchDevice (h : Hook) (phaseDone : Bool) (s : State) : Fetched :=
  match s.device with
  | [] => .done (s.hookReturn h phaseDone none)
  | .request r :: rest => fetchDeviceRequest r { s with device := rest }
  | .readAux i :: rest => .done (State.deviceRead { s with device := rest } i)
  | .writeAux _ _ :: rest => .done (State.refuseAccess { s with device := rest })
  | .hang :: _ => .done { s with bus := s.bus.envMove }
  | .ret answer :: rest => .done (State.hookReturn { s with device := rest } h phaseDone answer)

/-! ### Bytes -/

/-- `readCommandByte()` (42_atn_decoder.md R183, R190), and the byte's instruction. -/
def fetchCommand (s : State) : Fetched :=
  let s1 := s.afterRead .reset
  if s.sample .reset = .pulled then .done s1.setRst.decodeReset
  else
    let w := s1.receiveByte
    if w.2.flags.rst then .done w.2.decodeReset
    else if w.2.flags.err then .done (w.2.decodeError .timeout 0x00#8)
    else if w.2.flags.atn = false then .done (w.2.decodeError .malformed w.1)
    else .run (decodeCmd8 w.1) w.2

/-- One payload byte that is not a command byte: the bound, the store, the EOI test (42_atn_decoder.md R194, R196). -/
def State.storePayload (s : State) (b : Byte) : State :=
  if s.record.auxLen = s.cfg.maxLen then s.decodeError .overflow b
  else
    let s1 := { s with record := s.record.append b }
    if s.flags.eoi then s1.listenPhase false else s1

/-- One iteration of the OPEN payload loop (42_atn_decoder.md R194). -/
def fetchPayload (s : State) : Fetched :=
  let s1 := s.afterRead .reset
  if s.sample .reset = .pulled then .done s1.setRst.decodeReset
  else
    let w := s1.receiveByte
    if w.2.flags.rst then .done w.2.decodeReset
    else if w.2.flags.err then .done (w.2.decodeError .timeout 0x00#8)
    else if w.2.flags.atn then .run (decodeCmd8 w.1) w.2
    else .done (w.2.storePayload w.1)

/-- One iteration of the listen loop, up to the hook (44_bus_coordinator.md R265). -/
def fetchListen (s : State) : Fetched :=
  let s1 := s.afterRead .reset
  if s.sample .reset = .pulled then .done s1.setRst.serveReset
  else
    let s2 := s1.afterRead .atn
    if s1.sample .atn = .pulled then .done (s2.returnMode .listen)
    else
      let w := s2.receiveByte
      if w.2.flags.rst then .done w.2.serveReset
      else if w.2.flags.err then .done (w.2.phaseError .timeout 0x00#8)
      else if w.2.flags.atn then .run (decodeCmd8 w.1) w.2
      else .done (w.2.callHook (.listenData w.1 w.2.flags.eoi))

/-- The fetch at the place where the engine stands. -/
def fetch (s : State) : Fetched :=
  match s.ctl with
  | .idle => fetchHost s
  | .primary => fetchCommand s
  | .secondary => fetchCommand s
  | .payload => fetchPayload s
  | .listening => fetchListen s
  | .hook h phaseDone => fetchDevice h phaseDone s

/-! ### Placing an instruction where the next fetch finds it -/

/-- The environment's move to these levels of ATN, CLK and DATA after `dt`, with SRQ and RESET released. -/
def envTo (atn clk data : LineState) (dt : Nat) : EnvMove :=
  { ext := { atn := atn, clk := clk, data := data, srq := .released, reset := .released }, dt := dt }

/-- The moves of a talker that presents this bit in one cell: seven actions of `receiveByte` step 5 (R150), each after `dt`. -/
def talkerCell (atn : LineState) (dt : Nat) (bit : LineState) : List EnvMove :=
  List.replicate 4 (envTo atn .released bit dt) ++ List.replicate 3 (envTo atn .pulled bit dt)

/-- The moves of a talker that presents these cells to a `receiveByte` of the engine: CLK released (ready); with `eoi`, CLK
kept released until the acknowledge pulse is over; CLK pulled; the cells in their order (R150, R160, R161). -/
def talkerScriptOf (atn : LineState) (dt : Nat) (eoi : Bool) (cells : List LineState) : List EnvMove :=
  List.replicate 5 (envTo atn .released .released dt)
    ++ (if eoi then List.replicate 5 (envTo atn .released .released dt) ++ List.replicate 3 (envTo atn .pulled .released dt)
        else [envTo atn .pulled .released dt])
    ++ [envTo atn .pulled .released dt]
    ++ cells.flatMap (talkerCell atn dt)
    ++ [envTo atn .pulled .released dt]

/-- The moves of a talker that sends `v`, bit 0 first (20_memory.md R65). -/
def talkerScript (atn : LineState) (dt : Nat) (eoi : Bool) (v : Byte) : List EnvMove :=
  talkerScriptOf atn dt eoi (cellsOf v)

/-- The moves of a listener that takes one byte from a `sendByte` of the engine: ready, with `eoi` the acknowledge pulse,
still while the eight cells pass, accepted (R160, R161). -/
def listenerScript (dt : Nat) (eoi : Bool) : List EnvMove :=
  List.replicate 4 (envTo .released .released .released dt)
    ++ (if eoi then List.replicate 3 (envTo .released .released .pulled dt)
          ++ List.replicate 3 (envTo .released .released .released dt) else [])
    ++ List.replicate 42 (envTo .released .released .released dt)
    ++ List.replicate 3 (envTo .released .released .pulled dt)

/-- `s` with a talker about to send this byte under ATN to the next fetch, after the samples the fetch takes first. -/
def State.presentCommand (s : State) (lead : List EnvMove) (b : Byte) : State :=
  { s with
    flags := s.flags.clearRst
    bus := { s.bus with env := lead ++ talkerScript .pulled 0 false b ++ s.bus.env } }

/-- A command byte is placed on the bus: the talker's script for it, under ATN, after the samples the fetch takes first. An
engine that is not at a place where it reads bytes is put at the primary byte of a fresh episode (log 12). -/
def State.placeCommand (s : State) (b : Byte) : State :=
  match s.ctl with
  | .primary => s.presentCommand [envTo .pulled .pulled .released 0] b
  | .secondary => s.presentCommand [envTo .pulled .pulled .released 0] b
  | .payload => s.presentCommand [envTo .released .pulled .released 0] b
  | .listening => s.presentCommand (List.replicate 2 (envTo .released .pulled .released 0)) b
  | .idle => State.presentCommand { s with ctl := .primary, record := ATNRecord.fresh } [envTo .pulled .pulled .released 0] b
  | .hook _ _ => State.presentCommand { s with ctl := .primary, record := ATNRecord.fresh } [envTo .pulled .pulled .released 0] b

/-- A data primitive is placed first among the device's moves when a hook runs; every other request first among the host
program's, with no service() call running (log 12). -/
def State.placeRequest (s : State) (r : OpRequest) : State :=
  match s.ctl with
  | .hook _ _ =>
    if isDataPrimitive r.op then { s with device := .request r :: s.device } else { s with ctl := .idle, host := r :: s.host }
  | .idle => { s with host := r :: s.host }
  | .primary => { s with ctl := .idle, host := r :: s.host }
  | .secondary => { s with ctl := .idle, host := r :: s.host }
  | .payload => { s with ctl := .idle, host := r :: s.host }
  | .listening => { s with ctl := .idle, host := r :: s.host }

/-- The instruction is placed where the next fetch finds it, in its own format. -/
def State.placeInstr (s : State) (i : Instr) : State :=
  match encode i with
  | .cmd b => s.placeCommand b
  | .op r => s.placeRequest r

end Sys2Proof.Machine
end

