-- ==== Sys2Proof/Machine/Step.lean ====
section
/-! DEFINITION. One step of the machine: fetch, and run what was fetched. -/
namespace Sys2Proof.Machine
open Sys2Proof

/-- One step (log 8): the next instruction of whoever's turn it is, or the engine's own work when there is none. -/
def step (s : State) : Host.Outcome State Fault Refusal :=
  match fetch s with
  | .run i t => exec i t
  | .done t => .next t

/-- `s` with the instruction that `decodeTableWord` reads from this word placed where `step` fetches next; `s` itself where
the word decodes to none (log 12). -/
def State.withFetchWord (s : State) (nbits w : Nat) : State :=
  match decodeTableWord nbits w with
  | some i => s.placeInstr i
  | none => s

end Sys2Proof.Machine
end

