-- ==== Sys2Proof/Safety.lean ====
section
/-! DEFINITION. What counts as a safe state and a safe run of the engine, in the terms the claims use: the invariant of every
reachable state, what a call that ended in IDLE leaves, and the views the claims about the wire are written over. -/
namespace Sys2Proof.Machine
open Sys2Proof

/-! ### Lines -/

/-- A line no rule of the engine pulls (20_memory.md R63). -/
def undrivenLine : Line → Bool
  | .atn => true
  | .srq => true
  | .reset => true
  | .clk => false
  | .data => false

/-- The environment holds line `l` at level `x` now and after every move it still has: every sample of `l` reads `x`. -/
def Bus.Holds (b : Bus) (l : Line) (x : LineState) : Prop := b.ext.get l = x ∧ ∀ m ∈ b.env, m.ext.get l = x

/-! ### The invariant -/

/-- The mode between calls that goes with a role (10_state.md R31). -/
def modeOf : Role → ATNMode
  | .none => .idle
  | .listener => .listen
  | .talker => .talk

/-- A secondary command's kind. -/
def CmdKind.isSecondary (k : CmdKind) : Prop := k = .data ∨ k = .close ∨ k = .opn

/-- The record and the role agree with where the service() call stands (10_state.md R30, R31; 42_atn_decoder.md R181 to R194;
44_bus_coordinator.md R252, R264, R265, R270). -/
def State.PlaceOk (s : State) : Prop :=
  match s.ctl with
  | .idle => s.record.mode = modeOf s.role
  | .primary => s.record.mode = .cmd ∧ s.record.kind = .none
  | .secondary =>
    s.record.mode = modeOf s.role ∧ s.role ≠ .none ∧ (s.record.kind = .listen ∨ s.record.kind = .talk)
  | .payload => s.record.mode = .listen ∧ s.role = .listener ∧ s.record.kind = .opn
  | .listening => s.record.mode = .listen ∧ s.role = .listener ∧ s.record.kind = .data
  | .hook (.reset _ _) _ => True
  | .hook (.processCommand r _) _ =>
    r = s.record ∧ s.record.mode = modeOf s.role ∧ s.role ≠ .none ∧ s.record.kind.isSecondary
  | .hook (.listenData _ _) _ => s.record.mode = .listen ∧ s.role = .listener ∧ s.record.kind = .data
  | .hook .talkData _ => s.record.mode = .talk ∧ s.role = .talker

/-- The invariant of every state the engine reaches from power-on. -/
structure State.Inv (s : State) : Prop where
  /-- I1 (43_device_registry.md R220). -/
  ids_nodup : (s.slots.map fun r => r.deviceId).Nodup
  /-- I2. -/
  ids_assignable : ∀ r ∈ s.slots, idAssignable r.deviceId = true
  /-- I3. -/
  refs_nodup : (s.slots.map fun r => r.ref).Nodup
  /-- I4. -/
  capacity : s.slots.length ≤ Config.nSlots
  /-- I5: `active` is none or the id of a registered, enabled device. -/
  active_ok : ∀ id, s.active = some id → hasId s.slots id = true ∧ maskHas s.enabled id = true
  /-- `role = NONE` exactly when `active = none` (10_state.md R31). -/
  role_active : s.role = .none ↔ s.active = none
  /-- `rec.aux_len` never exceeds `MAXLEN` (10_state.md R26). -/
  aux_bound : s.record.auxLen ≤ s.cfg.maxLen
  /-- Exactly the cells below `rec.aux_len` hold a value (10_state.md R26). -/
  aux_cells : (s.record.aux.map fun c => c.1) = List.range s.record.auxLen
  /-- Only an OPEN has a payload (42_atn_decoder.md R193 to R195). -/
  aux_open : s.record.auxLen ≠ 0 → s.record.kind = .opn
  /-- The value 31 never reaches `rec.device_id` (10_state.md R25). -/
  id_range : s.record.deviceId ≠ 31#5
  /-- Without `HAS_SRQ` there is no SRQ line to pull (30_encoding.md R101). -/
  no_srq : s.cfg.hasSrq = false → s.bus.own.srq = .released
  /-- The latch is clear while a service() call runs (44_bus_coordinator.md R250, R253). -/
  latch_clear : s.ctl ≠ .idle → s.resetLatch = false
  /-- The record and the role agree with where the call stands. -/
  place_ok : s.PlaceOk

/-! ### Ends of a call -/

/-- `t` is what a service() call that ended in IDLE with result `m` leaves of `s`, `r` being the record before the return:
nobody selected, both handshake lines let go, the buffer empty, and the setup, the latch and the inputs of the host and the
device as they were (44_bus_coordinator.md R282; 60_exceptions.md R343). -/
structure State.EndedIdle (s : State) (r : ATNRecord) (t : State) (m : ATNMode) : Prop where
  active : t.active = none
  role : t.role = .none
  turn : t.turn = .notTurned
  ctl : t.ctl = .idle
  result : t.result = .completed (.mode m)
  clk : t.bus.own.clk = .released
  data : t.bus.own.data = .released
  atn_line : t.bus.own.atn = s.bus.own.atn
  srq_line : t.bus.own.srq = s.bus.own.srq
  reset_line : s.bus.own.reset = .released → t.bus.own.reset = .released
  record : t.record = { r with mode := .idle, aux := [], auxLen := 0 }
  eoi : t.flags.eoi = s.flags.eoi
  atn_flag : t.flags.atn = s.flags.atn
  rst : t.flags.rst = s.flags.rst
  cfg : t.cfg = s.cfg
  slots : t.slots = s.slots
  enabled : t.enabled = s.enabled
  latch : t.resetLatch = s.resetLatch
  host : t.host = s.host
  device : t.device = s.device

/-- `t` is what serving a reset leaves of `s` when the broadcast begins: Reset is the cause, and the engine is in the first
device's `reset()` hook with the selection still standing; with no device registered the call has ended, in the state of
10_state.md R52, column 3, every line the engine has let go (44_bus_coordinator.md R253; 60_exceptions.md R334; log 31). -/
def State.ResetBegun (s t : State) : Prop :=
  t.cause = .reset ∧ t.causeInfo = 0x00#8 ∧ t.cfg = s.cfg ∧ t.slots = s.slots ∧ t.enabled = s.enabled ∧ t.host = s.host ∧
  match s.slots with
  | r :: rest => t.ctl = .hook (.reset r.ref (rest.map fun r => r.ref)) false ∧ t.active = s.active ∧ t.role = s.role
  | [] => t.ctl = .idle ∧ t.result = .completed (.mode .reset) ∧ t.active = none ∧ t.role = .none ∧ t.turn = .notTurned ∧
    (∀ l, t.linePresent l = true → t.bus.own.get l = .released) ∧ t.record.mode = .idle ∧ t.record.auxLen = 0 ∧
    t.flags = { eoi := false, atn := false, err := false, rst := false } ∧ t.resetLatch = true

/-- The running hook returns now: the device's next move is a return, or it has none left and returns its default. -/
def State.HookReturns (s : State) : Prop := s.device = [] ∨ ∃ a rest, s.device = .ret a :: rest

/-- The device takes these bytes with receive primitives in a row: none fails, none comes under ATN and none with EOI; then
the engine is in `u` (45_device_contract.md R306, R307). -/
def State.Receives (s : State) : List Byte → State → Prop
  | [], u => u = s
  | b :: rest, u => s.receivePrimitive.1 = b ∧ s.receivePrimitive.2.flags.err = false ∧
    s.receivePrimitive.2.flags.eoi = false ∧ s.receivePrimitive.2.Receives rest u

/-- 45_device_contract.md R300 accepts a send primitive: a hook of the active device runs, which is any hook but `reset`, and
the engine is talker and turned. -/
structure State.InTalkerHook (s : State) (h : Hook) (pd : Bool) : Prop where
  ctl : s.ctl = .hook h pd
  not_reset : ∀ dev rest, h ≠ .reset dev rest
  role : s.role = .talker
  turn : s.turn = .turned

/-- 45_device_contract.md R300 accepts a receive primitive: such a hook runs, and the engine is listener. -/
structure State.InListenerHook (s : State) (h : Hook) (pd : Bool) : Prop where
  ctl : s.ctl = .hook h pd
  not_reset : ∀ dev rest, h ≠ .reset dev rest
  role : s.role = .listener

/-! ### Ends of a request -/

/-- `t` is `s` after a refused request: the condition Refused, the caller's answer, and nothing else (60_exceptions.md R337). -/
def State.Refused (s t : State) (sel : BitVec 5) (v : Value) : Prop :=
  t.cause = .refused ∧ t.causeInfo = sel.zeroExtend 8 ∧ t.result = .refused v ∧
  { t with cause := s.cause, causeInfo := s.causeInfo, result := s.result } = s

/-- `t` is `s` after a ConfigError: the condition, `false` to the caller, and nothing else (60_exceptions.md R336). -/
def State.ConfigErrorOf (s t : State) (info : Byte) : Prop :=
  t.cause = .configError ∧ t.causeInfo = info ∧ t.result = .completed (.bool false) ∧
  { t with cause := s.cause, causeInfo := s.causeInfo, result := s.result } = s

/-- The command bytes that raise Malformed at each place a byte is read at (42_atn_decoder.md R186, R191, R194;
44_bus_coordinator.md R265). -/
def misplaced (c : Ctl) (i : Instr) : Bool :=
  match i with
  | .invalid01_1F _ | .invalid70_7F _ | .invalid80_BF _ | .invalidC0_DF _ =>
    match c with
    | .primary | .secondary | .payload | .listening => true
    | .idle | .hook _ _ => false
  | .globalCmd | .listen _ | .talk _ =>
    match c with
    | .secondary | .payload | .listening => true
    | .idle | .primary | .hook _ _ => false
  | .untalk | .dataCmd _ | .closeCmd _ | .openCmd _ =>
    match c with
    | .payload | .listening => true
    | .idle | .primary | .secondary | .hook _ _ => false
  | .unlisten | .service | .pull _ | .release _ | .read _ | .sendByte _ _ | .receiveByte | .turnAround | .undoTurnAround
  | .timeoutWait _ _ | .addDevice _ _ | .removeDevice _ | .deviceById _ | .changeDeviceId _ _ | .numDevices | .isEnabled _
  | .enableDevice _ | .disableDevice _ | .send _ | .sendBuffer _ _ | .sendEOI _ | .sendFileNotFound | .receive
  | .receiveBuffer _ _ => false

/-- A recovery from `s` undoes a turnaround, and its wait sees RESET (44_bus_coordinator.md R281; 60_exceptions.md R341). -/
def State.UndoSeesReset (s : State) : Prop := s.turn = .turned ∧ s.undoTurnAround.2.flags.rst = true

/-! ### Views of the wire -/

/-- The DATA level at each release of CLK, in order, from events oldest first; `d` is the engine's DATA level before them. -/
def dataAtClkRelease (d : LineState) : List WireEvent → List LineState
  | [] => []
  | e :: rest =>
    if e.line = .data then dataAtClkRelease e.state rest
    else if e.line = .clk ∧ e.state = .released then d :: dataAtClkRelease d rest
    else dataAtClkRelease d rest

/-- DATA changes only while CLK is pulled, along events oldest first; `c` is the engine's CLK level before them
(41_byte_handshake.md R162). -/
def dataOnlyUnderClk (c : LineState) : List WireEvent → Bool
  | [] => true
  | e :: rest =>
    if e.line = .clk then dataOnlyUnderClk e.state rest
    else if e.line = .data then c == .pulled && dataOnlyUnderClk c rest
    else dataOnlyUnderClk c rest

/-- The events of one line. -/
def eventsOf (l : Line) (evs : List WireEvent) : List WireEvent := evs.filter fun e => e.line == l

/-- The events of `t` that are not in `s`, oldest first. -/
def newEvents (s t : Bus) : List WireEvent := (t.wire.take (t.wire.length - s.wire.length)).reverse

end Sys2Proof.Machine
end

