-- ==== Sys2Proof/Certificates/Slice0/Obligations.lean ====
section
/-! DEFINITION. The statements for the provers. Each docstring names the rules of spec/ it formalises; where a clause rests
on a choice of the model the docstring names the log entry. -/
open Sys2Proof Sys2Proof.Machine

/-! ### Encoding -/

/-- Every well-formed instruction, with every operand at every value its encoding admits, decodes from its own encoding
(30_encoding.md R92, R100, R101). -/
def Obligations.DecodeOfEncode : Prop :=
  ∀ i : Instr, WellFormed i = true → decode (encode i) = .instr i

/-- Classification by byte ranges with the field each row writes, of all 256 bytes, and no bit of a byte is dropped
(30_encoding.md R92, rows 1 to 9; R91, R93, R95). -/
def Obligations.ClassificationByByteRanges : Prop :=
  ∀ b : Byte,
    WellFormed (decodeCmd8 b) = true ∧ encode (decodeCmd8 b) = .cmd b ∧
    (b.toNat = 0x00 → decode (.cmd b) = .instr .globalCmd) ∧
    (b.toNat = 0x3F → decode (.cmd b) = .instr .unlisten) ∧
    (b.toNat = 0x5F → decode (.cmd b) = .instr .untalk) ∧
    (0x20 ≤ b.toNat ∧ b.toNat ≤ 0x3E → decode (.cmd b) = .instr (.listen (BitVec.ofNat 5 (b &&& 0x1F#8).toNat))) ∧
    (0x40 ≤ b.toNat ∧ b.toNat ≤ 0x5E → decode (.cmd b) = .instr (.talk (BitVec.ofNat 5 (b &&& 0x1F#8).toNat))) ∧
    (0x60 ≤ b.toNat ∧ b.toNat ≤ 0x6F → decode (.cmd b) = .instr (.dataCmd (BitVec.ofNat 4 (b &&& 0x0F#8).toNat))) ∧
    (0xE0 ≤ b.toNat ∧ b.toNat ≤ 0xEF → decode (.cmd b) = .instr (.closeCmd (BitVec.ofNat 4 (b &&& 0x0F#8).toNat))) ∧
    (0xF0 ≤ b.toNat → decode (.cmd b) = .instr (.openCmd (BitVec.ofNat 4 (b &&& 0x0F#8).toNat))) ∧
    (0x01 ≤ b.toNat ∧ b.toNat ≤ 0x1F → decode (.cmd b) = .instr (.invalid01_1F (BitVec.ofNat 5 b.toNat))) ∧
    (0x70 ≤ b.toNat ∧ b.toNat ≤ 0x7F → decode (.cmd b) = .instr (.invalid70_7F (BitVec.ofNat 4 b.toNat))) ∧
    (0x80 ≤ b.toNat ∧ b.toNat ≤ 0xBF → decode (.cmd b) = .instr (.invalid80_BF (BitVec.ofNat 6 b.toNat))) ∧
    (0xC0 ≤ b.toNat ∧ b.toNat ≤ 0xDF → decode (.cmd b) = .instr (.invalidC0_DF (BitVec.ofNat 5 b.toNat)))

/-- Words written out from 30_encoding.md R91, R92, R100, R101 decode to the instructions they stand for. -/
def Obligations.WrittenWordsDecode : Prop :=
  decode (.cmd 0b00101000#8) = .instr (.listen 8) ∧
  decode (.cmd 0b01011110#8) = .instr (.talk 30) ∧
  decode (.cmd 0b01100010#8) = .instr (.dataCmd 2) ∧
  decode (.cmd 0b11100010#8) = .instr (.closeCmd 2) ∧
  decode (.cmd 0b11111111#8) = .instr (.openCmd 15) ∧
  decode (.cmd 0b01110001#8) = .instr (.invalid70_7F 1) ∧
  decode (.op { OpRequest.ofSelect 0b00001#5 with line := 0b001#3 }) = .instr (.pull .clk) ∧
  decode (.op { OpRequest.ofSelect 0b00100#5 with value := 0x53#8, eoi := 0b1#1 }) = .instr (.sendByte 0x53#8 true) ∧
  decode (.op { OpRequest.ofSelect 0b10110#5 with id := 8#5 }) = .instr (.enableDevice 8) ∧
  decode (.op (OpRequest.ofSelect 0b11100#5)) = .instr .receive

/-- Select codes 0x09 to 0x0F, 0x1E and 0x1F are the reserved ones (30_encoding.md R102); and a request that does not decode,
for a reserved select code, a reserved line code (30_encoding.md R101) or a buffer of fewer than `length` bytes (the model's
choice, log 24), is refused: the condition Refused with the select code, nothing else (60_exceptions.md R337). What the caller
is handed with it is the model's choice where no rule says it (log 9). -/
def Obligations.ReservedSelectIsRefused : Prop :=
  ∀ r : OpRequest,
    (decodeOp r = .reject .reservedSelect ↔ (0x09 ≤ r.op.toNat ∧ r.op.toNat ≤ 0x0F) ∨ 0x1E ≤ r.op.toNat) ∧
    ∀ e, decodeOp r = .reject e →
      (∀ (s : State) (rest : List OpRequest), s.ctl = .idle → s.host = r :: rest →
        ∃ t, step s = .next t ∧ State.Refused { s with host := rest } t r.op (refusalValue r.op)) ∧
      (∀ (s : State) (rest : List DevMove) (h : Hook) (pd : Bool), s.ctl = .hook h pd → s.device = .request r :: rest →
        ∃ t, step s = .next t ∧ State.Refused { s with device := rest } t r.op (refusalValue r.op))

/-- Line codes 5 to 7 are reserved, in every operation with a line operand; and without `HAS_SRQ` a request on the SRQ line is
refused (30_encoding.md R101). What a refused `read` or `timeoutWait` hands its caller is the model's choice (log 9). -/
def Obligations.AbsentLineIsRefused : Prop :=
  (∀ r : OpRequest, 5 ≤ r.line.toNat → (r.op = 0x01#5 ∨ r.op = 0x02#5 ∨ r.op = 0x03#5 ∨ r.op = 0x08#5) →
    decodeOp r = .reject .reservedLine) ∧
  ∀ s : State, s.cfg.hasSrq = false →
    (∃ t, exec (.pull .srq) s = .next t ∧ s.Refused t 0x01#5 .none) ∧
    (∃ t, exec (.release .srq) s = .next t ∧ s.Refused t 0x02#5 .none) ∧
    (∃ t, exec (.read .srq) s = .next t ∧ s.Refused t 0x03#5 .none) ∧
    (∀ x, ∃ t, exec (.timeoutWait .srq x) s = .next t ∧ s.Refused t 0x08#5 (.bool false))

/-! ### The step -/

/-- A step runs the decoded instruction: a request of the host program, `service()` when it has none, a device's request
inside a hook, and a command byte received at each of the four places a byte is read at, after the samples the rules take
first (42_atn_decoder.md R183, R190, R194; 44_bus_coordinator.md R250, R265; 30_encoding.md R103). While a hook does not return,
only the environment moves (70_reset_and_hazards.md R388; log 27). That the host program calls service() when it has no request
is the model's choice (log 7), and so is what one step is (log 8). -/
def Obligations.StepRunsTheDecodedInstruction : Prop :=
  (∀ (s : State) (r : OpRequest) (rest : List OpRequest) (i : Instr), s.ctl = .idle → s.host = r :: rest →
    decode (.op r) = .instr i → step s = exec i { s with host := rest }) ∧
  (∀ s : State, s.ctl = .idle → s.host = [] → step s = exec .service s) ∧
  (∀ (s : State) (h : Hook) (pd : Bool) (r : OpRequest) (rest : List DevMove) (i : Instr), s.ctl = .hook h pd →
    s.device = .request r :: rest → 0x18 ≤ r.op.toNat → decode (.op r) = .instr i →
    step s = exec i { s with device := rest }) ∧
  (∀ (s : State) (h : Hook) (pd : Bool) (rest : List DevMove), s.ctl = .hook h pd → s.device = .hang :: rest →
    step s = .next { s with bus := s.bus.envMove }) ∧
  (∀ (s t : State) (b : Byte) (i : Instr), (s.ctl = .primary ∨ s.ctl = .secondary ∨ s.ctl = .payload) →
    s.sample .reset = .released → (s.afterRead .reset).receiveByte = (b, t) →
    t.flags.rst = false → t.flags.err = false → t.flags.atn = true → decode (.cmd b) = .instr i → step s = exec i t) ∧
  (∀ (s t : State) (b : Byte) (i : Instr), s.ctl = .listening → s.sample .reset = .released →
    (s.afterRead .reset).sample .atn = .released → ((s.afterRead .reset).afterRead .atn).receiveByte = (b, t) →
    t.flags.rst = false → t.flags.err = false → t.flags.atn = true → decode (.cmd b) = .instr i → step s = exec i t)

/-- "Nothing in this core is fatal": every step of every state answers a next state (44_bus_coordinator.md R250). -/
def Obligations.NothingIsFatal : Prop :=
  ∀ s : State, ∃ t, step s = .next t

/-! ### Invariants -/

/-- The state at power-on meets the invariant and has every value of column 2 of 10_state.md R52. -/
def Obligations.PowerOnState : Prop :=
  State.reset.Inv ∧ State.reset.bus.own = Lines.released ∧ State.reset.record.mode = .idle ∧
  State.reset.record.raw = 0x00#8 ∧ State.reset.record.kind = .none ∧ State.reset.record.channel = 0#4 ∧
  State.reset.record.deviceId = 0#5 ∧ State.reset.record.auxLen = 0 ∧ (∀ i, State.reset.record.memRead i = none) ∧
  State.reset.role = .none ∧ State.reset.active = none ∧ State.reset.enabled = State.reset.cfg.enabledInit ∧
  State.reset.slots = [] ∧ State.reset.flags = { eoi := false, atn := false, err := false, rst := false } ∧
  State.reset.cause = .none ∧ State.reset.causeInfo = 0x00#8 ∧ State.reset.resetLatch = false ∧
  State.reset.turn = .notTurned

/-- Every step keeps the invariant: I1 to I5 of the registry, the selection, the buffer's canonical form and bound, the range
of `rec.device_id`, the latch, and the agreement of record and role with where the call stands (43_device_registry.md R220,
R230; 10_state.md R25, R26, R31; 44_bus_coordinator.md R252). The latch clause rests on log 8. -/
def Obligations.StepKeepsInvariant : Prop :=
  ∀ s t : State, s.Inv → step s = .next t → t.Inv

/-- The parameters never change, and no step of a running call changes the registry or the mask (00_scope.md R7;
43_device_registry.md R221). -/
def Obligations.RunningCallKeepsSetup : Prop :=
  ∀ s t : State, step s = .next t → t.cfg = s.cfg ∧ (s.ctl ≠ .idle → t.slots = s.slots ∧ t.enabled = s.enabled)

/-- When a running call returns, `rec.mode` is the one of `role`; and IDLE means nobody is selected, the turnaround is as
new and both handshake lines are let go (44_bus_coordinator.md R252). -/
def Obligations.ReturnToIdleLetsGo : Prop :=
  ∀ s t : State, s.Inv → s.ctl ≠ .idle → step s = .next t → t.ctl = .idle →
    t.record.mode = modeOf t.role ∧
    (t.record.mode = .idle → t.active = none ∧ t.role = .none ∧ t.turn = .notTurned ∧
      t.bus.own.clk = .released ∧ t.bus.own.data = .released)

/-- The engine never makes itself pull ATN, RESET or SRQ: they are released at power-on, and a step that is not a requested
`pull` of the line leaves a released one released and pulls it at no moment in between (20_memory.md R63). -/
def Obligations.EngineNeverPullsAtnResetOrSrq : Prop :=
  (∀ l, undrivenLine l = true → State.reset.bus.own.get l = .released) ∧
  ∀ (s t : State) (l : Line), undrivenLine l = true → (∀ u, fetch s ≠ .run (.pull l) u) → step s = .next t →
    (s.bus.own.get l = .released → t.bus.own.get l = .released) ∧
    (∀ e ∈ newEvents s.bus t.bus, e.state = .pulled → e.line ≠ l)

/-- Time never goes back, the environment's moves are used in their order, and no change the others have seen is taken back
(20_memory.md R70, R74; 00_scope.md R12). The environment's moves and the wire's record are the model's own (log 2, log 15). -/
def Obligations.TimeAndWireOnlyGrow : Prop :=
  ∀ s t : State, step s = .next t → s.bus.now ≤ t.bus.now ∧ t.bus.env <:+ s.bus.env ∧ s.bus.wire <:+ t.bus.wire

/-! ### Line Driver -/

/-- `pull(l)`, select 0x01: the engine drives the line low, in output mode, the level is pulled, and no other line or register
changes; a line it already pulls is left as it is; a reserved line code is rejected and an absent line refused
(40_line_driver.md R121). -/
def Obligations.PullDrivesTheLine : Prop :=
  (∀ (r : OpRequest) (l : Line), r.op = 0x01#5 → r.line = lineCode l → decode (.op r) = .instr (.pull l)) ∧
  (∀ r : OpRequest, r.op = 0x01#5 → 5 ≤ r.line.toNat → decode (.op r) = .reject .reservedLine) ∧
  (∀ (l : Line) (s : State), s.linePresent l = false → ∃ t, exec (.pull l) s = .next t ∧ s.Refused t 0x01#5 .none) ∧
  ∀ (l : Line) (s : State), s.linePresent l = true →
    ∃ t, exec (.pull l) s = .next t ∧ t.result = .completed .none ∧
      t.bus.own.get l = .pulled ∧ t.bus.own.isOutput l = true ∧ t.bus.level l = .pulled ∧
      (∀ m, m ≠ l → t.bus.own.get m = s.bus.own.get m) ∧
      (s.bus.own.get l = .pulled → t.bus.own = s.bus.own ∧ t.bus.wire = s.bus.wire) ∧
      { t with bus := s.bus, result := s.result } = s

/-- `release(l)`, select 0x02: input mode, the level is the others', and no other line or register changes; a line the engine
does not pull is left as it is; a reserved line code is rejected and an absent line refused (40_line_driver.md R122). -/
def Obligations.ReleaseLetsTheLineGo : Prop :=
  (∀ (r : OpRequest) (l : Line), r.op = 0x02#5 → r.line = lineCode l → decode (.op r) = .instr (.release l)) ∧
  (∀ r : OpRequest, r.op = 0x02#5 → 5 ≤ r.line.toNat → decode (.op r) = .reject .reservedLine) ∧
  (∀ (l : Line) (s : State), s.linePresent l = false → ∃ t, exec (.release l) s = .next t ∧ s.Refused t 0x02#5 .none) ∧
  ∀ (l : Line) (s : State), s.linePresent l = true →
    ∃ t, exec (.release l) s = .next t ∧ t.result = .completed .none ∧
      t.bus.own.get l = .released ∧ t.bus.own.isOutput l = false ∧ t.bus.level l = t.bus.ext.get l ∧
      (∀ m, m ≠ l → t.bus.own.get m = s.bus.own.get m) ∧
      (s.bus.own.get l = .released → t.bus.own = s.bus.own ∧ t.bus.wire = s.bus.wire) ∧
      { t with bus := s.bus, result := s.result } = s

/-- `read(l)` lets the line go before it senses, and returns the others' level, never the engine's own drive
(40_line_driver.md R123, R124). -/
def Obligations.ReadReleasesAndSenses : Prop :=
  ∀ (l : Line) (s : State), s.linePresent l = true →
    ∃ t, exec (.read l) s = .next t ∧ t.result = .completed (.line (t.bus.ext.get l)) ∧
      t.bus.own.get l = .released ∧ t.bus.own.isOutput l = false ∧ t.bus.level l = t.bus.ext.get l ∧
      (∀ m, m ≠ l → t.bus.own.get m = s.bus.own.get m) ∧
      { t with bus := s.bus, result := s.result } = s

/-! ### Byte Handshake: the bounded wait -/

/-- `timeoutWait(l, x)` on lines that hold still: seen at once; else the deadline with `flags.err`; RESET before both
(41_byte_handshake.md R141, R142; 60_exceptions.md R342). -/
def Obligations.WaitOnSteadyLines : Prop :=
  ∀ (s : State) (l : Line) (x y : LineState), s.linePresent l = true →
    (s.bus.Holds .reset .released → s.bus.Holds l x →
      ∃ t, exec (.timeoutWait l x) s = .next t ∧ t.result = .completed (.bool true) ∧ t.bus.own.get l = .released ∧
        (∀ m, m ≠ l → m ≠ .reset → t.bus.own.get m = s.bus.own.get m) ∧ { t with bus := s.bus, result := s.result } = s) ∧
    (s.bus.Holds .reset .released → s.bus.Holds l y → y ≠ x →
      ∃ t, exec (.timeoutWait l x) s = .next t ∧ t.result = .completed (.bool false) ∧ t.bus.own.get l = .released ∧
        s.bus.now + s.cfg.tTimeout ≤ t.bus.now ∧ t.flags = { s.flags with err := true } ∧
        (∀ m, m ≠ l → m ≠ .reset → t.bus.own.get m = s.bus.own.get m) ∧
        { t with bus := s.bus, flags := s.flags, result := s.result } = s) ∧
    (s.bus.Holds .reset .pulled →
      ∃ t, exec (.timeoutWait l x) s = .next t ∧ t.result = .completed (.bool false) ∧
        t.flags = { s.flags with err := true, rst := true } ∧
        (∀ m, m ≠ .reset → t.bus.own.get m = s.bus.own.get m) ∧
        { t with bus := s.bus, flags := s.flags, result := s.result } = s)

/-- What the result of a wait says, whatever the environment does: true, and the line was seen in the state, let go, with no
flag written; false, and `flags.err` is set by a RESET that was seen pulled or by a deadline that has passed. And the loop
samples until the deadline: a line that comes to the state late, with no RESET and less than `T_TIMEOUT` gone, is seen in time,
if it keeps the state for three moves (an iteration takes three samples: log 3) or for good (41_byte_handshake.md R141). -/
def Obligations.WaitResultIsSound : Prop :=
  ∀ (s : State) (l : Line) (x : LineState), s.linePresent l = true →
    ∃ (t : State) (ok : Bool), exec (.timeoutWait l x) s = .next t ∧ t.result = .completed (.bool ok) ∧
      (ok = true → t.flags = s.flags ∧ t.bus.ext.get l = x ∧ t.bus.own.get l = .released) ∧
      (ok = false →
        (t.flags = { s.flags with err := true, rst := true } ∧ t.bus.ext.get .reset = .pulled ∧ t.bus.own.reset = .released) ∨
        (t.flags = { s.flags with err := true } ∧ s.bus.now + s.cfg.tTimeout ≤ t.bus.now)) ∧
      (∀ early seen rest : List EnvMove, s.bus.env = early ++ seen ++ rest → seen.length = 3 ∨ (seen ≠ [] ∧ rest = []) →
        (∀ m ∈ early ++ seen, m.ext.reset = .released) → (∀ m ∈ seen, m.ext.get l = x) →
        ((early ++ seen).map fun m => m.dt).sum < s.cfg.tTimeout →
        ok = true ∧ t.bus.now < s.bus.now + s.cfg.tTimeout) ∧
      (∀ m, m ≠ l → m ≠ .reset → t.bus.own.get m = s.bus.own.get m) ∧
      { t with bus := s.bus, flags := s.flags, result := s.result } = s

/-! ### Byte Handshake: one byte each way -/

/-- `receiveByte()` against a talker that follows the protocol: the byte, its EOI and its ATN, CLK untouched and DATA pulled
as the acknowledge; a talker that keeps CLK released for some samples more, but pulls it before `T_EOI` is over, sends no EOI
(41_byte_handshake.md R150, R152 to R155). The sequences are general knowledge in the spec (log 20). -/
def Obligations.ReceiveByteTakesTheTalkersByte : Prop :=
  ∀ (s : State) (atn : LineState) (n dt : Nat) (e : Bool) (v : Byte) (rest : List EnvMove),
    s.bus.env = List.replicate (2 * n) (envTo atn .released .released dt) ++ talkerScript atn dt e v ++ rest →
    (e = true → s.cfg.tEoi ≤ 2 * dt) → n = 0 ∨ (e = false ∧ 2 * n * dt < s.cfg.tEoi) →
    ∃ t, exec .receiveByte s = .next t ∧ t.result = .completed (.byte v) ∧
      t.flags = { eoi := e, atn := atn == .pulled, err := false, rst := s.flags.rst } ∧
      t.bus.own.clk = .released ∧ t.bus.own.data = .pulled ∧ t.bus.own.srq = s.bus.own.srq ∧ t.bus.env = rest ∧
      { t with bus := s.bus, flags := s.flags, result := s.result } = s

/-- `receiveByte()` whatever the environment does: it always ends; a failed wait gives 0x00 with `flags.err = 1`, a byte
received leaves DATA pulled; EOI is read only after `T_EOI`, so a call over before then has none, and it is acknowledged by a
pulse: DATA pulled, no earlier than `T_EOI` after the call, for at least `T_EOI_ACK`, and then released, with no other line
change between; nothing but the bus, the flags and the result changes (41_byte_handshake.md R150, R152, R155, R156). The
sequence is general knowledge in the spec (log 20). -/
def Obligations.ReceiveByteAlwaysEnds : Prop :=
  ∀ s : State, ∃ (t : State) (v : Byte), exec .receiveByte s = .next t ∧ t.result = .completed (.byte v) ∧
    (t.flags.err = true → v = 0x00#8) ∧ (t.flags.err = false → t.bus.own.data = .pulled) ∧
    (s.flags.rst = true → t.flags.rst = true) ∧ t.bus.own.srq = s.bus.own.srq ∧
    (t.bus.now < s.bus.now + s.cfg.tEoi → t.flags.eoi = false) ∧
    (t.flags.eoi = true → ∃ (before after : List WireEvent) (t1 t2 : Nat), s.bus.now + s.cfg.tEoi ≤ t1 ∧
      t1 + s.cfg.tEoiAck ≤ t2 ∧
      newEvents s.bus t.bus = before ++ [⟨t1, .data, .pulled⟩, ⟨t2, .data, .released⟩] ++ after) ∧
    { t with bus := s.bus, flags := s.flags, result := s.result } = s

/-- `sendByte(v, e)` against a listener that follows the protocol succeeds and leaves the talker's idle state
(41_byte_handshake.md R160, R161). The sequences are general knowledge in the spec (log 20). -/
def Obligations.SendByteIsAccepted : Prop :=
  ∀ (s : State) (dt : Nat) (e : Bool) (v : Byte) (rest : List EnvMove), s.bus.env = listenerScript dt e ++ rest →
    ∃ t, exec (.sendByte v e) s = .next t ∧ t.result = .completed (.bool true) ∧
      t.flags = { s.flags with err := false } ∧ t.bus.own.clk = .pulled ∧ t.bus.own.data = .released ∧
      t.bus.own.atn = s.bus.own.atn ∧ t.bus.own.srq = s.bus.own.srq ∧ t.bus.env = rest ∧
      { t with bus := s.bus, flags := s.flags, result := s.result } = s

/-- A byte that was sent, whatever the environment did: DATA at each release of CLK was its eight bits, bit 0 first, released
for 1; from the talker's state DATA changed only while CLK was pulled; after the release of CLK that says "ready", CLK was
pulled and released eight times and then pulled, each change at least `T_BIT` after the one before; and the result is told by
`flags.err` (41_byte_handshake.md R160, R162; 20_memory.md R65). The sequences are general knowledge in the spec (log 20). -/
def Obligations.SendByteClocksOutTheBits : Prop :=
  ∀ (s : State) (v : Byte) (e : Bool), ∃ (t : State) (ok : Bool), exec (.sendByte v e) s = .next t ∧
    t.result = .completed (.bool ok) ∧ t.flags.err = !ok ∧
    (ok = true → t.bus.own.clk = .pulled ∧ t.bus.own.data = .released ∧
      dataAtClkRelease s.bus.own.data (newEvents s.bus t.bus) =
        (if s.bus.own.clk = .pulled then [s.bus.own.data] else []) ++ cellsOf v ∧
      (s.bus.own.data = .released → dataOnlyUnderClk s.bus.own.clk (newEvents s.bus t.bus) = true) ∧
      (∃ ready clocks, eventsOf .clk (newEvents s.bus t.bus) = ready ++ clocks ∧
        ready.length = (if s.bus.own.clk = .pulled then 1 else 0) ∧
        (clocks.map fun e => e.state) = (List.replicate 8 [LineState.pulled, .released]).flatten ++ [.pulled] ∧
        clocks.Pairwise fun e f => e.time + s.cfg.tBit ≤ f.time)) ∧
    { t with bus := s.bus, flags := s.flags, result := s.result } = s

/-- Round trip: what a `receiveByte` assembles from the eight cells a successful `sendByte` left on the wire is the byte that
was sent, with its EOI flag, for every byte and both framings (41_byte_handshake.md R178). The receiver's partner keeps CLK
released for `T_EOI` when the byte was sent with EOI (R152), and the sequences are general knowledge in the spec (log 20). -/
def Obligations.SentByteIsReceived : Prop :=
  ∀ (s t r : State) (v : Byte) (e : Bool) (atn : LineState) (dt : Nat) (cells : List LineState) (rest : List EnvMove),
    exec (.sendByte v e) s = .next t → t.result = .completed (.bool true) → cells.length = 8 →
    cells <:+ dataAtClkRelease s.bus.own.data (newEvents s.bus t.bus) →
    r.bus.env = talkerScriptOf atn dt e cells ++ rest → (e = true → r.cfg.tEoi ≤ 2 * dt) →
    ∃ u, exec .receiveByte r = .next u ∧ u.result = .completed (.byte v) ∧ u.flags.eoi = e ∧ u.flags.err = false

/-! ### Byte Handshake: the turnaround -/

/-- `turnAround()` makes the engine the talker (CLK pulled, DATA released), `undoTurnAround()` makes it the listener again (DATA
pulled, CLK released), each after two settle delays. Whatever the environment does, each ends with `flags.err` telling a failed
wait: `turnAround` then leaves `turn` and its own lines but CLK as they were, `undoTurnAround` has its lines swapped and `turn`
UNDONE already; CLK that does not come, and RESET, fail the wait (41_byte_handshake.md R170, R174, R141; 10_state.md R46). The
line sequences are general knowledge in the spec (log 20). -/
def Obligations.TurnaroundSwapsTheRoles : Prop :=
  (∀ s : State, s.turn = .notTurned → s.bus.Holds .reset .released → s.bus.Holds .clk .released →
    ∃ t, exec .turnAround s = .next t ∧ t.result = .completed (.bool true) ∧ t.turn = .turned ∧
      t.bus.own.clk = .pulled ∧ t.bus.own.data = .released ∧ t.bus.own.atn = s.bus.own.atn ∧
      t.bus.own.srq = s.bus.own.srq ∧ s.bus.now + 2 * s.cfg.tTurn ≤ t.bus.now ∧ t.flags = { s.flags with err := false } ∧
      { t with bus := s.bus, flags := s.flags, turn := s.turn, result := s.result } = s) ∧
  (∀ s : State, s.turn = .turned → s.bus.Holds .reset .released → s.bus.Holds .clk .pulled →
    ∃ t, exec .undoTurnAround s = .next t ∧ t.result = .completed (.bool true) ∧ t.turn = .undone ∧
      t.bus.own.data = .pulled ∧ t.bus.own.clk = .released ∧ t.bus.own.atn = s.bus.own.atn ∧
      t.bus.own.srq = s.bus.own.srq ∧ s.bus.now + 2 * s.cfg.tTurn ≤ t.bus.now ∧ t.flags = { s.flags with err := false } ∧
      { t with bus := s.bus, flags := s.flags, turn := s.turn, result := s.result } = s) ∧
  (∀ s : State, s.turn = .notTurned → ∃ (t : State) (ok : Bool), exec .turnAround s = .next t ∧
    t.result = .completed (.bool ok) ∧ t.flags.err = !ok ∧ t.turn = (if ok then .turned else .notTurned) ∧
    (ok = true → t.bus.own.clk = .pulled ∧ t.bus.own.data = .released) ∧
    (ok = false → t.bus.own.data = s.bus.own.data) ∧ t.bus.own.atn = s.bus.own.atn ∧ t.bus.own.srq = s.bus.own.srq ∧
    (s.bus.Holds .reset .released → s.bus.Holds .clk .pulled → ok = false ∧ t.flags = { s.flags with err := true } ∧
      t.bus.own.clk = .released) ∧
    (s.bus.Holds .reset .pulled → ok = false ∧ t.flags = { s.flags with err := true, rst := true }) ∧
    { t with bus := s.bus, flags := s.flags, turn := s.turn, result := s.result } = s) ∧
  (∀ s : State, s.turn = .turned → ∃ (t : State) (ok : Bool), exec .undoTurnAround s = .next t ∧
    t.result = .completed (.bool ok) ∧ t.flags.err = !ok ∧ t.turn = .undone ∧
    t.bus.own.data = .pulled ∧ t.bus.own.clk = .released ∧ t.bus.own.atn = s.bus.own.atn ∧ t.bus.own.srq = s.bus.own.srq ∧
    s.bus.now + 2 * s.cfg.tTurn ≤ t.bus.now ∧
    (s.bus.Holds .reset .released → s.bus.Holds .clk .released → ok = false ∧ t.flags = { s.flags with err := true }) ∧
    (s.bus.Holds .reset .pulled → ok = false ∧ t.flags = { s.flags with err := true, rst := true }) ∧
    { t with bus := s.bus, flags := s.flags, turn := s.turn, result := s.result } = s)

/-- ProtocolError: a second reversal returns `false` with `flags.err = 1` and touches no line; inside `service()` (a talk phase
of a transaction that has already turned, once ATN is let go) the caller runs `recover()`; that its undo of the turnaround sees
RESET is in ResetAbortsTheEpisode (60_exceptions.md R335; 44_bus_coordinator.md R272). -/
def Obligations.SecondReversalIsProtocolError : Prop :=
  (∀ (i : Instr) (s : State), (i = .turnAround ∧ s.turn ≠ .notTurned) ∨ (i = .undoTurnAround ∧ s.turn ≠ .turned) →
    ∃ t, exec i s = .next t ∧ t.result = .completed (.bool false) ∧ t.flags = { s.flags with err := true } ∧
      t.cause = .protocolError ∧ t.causeInfo = (turnCode s.turn).zeroExtend 8 ∧ t.bus = s.bus ∧
      { t with flags := s.flags, cause := s.cause, causeInfo := s.causeInfo, result := s.result } = s) ∧
  (∀ (s u : State) (ch : Channel) (i : Instr) (b : Byte) (k : CmdKind),
    (s.ctl = .secondary ∧ s.record.mode = .talk) ∨ (s.ctl = .primary ∧ s.role = .talker) →
    (i = .dataCmd ch ∧ b = dataByte ch ∧ k = .data) ∨ (i = .closeCmd ch ∧ b = closeByte ch ∧ k = .close) ∨
      (i = .openCmd ch ∧ b = openByte ch ∧ k = .opn) →
    s.timeoutWait .atn .released = (true, u) → s.turn ≠ .notTurned →
    u.turnAround.2.flags.rst = false → ¬ u.turnAround.2.UndoSeesReset →
    ∃ t, exec i s = .next t ∧ t.cause = .protocolError ∧ t.causeInfo = (turnCode s.turn).zeroExtend 8 ∧
      State.EndedIdle { s with bus := u.bus } { s.record with raw := b, kind := k, channel := ch } t .error)

/-! ### ATN Decoder -/

/-- LISTEN id and TALK id of a registered, enabled device select it, in the role the byte gives it, and the secondary is read
next (42_atn_decoder.md R189, R185; 44_bus_coordinator.md R260). -/
def Obligations.ListenAndTalkSelectTheDevice : Prop :=
  ∀ (s : State) (id : DeviceId), s.ctl = .primary → (slotById s.slots id).isSome → maskHas s.enabled id = true →
    (∃ t, exec (.listen id) s = .next t ∧ t.active = some id ∧ t.role = .listener ∧ t.turn = .notTurned ∧
      t.ctl = .secondary ∧
      t.record = { s.record with mode := .listen, raw := listenByte id, kind := .listen, deviceId := id } ∧
      { t with active := s.active, role := s.role, turn := s.turn, ctl := s.ctl, record := s.record } = s) ∧
    (∃ t, exec (.talk id) s = .next t ∧ t.active = some id ∧ t.role = .talker ∧ t.turn = .notTurned ∧
      t.ctl = .secondary ∧
      t.record = { s.record with mode := .talk, raw := talkByte id, kind := .talk, deviceId := id } ∧
      { t with active := s.active, role := s.role, turn := s.turn, ctl := s.ctl, record := s.record } = s)

/-- LISTEN id and TALK id of an id that is not registered or not enabled: silently ignored, no condition, and the selection is
cleared (60_exceptions.md R338; 44_bus_coordinator.md R260, R262). -/
def Obligations.UnaddressedDeviceIsIgnored : Prop :=
  ∀ (s : State) (id : DeviceId), s.ctl = .primary → slotById s.slots id = none ∨ maskHas s.enabled id = false →
    (∃ t, exec (.listen id) s = .next t ∧
      s.EndedIdle { s.record with raw := listenByte id, kind := .listen, deviceId := id } t .idle ∧
      t.flags = s.flags ∧ t.cause = s.cause ∧ t.causeInfo = s.causeInfo) ∧
    (∃ t, exec (.talk id) s = .next t ∧
      s.EndedIdle { s.record with raw := talkByte id, kind := .talk, deviceId := id } t .idle ∧
      t.flags = s.flags ∧ t.cause = s.cause ∧ t.causeInfo = s.causeInfo)

/-- UNLISTEN and UNTALK, as primary or in place of the secondary: the active device is cleared whatever the role, the call
ends in IDLE with result CMD, and no hook is called (44_bus_coordinator.md R263; 42_atn_decoder.md R188, R200, R191). -/
def Obligations.UnlistenAndUntalkClearTheSelection : Prop :=
  ∀ s : State, s.ctl = .primary ∨ s.ctl = .secondary →
    (∃ t, exec .unlisten s = .next t ∧ s.EndedIdle { s.record with raw := 0x3F#8, kind := .unlisten } t .cmd ∧
      t.flags = s.flags ∧ t.cause = s.cause ∧ t.causeInfo = s.causeInfo ∧ t.bus.own.reset = s.bus.own.reset) ∧
    (∃ t, exec .untalk s = .next t ∧ s.EndedIdle { s.record with raw := 0x5F#8, kind := .untalk } t .cmd ∧
      t.flags = s.flags ∧ t.cause = s.cause ∧ t.causeInfo = s.causeInfo ∧ t.bus.own.reset = s.bus.own.reset)

/-- UNLISTEN under ATN closes an OPEN payload, whose record stays and goes to the device with `ended`, and it ends listen data
(42_atn_decoder.md R194; 44_bus_coordinator.md R264, R265). -/
def Obligations.UnlistenEndsPayloadAndListenData : Prop :=
  (∀ s : State, s.ctl = .payload →
    ∃ t, exec .unlisten s = .next t ∧ t.ctl = .hook (.processCommand s.record true) false ∧ { t with ctl := s.ctl } = s) ∧
  (∀ s : State, s.ctl = .listening →
    ∃ t, exec .unlisten s = .next t ∧ s.EndedIdle s.record t .cmd ∧
      t.flags = s.flags ∧ t.cause = s.cause ∧ t.causeInfo = s.causeInfo)

/-- DATA, CLOSE and OPEN for a listening device, as the secondary of a LISTEN or in a later episode by the standing role: the
byte, its kind and its channel are recorded; DATA and CLOSE go to the device's hook with the record, OPEN goes on to its
payload; no line is touched (42_atn_decoder.md R191 to R195; 44_bus_coordinator.md R264). -/
def Obligations.SecondaryOfAListenerReachesTheDevice : Prop :=
  ∀ (s : State) (ch : Channel),
    (s.ctl = .secondary ∧ s.record.mode = .listen) ∨ (s.ctl = .primary ∧ s.role = .listener) →
    (∀ i b k, (i = .dataCmd ch ∧ b = dataByte ch ∧ k = CmdKind.data) ∨ (i = .closeCmd ch ∧ b = closeByte ch ∧ k = CmdKind.close) →
      ∃ t, exec i s = .next t ∧ t.record = { s.record with mode := .listen, raw := b, kind := k, channel := ch } ∧
        t.ctl = .hook (.processCommand t.record false) false ∧ { t with ctl := s.ctl, record := s.record } = s) ∧
    (∃ t, exec (.openCmd ch) s = .next t ∧
      t.record = { s.record with mode := .listen, raw := openByte ch, kind := .opn, channel := ch } ∧
      t.ctl = .payload ∧ { t with ctl := s.ctl, record := s.record } = s)

/-- DATA, CLOSE and OPEN for a talking device: the engine waits for ATN to be let go, whenever that comes, turns around once,
and calls the device's hook with the record; ATN not let go in time, be it before the turnaround or in a later episode of a
talker that has turned, or CLK not let go in time for the turnaround, is Timeout and recovery, with no hook called; and which of
these it is where the lines hold still. RESET seen on the way is in ResetAbortsTheEpisode (42_atn_decoder.md R191 to R195;
44_bus_coordinator.md R270 to R272; 60_exceptions.md R331; 41_byte_handshake.md R170). The wait for ATN's release (R271) and the
line sequence of the turnaround are general knowledge in the spec (log 20). -/
def Obligations.SecondaryOfATalkerTakesTheBus : Prop :=
  ∀ (s : State) (ch : Channel) (i : Instr) (b : Byte) (k : CmdKind),
    (s.ctl = .secondary ∧ s.record.mode = .talk) ∨ (s.ctl = .primary ∧ s.role = .talker) →
    (i = .dataCmd ch ∧ b = dataByte ch ∧ k = .data) ∨ (i = .closeCmd ch ∧ b = closeByte ch ∧ k = .close) ∨
      (i = .openCmd ch ∧ b = openByte ch ∧ k = .opn) →
    (∀ u v : State, s.timeoutWait .atn .released = (true, u) → u.turnAround = (true, v) →
      ∃ t, exec i s = .next t ∧ t.record = { s.record with mode := .talk, raw := b, kind := k, channel := ch } ∧
        t.ctl = .hook (.processCommand t.record false) false ∧ t.turn = .turned ∧ t.bus = v.bus ∧ t.flags = v.flags ∧
        t.bus.own.clk = .pulled ∧ t.bus.own.data = .released ∧ t.bus.own.srq = s.bus.own.srq ∧
        t.flags = { s.flags with err := false } ∧
        { t with bus := s.bus, flags := s.flags, turn := s.turn, ctl := s.ctl, record := s.record } = s) ∧
    (∀ u : State, s.timeoutWait .atn .released = (false, u) → u.flags.rst = false → ¬ u.UndoSeesReset →
      ∃ t, exec i s = .next t ∧ t.cause = .timeout ∧ t.causeInfo = 0x00#8 ∧
        State.EndedIdle { s with bus := u.bus } { s.record with raw := b, kind := k, channel := ch } t .error) ∧
    (∀ u : State, s.timeoutWait .atn .released = (true, u) → s.turn = .notTurned → u.turnAround.1 = false →
      u.turnAround.2.flags.rst = false →
      ∃ t, exec i s = .next t ∧ t.cause = .timeout ∧ t.causeInfo = 0x00#8 ∧
        State.EndedIdle { s with bus := u.turnAround.2.bus } { s.record with raw := b, kind := k, channel := ch } t .error) ∧
    (s.flags.rst = false → s.bus.Holds .reset .released →
      (s.bus.Holds .atn .pulled → ∃ u, s.timeoutWait .atn .released = (false, u) ∧ u.flags.rst = false ∧
        ¬ u.UndoSeesReset) ∧
      (s.bus.Holds .atn .released → s.turn = .notTurned → ∃ u, s.timeoutWait .atn .released = (true, u) ∧
        (s.bus.Holds .clk .released → ∃ v, u.turnAround = (true, v)) ∧
        (s.bus.Holds .clk .pulled → u.turnAround.1 = false ∧ u.turnAround.2.flags.rst = false)))

/-- An episode for nobody: GLOBAL, and DATA, CLOSE or OPEN as primary with no role standing. The engine lets both lines go, the
selection is cleared, result IDLE, and no flag or condition is written (42_atn_decoder.md R187, R192, R198;
44_bus_coordinator.md R262). -/
def Obligations.EpisodeForNobodyIsNotAddressed : Prop :=
  ∀ s : State, s.ctl = .primary →
    (∃ t, exec .globalCmd s = .next t ∧ s.EndedIdle { s.record with raw := 0x00#8, kind := .global } t .idle ∧
      t.flags = s.flags ∧ t.cause = s.cause ∧ t.causeInfo = s.causeInfo ∧ t.bus.own.reset = s.bus.own.reset) ∧
    (∀ (ch : Channel) (i : Instr) (b : Byte) (k : CmdKind), s.role = .none →
      (i = .dataCmd ch ∧ b = dataByte ch ∧ k = .data) ∨ (i = .closeCmd ch ∧ b = closeByte ch ∧ k = .close) ∨
        (i = .openCmd ch ∧ b = openByte ch ∧ k = .opn) →
      ∃ t, exec i s = .next t ∧ s.EndedIdle { s.record with raw := b, kind := k, channel := ch } t .idle ∧
        t.flags = s.flags ∧ t.cause = s.cause ∧ t.causeInfo = s.causeInfo ∧ t.bus.own.reset = s.bus.own.reset)

/-- The unclassifiable bytes (INVALID_01_1F, INVALID_70_7F, INVALID_80_BF, INVALID_C0_DF) at every place a byte is read at, and
a command byte where it has no place (GLOBAL, LISTEN, TALK instead of a secondary; any but UNLISTEN inside an OPEN payload or
inside listen data): Malformed with the byte, and recovery to IDLE with result ERROR. As primary the byte is recorded; in the
payload and in listen data no record field is written (42_atn_decoder.md R186, R191, R194; 44_bus_coordinator.md R265, R281;
60_exceptions.md R332). A recovery that sees RESET is in ResetAbortsTheEpisode. That a byte rejected instead of a secondary
leaves `rec.raw` and `rec.kind` is log 17, and so is what a LISTEN or TALK byte there leaves in `rec.device_id`, which is stated
of no value. -/
def Obligations.MalformedCommandIsRecovered : Prop :=
  ∀ s : State, s.flags.rst = false → ¬ s.UndoSeesReset →
    (∀ (i : Instr) (b : Byte),
      (∃ x, i = .invalid01_1F x ∧ b = invalid01Byte x) ∨ (∃ x, i = .invalid70_7F x ∧ b = invalid70Byte x) ∨
        (∃ x, i = .invalid80_BF x ∧ b = invalid80Byte x) ∨ (∃ x, i = .invalidC0_DF x ∧ b = invalidC0Byte x) →
      (s.ctl = .primary → ∃ t, exec i s = .next t ∧ t.cause = .malformed ∧ t.causeInfo = b ∧
        s.EndedIdle { s.record with raw := b, kind := .invalid } t .error) ∧
      (s.ctl = .secondary ∨ s.ctl = .payload ∨ s.ctl = .listening →
        ∃ t, exec i s = .next t ∧ t.cause = .malformed ∧ t.causeInfo = b ∧ s.EndedIdle s.record t .error)) ∧
    (s.ctl = .secondary →
      (∃ t, exec .globalCmd s = .next t ∧ t.cause = .malformed ∧ t.causeInfo = 0x00#8 ∧ s.EndedIdle s.record t .error) ∧
      (∀ id i, (i = .listen id ∨ i = .talk id) → ∃ (t : State) (d : DeviceId), exec i s = .next t ∧ t.cause = .malformed ∧
        encode i = .cmd t.causeInfo ∧ s.EndedIdle { s.record with deviceId := d } t .error)) ∧
    (s.ctl = .payload ∨ s.ctl = .listening → ∀ (i : Instr) (b : Byte), encode i = .cmd b → i ≠ .unlisten →
      ∃ t, exec i s = .next t ∧ t.cause = .malformed ∧ t.causeInfo = b ∧ s.EndedIdle s.record t .error)

/-! ### Bytes at the four places -/

/-- A payload byte that fits is stored at index `rec.aux_len`, every other cell stays, and the loop goes on, or ends at the
EOI byte with the device's hook (42_atn_decoder.md R194; 20_memory.md R66). -/
def Obligations.PayloadByteIsStored : Prop :=
  ∀ (s u : State) (b : Byte), s.ctl = .payload → s.sample .reset = .released → (s.afterRead .reset).receiveByte = (b, u) →
    u.flags.rst = false → u.flags.err = false → u.flags.atn = false → s.record.auxLen < s.cfg.maxLen →
    ∃ t, step s = .next t ∧ t.record.auxLen = s.record.auxLen + 1 ∧ t.record.memRead s.record.auxLen = some b ∧
      (∀ j, j ≠ s.record.auxLen → t.record.memRead j = s.record.memRead j) ∧
      { t.record with aux := s.record.aux, auxLen := s.record.auxLen } = s.record ∧
      t.ctl = (if u.flags.eoi = true then .hook (.processCommand t.record false) false else .payload) ∧
      { t with record := u.record, ctl := u.ctl } = u

/-- Overflow: a payload of exactly MAXLEN bytes is stored without error (the bound is tested before the store); one byte over
has been acknowledged, raises Overflow with that byte, drops the payload, and calls no hook (42_atn_decoder.md R196;
60_exceptions.md R333; 41_byte_handshake.md R155). A recovery that sees RESET is in ResetAbortsTheEpisode. That DATA pulled is
the acknowledge is general knowledge in the spec (log 20). -/
def Obligations.OneByteOverTheBoundIsOverflow : Prop :=
  ∀ (s u : State) (b : Byte), s.ctl = .payload → s.sample .reset = .released →
    (s.afterRead .reset).receiveByte = (b, u) → u.flags.rst = false → u.flags.err = false → u.flags.atn = false →
    (s.record.auxLen + 1 = s.cfg.maxLen → ∃ t, step s = .next t ∧ t.record.auxLen = s.cfg.maxLen ∧
      t.record.memRead s.record.auxLen = some b ∧ t.cause = s.cause) ∧
    (s.record.auxLen = s.cfg.maxLen → u.bus.own.data = .pulled ∧ (¬ u.UndoSeesReset →
      ∃ t, step s = .next t ∧ t.cause = .overflow ∧ t.causeInfo = b ∧ u.EndedIdle s.record t .error))

/-- The listen loop: each data byte goes to the device with its EOI before the next is received, nothing is kept in the engine;
ATN pulled ends the loop with the device still selected (44_bus_coordinator.md R265). -/
def Obligations.ListenLoopForwardsEachByte : Prop :=
  (∀ (s u : State) (b : Byte), s.ctl = .listening → s.sample .reset = .released →
    (s.afterRead .reset).sample .atn = .released → ((s.afterRead .reset).afterRead .atn).receiveByte = (b, u) →
    u.flags.rst = false → u.flags.err = false → u.flags.atn = false →
    ∃ t, step s = .next t ∧ t.ctl = .hook (.listenData b u.flags.eoi) false ∧ { t with ctl := u.ctl } = u) ∧
  (∀ s : State, s.ctl = .listening → s.sample .reset = .released → (s.afterRead .reset).sample .atn = .pulled →
    ∃ t, step s = .next t ∧ t.ctl = .idle ∧ t.result = .completed (.mode .listen) ∧
      t.bus.own = { s.bus.own with reset := .released, atn := .released } ∧
      { t with bus := s.bus, ctl := s.ctl, result := s.result } = s)

/-- A command byte, a payload byte or a listen byte that does not come in time, and a command byte without ATN: Timeout, or
Malformed with the byte, and recovery to IDLE with the payload dropped; RESET seen on the way or by the recovery is in
ResetAbortsTheEpisode (42_atn_decoder.md R183, R190; 44_bus_coordinator.md R265; 60_exceptions.md R331, R332). -/
def Obligations.LateOrUnattendedByteEndsTheEpisode : Prop :=
  ∀ (s u : State) (b : Byte), s.sample .reset = .released → u.flags.rst = false → ¬ u.UndoSeesReset →
    (s.ctl = .primary ∨ s.ctl = .secondary ∨ s.ctl = .payload → (s.afterRead .reset).receiveByte = (b, u) →
      (u.flags.err = true → ∃ t, step s = .next t ∧ t.cause = .timeout ∧ t.causeInfo = 0x00#8 ∧
        u.EndedIdle s.record t .error) ∧
      (u.flags.err = false → u.flags.atn = false → s.ctl ≠ .payload → ∃ t, step s = .next t ∧ t.cause = .malformed ∧
        t.causeInfo = b ∧ u.EndedIdle s.record t .error)) ∧
    (s.ctl = .listening → (s.afterRead .reset).sample .atn = .released →
      ((s.afterRead .reset).afterRead .atn).receiveByte = (b, u) → u.flags.err = true →
      ∃ t, step s = .next t ∧ t.cause = .timeout ∧ t.causeInfo = 0x00#8 ∧ u.EndedIdle s.record t .error)

/-- RESET aborts whatever runs, and the broadcast begins: sampled before a command byte or at the top of the payload loop and of
the listen loop; seen inside the waits of a command byte, a payload byte or a listen byte; seen inside a hook, when the hook
returns; in the talk phase seen by the wait for ATN's release, by the turnaround's wait, at the top of the talk loop and inside
the waits of a byte it sends; and seen by the wait of a recovery that undoes a turnaround, whichever failure it follows: a late,
unattended or overflowing byte, a misplaced command (also with a reset seen before it), a late ATN, a second reversal, a byte
that is not taken, a hook (60_exceptions.md R334, R341, R342, R344; 42_atn_decoder.md R183, R194; 44_bus_coordinator.md R253,
R264, R265, R270, R281). With no device registered the call ends in column 3 of 10_state.md R52; where the broadcast lets go of
the lines is log 31. -/
def Obligations.ResetAbortsTheEpisode : Prop :=
  ∀ s : State, s.resetLatch = false →
    (s.ctl = .primary ∨ s.ctl = .secondary ∨ s.ctl = .payload ∨ s.ctl = .listening → s.sample .reset = .pulled →
      ∃ t, step s = .next t ∧ s.ResetBegun t ∧ t.device = s.device) ∧
    (∀ u : State, s.ctl = .primary ∨ s.ctl = .secondary ∨ s.ctl = .payload → s.sample .reset = .released →
      (s.afterRead .reset).receiveByte.2 = u →
      u.flags.rst = true ∨ (u.UndoSeesReset ∧ (u.flags.err = true ∨
        (u.flags.atn = false ∧ (s.ctl ≠ .payload ∨ s.record.auxLen = s.cfg.maxLen)))) →
      ∃ t, step s = .next t ∧ s.ResetBegun t ∧ t.device = s.device) ∧
    (∀ u : State, s.ctl = .listening → s.sample .reset = .released → (s.afterRead .reset).sample .atn = .released →
      ((s.afterRead .reset).afterRead .atn).receiveByte.2 = u →
      u.flags.rst = true ∨ (u.UndoSeesReset ∧ u.flags.err = true) →
      ∃ t, step s = .next t ∧ s.ResetBegun t ∧ t.device = s.device) ∧
    (∀ i : Instr, misplaced s.ctl i = true → s.flags.rst = true ∨ s.UndoSeesReset →
      ∃ t, exec i s = .next t ∧ s.ResetBegun t ∧ t.device = s.device) ∧
    (∀ (h : Hook) (pd : Bool), s.ctl = .hook h pd → (∀ d rest, h ≠ .reset d rest) → s.HookReturns → s.flags.rst = true →
      ∃ t, step s = .next t ∧ s.ResetBegun t ∧ t.device = s.device.tail) ∧
    (∀ (u : State) (ch : Channel) (i : Instr),
      (s.ctl = .secondary ∧ s.record.mode = .talk) ∨ (s.ctl = .primary ∧ s.role = .talker) →
      i = .dataCmd ch ∨ i = .closeCmd ch ∨ i = .openCmd ch →
      (s.timeoutWait .atn .released = (false, u) → u.flags.rst = true ∨ u.UndoSeesReset →
        ∃ t, exec i s = .next t ∧ s.ResetBegun t ∧ t.device = s.device) ∧
      (s.timeoutWait .atn .released = (true, u) → u.turnAround.1 = false →
        u.turnAround.2.flags.rst = true ∨ u.turnAround.2.UndoSeesReset →
        ∃ t, exec i s = .next t ∧ s.ResetBegun t ∧ t.device = s.device)) ∧
    (∀ (r : ATNRecord), s.ctl = .hook (.processCommand r false) false → r.mode = .talk → s.HookReturns →
      s.flags.rst = false → s.flags.err = false → s.sample .reset = .pulled →
      ∃ t, step s = .next t ∧ s.ResetBegun t ∧ t.device = s.device.tail) ∧
    (∀ (b : Byte) (last ok : Bool) (rest : List DevMove) (u : State), s.ctl = .hook .talkData false →
      s.device = .ret (some (b, last)) :: rest → s.flags.rst = false → s.flags.err = false → s.sendByte b last = (ok, u) →
      u.flags.rst = true ∨ (ok = false ∧ u.UndoSeesReset) ∨ (ok = true ∧ last = false ∧ u.sample .reset = .pulled) →
      ∃ t, step s = .next t ∧ s.ResetBegun t ∧ t.device = rest) ∧
    (∀ (h : Hook) (pd : Bool), s.ctl = .hook h pd → (∀ d rest, h ≠ .reset d rest) → s.HookReturns → s.flags.rst = false →
      s.flags.err = true → s.UndoSeesReset →
      ∃ t, step s = .next t ∧ s.ResetBegun t ∧ t.device = s.device.tail)

/-! ### Bus Coordinator -/

/-- `service()` with ATN released returns `rec.mode` and changes nothing but the latch, which RESET released clears
(44_bus_coordinator.md R254, R250, R253). Each sample lets its line go (40_line_driver.md R123). -/
def Obligations.ServiceWithAtnReleasedOnlyReports : Prop :=
  ∀ s : State, s.ctl = .idle → s.flags.rst = false → s.sample .reset = .released →
    (s.afterRead .reset).sample .atn = .released →
    ∃ t, exec .service s = .next t ∧ t.result = .completed (.mode s.record.mode) ∧ t.resetLatch = false ∧
      t.bus.own = { s.bus.own with reset := .released, atn := .released } ∧
      { t with bus := s.bus, resetLatch := s.resetLatch, result := s.result } = s

/-- `service()` with ATN pulled starts the decoder: a fresh record, CLK released and DATA pulled in answer, and the primary
byte is read next (44_bus_coordinator.md R255; 42_atn_decoder.md R181, R182; 10_state.md R27). The answer on DATA is general
knowledge in the spec (log 20). -/
def Obligations.ServiceAnswersAtn : Prop :=
  ∀ s : State, s.ctl = .idle → s.flags.rst = false → s.sample .reset = .released →
    (s.afterRead .reset).sample .atn = .pulled →
    ∃ t, exec .service s = .next t ∧ t.ctl = .primary ∧ t.resetLatch = false ∧
      t.record = { mode := .cmd, raw := 0x00#8, kind := .none, channel := 0#4, deviceId := 0#5, aux := [], auxLen := 0 } ∧
      t.bus.own = { s.bus.own with reset := .released, atn := .released, clk := .released, data := .pulled } ∧
      { t with bus := s.bus, record := s.record, ctl := s.ctl, resetLatch := s.resetLatch } = s

/-- One served RESET: every registered device's `reset()` runs exactly once, in chain order, enabled or not, with the selection
still standing; then the engine is in column 3 of 10_state.md R52 and the call returns RESET (44_bus_coordinator.md R253;
45_device_contract.md R315). With no request pending the host program calls service() (log 7); the devices answer each hook
without another move first, and without a move they return at once (log 6); one step runs from a hook's return to the next
(log 8). Where in the broadcast ATN, SRQ and RESET are let go is log 31, and that the record's other fields stay is log 32. A
hook in which a request is refused first, after which `cause` is not 4, is not in this statement (log 33). -/
def Obligations.ResetReachesEveryDeviceOnce : Prop :=
  ∀ s : State, s.ctl = .idle → s.host = [] → s.resetLatch = false → s.sample .reset = .pulled ∨ s.flags.rst = true →
    (∀ m ∈ s.device.take s.slots.length, ∃ a, m = .ret a) →
    (∀ before dev after, (s.slots.map fun r => r.ref) = before ++ dev :: after →
      ∃ t, Host.Core.run Sys2Proof.core (before.length + 1) s = .next t ∧ t.ctl = .hook (.reset dev after) false ∧
        t.active = s.active ∧ t.role = s.role ∧ t.cause = .reset) ∧
    (∃ t, Host.Core.run Sys2Proof.core (s.slots.length + 1) s = .next t ∧ t.ctl = .idle ∧
      t.result = .completed (.mode .reset) ∧ t.active = none ∧ t.role = .none ∧ t.turn = .notTurned ∧
      (∀ l, s.linePresent l = true → t.bus.own.get l = .released) ∧ (s.Inv → t.bus.own = Lines.released) ∧
      t.record = { s.record with mode := .idle, aux := [], auxLen := 0 } ∧
      t.flags = { eoi := false, atn := false, err := false, rst := false } ∧ t.cause = .reset ∧ t.causeInfo = 0x00#8 ∧
      t.resetLatch = true ∧ t.cfg = s.cfg ∧ t.slots = s.slots ∧ t.enabled = s.enabled)

/-- While RESET stays pulled after a served reset, `service()` returns RESET and does nothing else; and it never starts a
second call inside a running one: that request is refused (44_bus_coordinator.md R253, R251; 70_reset_and_hazards.md R373), and
that it hands its caller nothing is the model's choice (log 9). -/
def Obligations.ServiceStopsAtStepOne : Prop :=
  (∀ s : State, s.ctl = .idle → s.resetLatch = true → s.sample .reset = .pulled ∨ s.flags.rst = true →
    ∃ t, exec .service s = .next t ∧ t.result = .completed (.mode .reset) ∧ t.flags = { s.flags with rst := false } ∧
      t.bus.own = { s.bus.own with reset := .released } ∧
      { t with bus := s.bus, flags := s.flags, result := s.result } = s) ∧
  (∀ s : State, s.ctl ≠ .idle → ∃ t, exec .service s = .next t ∧ s.Refused t 0x00#5 .none)

/-- After a listening device's hook, with no reset and no failure: an OPEN that UNLISTEN closed ends in IDLE with result CMD;
DATA goes on with the listen loop unless the device carried the phase to its end; everything else returns LISTEN with the
device selected; after a data byte the loop ends at EOI (44_bus_coordinator.md R264, R265; 45_device_contract.md R301, R313). -/
def Obligations.ListenHookReturns : Prop :=
  ∀ (s : State) (pd : Bool), s.flags.rst = false → s.flags.err = false → s.HookReturns →
    (∀ r, s.ctl = .hook (.processCommand r true) pd → r.mode = .listen →
      ∃ t, step s = .next t ∧ State.EndedIdle { s with device := s.device.tail } s.record t .cmd) ∧
    (∀ r, s.ctl = .hook (.processCommand r false) pd → r.mode = .listen →
      ∃ t, step s = .next t ∧
        (r.kind = .data ∧ pd = false → t.ctl = .listening ∧ t.result = s.result) ∧
        (r.kind ≠ .data ∨ pd = true → t.ctl = .idle ∧ t.result = .completed (.mode .listen)) ∧
        t.device = s.device.tail ∧ { t with ctl := s.ctl, device := s.device, result := s.result } = s) ∧
    (∀ b e, s.ctl = .hook (.listenData b e) pd →
      ∃ t, step s = .next t ∧
        (e = false ∧ pd = false → t.ctl = .listening ∧ t.result = s.result) ∧
        (e = true ∨ pd = true → t.ctl = .idle ∧ t.result = .completed (.mode .listen)) ∧
        t.device = s.device.tail ∧ { t with ctl := s.ctl, device := s.device, result := s.result } = s)

/-- The talk loop: after `processCommand`, ATN let go brings the next `talkData` and ATN pulled ends the phase; `none` ends it
with CLK released; `(b, last)` sends the byte, with EOI when it is the last, which ends the phase; after another byte that was
taken RESET and ATN are read again, and ATN pulled ends the phase with the device still selected; a byte that is not taken is
Timeout and recovery; a phase the device ended itself returns TALK whatever `talkData` answers, and sends nothing
(44_bus_coordinator.md R270, R273, R274; 45_device_contract.md R301, R314; 60_exceptions.md R331; 41_byte_handshake.md R160;
20_memory.md R65). The wire pattern of the byte, bit 0 first, and the listener's moves are general knowledge in the spec
(log 20). -/
def Obligations.TalkLoopAsksTheDevice : Prop :=
  ∀ (s : State) (pd : Bool), s.flags.rst = false → s.flags.err = false →
    (∀ r, s.ctl = .hook (.processCommand r false) pd → r.mode = .talk → s.HookReturns →
      s.sample .reset = .released →
      ∃ t, step s = .next t ∧ t.device = s.device.tail ∧
        (pd = true → t.ctl = .idle ∧ t.result = .completed (.mode .talk) ∧ t.bus = s.bus) ∧
        (pd = false ∧ (s.afterRead .reset).sample .atn = .released → t.ctl = .hook .talkData false ∧ t.result = s.result) ∧
        (pd = false ∧ (s.afterRead .reset).sample .atn = .pulled → t.ctl = .idle ∧ t.result = .completed (.mode .talk)) ∧
        (pd = false → t.bus.own = { s.bus.own with reset := .released, atn := .released }) ∧
        { t with bus := s.bus, ctl := s.ctl, device := s.device, result := s.result } = s) ∧
    (∀ rest, s.ctl = .hook .talkData pd → s.device = .ret none :: rest ∨ (s.device = [] ∧ rest = []) →
      ∃ t, step s = .next t ∧ t.ctl = .idle ∧ t.result = .completed (.mode .talk) ∧ t.device = rest ∧
        (pd = false → t.bus.own = { s.bus.own with clk := .released }) ∧ (pd = true → t.bus = s.bus) ∧
        { t with bus := s.bus, ctl := s.ctl, device := s.device, result := s.result } = s) ∧
    (∀ b last rest dt env, s.ctl = .hook .talkData false → pd = false → s.device = .ret (some (b, last)) :: rest →
      s.bus.env = listenerScript dt last ++ env →
      (∀ m ∈ env, m.ext.atn = .released ∧ m.ext.reset = .released) → s.bus.own.clk = .pulled → s.bus.own.data = .released →
      ∃ t, step s = .next t ∧ t.device = rest ∧
        dataAtClkRelease .released (newEvents s.bus t.bus) =
          .released :: cellsOf b ++ (if last = true then [.released] else []) ∧
        (last = true → t.ctl = .idle ∧ t.result = .completed (.mode .talk) ∧ t.bus.own.clk = .released) ∧
        (last = false → t.ctl = .hook .talkData false ∧ t.result = s.result ∧ t.bus.own.clk = .pulled) ∧
        t.bus.own.data = .released ∧ t.flags = { s.flags with err := false } ∧
        { t with bus := s.bus, flags := s.flags, ctl := s.ctl, device := s.device, result := s.result } = s) ∧
    (∀ b last rest u, s.ctl = .hook .talkData false → s.device = .ret (some (b, last)) :: rest → s.sendByte b last = (true, u) →
      u.flags.rst = false → last = true ∨ u.sample .reset = .released →
      ∃ t, step s = .next t ∧ t.device = rest ∧
        (last = true → t.ctl = .idle ∧ t.result = .completed (.mode .talk) ∧ t.bus.own = { u.bus.own with clk := .released }) ∧
        (last = false → t.bus.own = { u.bus.own with reset := .released, atn := .released }) ∧
        (last = false ∧ (u.afterRead .reset).sample .atn = .pulled → t.ctl = .idle ∧ t.result = .completed (.mode .talk)) ∧
        (last = false ∧ (u.afterRead .reset).sample .atn = .released → t.ctl = .hook .talkData false ∧ t.result = s.result) ∧
        t.flags = u.flags ∧
        { t with bus := s.bus, flags := s.flags, ctl := s.ctl, device := s.device, result := s.result } = s) ∧
    (∀ answer rest, s.ctl = .hook .talkData true → s.device = .ret answer :: rest →
      ∃ t, step s = .next t ∧ t.ctl = .idle ∧ t.result = .completed (.mode .talk) ∧ t.device = rest ∧
        { t with ctl := s.ctl, device := s.device, result := s.result } = s) ∧
    (∀ b last rest u, s.ctl = .hook .talkData false → s.device = .ret (some (b, last)) :: rest →
      s.sendByte b last = (false, u) → u.flags.rst = false → ¬ u.UndoSeesReset →
      ∃ t, step s = .next t ∧ t.cause = .timeout ∧ t.causeInfo = 0x00#8 ∧
        State.EndedIdle { u with device := rest } s.record t .error)

/-- A data primitive that failed inside a hook: when the hook returns the coordinator recovers, the condition already raised
stays in `cause`, no other hook is called; a recovery that sees RESET is in ResetAbortsTheEpisode (44_bus_coordinator.md R264,
R265, R270, R281; 60_exceptions.md R331). -/
def Obligations.FailureInsideAHookIsRecovered : Prop :=
  ∀ (s : State) (h : Hook) (pd : Bool), s.ctl = .hook h pd → (∀ d rest, h ≠ .reset d rest) →
    s.HookReturns → s.flags.rst = false → s.flags.err = true → ¬ s.UndoSeesReset →
    ∃ t, step s = .next t ∧ t.cause = s.cause ∧ t.causeInfo = s.causeInfo ∧
      State.EndedIdle { s with device := s.device.tail } s.record t .error

/-! ### Device Registry -/

/-- `addDevice(ref, id)` at setup time, of a legal unused id and a new reference: the registration is appended, and nothing
else changes, the mask included (43_device_registry.md R222). -/
def Obligations.AddDeviceAppends : Prop :=
  ∀ (s : State) (ref : DeviceRef) (id : DeviceId), s.record.mode = .idle → s.ctl = .idle → 4 ≤ id.toNat → id.toNat ≤ 30 →
    (∀ r ∈ s.slots, r.deviceId ≠ id ∧ r.ref ≠ ref) → s.slots.length ≠ Config.nSlots →
    ∃ t, exec (.addDevice ref id) s = .next t ∧ t.result = .completed (.bool true) ∧
      t.slots = s.slots ++ [{ deviceId := id, ref := ref }] ∧ { t with slots := s.slots, result := s.result } = s

/-- The ConfigErrors of `addDevice`, in their order: range, duplicate id, duplicate reference, full chain; no state changes
(43_device_registry.md R222; 60_exceptions.md R336, R342). That `cause_info` is 0x00 for the last two is the model's choice
(log 34). -/
def Obligations.AddDeviceRejectsInOrder : Prop :=
  ∀ (s : State) (ref : DeviceRef) (id : DeviceId), s.record.mode = .idle → s.ctl = .idle →
    (id.toNat < 4 ∨ 30 < id.toNat → ∃ t, exec (.addDevice ref id) s = .next t ∧ s.ConfigErrorOf t (id.zeroExtend 8)) ∧
    (4 ≤ id.toNat → id.toNat ≤ 30 → (∃ r ∈ s.slots, r.deviceId = id) →
      ∃ t, exec (.addDevice ref id) s = .next t ∧ s.ConfigErrorOf t (id.zeroExtend 8)) ∧
    (4 ≤ id.toNat → id.toNat ≤ 30 → (∀ r ∈ s.slots, r.deviceId ≠ id) →
      (∃ r ∈ s.slots, r.ref = ref) ∨ s.slots.length = Config.nSlots →
      ∃ t, exec (.addDevice ref id) s = .next t ∧ s.ConfigErrorOf t 0x00#8)

/-- `removeDevice(ref)`, select 0x11, at setup time: the registration goes, the gap is closed and the order kept, the mask
stays; a reference that is not registered is no error; outside setup time it is refused (43_device_registry.md R223). -/
def Obligations.RemoveDeviceClosesTheGap : Prop :=
  (∀ r : OpRequest, r.op = 0x11#5 → decode (.op r) = .instr (.removeDevice r.ref)) ∧
  (∀ (s : State) (ref : DeviceRef), s.record.mode ≠ .idle ∨ s.ctl ≠ .idle →
    ∃ t, exec (.removeDevice ref) s = .next t ∧ s.Refused t 0x11#5 (.bool false)) ∧
  ∀ (s : State) (ref : DeviceRef), s.record.mode = .idle → s.ctl = .idle →
    (∀ before r after, s.slots = before ++ r :: after → r.ref = ref → (∀ q ∈ before, q.ref ≠ ref) →
      ∃ t, exec (.removeDevice ref) s = .next t ∧ t.result = .completed (.bool true) ∧ t.slots = before ++ after ∧
        { t with slots := s.slots, result := s.result } = s) ∧
    ((∀ r ∈ s.slots, r.ref ≠ ref) →
      ∃ t, exec (.removeDevice ref) s = .next t ∧ t.result = .completed (.bool false) ∧ { t with result := s.result } = s)

/-- `deviceById(id)`, select 0x12: the reference of the slot with this id, or none; at any time, the mask not consulted, nothing
changed; ids 0 to 3 and 31 always give none (43_device_registry.md R224). -/
def Obligations.DeviceByIdScansTheChain : Prop :=
  (∀ r : OpRequest, r.op = 0x12#5 → decode (.op r) = .instr (.deviceById r.id)) ∧
  ∀ (s : State) (id : DeviceId), ∃ t, exec (.deviceById id) s = .next t ∧ { t with result := s.result } = s ∧
    (∀ before r after, s.slots = before ++ r :: after → r.deviceId = id → (∀ q ∈ before, q.deviceId ≠ id) →
      t.result = .completed (.ref (some r.ref))) ∧
    ((∀ r ∈ s.slots, r.deviceId ≠ id) → t.result = .completed (.ref none)) ∧
    (s.Inv → id.toNat < 4 ∨ id.toNat = 31 → t.result = .completed (.ref none))

/-- `changeDeviceId(ref, newId)`, select 0x13, at setup time: the slot keeps its place and the mask stays; the same id is
nothing to do; an unknown reference is no error; a newId out of range or in use is a ConfigError; outside setup time it is
refused (43_device_registry.md R225). -/
def Obligations.ChangeDeviceIdRenumbersInPlace : Prop :=
  (∀ r : OpRequest, r.op = 0x13#5 → decode (.op r) = .instr (.changeDeviceId r.ref r.id)) ∧
  (∀ (s : State) (ref : DeviceRef) (newId : DeviceId), s.record.mode ≠ .idle ∨ s.ctl ≠ .idle →
    ∃ t, exec (.changeDeviceId ref newId) s = .next t ∧ s.Refused t 0x13#5 (.bool false)) ∧
  ∀ (s : State) (ref : DeviceRef) (newId : DeviceId), s.record.mode = .idle → s.ctl = .idle →
    (∀ before r after, s.slots = before ++ r :: after → r.ref = ref → (∀ q ∈ before, q.ref ≠ ref) →
      (r.deviceId = newId →
        ∃ t, exec (.changeDeviceId ref newId) s = .next t ∧ t.result = .completed (.bool true) ∧
          { t with result := s.result } = s) ∧
      (4 ≤ newId.toNat → newId.toNat ≤ 30 → (∀ q ∈ s.slots, q.deviceId ≠ newId) →
        ∃ t, exec (.changeDeviceId ref newId) s = .next t ∧ t.result = .completed (.bool true) ∧
          t.slots = before ++ { r with deviceId := newId } :: after ∧ { t with slots := s.slots, result := s.result } = s) ∧
      (r.deviceId ≠ newId → newId.toNat < 4 ∨ 30 < newId.toNat ∨ (∃ q ∈ s.slots, q.deviceId = newId) →
        ∃ t, exec (.changeDeviceId ref newId) s = .next t ∧ s.ConfigErrorOf t (newId.zeroExtend 8))) ∧
    ((∀ r ∈ s.slots, r.ref ≠ ref) →
      ∃ t, exec (.changeDeviceId ref newId) s = .next t ∧ t.result = .completed (.bool false) ∧ { t with result := s.result } = s)

/-- `numDevices()`, select 0x14, counts the registrations, enabled or not, in 0..N_SLOTS; `isEnabled(id)`, select 0x15, answers
for the bit alone, for all 32 ids; both at any time, and nothing changes (43_device_registry.md R229, R226). -/
def Obligations.QueriesAnswerAtAnyTime : Prop :=
  (∀ r : OpRequest, (r.op = 0x14#5 → decode (.op r) = .instr .numDevices) ∧
    (r.op = 0x15#5 → decode (.op r) = .instr (.isEnabled r.id))) ∧
  ∀ s : State,
    (∃ t, exec .numDevices s = .next t ∧ t.result = .completed (.count s.slots.length) ∧
      (s.Inv → s.slots.length ≤ Config.nSlots) ∧ { t with result := s.result } = s) ∧
    (∀ id : DeviceId, ∃ t, exec (.isEnabled id) s = .next t ∧
      t.result = .completed (.bool (s.enabled.getLsbD id.toNat)) ∧ { t with result := s.result } = s)

/-- `enableDevice(id)`, select 0x16, and `disableDevice(id)`, select 0x17, at setup time write that one bit of the mask, the
registry stays, and a second call changes nothing more; outside setup time they are refused (43_device_registry.md R227,
R228). -/
def Obligations.EnableAndDisableWriteOneBit : Prop :=
  (∀ r : OpRequest, (r.op = 0x16#5 → decode (.op r) = .instr (.enableDevice r.id)) ∧
    (r.op = 0x17#5 → decode (.op r) = .instr (.disableDevice r.id))) ∧
  (∀ (s : State) (id : DeviceId), s.record.mode ≠ .idle ∨ s.ctl ≠ .idle →
    (∃ t, exec (.enableDevice id) s = .next t ∧ s.Refused t 0x16#5 .none) ∧
    (∃ t, exec (.disableDevice id) s = .next t ∧ s.Refused t 0x17#5 .none)) ∧
  ∀ (s : State) (id : DeviceId), s.record.mode = .idle → s.ctl = .idle →
    (∃ t, exec (.enableDevice id) s = .next t ∧ t.result = .completed .none ∧
      (∀ j : DeviceId, t.enabled.getLsbD j.toNat = (j == id || s.enabled.getLsbD j.toNat)) ∧
      exec (.enableDevice id) t = .next t ∧ { t with enabled := s.enabled, result := s.result } = s) ∧
    (∃ t, exec (.disableDevice id) s = .next t ∧ t.result = .completed .none ∧
      (∀ j : DeviceId, t.enabled.getLsbD j.toNat = (j != id && s.enabled.getLsbD j.toNat)) ∧
      exec (.disableDevice id) t = .next t ∧ { t with enabled := s.enabled, result := s.result } = s)

/-- The five setup operations outside setup time are refused and change nothing; the three queries are always allowed; at setup
time no device is active (43_device_registry.md R221). -/
def Obligations.SetupOutsideSetupTimeIsRefused : Prop :=
  (∀ s : State, s.Inv → s.ctl = .idle → s.record.mode = .idle → s.active = none) ∧
  ∀ (s : State) (ref : DeviceRef) (id : DeviceId), s.record.mode ≠ .idle ∨ s.ctl ≠ .idle →
    (∃ t, exec (.addDevice ref id) s = .next t ∧ s.Refused t 0x10#5 (.bool false)) ∧
    (∃ t, exec (.removeDevice ref) s = .next t ∧ s.Refused t 0x11#5 (.bool false)) ∧
    (∃ t, exec (.changeDeviceId ref id) s = .next t ∧ s.Refused t 0x13#5 (.bool false)) ∧
    (∃ t, exec (.enableDevice id) s = .next t ∧ s.Refused t 0x16#5 .none) ∧
    (∃ t, exec (.disableDevice id) s = .next t ∧ s.Refused t 0x17#5 .none) ∧
    (∃ t v, exec (.deviceById id) s = .next t ∧ t.result = .completed (.ref v)) ∧
    (∃ t n, exec .numDevices s = .next t ∧ t.result = .completed (.count n)) ∧
    (∃ t b, exec (.isEnabled id) s = .next t ∧ t.result = .completed (.bool b))

/-! ### Data primitives -/

/-- What a device is refused. A data primitive outside a hook of the active device (in a `reset()` hook too) or outside its
role: no line is touched, `false` or 0x00 is returned. From inside a hook any request but a data primitive. A read of `rec.aux`
at or beyond `rec.aux_len`, and any write of it; a read below `rec.aux_len` gives the byte and changes nothing. Where R300
accepts a primitive none is refused, whatever the environment does, a buffer being of at least its length (log 24);
SendDeliversTheByte to ReceiveFailureEndsThePhase say what it does (45_device_contract.md R300; 30_encoding.md R103;
60_exceptions.md R337, R350; 20_memory.md R66; 10_state.md R26). That a device's registry query is refused too, which
43_device_registry.md R221 calls always allowed, is log 14. What a caller is handed where no rule says it is log 9. That the
device in any hook may read the record, and `cause_info` of a refused access, which has no select code, is log 30. -/
def Obligations.PrimitiveOutsideItsRoleIsRefused : Prop :=
  (∀ (s : State) (b : Byte) (buf : List Byte) (n : Nat),
    ((∀ h pd, s.ctl = .hook h pd → ∃ d rest, h = .reset d rest) ∨ s.role ≠ .talker ∨ s.turn ≠ .turned →
      (∃ t, exec (.send b) s = .next t ∧ s.Refused t 0x18#5 (.bool false)) ∧
      (∃ t, exec (.sendBuffer buf n) s = .next t ∧ s.Refused t 0x19#5 (.bool false)) ∧
      (∃ t, exec (.sendEOI b) s = .next t ∧ s.Refused t 0x1A#5 (.bool false)) ∧
      (∃ t, exec .sendFileNotFound s = .next t ∧ s.Refused t 0x1B#5 (.bool false))) ∧
    ((∀ h pd, s.ctl = .hook h pd → ∃ d rest, h = .reset d rest) ∨ s.role ≠ .listener →
      (∃ t, exec .receive s = .next t ∧ s.Refused t 0x1C#5 (.byte 0x00#8)) ∧
      (∃ t, exec (.receiveBuffer buf n) s = .next t ∧ s.Refused t 0x1D#5 (.bool false)))) ∧
  (∀ (s : State) (h : Hook) (pd : Bool) (b : Byte) (buf : List Byte) (n : Nat),
    (s.InTalkerHook h pd → n ≤ buf.length →
      ∀ i ∈ [Instr.send b, .sendBuffer buf n, .sendEOI b, .sendFileNotFound],
        ∃ t ok, exec i s = .next t ∧ t.result = .completed (.bool ok)) ∧
    (s.InListenerHook h pd → n ≤ buf.length →
      (∃ t v, exec .receive s = .next t ∧ t.result = .completed (.byte v)) ∧
      (∃ t ok got, exec (.receiveBuffer buf n) s = .next t ∧ t.result = .completed (.buffer ok got)))) ∧
  (∀ (s : State) (h : Hook) (pd : Bool) (rest : List DevMove), s.ctl = .hook h pd →
    (∀ r, s.device = .request r :: rest → r.op.toNat < 0x18 →
      ∃ t, step s = .next t ∧ State.Refused { s with device := rest } t r.op (refusalValue r.op)) ∧
    (∀ i b, s.device = .writeAux i b :: rest →
      ∃ t, step s = .next t ∧ State.Refused { s with device := rest } t 0x00#5 .none) ∧
    (∀ i, s.device = .readAux i :: rest →
      (s.record.auxLen ≤ i → ∃ t, step s = .next t ∧ State.Refused { s with device := rest } t 0x00#5 .none) ∧
      (s.Inv → i < s.record.auxLen → ∃ (t : State) (b : Byte), s.record.memRead i = some b ∧ step s = .next t ∧
        t.result = .completed (.byte b) ∧ t.device = rest ∧ { t with device := s.device, result := s.result } = s)))

/-- `send(b)` and `sendEOI(b)` against a listener that follows the protocol: the byte goes out, without and with EOI; `sendEOI`
ends the phase and lets CLK go (45_device_contract.md R302, R304, R301; 41_byte_handshake.md R160; 20_memory.md R65). The wire
pattern of the byte, bit 0 first, and the listener's moves are general knowledge in the spec (log 20). -/
def Obligations.SendDeliversTheByte : Prop :=
  ∀ (s : State) (h : Hook) (pd : Bool) (b : Byte) (dt : Nat) (rest : List EnvMove), s.InTalkerHook h pd →
    s.bus.own.clk = .pulled → s.bus.own.data = .released →
    (s.bus.env = listenerScript dt false ++ rest →
      ∃ t, exec (.send b) s = .next t ∧ t.result = .completed (.bool true) ∧ t.flags = { s.flags with err := false } ∧
        dataAtClkRelease .released (newEvents s.bus t.bus) = .released :: cellsOf b ∧
        t.bus.own.clk = .pulled ∧ t.bus.own.data = .released ∧ t.bus.env = rest ∧
        { t with bus := s.bus, flags := s.flags, result := s.result } = s) ∧
    (s.bus.env = listenerScript dt true ++ rest →
      ∃ t, exec (.sendEOI b) s = .next t ∧ t.result = .completed (.bool true) ∧ t.flags = { s.flags with err := false } ∧
        dataAtClkRelease .released (newEvents s.bus t.bus) = .released :: cellsOf b ++ [.released] ∧
        t.bus.own.clk = .released ∧ t.bus.own.data = .released ∧ t.ctl = .hook h true ∧
        { t with bus := s.bus, flags := s.flags, ctl := s.ctl, result := s.result } = s)

/-- `sendBuffer(buffer, length)` sends the first `length` bytes in order, none with EOI, and leaves `phase_done` alone
(45_device_contract.md R303; 41_byte_handshake.md R160; 20_memory.md R65). The wire pattern of the bytes, bit 0 first, and the
listener's moves are general knowledge in the spec (log 20). -/
def Obligations.SendBufferSendsTheBytesInOrder : Prop :=
  ∀ (s : State) (h : Hook) (pd : Bool) (buf : List Byte) (n dt : Nat) (rest : List EnvMove), s.InTalkerHook h pd → n ≤ buf.length →
    s.bus.own.clk = .pulled → s.bus.own.data = .released →
    s.bus.env = (List.replicate n (listenerScript dt false)).flatten ++ rest →
    ∃ t, exec (.sendBuffer buf n) s = .next t ∧ t.result = .completed (.bool true) ∧
      dataAtClkRelease .released (newEvents s.bus t.bus) = (buf.take n).flatMap (fun b => .released :: cellsOf b) ∧
      t.bus.own.clk = .pulled ∧ t.bus.own.data = .released ∧ t.bus.env = rest ∧ t.flags.rst = s.flags.rst ∧
      t.flags.eoi = s.flags.eoi ∧ t.flags.atn = s.flags.atn ∧
      { t with bus := s.bus, flags := s.flags, result := s.result } = s

/-- A send primitive whatever the environment does: it always ends; a failure leaves `flags.err = 1`, ends the phase, and
raises Timeout unless a reset was seen (45_device_contract.md R302 to R304; 60_exceptions.md R331). -/
def Obligations.SendFailureEndsThePhase : Prop :=
  ∀ (s : State) (h : Hook) (pd : Bool) (i : Instr) (b : Byte) (buf : List Byte) (n : Nat), s.InTalkerHook h pd →
    i = .send b ∨ (i = .sendBuffer buf n ∧ n ≤ buf.length) ∨ i = .sendEOI b →
    ∃ (t : State) (ok : Bool), exec i s = .next t ∧ t.result = .completed (.bool ok) ∧
      (ok = true → t.cause = s.cause ∧ t.causeInfo = s.causeInfo ∧
        t.ctl = .hook h (pd || decide (i = .sendEOI b))) ∧
      (ok = false → t.flags.err = true ∧ t.ctl = .hook h true ∧
        (t.flags.rst = false → t.cause = .timeout ∧ t.causeInfo = 0x00#8) ∧
        (t.flags.rst = true → t.cause = s.cause ∧ t.causeInfo = s.causeInfo)) ∧
      { t with bus := s.bus, flags := s.flags, cause := s.cause, causeInfo := s.causeInfo, ctl := s.ctl,
               result := s.result } = s

/-- `sendFileNotFound()`: both lines let go for at least `T_FNF`, no byte, the phase ended, no flag and no condition
(45_device_contract.md R305; 60_exceptions.md R338). What goes over the bus is general knowledge in the spec (log 20). -/
def Obligations.FileNotFoundSendsNothing : Prop :=
  ∀ (s : State) (h : Hook) (pd : Bool), s.InTalkerHook h pd →
    ∃ t, exec .sendFileNotFound s = .next t ∧ t.result = .completed (.bool true) ∧
      t.bus.own = { s.bus.own with clk := .released, data := .released } ∧ s.bus.now + s.cfg.tFnf ≤ t.bus.now ∧
      t.ctl = .hook h true ∧ { t with bus := s.bus, ctl := s.ctl, result := s.result } = s

/-- `receive()` and `receiveBuffer` against a talker that follows the protocol: the byte, EOI ends the phase; the buffer's first
`length` cells are the bytes received, in order, and the rest of it stays; data that ends early is `false` with the bytes so far
stored (45_device_contract.md R306, R307, R301; 41_byte_handshake.md R150, R152, R155). The talker's moves, its EOI by `T_EOI`
and DATA pulled as the acknowledge are general knowledge in the spec (log 20). That a buffer passes by value is log 24. -/
def Obligations.ReceiveStoresTheBytes : Prop :=
  ∀ (s : State) (h : Hook) (pd : Bool) (dt : Nat) (rest : List EnvMove), s.InListenerHook h pd →
    (∀ b e, s.bus.env = talkerScript .released dt e b ++ rest → (e = true → s.cfg.tEoi ≤ 2 * dt) →
      ∃ t, exec .receive s = .next t ∧ t.result = .completed (.byte b) ∧
        t.flags = { eoi := e, atn := false, err := false, rst := s.flags.rst } ∧ t.ctl = .hook h (pd || e) ∧
        t.bus.own.data = .pulled ∧ t.bus.env = rest ∧
        { t with bus := s.bus, flags := s.flags, ctl := s.ctl, result := s.result } = s) ∧
    (∀ (buf got : List Byte) (last : Byte) (n : Nat) (e : Bool), n ≤ buf.length → got.length + 1 ≤ n →
      (got.length + 1 < n → e = true) → (e = true → s.cfg.tEoi ≤ 2 * dt) →
      s.bus.env = got.flatMap (talkerScript .released dt false) ++ talkerScript .released dt e last ++ rest →
      ∃ t, exec (.receiveBuffer buf n) s = .next t ∧
        t.result = .completed (.buffer (got.length + 1 == n) (got ++ last :: buf.drop (got.length + 1))) ∧
        t.flags.eoi = e ∧ t.flags.err = false ∧ t.ctl = .hook h (pd || e) ∧
        { t with bus := s.bus, flags := s.flags, ctl := s.ctl, result := s.result } = s) ∧
    (∀ buf : List Byte, ∃ t, exec (.receiveBuffer buf 0) s = .next t ∧ t.result = .completed (.buffer true buf) ∧
      { t with result := s.result } = s)

/-- `receive()` that fails, alone or as the next byte of a `receiveBuffer`: a failed wait is Timeout unless a reset was seen; a
byte under ATN is Malformed with the byte and sets `flags.err`; both end the phase. `receiveBuffer` then answers `false`, with
the bytes received before it stored and the rest of the buffer as it was (45_device_contract.md R306, R307; 60_exceptions.md
R331, R332). That a buffer passes by value is log 24. -/
def Obligations.ReceiveFailureEndsThePhase : Prop :=
  ∀ (s m u : State) (h : Hook) (pd : Bool) (got : List Byte) (b : Byte), s.InListenerHook h pd →
    s.Receives got m → m.receiveByte = (b, u) → u.flags.err = true ∨ u.flags.atn = true →
    ∀ (i : Instr) (v : Value), (i = .receive ∧ got = [] ∧ v = .byte b) ∨
      (∃ buf n, i = .receiveBuffer buf n ∧ got.length < n ∧ n ≤ buf.length ∧ v = .buffer false (got ++ buf.drop got.length)) →
    ∃ t, exec i s = .next t ∧ t.result = .completed v ∧ t.flags = { u.flags with err := true } ∧
      t.ctl = .hook h true ∧
      (u.flags.err = true → u.flags.rst = false → t.cause = .timeout ∧ t.causeInfo = 0x00#8) ∧
      (u.flags.err = true → u.flags.rst = true → t.cause = s.cause ∧ t.causeInfo = s.causeInfo) ∧
      (u.flags.err = false → t.cause = .malformed ∧ t.causeInfo = b) ∧ t.bus = u.bus ∧
      { t with bus := s.bus, flags := s.flags, cause := s.cause, causeInfo := s.causeInfo, ctl := s.ctl,
               result := s.result } = s
end

