-- ==== Sys2Proof/Laws/State.lean ====
section
/-! SUPPORT. One lemma per field per update of the state, each true by rfl, so that no proof unfolds a record update. -/
namespace Sys2Proof.Machine
open Sys2Proof

variable (s : State)

/-! ### State.withLink -/
@[simp] theorem State.withLink_cfg (k : Link) : (s.withLink k).cfg = s.cfg := rfl
@[simp] theorem State.withLink_bus (k : Link) : (s.withLink k).bus = k.bus := rfl
@[simp] theorem State.withLink_flags (k : Link) : (s.withLink k).flags = k.flags := rfl
@[simp] theorem State.withLink_record (k : Link) : (s.withLink k).record = s.record := rfl
@[simp] theorem State.withLink_role (k : Link) : (s.withLink k).role = s.role := rfl
@[simp] theorem State.withLink_active (k : Link) : (s.withLink k).active = s.active := rfl
@[simp] theorem State.withLink_enabled (k : Link) : (s.withLink k).enabled = s.enabled := rfl
@[simp] theorem State.withLink_slots (k : Link) : (s.withLink k).slots = s.slots := rfl
@[simp] theorem State.withLink_cause (k : Link) : (s.withLink k).cause = s.cause := rfl
@[simp] theorem State.withLink_causeInfo (k : Link) : (s.withLink k).causeInfo = s.causeInfo := rfl
@[simp] theorem State.withLink_resetLatch (k : Link) : (s.withLink k).resetLatch = s.resetLatch := rfl
@[simp] theorem State.withLink_turn (k : Link) : (s.withLink k).turn = s.turn := rfl
@[simp] theorem State.withLink_ctl (k : Link) : (s.withLink k).ctl = s.ctl := rfl
@[simp] theorem State.withLink_host (k : Link) : (s.withLink k).host = s.host := rfl
@[simp] theorem State.withLink_device (k : Link) : (s.withLink k).device = s.device := rfl
@[simp] theorem State.withLink_result (k : Link) : (s.withLink k).result = s.result := rfl

/-! ### State.pull -/
@[simp] theorem State.pull_cfg (l : Line) : (s.pull l).cfg = s.cfg := rfl
@[simp] theorem State.pull_bus (l : Line) : (s.pull l).bus = s.bus.pull l := rfl
@[simp] theorem State.pull_flags (l : Line) : (s.pull l).flags = s.flags := rfl
@[simp] theorem State.pull_record (l : Line) : (s.pull l).record = s.record := rfl
@[simp] theorem State.pull_role (l : Line) : (s.pull l).role = s.role := rfl
@[simp] theorem State.pull_active (l : Line) : (s.pull l).active = s.active := rfl
@[simp] theorem State.pull_enabled (l : Line) : (s.pull l).enabled = s.enabled := rfl
@[simp] theorem State.pull_slots (l : Line) : (s.pull l).slots = s.slots := rfl
@[simp] theorem State.pull_cause (l : Line) : (s.pull l).cause = s.cause := rfl
@[simp] theorem State.pull_causeInfo (l : Line) : (s.pull l).causeInfo = s.causeInfo := rfl
@[simp] theorem State.pull_resetLatch (l : Line) : (s.pull l).resetLatch = s.resetLatch := rfl
@[simp] theorem State.pull_turn (l : Line) : (s.pull l).turn = s.turn := rfl
@[simp] theorem State.pull_ctl (l : Line) : (s.pull l).ctl = s.ctl := rfl
@[simp] theorem State.pull_host (l : Line) : (s.pull l).host = s.host := rfl
@[simp] theorem State.pull_device (l : Line) : (s.pull l).device = s.device := rfl
@[simp] theorem State.pull_result (l : Line) : (s.pull l).result = s.result := rfl

/-! ### State.release -/
@[simp] theorem State.release_cfg (l : Line) : (s.release l).cfg = s.cfg := rfl
@[simp] theorem State.release_bus (l : Line) : (s.release l).bus = s.bus.release l := rfl
@[simp] theorem State.release_flags (l : Line) : (s.release l).flags = s.flags := rfl
@[simp] theorem State.release_record (l : Line) : (s.release l).record = s.record := rfl
@[simp] theorem State.release_role (l : Line) : (s.release l).role = s.role := rfl
@[simp] theorem State.release_active (l : Line) : (s.release l).active = s.active := rfl
@[simp] theorem State.release_enabled (l : Line) : (s.release l).enabled = s.enabled := rfl
@[simp] theorem State.release_slots (l : Line) : (s.release l).slots = s.slots := rfl
@[simp] theorem State.release_cause (l : Line) : (s.release l).cause = s.cause := rfl
@[simp] theorem State.release_causeInfo (l : Line) : (s.release l).causeInfo = s.causeInfo := rfl
@[simp] theorem State.release_resetLatch (l : Line) : (s.release l).resetLatch = s.resetLatch := rfl
@[simp] theorem State.release_turn (l : Line) : (s.release l).turn = s.turn := rfl
@[simp] theorem State.release_ctl (l : Line) : (s.release l).ctl = s.ctl := rfl
@[simp] theorem State.release_host (l : Line) : (s.release l).host = s.host := rfl
@[simp] theorem State.release_device (l : Line) : (s.release l).device = s.device := rfl
@[simp] theorem State.release_result (l : Line) : (s.release l).result = s.result := rfl

/-! ### State.afterRead -/
@[simp] theorem State.afterRead_cfg (l : Line) : (s.afterRead l).cfg = s.cfg := rfl
@[simp] theorem State.afterRead_bus (l : Line) : (s.afterRead l).bus = s.bus.afterRead l := rfl
@[simp] theorem State.afterRead_flags (l : Line) : (s.afterRead l).flags = s.flags := rfl
@[simp] theorem State.afterRead_record (l : Line) : (s.afterRead l).record = s.record := rfl
@[simp] theorem State.afterRead_role (l : Line) : (s.afterRead l).role = s.role := rfl
@[simp] theorem State.afterRead_active (l : Line) : (s.afterRead l).active = s.active := rfl
@[simp] theorem State.afterRead_enabled (l : Line) : (s.afterRead l).enabled = s.enabled := rfl
@[simp] theorem State.afterRead_slots (l : Line) : (s.afterRead l).slots = s.slots := rfl
@[simp] theorem State.afterRead_cause (l : Line) : (s.afterRead l).cause = s.cause := rfl
@[simp] theorem State.afterRead_causeInfo (l : Line) : (s.afterRead l).causeInfo = s.causeInfo := rfl
@[simp] theorem State.afterRead_resetLatch (l : Line) : (s.afterRead l).resetLatch = s.resetLatch := rfl
@[simp] theorem State.afterRead_turn (l : Line) : (s.afterRead l).turn = s.turn := rfl
@[simp] theorem State.afterRead_ctl (l : Line) : (s.afterRead l).ctl = s.ctl := rfl
@[simp] theorem State.afterRead_host (l : Line) : (s.afterRead l).host = s.host := rfl
@[simp] theorem State.afterRead_device (l : Line) : (s.afterRead l).device = s.device := rfl
@[simp] theorem State.afterRead_result (l : Line) : (s.afterRead l).result = s.result := rfl

/-! ### State.delay -/
@[simp] theorem State.delay_cfg (d : Nat) : (s.delay d).cfg = s.cfg := rfl
@[simp] theorem State.delay_bus (d : Nat) : (s.delay d).bus = s.bus.delay d := rfl
@[simp] theorem State.delay_flags (d : Nat) : (s.delay d).flags = s.flags := rfl
@[simp] theorem State.delay_record (d : Nat) : (s.delay d).record = s.record := rfl
@[simp] theorem State.delay_role (d : Nat) : (s.delay d).role = s.role := rfl
@[simp] theorem State.delay_active (d : Nat) : (s.delay d).active = s.active := rfl
@[simp] theorem State.delay_enabled (d : Nat) : (s.delay d).enabled = s.enabled := rfl
@[simp] theorem State.delay_slots (d : Nat) : (s.delay d).slots = s.slots := rfl
@[simp] theorem State.delay_cause (d : Nat) : (s.delay d).cause = s.cause := rfl
@[simp] theorem State.delay_causeInfo (d : Nat) : (s.delay d).causeInfo = s.causeInfo := rfl
@[simp] theorem State.delay_resetLatch (d : Nat) : (s.delay d).resetLatch = s.resetLatch := rfl
@[simp] theorem State.delay_turn (d : Nat) : (s.delay d).turn = s.turn := rfl
@[simp] theorem State.delay_ctl (d : Nat) : (s.delay d).ctl = s.ctl := rfl
@[simp] theorem State.delay_host (d : Nat) : (s.delay d).host = s.host := rfl
@[simp] theorem State.delay_device (d : Nat) : (s.delay d).device = s.device := rfl
@[simp] theorem State.delay_result (d : Nat) : (s.delay d).result = s.result := rfl

/-! ### State.letGoUndriven -/
@[simp] theorem State.letGoUndriven_cfg : (s.letGoUndriven).cfg = s.cfg := rfl
@[simp] theorem State.letGoUndriven_bus : (s.letGoUndriven).bus = s.bus.letGoUndriven s.cfg.hasSrq := rfl
@[simp] theorem State.letGoUndriven_flags : (s.letGoUndriven).flags = s.flags := rfl
@[simp] theorem State.letGoUndriven_record : (s.letGoUndriven).record = s.record := rfl
@[simp] theorem State.letGoUndriven_role : (s.letGoUndriven).role = s.role := rfl
@[simp] theorem State.letGoUndriven_active : (s.letGoUndriven).active = s.active := rfl
@[simp] theorem State.letGoUndriven_enabled : (s.letGoUndriven).enabled = s.enabled := rfl
@[simp] theorem State.letGoUndriven_slots : (s.letGoUndriven).slots = s.slots := rfl
@[simp] theorem State.letGoUndriven_cause : (s.letGoUndriven).cause = s.cause := rfl
@[simp] theorem State.letGoUndriven_causeInfo : (s.letGoUndriven).causeInfo = s.causeInfo := rfl
@[simp] theorem State.letGoUndriven_resetLatch : (s.letGoUndriven).resetLatch = s.resetLatch := rfl
@[simp] theorem State.letGoUndriven_turn : (s.letGoUndriven).turn = s.turn := rfl
@[simp] theorem State.letGoUndriven_ctl : (s.letGoUndriven).ctl = s.ctl := rfl
@[simp] theorem State.letGoUndriven_host : (s.letGoUndriven).host = s.host := rfl
@[simp] theorem State.letGoUndriven_device : (s.letGoUndriven).device = s.device := rfl
@[simp] theorem State.letGoUndriven_result : (s.letGoUndriven).result = s.result := rfl

/-! ### State.refuseAccess -/
@[simp] theorem State.refuseAccess_cfg : (s.refuseAccess).cfg = s.cfg := rfl
@[simp] theorem State.refuseAccess_bus : (s.refuseAccess).bus = s.bus := rfl
@[simp] theorem State.refuseAccess_flags : (s.refuseAccess).flags = s.flags := rfl
@[simp] theorem State.refuseAccess_record : (s.refuseAccess).record = s.record := rfl
@[simp] theorem State.refuseAccess_role : (s.refuseAccess).role = s.role := rfl
@[simp] theorem State.refuseAccess_active : (s.refuseAccess).active = s.active := rfl
@[simp] theorem State.refuseAccess_enabled : (s.refuseAccess).enabled = s.enabled := rfl
@[simp] theorem State.refuseAccess_slots : (s.refuseAccess).slots = s.slots := rfl
@[simp] theorem State.refuseAccess_cause : (s.refuseAccess).cause = .refused := rfl
@[simp] theorem State.refuseAccess_causeInfo : (s.refuseAccess).causeInfo = 0x00#8 := rfl
@[simp] theorem State.refuseAccess_resetLatch : (s.refuseAccess).resetLatch = s.resetLatch := rfl
@[simp] theorem State.refuseAccess_turn : (s.refuseAccess).turn = s.turn := rfl
@[simp] theorem State.refuseAccess_ctl : (s.refuseAccess).ctl = s.ctl := rfl
@[simp] theorem State.refuseAccess_host : (s.refuseAccess).host = s.host := rfl
@[simp] theorem State.refuseAccess_device : (s.refuseAccess).device = s.device := rfl
@[simp] theorem State.refuseAccess_result : (s.refuseAccess).result = .refused .none := rfl

/-! ### State.setErr -/
@[simp] theorem State.setErr_cfg : (s.setErr).cfg = s.cfg := rfl
@[simp] theorem State.setErr_bus : (s.setErr).bus = s.bus := rfl
@[simp] theorem State.setErr_flags : (s.setErr).flags = s.flags.setErr := rfl
@[simp] theorem State.setErr_record : (s.setErr).record = s.record := rfl
@[simp] theorem State.setErr_role : (s.setErr).role = s.role := rfl
@[simp] theorem State.setErr_active : (s.setErr).active = s.active := rfl
@[simp] theorem State.setErr_enabled : (s.setErr).enabled = s.enabled := rfl
@[simp] theorem State.setErr_slots : (s.setErr).slots = s.slots := rfl
@[simp] theorem State.setErr_cause : (s.setErr).cause = s.cause := rfl
@[simp] theorem State.setErr_causeInfo : (s.setErr).causeInfo = s.causeInfo := rfl
@[simp] theorem State.setErr_resetLatch : (s.setErr).resetLatch = s.resetLatch := rfl
@[simp] theorem State.setErr_turn : (s.setErr).turn = s.turn := rfl
@[simp] theorem State.setErr_ctl : (s.setErr).ctl = s.ctl := rfl
@[simp] theorem State.setErr_host : (s.setErr).host = s.host := rfl
@[simp] theorem State.setErr_device : (s.setErr).device = s.device := rfl
@[simp] theorem State.setErr_result : (s.setErr).result = s.result := rfl

/-! ### State.clearErr -/
@[simp] theorem State.clearErr_cfg : (s.clearErr).cfg = s.cfg := rfl
@[simp] theorem State.clearErr_bus : (s.clearErr).bus = s.bus := rfl
@[simp] theorem State.clearErr_flags : (s.clearErr).flags = s.flags.clearErr := rfl
@[simp] theorem State.clearErr_record : (s.clearErr).record = s.record := rfl
@[simp] theorem State.clearErr_role : (s.clearErr).role = s.role := rfl
@[simp] theorem State.clearErr_active : (s.clearErr).active = s.active := rfl
@[simp] theorem State.clearErr_enabled : (s.clearErr).enabled = s.enabled := rfl
@[simp] theorem State.clearErr_slots : (s.clearErr).slots = s.slots := rfl
@[simp] theorem State.clearErr_cause : (s.clearErr).cause = s.cause := rfl
@[simp] theorem State.clearErr_causeInfo : (s.clearErr).causeInfo = s.causeInfo := rfl
@[simp] theorem State.clearErr_resetLatch : (s.clearErr).resetLatch = s.resetLatch := rfl
@[simp] theorem State.clearErr_turn : (s.clearErr).turn = s.turn := rfl
@[simp] theorem State.clearErr_ctl : (s.clearErr).ctl = s.ctl := rfl
@[simp] theorem State.clearErr_host : (s.clearErr).host = s.host := rfl
@[simp] theorem State.clearErr_device : (s.clearErr).device = s.device := rfl
@[simp] theorem State.clearErr_result : (s.clearErr).result = s.result := rfl

/-! ### State.setRst -/
@[simp] theorem State.setRst_cfg : (s.setRst).cfg = s.cfg := rfl
@[simp] theorem State.setRst_bus : (s.setRst).bus = s.bus := rfl
@[simp] theorem State.setRst_flags : (s.setRst).flags = s.flags.setRst := rfl
@[simp] theorem State.setRst_record : (s.setRst).record = s.record := rfl
@[simp] theorem State.setRst_role : (s.setRst).role = s.role := rfl
@[simp] theorem State.setRst_active : (s.setRst).active = s.active := rfl
@[simp] theorem State.setRst_enabled : (s.setRst).enabled = s.enabled := rfl
@[simp] theorem State.setRst_slots : (s.setRst).slots = s.slots := rfl
@[simp] theorem State.setRst_cause : (s.setRst).cause = s.cause := rfl
@[simp] theorem State.setRst_causeInfo : (s.setRst).causeInfo = s.causeInfo := rfl
@[simp] theorem State.setRst_resetLatch : (s.setRst).resetLatch = s.resetLatch := rfl
@[simp] theorem State.setRst_turn : (s.setRst).turn = s.turn := rfl
@[simp] theorem State.setRst_ctl : (s.setRst).ctl = s.ctl := rfl
@[simp] theorem State.setRst_host : (s.setRst).host = s.host := rfl
@[simp] theorem State.setRst_device : (s.setRst).device = s.device := rfl
@[simp] theorem State.setRst_result : (s.setRst).result = s.result := rfl

/-! ### State.raise -/
@[simp] theorem State.raise_cfg (c : Cause) (i : Byte) : (s.raise c i).cfg = s.cfg := rfl
@[simp] theorem State.raise_bus (c : Cause) (i : Byte) : (s.raise c i).bus = s.bus := rfl
@[simp] theorem State.raise_flags (c : Cause) (i : Byte) : (s.raise c i).flags = s.flags := rfl
@[simp] theorem State.raise_record (c : Cause) (i : Byte) : (s.raise c i).record = s.record := rfl
@[simp] theorem State.raise_role (c : Cause) (i : Byte) : (s.raise c i).role = s.role := rfl
@[simp] theorem State.raise_active (c : Cause) (i : Byte) : (s.raise c i).active = s.active := rfl
@[simp] theorem State.raise_enabled (c : Cause) (i : Byte) : (s.raise c i).enabled = s.enabled := rfl
@[simp] theorem State.raise_slots (c : Cause) (i : Byte) : (s.raise c i).slots = s.slots := rfl
@[simp] theorem State.raise_cause (c : Cause) (i : Byte) : (s.raise c i).cause = c := rfl
@[simp] theorem State.raise_causeInfo (c : Cause) (i : Byte) : (s.raise c i).causeInfo = i := rfl
@[simp] theorem State.raise_resetLatch (c : Cause) (i : Byte) : (s.raise c i).resetLatch = s.resetLatch := rfl
@[simp] theorem State.raise_turn (c : Cause) (i : Byte) : (s.raise c i).turn = s.turn := rfl
@[simp] theorem State.raise_ctl (c : Cause) (i : Byte) : (s.raise c i).ctl = s.ctl := rfl
@[simp] theorem State.raise_host (c : Cause) (i : Byte) : (s.raise c i).host = s.host := rfl
@[simp] theorem State.raise_device (c : Cause) (i : Byte) : (s.raise c i).device = s.device := rfl
@[simp] theorem State.raise_result (c : Cause) (i : Byte) : (s.raise c i).result = s.result := rfl

/-! ### State.complete -/
@[simp] theorem State.complete_cfg (v : Value) : (s.complete v).cfg = s.cfg := rfl
@[simp] theorem State.complete_bus (v : Value) : (s.complete v).bus = s.bus := rfl
@[simp] theorem State.complete_flags (v : Value) : (s.complete v).flags = s.flags := rfl
@[simp] theorem State.complete_record (v : Value) : (s.complete v).record = s.record := rfl
@[simp] theorem State.complete_role (v : Value) : (s.complete v).role = s.role := rfl
@[simp] theorem State.complete_active (v : Value) : (s.complete v).active = s.active := rfl
@[simp] theorem State.complete_enabled (v : Value) : (s.complete v).enabled = s.enabled := rfl
@[simp] theorem State.complete_slots (v : Value) : (s.complete v).slots = s.slots := rfl
@[simp] theorem State.complete_cause (v : Value) : (s.complete v).cause = s.cause := rfl
@[simp] theorem State.complete_causeInfo (v : Value) : (s.complete v).causeInfo = s.causeInfo := rfl
@[simp] theorem State.complete_resetLatch (v : Value) : (s.complete v).resetLatch = s.resetLatch := rfl
@[simp] theorem State.complete_turn (v : Value) : (s.complete v).turn = s.turn := rfl
@[simp] theorem State.complete_ctl (v : Value) : (s.complete v).ctl = s.ctl := rfl
@[simp] theorem State.complete_host (v : Value) : (s.complete v).host = s.host := rfl
@[simp] theorem State.complete_device (v : Value) : (s.complete v).device = s.device := rfl
@[simp] theorem State.complete_result (v : Value) : (s.complete v).result = .completed v := rfl

/-! ### State.refuse -/
@[simp] theorem State.refuse_cfg (sel : BitVec 5) : (s.refuse sel).cfg = s.cfg := rfl
@[simp] theorem State.refuse_bus (sel : BitVec 5) : (s.refuse sel).bus = s.bus := rfl
@[simp] theorem State.refuse_flags (sel : BitVec 5) : (s.refuse sel).flags = s.flags := rfl
@[simp] theorem State.refuse_record (sel : BitVec 5) : (s.refuse sel).record = s.record := rfl
@[simp] theorem State.refuse_role (sel : BitVec 5) : (s.refuse sel).role = s.role := rfl
@[simp] theorem State.refuse_active (sel : BitVec 5) : (s.refuse sel).active = s.active := rfl
@[simp] theorem State.refuse_enabled (sel : BitVec 5) : (s.refuse sel).enabled = s.enabled := rfl
@[simp] theorem State.refuse_slots (sel : BitVec 5) : (s.refuse sel).slots = s.slots := rfl
@[simp] theorem State.refuse_cause (sel : BitVec 5) : (s.refuse sel).cause = .refused := rfl
@[simp] theorem State.refuse_causeInfo (sel : BitVec 5) : (s.refuse sel).causeInfo = sel.zeroExtend 8 := rfl
@[simp] theorem State.refuse_resetLatch (sel : BitVec 5) : (s.refuse sel).resetLatch = s.resetLatch := rfl
@[simp] theorem State.refuse_turn (sel : BitVec 5) : (s.refuse sel).turn = s.turn := rfl
@[simp] theorem State.refuse_ctl (sel : BitVec 5) : (s.refuse sel).ctl = s.ctl := rfl
@[simp] theorem State.refuse_host (sel : BitVec 5) : (s.refuse sel).host = s.host := rfl
@[simp] theorem State.refuse_device (sel : BitVec 5) : (s.refuse sel).device = s.device := rfl
@[simp] theorem State.refuse_result (sel : BitVec 5) : (s.refuse sel).result = .refused (refusalValue sel) := rfl

/-! ### State.returnMode -/
@[simp] theorem State.returnMode_cfg (m : ATNMode) : (s.returnMode m).cfg = s.cfg := rfl
@[simp] theorem State.returnMode_bus (m : ATNMode) : (s.returnMode m).bus = s.bus := rfl
@[simp] theorem State.returnMode_flags (m : ATNMode) : (s.returnMode m).flags = s.flags := rfl
@[simp] theorem State.returnMode_record (m : ATNMode) : (s.returnMode m).record = s.record := rfl
@[simp] theorem State.returnMode_role (m : ATNMode) : (s.returnMode m).role = s.role := rfl
@[simp] theorem State.returnMode_active (m : ATNMode) : (s.returnMode m).active = s.active := rfl
@[simp] theorem State.returnMode_enabled (m : ATNMode) : (s.returnMode m).enabled = s.enabled := rfl
@[simp] theorem State.returnMode_slots (m : ATNMode) : (s.returnMode m).slots = s.slots := rfl
@[simp] theorem State.returnMode_cause (m : ATNMode) : (s.returnMode m).cause = s.cause := rfl
@[simp] theorem State.returnMode_causeInfo (m : ATNMode) : (s.returnMode m).causeInfo = s.causeInfo := rfl
@[simp] theorem State.returnMode_resetLatch (m : ATNMode) : (s.returnMode m).resetLatch = s.resetLatch := rfl
@[simp] theorem State.returnMode_turn (m : ATNMode) : (s.returnMode m).turn = s.turn := rfl
@[simp] theorem State.returnMode_ctl (m : ATNMode) : (s.returnMode m).ctl = .idle := rfl
@[simp] theorem State.returnMode_host (m : ATNMode) : (s.returnMode m).host = s.host := rfl
@[simp] theorem State.returnMode_device (m : ATNMode) : (s.returnMode m).device = s.device := rfl
@[simp] theorem State.returnMode_result (m : ATNMode) : (s.returnMode m).result = .completed (.mode m) := rfl

/-! ### State.setMode -/
@[simp] theorem State.setMode_cfg (m : ATNMode) : (s.setMode m).cfg = s.cfg := rfl
@[simp] theorem State.setMode_bus (m : ATNMode) : (s.setMode m).bus = s.bus := rfl
@[simp] theorem State.setMode_flags (m : ATNMode) : (s.setMode m).flags = s.flags := rfl
@[simp] theorem State.setMode_record (m : ATNMode) : (s.setMode m).record = { s.record with mode := m } := rfl
@[simp] theorem State.setMode_role (m : ATNMode) : (s.setMode m).role = s.role := rfl
@[simp] theorem State.setMode_active (m : ATNMode) : (s.setMode m).active = s.active := rfl
@[simp] theorem State.setMode_enabled (m : ATNMode) : (s.setMode m).enabled = s.enabled := rfl
@[simp] theorem State.setMode_slots (m : ATNMode) : (s.setMode m).slots = s.slots := rfl
@[simp] theorem State.setMode_cause (m : ATNMode) : (s.setMode m).cause = s.cause := rfl
@[simp] theorem State.setMode_causeInfo (m : ATNMode) : (s.setMode m).causeInfo = s.causeInfo := rfl
@[simp] theorem State.setMode_resetLatch (m : ATNMode) : (s.setMode m).resetLatch = s.resetLatch := rfl
@[simp] theorem State.setMode_turn (m : ATNMode) : (s.setMode m).turn = s.turn := rfl
@[simp] theorem State.setMode_ctl (m : ATNMode) : (s.setMode m).ctl = s.ctl := rfl
@[simp] theorem State.setMode_host (m : ATNMode) : (s.setMode m).host = s.host := rfl
@[simp] theorem State.setMode_device (m : ATNMode) : (s.setMode m).device = s.device := rfl
@[simp] theorem State.setMode_result (m : ATNMode) : (s.setMode m).result = s.result := rfl

/-! ### State.selected -/
@[simp] theorem State.selected_cfg (id : DeviceId) (r : Role) : (s.selected id r).cfg = s.cfg := rfl
@[simp] theorem State.selected_bus (id : DeviceId) (r : Role) : (s.selected id r).bus = s.bus := rfl
@[simp] theorem State.selected_flags (id : DeviceId) (r : Role) : (s.selected id r).flags = s.flags := rfl
@[simp] theorem State.selected_record (id : DeviceId) (r : Role) : (s.selected id r).record = s.record := rfl
@[simp] theorem State.selected_role (id : DeviceId) (r : Role) : (s.selected id r).role = r := rfl
@[simp] theorem State.selected_active (id : DeviceId) (r : Role) : (s.selected id r).active = some id := rfl
@[simp] theorem State.selected_enabled (id : DeviceId) (r : Role) : (s.selected id r).enabled = s.enabled := rfl
@[simp] theorem State.selected_slots (id : DeviceId) (r : Role) : (s.selected id r).slots = s.slots := rfl
@[simp] theorem State.selected_cause (id : DeviceId) (r : Role) : (s.selected id r).cause = s.cause := rfl
@[simp] theorem State.selected_causeInfo (id : DeviceId) (r : Role) : (s.selected id r).causeInfo = s.causeInfo := rfl
@[simp] theorem State.selected_resetLatch (id : DeviceId) (r : Role) : (s.selected id r).resetLatch = s.resetLatch := rfl
@[simp] theorem State.selected_turn (id : DeviceId) (r : Role) : (s.selected id r).turn = .notTurned := rfl
@[simp] theorem State.selected_ctl (id : DeviceId) (r : Role) : (s.selected id r).ctl = s.ctl := rfl
@[simp] theorem State.selected_host (id : DeviceId) (r : Role) : (s.selected id r).host = s.host := rfl
@[simp] theorem State.selected_device (id : DeviceId) (r : Role) : (s.selected id r).device = s.device := rfl
@[simp] theorem State.selected_result (id : DeviceId) (r : Role) : (s.selected id r).result = s.result := rfl

/-! ### State.callHook -/
@[simp] theorem State.callHook_cfg (h : Hook) : (s.callHook h).cfg = s.cfg := rfl
@[simp] theorem State.callHook_bus (h : Hook) : (s.callHook h).bus = s.bus := rfl
@[simp] theorem State.callHook_flags (h : Hook) : (s.callHook h).flags = s.flags := rfl
@[simp] theorem State.callHook_record (h : Hook) : (s.callHook h).record = s.record := rfl
@[simp] theorem State.callHook_role (h : Hook) : (s.callHook h).role = s.role := rfl
@[simp] theorem State.callHook_active (h : Hook) : (s.callHook h).active = s.active := rfl
@[simp] theorem State.callHook_enabled (h : Hook) : (s.callHook h).enabled = s.enabled := rfl
@[simp] theorem State.callHook_slots (h : Hook) : (s.callHook h).slots = s.slots := rfl
@[simp] theorem State.callHook_cause (h : Hook) : (s.callHook h).cause = s.cause := rfl
@[simp] theorem State.callHook_causeInfo (h : Hook) : (s.callHook h).causeInfo = s.causeInfo := rfl
@[simp] theorem State.callHook_resetLatch (h : Hook) : (s.callHook h).resetLatch = s.resetLatch := rfl
@[simp] theorem State.callHook_turn (h : Hook) : (s.callHook h).turn = s.turn := rfl
@[simp] theorem State.callHook_ctl (h : Hook) : (s.callHook h).ctl = .hook h false := rfl
@[simp] theorem State.callHook_host (h : Hook) : (s.callHook h).host = s.host := rfl
@[simp] theorem State.callHook_device (h : Hook) : (s.callHook h).device = s.device := rfl
@[simp] theorem State.callHook_result (h : Hook) : (s.callHook h).result = s.result := rfl

/-! ### State.setCommand -/
@[simp] theorem State.setCommand_cfg (b : Byte) (k : CmdKind) : (s.setCommand b k).cfg = s.cfg := rfl
@[simp] theorem State.setCommand_bus (b : Byte) (k : CmdKind) : (s.setCommand b k).bus = s.bus := rfl
@[simp] theorem State.setCommand_flags (b : Byte) (k : CmdKind) : (s.setCommand b k).flags = s.flags := rfl
@[simp] theorem State.setCommand_record (b : Byte) (k : CmdKind) : (s.setCommand b k).record = { s.record with raw := b, kind := k } := rfl
@[simp] theorem State.setCommand_role (b : Byte) (k : CmdKind) : (s.setCommand b k).role = s.role := rfl
@[simp] theorem State.setCommand_active (b : Byte) (k : CmdKind) : (s.setCommand b k).active = s.active := rfl
@[simp] theorem State.setCommand_enabled (b : Byte) (k : CmdKind) : (s.setCommand b k).enabled = s.enabled := rfl
@[simp] theorem State.setCommand_slots (b : Byte) (k : CmdKind) : (s.setCommand b k).slots = s.slots := rfl
@[simp] theorem State.setCommand_cause (b : Byte) (k : CmdKind) : (s.setCommand b k).cause = s.cause := rfl
@[simp] theorem State.setCommand_causeInfo (b : Byte) (k : CmdKind) : (s.setCommand b k).causeInfo = s.causeInfo := rfl
@[simp] theorem State.setCommand_resetLatch (b : Byte) (k : CmdKind) : (s.setCommand b k).resetLatch = s.resetLatch := rfl
@[simp] theorem State.setCommand_turn (b : Byte) (k : CmdKind) : (s.setCommand b k).turn = s.turn := rfl
@[simp] theorem State.setCommand_ctl (b : Byte) (k : CmdKind) : (s.setCommand b k).ctl = s.ctl := rfl
@[simp] theorem State.setCommand_host (b : Byte) (k : CmdKind) : (s.setCommand b k).host = s.host := rfl
@[simp] theorem State.setCommand_device (b : Byte) (k : CmdKind) : (s.setCommand b k).device = s.device := rfl
@[simp] theorem State.setCommand_result (b : Byte) (k : CmdKind) : (s.setCommand b k).result = s.result := rfl

/-! ### State.setDeviceId -/
@[simp] theorem State.setDeviceId_cfg (id : DeviceId) : (s.setDeviceId id).cfg = s.cfg := rfl
@[simp] theorem State.setDeviceId_bus (id : DeviceId) : (s.setDeviceId id).bus = s.bus := rfl
@[simp] theorem State.setDeviceId_flags (id : DeviceId) : (s.setDeviceId id).flags = s.flags := rfl
@[simp] theorem State.setDeviceId_record (id : DeviceId) : (s.setDeviceId id).record = { s.record with deviceId := id } := rfl
@[simp] theorem State.setDeviceId_role (id : DeviceId) : (s.setDeviceId id).role = s.role := rfl
@[simp] theorem State.setDeviceId_active (id : DeviceId) : (s.setDeviceId id).active = s.active := rfl
@[simp] theorem State.setDeviceId_enabled (id : DeviceId) : (s.setDeviceId id).enabled = s.enabled := rfl
@[simp] theorem State.setDeviceId_slots (id : DeviceId) : (s.setDeviceId id).slots = s.slots := rfl
@[simp] theorem State.setDeviceId_cause (id : DeviceId) : (s.setDeviceId id).cause = s.cause := rfl
@[simp] theorem State.setDeviceId_causeInfo (id : DeviceId) : (s.setDeviceId id).causeInfo = s.causeInfo := rfl
@[simp] theorem State.setDeviceId_resetLatch (id : DeviceId) : (s.setDeviceId id).resetLatch = s.resetLatch := rfl
@[simp] theorem State.setDeviceId_turn (id : DeviceId) : (s.setDeviceId id).turn = s.turn := rfl
@[simp] theorem State.setDeviceId_ctl (id : DeviceId) : (s.setDeviceId id).ctl = s.ctl := rfl
@[simp] theorem State.setDeviceId_host (id : DeviceId) : (s.setDeviceId id).host = s.host := rfl
@[simp] theorem State.setDeviceId_device (id : DeviceId) : (s.setDeviceId id).device = s.device := rfl
@[simp] theorem State.setDeviceId_result (id : DeviceId) : (s.setDeviceId id).result = s.result := rfl

/-! ### State.setChannel -/
@[simp] theorem State.setChannel_cfg (ch : Channel) : (s.setChannel ch).cfg = s.cfg := rfl
@[simp] theorem State.setChannel_bus (ch : Channel) : (s.setChannel ch).bus = s.bus := rfl
@[simp] theorem State.setChannel_flags (ch : Channel) : (s.setChannel ch).flags = s.flags := rfl
@[simp] theorem State.setChannel_record (ch : Channel) : (s.setChannel ch).record = { s.record with channel := ch } := rfl
@[simp] theorem State.setChannel_role (ch : Channel) : (s.setChannel ch).role = s.role := rfl
@[simp] theorem State.setChannel_active (ch : Channel) : (s.setChannel ch).active = s.active := rfl
@[simp] theorem State.setChannel_enabled (ch : Channel) : (s.setChannel ch).enabled = s.enabled := rfl
@[simp] theorem State.setChannel_slots (ch : Channel) : (s.setChannel ch).slots = s.slots := rfl
@[simp] theorem State.setChannel_cause (ch : Channel) : (s.setChannel ch).cause = s.cause := rfl
@[simp] theorem State.setChannel_causeInfo (ch : Channel) : (s.setChannel ch).causeInfo = s.causeInfo := rfl
@[simp] theorem State.setChannel_resetLatch (ch : Channel) : (s.setChannel ch).resetLatch = s.resetLatch := rfl
@[simp] theorem State.setChannel_turn (ch : Channel) : (s.setChannel ch).turn = s.turn := rfl
@[simp] theorem State.setChannel_ctl (ch : Channel) : (s.setChannel ch).ctl = s.ctl := rfl
@[simp] theorem State.setChannel_host (ch : Channel) : (s.setChannel ch).host = s.host := rfl
@[simp] theorem State.setChannel_device (ch : Channel) : (s.setChannel ch).device = s.device := rfl
@[simp] theorem State.setChannel_result (ch : Channel) : (s.setChannel ch).result = s.result := rfl

/-! ### State.toIdle -/
@[simp] theorem State.toIdle_cfg : (s.toIdle).cfg = s.cfg := rfl
@[simp] theorem State.toIdle_bus : (s.toIdle).bus = (s.bus.release .clk).release .data := rfl
@[simp] theorem State.toIdle_flags : (s.toIdle).flags = s.flags := rfl
@[simp] theorem State.toIdle_record : (s.toIdle).record = { s.record.setAuxLen 0 with mode := .idle } := rfl
@[simp] theorem State.toIdle_role : (s.toIdle).role = .none := rfl
@[simp] theorem State.toIdle_active : (s.toIdle).active = none := rfl
@[simp] theorem State.toIdle_enabled : (s.toIdle).enabled = s.enabled := rfl
@[simp] theorem State.toIdle_slots : (s.toIdle).slots = s.slots := rfl
@[simp] theorem State.toIdle_cause : (s.toIdle).cause = s.cause := rfl
@[simp] theorem State.toIdle_causeInfo : (s.toIdle).causeInfo = s.causeInfo := rfl
@[simp] theorem State.toIdle_resetLatch : (s.toIdle).resetLatch = s.resetLatch := rfl
@[simp] theorem State.toIdle_turn : (s.toIdle).turn = .notTurned := rfl
@[simp] theorem State.toIdle_ctl : (s.toIdle).ctl = s.ctl := rfl
@[simp] theorem State.toIdle_host : (s.toIdle).host = s.host := rfl
@[simp] theorem State.toIdle_device : (s.toIdle).device = s.device := rfl
@[simp] theorem State.toIdle_result : (s.toIdle).result = s.result := rfl

/-! ### State.endReset -/
@[simp] theorem State.endReset_cfg : (s.endReset).cfg = s.cfg := rfl
@[simp] theorem State.endReset_bus : (s.endReset).bus = s.bus := rfl
@[simp] theorem State.endReset_flags : (s.endReset).flags = s.flags.clearRst := rfl
@[simp] theorem State.endReset_record : (s.endReset).record = s.record := rfl
@[simp] theorem State.endReset_role : (s.endReset).role = s.role := rfl
@[simp] theorem State.endReset_active : (s.endReset).active = s.active := rfl
@[simp] theorem State.endReset_enabled : (s.endReset).enabled = s.enabled := rfl
@[simp] theorem State.endReset_slots : (s.endReset).slots = s.slots := rfl
@[simp] theorem State.endReset_cause : (s.endReset).cause = s.cause := rfl
@[simp] theorem State.endReset_causeInfo : (s.endReset).causeInfo = s.causeInfo := rfl
@[simp] theorem State.endReset_resetLatch : (s.endReset).resetLatch = true := rfl
@[simp] theorem State.endReset_turn : (s.endReset).turn = s.turn := rfl
@[simp] theorem State.endReset_ctl : (s.endReset).ctl = .idle := rfl
@[simp] theorem State.endReset_host : (s.endReset).host = s.host := rfl
@[simp] theorem State.endReset_device : (s.endReset).device = s.device := rfl
@[simp] theorem State.endReset_result : (s.endReset).result = .completed (.mode .reset) := rfl

/-! ### The flag register -/
@[simp] theorem Flags.clearForReceive_eoi (f : Flags) : f.clearForReceive.eoi = false := rfl
@[simp] theorem Flags.clearForReceive_atn (f : Flags) : f.clearForReceive.atn = false := rfl
@[simp] theorem Flags.clearForReceive_err (f : Flags) : f.clearForReceive.err = false := rfl
@[simp] theorem Flags.clearForReceive_rst (f : Flags) : f.clearForReceive.rst = f.rst := rfl
@[simp] theorem Flags.clearErr_eoi (f : Flags) : f.clearErr.eoi = f.eoi := rfl
@[simp] theorem Flags.clearErr_atn (f : Flags) : f.clearErr.atn = f.atn := rfl
@[simp] theorem Flags.clearErr_err (f : Flags) : f.clearErr.err = false := rfl
@[simp] theorem Flags.clearErr_rst (f : Flags) : f.clearErr.rst = f.rst := rfl
@[simp] theorem Flags.setErr_eoi (f : Flags) : f.setErr.eoi = f.eoi := rfl
@[simp] theorem Flags.setErr_atn (f : Flags) : f.setErr.atn = f.atn := rfl
@[simp] theorem Flags.setErr_err (f : Flags) : f.setErr.err = true := rfl
@[simp] theorem Flags.setErr_rst (f : Flags) : f.setErr.rst = f.rst := rfl
@[simp] theorem Flags.setRst_eoi (f : Flags) : f.setRst.eoi = f.eoi := rfl
@[simp] theorem Flags.setRst_atn (f : Flags) : f.setRst.atn = f.atn := rfl
@[simp] theorem Flags.setRst_err (f : Flags) : f.setRst.err = f.err := rfl
@[simp] theorem Flags.setRst_rst (f : Flags) : f.setRst.rst = true := rfl
@[simp] theorem Flags.clearRst_eoi (f : Flags) : f.clearRst.eoi = f.eoi := rfl
@[simp] theorem Flags.clearRst_atn (f : Flags) : f.clearRst.atn = f.atn := rfl
@[simp] theorem Flags.clearRst_err (f : Flags) : f.clearRst.err = f.err := rfl
@[simp] theorem Flags.clearRst_rst (f : Flags) : f.clearRst.rst = false := rfl
@[simp] theorem Flags.setEoi_eoi (f : Flags) : f.setEoi.eoi = true := rfl
@[simp] theorem Flags.setEoi_atn (f : Flags) : f.setEoi.atn = f.atn := rfl
@[simp] theorem Flags.setEoi_err (f : Flags) : f.setEoi.err = f.err := rfl
@[simp] theorem Flags.setEoi_rst (f : Flags) : f.setEoi.rst = f.rst := rfl
@[simp] theorem Flags.setAtn_eoi (f : Flags) : f.setAtn.eoi = f.eoi := rfl
@[simp] theorem Flags.setAtn_atn (f : Flags) : f.setAtn.atn = true := rfl
@[simp] theorem Flags.setAtn_err (f : Flags) : f.setAtn.err = f.err := rfl
@[simp] theorem Flags.setAtn_rst (f : Flags) : f.setAtn.rst = f.rst := rfl
@[simp] theorem Flags.sawReset_eoi (f : Flags) : f.sawReset.eoi = f.eoi := rfl
@[simp] theorem Flags.sawReset_atn (f : Flags) : f.sawReset.atn = f.atn := rfl
@[simp] theorem Flags.sawReset_err (f : Flags) : f.sawReset.err = true := rfl
@[simp] theorem Flags.sawReset_rst (f : Flags) : f.sawReset.rst = true := rfl
@[simp] theorem Flags.clearAfterBroadcast_eoi (f : Flags) : f.clearAfterBroadcast.eoi = false := rfl
@[simp] theorem Flags.clearAfterBroadcast_atn (f : Flags) : f.clearAfterBroadcast.atn = false := rfl
@[simp] theorem Flags.clearAfterBroadcast_err (f : Flags) : f.clearAfterBroadcast.err = false := rfl
@[simp] theorem Flags.clearAfterBroadcast_rst (f : Flags) : f.clearAfterBroadcast.rst = f.rst := rfl

/-! ### Bus and flags together -/
@[simp] theorem Link.pull_bus (k : Link) (l : Line) : (k.pull l).bus = k.bus.pull l := rfl
@[simp] theorem Link.pull_flags (k : Link) (l : Line) : (k.pull l).flags = k.flags := rfl
@[simp] theorem Link.release_bus (k : Link) (l : Line) : (k.release l).bus = k.bus.release l := rfl
@[simp] theorem Link.release_flags (k : Link) (l : Line) : (k.release l).flags = k.flags := rfl
@[simp] theorem Link.afterRead_bus (k : Link) (l : Line) : (k.afterRead l).bus = k.bus.afterRead l := rfl
@[simp] theorem Link.afterRead_flags (k : Link) (l : Line) : (k.afterRead l).flags = k.flags := rfl
@[simp] theorem Link.tick_bus (k : Link) : (k.tick).bus = k.bus.tick := rfl
@[simp] theorem Link.tick_flags (k : Link) : (k.tick).flags = k.flags := rfl
@[simp] theorem Link.delay_bus (k : Link) (d : Nat) : (k.delay d).bus = k.bus.delay d := rfl
@[simp] theorem Link.delay_flags (k : Link) (d : Nat) : (k.delay d).flags = k.flags := rfl
@[simp] theorem Link.passTo_bus (k : Link) (d : Nat) : (k.passTo d).bus = k.bus.passTo d := rfl
@[simp] theorem Link.passTo_flags (k : Link) (d : Nat) : (k.passTo d).flags = k.flags := rfl
@[simp] theorem Link.setErr_bus (k : Link) : (k.setErr).bus = k.bus := rfl
@[simp] theorem Link.setErr_flags (k : Link) : (k.setErr).flags = k.flags.setErr := rfl
@[simp] theorem State.link_bus : s.link.bus = s.bus := rfl
@[simp] theorem State.link_flags : s.link.flags = s.flags := rfl

end Sys2Proof.Machine
end

