-- ==== Sys2Proof/Laws/Bus.lean ====
section
/-! SUPPORT. The line set: what each line action does, and the one relation `Bus.Later` that every operation of the engine
obeys (time goes on, moves of the environment are used up in order, the wire's record only grows, ATN, SRQ and RESET stay
released). -/
namespace Sys2Proof.Machine
open Sys2Proof

/-! ### Lines -/

@[simp] theorem Lines.get_set_same (ls : Lines) (l : Line) (v : LineState) : (ls.set l v).get l = v := by
  cases l <;> rfl

theorem Lines.get_set_other (ls : Lines) (l m : Line) (v : LineState) (h : m ≠ l) : (ls.set l v).get m = ls.get m := by
  cases l <;> cases m <;> first | rfl | exact absurd rfl h

@[simp] theorem Lines.set_get_self (ls : Lines) (l : Line) : ls.set l (ls.get l) = ls := by
  cases l <;> rfl

/-! ### One action -/

@[simp] theorem Bus.envMove_own (b : Bus) : b.envMove.own = b.own := by
  unfold Bus.envMove; split <;> rfl

@[simp] theorem Bus.envMove_wire (b : Bus) : b.envMove.wire = b.wire := by
  unfold Bus.envMove; split <;> rfl

@[simp] theorem Bus.drive_own (b : Bus) (l : Line) (v : LineState) : (b.drive l v).own = b.own.set l v := by
  unfold Bus.drive
  split
  · rename_i h; rw [← h, Lines.set_get_self]
  · rfl

@[simp] theorem Bus.drive_ext (b : Bus) (l : Line) (v : LineState) : (b.drive l v).ext = b.ext := by
  unfold Bus.drive; split <;> rfl

@[simp] theorem Bus.drive_now (b : Bus) (l : Line) (v : LineState) : (b.drive l v).now = b.now := by
  unfold Bus.drive; split <;> rfl

@[simp] theorem Bus.drive_env (b : Bus) (l : Line) (v : LineState) : (b.drive l v).env = b.env := by
  unfold Bus.drive; split <;> rfl

@[simp] theorem Bus.pull_own (b : Bus) (l : Line) : (b.pull l).own = b.own.set l .pulled := by simp [Bus.pull]
@[simp] theorem Bus.pull_ext (b : Bus) (l : Line) : (b.pull l).ext = b.envMove.ext := by simp [Bus.pull]
@[simp] theorem Bus.pull_now (b : Bus) (l : Line) : (b.pull l).now = b.envMove.now := by simp [Bus.pull]
@[simp] theorem Bus.pull_env (b : Bus) (l : Line) : (b.pull l).env = b.envMove.env := by simp [Bus.pull]

@[simp] theorem Bus.release_own (b : Bus) (l : Line) : (b.release l).own = b.own.set l .released := by simp [Bus.release]
@[simp] theorem Bus.release_ext (b : Bus) (l : Line) : (b.release l).ext = b.envMove.ext := by simp [Bus.release]
@[simp] theorem Bus.release_now (b : Bus) (l : Line) : (b.release l).now = b.envMove.now := by simp [Bus.release]
@[simp] theorem Bus.release_env (b : Bus) (l : Line) : (b.release l).env = b.envMove.env := by simp [Bus.release]

@[simp] theorem Bus.afterRead_own (b : Bus) (l : Line) : (b.afterRead l).own = b.own.set l .released := by simp [Bus.afterRead]
@[simp] theorem Bus.afterRead_ext (b : Bus) (l : Line) : (b.afterRead l).ext = b.envMove.ext := by simp [Bus.afterRead]
@[simp] theorem Bus.afterRead_now (b : Bus) (l : Line) : (b.afterRead l).now = b.envMove.now := by simp [Bus.afterRead]
@[simp] theorem Bus.afterRead_env (b : Bus) (l : Line) : (b.afterRead l).env = b.envMove.env := by simp [Bus.afterRead]

@[simp] theorem Bus.letGoUndriven_own (q : Bool) (b : Bus) : (b.letGoUndriven q).own =
    { b.own with atn := .released, srq := if q then .released else b.own.srq, reset := .released } := by
  cases q <;> simp [Bus.letGoUndriven, Lines.set]

@[simp] theorem Bus.tick_own (b : Bus) : b.tick.own = b.own := by simp [Bus.tick]
@[simp] theorem Bus.delay_own (b : Bus) (d : Nat) : (b.delay d).own = b.own := by simp [Bus.delay]
@[simp] theorem Bus.passTo_own (b : Bus) (t : Nat) : (b.passTo t).own = b.own := rfl

/-- "The result of `read(l)` is always `ext[l]`, never the engine's own drive" (40_line_driver.md R123). -/
@[simp] theorem Bus.sample_eq (b : Bus) (l : Line) : b.sample l = b.envMove.ext.get l := by
  unfold Bus.sample Bus.level
  simp only [Bus.afterRead_own, Lines.get_set_same, Bus.afterRead_ext, reduceCtorEq, false_or]
  split
  · rename_i h; exact h.symm
  · rename_i h; cases hx : b.envMove.ext.get l <;> simp_all

@[simp] theorem Link.sample_eq (k : Link) (l : Line) : k.sample l = k.bus.envMove.ext.get l := by simp [Link.sample]
@[simp] theorem State.sample_eq (s : State) (l : Line) : s.sample l = s.bus.envMove.ext.get l := by simp [State.sample]

/-! ### Later -/

/-- `c` is a bus the engine may reach from `b`: time has not gone back, the environment's moves were used from the front, the
wire's record only grew, with pulls of CLK and DATA alone, and an undriven line that was released still is. -/
structure Bus.Later (b c : Bus) : Prop where
  now_le : b.now ≤ c.now
  env_suffix : c.env <:+ b.env
  wire_grows : ∃ new, c.wire = new ++ b.wire ∧ ∀ e ∈ new, e.state = .pulled → undrivenLine e.line = false
  undriven : ∀ l, undrivenLine l = true → b.own.get l = .released → c.own.get l = .released

theorem Bus.Later.wire_suffix {b c : Bus} (h : b.Later c) : b.wire <:+ c.wire :=
  let ⟨new, e, _⟩ := h.wire_grows
  ⟨new, e.symm⟩

/-- The events of a bus whose record grew by `new`. -/
theorem newEvents_of_grows {b c : Bus} {new : List WireEvent} (h : c.wire = new ++ b.wire) : newEvents b c = new.reverse := by
  simp [newEvents, h]

/-- No undriven line is pulled on the way, not even for a moment. -/
theorem Bus.Later.no_pull {b c : Bus} (h : b.Later c) : ∀ e ∈ newEvents b c, e.state = .pulled → undrivenLine e.line = false := by
  obtain ⟨new, e, hn⟩ := h.wire_grows
  rw [newEvents_of_grows e]
  exact fun e he => hn e (List.mem_reverse.1 he)

/-- An action that leaves the wire's record alone. -/
theorem Bus.grows_refl {b c : Bus} (h : c.wire = b.wire) :
    ∃ new, c.wire = new ++ b.wire ∧ ∀ e ∈ new, e.state = .pulled → undrivenLine e.line = false := ⟨[], h, by simp⟩

theorem Bus.Later.refl (b : Bus) : b.Later b :=
  ⟨Nat.le_refl _, List.suffix_refl _, Bus.grows_refl rfl, fun _ _ h => h⟩

theorem Bus.Later.trans {a b c : Bus} (h : a.Later b) (g : b.Later c) : a.Later c :=
  ⟨Nat.le_trans h.now_le g.now_le, g.env_suffix.trans h.env_suffix,
    by
      obtain ⟨n1, e1, h1⟩ := h.wire_grows
      obtain ⟨n2, e2, h2⟩ := g.wire_grows
      exact ⟨n2 ++ n1, by rw [e2, e1, List.append_assoc], fun e he => (List.mem_append.1 he).elim (h2 e) (h1 e)⟩,
    fun l hl ho => g.undriven l hl (h.undriven l hl ho)⟩

theorem Bus.later_envMove (b : Bus) : b.Later b.envMove := by
  refine ⟨?_, ?_, Bus.grows_refl (by simp), by simp⟩
  · unfold Bus.envMove; split <;> simp
  · unfold Bus.envMove
    split
    · exact List.suffix_refl _
    · rename_i m rest h; rw [h]; exact List.suffix_cons _ _

theorem Bus.later_drive (b : Bus) (l : Line) (v : LineState) (h : v = .released ∨ undrivenLine l = false) :
    b.Later (b.drive l v) := by
  refine ⟨by simp, by simp, ?_, fun m hm ho => ?_⟩
  · unfold Bus.drive
    split
    · exact Bus.grows_refl rfl
    · refine ⟨[⟨b.now, l, v⟩], rfl, fun e he hv => ?_⟩
      obtain rfl := List.mem_singleton.1 he
      exact h.resolve_left fun hr => by simp [hr] at hv
  · by_cases e : m = l
    · subst e
      rcases h with rfl | h
      · simp
      · simp [h] at hm
    · simp [Lines.get_set_other _ _ _ _ e, ho]

theorem Bus.later_pull (b : Bus) (l : Line) (h : undrivenLine l = false) : b.Later (b.pull l) :=
  b.later_envMove.trans (Bus.later_drive _ _ _ (.inr h))

theorem Bus.later_release (b : Bus) (l : Line) : b.Later (b.release l) :=
  b.later_envMove.trans (Bus.later_drive _ _ _ (.inl rfl))

theorem Bus.later_afterRead (b : Bus) (l : Line) : b.Later (b.afterRead l) :=
  b.later_envMove.trans (Bus.later_drive _ _ _ (.inl rfl))

theorem Bus.later_letGoUndriven (q : Bool) (b : Bus) : b.Later (b.letGoUndriven q) := by
  have h := b.later_release .atn
  cases q
  · exact h.trans (Bus.later_release _ _)
  · exact (h.trans (Bus.later_release _ .srq)).trans (Bus.later_release _ _)

theorem Bus.later_tick (b : Bus) : b.Later b.tick := b.later_envMove

theorem Bus.later_delay (b : Bus) (d : Nat) : b.Later (b.delay d) :=
  let h := b.later_envMove
  ⟨Nat.le_trans h.now_le (Nat.le_add_right _ _), h.env_suffix, h.wire_grows, h.undriven⟩

theorem Bus.later_passTo (b : Bus) (t : Nat) : b.Later (b.passTo t) :=
  ⟨Nat.le_max_left _ _, List.suffix_refl _, Bus.grows_refl rfl, fun _ _ h => h⟩

end Sys2Proof.Machine
end

