-- ==== Sys2Proof/Laws/Handshake.lean ====
section
/-! SUPPORT. What the bounded wait, one byte each way and the turnaround can do, said once. -/
namespace Sys2Proof.Machine
open Sys2Proof

/-! ### The bounded wait -/

/-- Everything one wait for `expected` on `l` can do to `k`, if it was entered at `t0`. -/
structure Link.WaitSpec (timeout : Nat) (l : Line) (expected : LineState) (t0 : Nat) (k : Link) (w : Bool × Link) : Prop where
  later : k.bus.Later w.2.bus
  own_other : ∀ m, m ≠ .reset → m ≠ l → w.2.bus.own.get m = k.bus.own.get m
  own_released : ∀ m, k.bus.own.get m = .released → w.2.bus.own.get m = .released
  seen : w.1 = true → w.2.flags = k.flags ∧ w.2.bus.ext.get l = expected ∧ w.2.bus.own.get l = .released
  failed : w.1 = false →
    (w.2.flags = k.flags.sawReset ∧ w.2.bus.ext.get .reset = .pulled ∧ w.2.bus.own.get .reset = .released) ∨ (w.2.flags = k.flags.setErr ∧ t0 + timeout ≤ w.2.bus.now)

theorem Link.waitLoop_spec (timeout : Nat) (l : Line) (expected : LineState) (t0 : Nat) (n : Nat) (k : Link)
    (h0 : t0 ≤ k.bus.now) : Link.WaitSpec timeout l expected t0 k (Link.waitLoop timeout l expected t0 n k) := by
  induction n generalizing k with
  | zero =>
    refine ⟨Bus.later_passTo _ _, fun _ _ _ => rfl, fun _ h => h, by simp [Link.waitLoop], fun _ => .inr ⟨rfl, ?_⟩⟩
    exact Nat.le_max_right _ _
  | succ n ih =>
    have l1 : k.bus.Later (k.afterRead .reset).bus := Bus.later_afterRead _ _
    have l2 : k.bus.Later ((k.afterRead .reset).afterRead l).bus := l1.trans (Bus.later_afterRead _ _)
    have l3 : k.bus.Later ((k.afterRead .reset).afterRead l).tick.bus := l2.trans (Bus.later_tick _)
    have own1 : ∀ m, k.bus.own.get m = .released → (k.bus.own.set .reset .released).get m = .released := by
      intro m hm
      by_cases e : m = .reset
      · subst e; simp
      · rw [Lines.get_set_other _ _ _ _ e, hm]
    have own2 : ∀ m, k.bus.own.get m = .released →
        ((k.bus.own.set .reset .released).set l .released).get m = .released := by
      intro m hm
      by_cases e : m = l
      · subst e; simp
      · rw [Lines.get_set_other _ _ _ _ e, own1 m hm]
    have oth2 : ∀ m, m ≠ .reset → m ≠ l →
        ((k.bus.own.set .reset .released).set l .released).get m = k.bus.own.get m := by
      intro m h1 h2
      rw [Lines.get_set_other _ _ _ _ h2, Lines.get_set_other _ _ _ _ h1]
    simp only [Link.waitLoop]
    split
    · rename_i hp
      exact ⟨l1, fun m h1 _ => by simp [Lines.get_set_other _ _ _ _ h1], by simpa using own1, by simp,
        fun _ => .inl ⟨rfl, by simpa using hp, by simp⟩⟩
    · split
      · rename_i _ hs
        exact ⟨l2, by simpa using oth2, by simpa using own2, fun _ => ⟨rfl, by simpa using hs, by simp⟩, by simp⟩
      · split
        · exact ⟨l2.trans (Bus.later_passTo _ _), by simpa using oth2, by simpa using own2, by simp,
            fun _ => .inr ⟨rfl, Nat.le_max_right _ _⟩⟩
        · split
          · rename_i hto
            refine ⟨l3, by simpa using oth2, by simpa using own2, by simp, fun _ => .inr ⟨rfl, ?_⟩⟩
            have := l3.now_le
            simp only [Link.setErr_bus] at this ⊢
            omega
          · have r := ih ((k.afterRead .reset).afterRead l).tick (Nat.le_trans h0 l3.now_le)
            refine ⟨l3.trans r.later, fun m h1 h2 => ?_, fun m hm => r.own_released m ?_, r.seen, r.failed⟩
            · rw [r.own_other m h1 h2]; simpa using oth2 m h1 h2
            · simpa using own2 m hm

/-- Everything `timeoutWait` can do; its time of entry is the first reading of `now`. -/
theorem Link.timeoutWait_spec (p : Params) (k : Link) (l : Line) (expected : LineState) :
    Link.WaitSpec p.tTimeout l expected k.tick.bus.now k (Link.timeoutWait p k l expected) := by
  have r := Link.waitLoop_spec p.tTimeout l expected k.tick.bus.now (k.tick.bus.env.length + 1) k.tick (Nat.le_refl _)
  have e : k.tick.bus.own = k.bus.own := Bus.tick_own _
  refine ⟨(Bus.later_tick _).trans r.later, fun m h1 h2 => ?_, fun m h => r.own_released m (e ▸ h), r.seen, r.failed⟩
  exact (r.own_other m h1 h2).trans (by rw [e])

/-- The wait's result is told by `flags.err`: a wait that fails sets it and one that succeeds leaves it. -/
theorem Link.timeoutWait_err (p : Params) (k : Link) (l : Line) (expected : LineState) (h : k.flags.err = false) :
    (Link.timeoutWait p k l expected).2.flags.err = !(Link.timeoutWait p k l expected).1 := by
  have r := Link.timeoutWait_spec p k l expected
  cases hw : (Link.timeoutWait p k l expected).1
  · rcases r.failed hw with ⟨h, _⟩ | ⟨h, _⟩ <;> simp [h]
  · simp [(r.seen hw).1, h]

/-! ### What is left alone by the waits of a byte -/

/-- Everything a handshake operation may do to bus and flags that the rest of the engine relies on. -/
structure Link.HandshakeSpec (k j : Link) : Prop where
  later : k.bus.Later j.bus
  own_atn : k.bus.own.atn = .released → j.bus.own.atn = .released
  own_srq : j.bus.own.srq = k.bus.own.srq
  rst : k.flags.rst = true → j.flags.rst = true

theorem Link.HandshakeSpec.refl (k : Link) : Link.HandshakeSpec k k := ⟨Bus.Later.refl _, id, rfl, id⟩

theorem Link.HandshakeSpec.trans {a b c : Link} (h : Link.HandshakeSpec a b) (g : Link.HandshakeSpec b c) :
    Link.HandshakeSpec a c :=
  ⟨h.later.trans g.later, fun x => g.own_atn (h.own_atn x), g.own_srq.trans h.own_srq, fun x => g.rst (h.rst x)⟩

theorem Link.timeoutWait_handshake (p : Params) (k : Link) (l : Line) (expected : LineState) (hl : l ≠ .srq) :
    Link.HandshakeSpec k (Link.timeoutWait p k l expected).2 := by
  have r := Link.timeoutWait_spec p k l expected
  refine ⟨r.later, r.own_released .atn, r.own_other .srq (by simp) hl.symm, fun h => ?_⟩
  cases hw : (Link.timeoutWait p k l expected).1
  · rcases r.failed hw with ⟨h', _⟩ | ⟨h', _⟩ <;> simp [h', h]
  · simp [(r.seen hw).1, h]

theorem Link.pull_handshake (k : Link) (l : Line) (hl : undrivenLine l = false) : Link.HandshakeSpec k (k.pull l) := by
  refine ⟨Bus.later_pull _ _ hl, (Bus.later_pull k.bus l hl).undriven .atn rfl, ?_, id⟩
  cases l <;> simp_all [undrivenLine, Lines.set]

theorem Link.release_handshake (k : Link) (l : Line) (hl : undrivenLine l = false) : Link.HandshakeSpec k (k.release l) := by
  refine ⟨Bus.later_release _ _, (Bus.later_release k.bus l).undriven .atn rfl, ?_, id⟩
  cases l <;> simp_all [undrivenLine, Lines.set]

theorem Link.afterRead_handshake (k : Link) (l : Line) (hl : l ≠ .srq) : Link.HandshakeSpec k (k.afterRead l) := by
  refine ⟨Bus.later_afterRead _ _, (Bus.later_afterRead k.bus l).undriven .atn rfl, ?_, id⟩
  cases l <;> simp_all [Lines.set]

theorem Link.delay_handshake (k : Link) (d : Nat) : Link.HandshakeSpec k (k.delay d) :=
  ⟨Bus.later_delay _ _, by simp, by simp, id⟩

theorem Link.tick_handshake (k : Link) : Link.HandshakeSpec k k.tick := ⟨Bus.later_tick _, by simp, by simp, id⟩

theorem Link.passTo_handshake (k : Link) (t : Nat) : Link.HandshakeSpec k (k.passTo t) :=
  ⟨Bus.later_passTo _ _, by simp, by simp, id⟩

/-! ### Receiving -/

theorem Link.acknowledgeEoi_handshake (p : Params) (k : Link) : Link.HandshakeSpec k (Link.acknowledgeEoi p k).2 :=
  .trans (b := { k with flags := k.flags.setEoi }) ⟨Bus.Later.refl _, id, rfl, id⟩
    (((Link.pull_handshake _ _ rfl).trans (Link.delay_handshake _ _)).trans (Link.release_handshake _ _ rfl) |>.trans
      (Link.timeoutWait_handshake _ _ _ _ (by simp)))

theorem Link.eoiLoop_handshake (p : Params) (t0 n : Nat) (k : Link) : Link.HandshakeSpec k (Link.eoiLoop p t0 n k).2 := by
  induction n generalizing k with
  | zero => simp only [Link.eoiLoop]; exact (Link.passTo_handshake _ _).trans (Link.acknowledgeEoi_handshake _ _)
  | succ n ih =>
    have h1 := Link.afterRead_handshake k .clk (by simp)
    simp only [Link.eoiLoop]
    split
    · exact h1
    · split
      · exact (h1.trans (Link.passTo_handshake _ _)).trans (Link.acknowledgeEoi_handshake _ _)
      · split
        · exact (h1.trans (Link.tick_handshake _)).trans (Link.acknowledgeEoi_handshake _ _)
        · exact (h1.trans (Link.tick_handshake _)).trans (ih _)

theorem Link.measureEoi_handshake (p : Params) (k : Link) : Link.HandshakeSpec k (Link.measureEoi p k).2 :=
  (Link.tick_handshake k).trans (Link.eoiLoop_handshake _ _ _ _)

theorem Link.noteAtn_handshake (k : Link) : Link.HandshakeSpec k k.noteAtn := by
  have h := Link.afterRead_handshake k .atn (by simp)
  unfold Link.noteAtn
  simp only
  split
  · exact h.trans ⟨Bus.Later.refl _, id, rfl, id⟩
  · exact h

theorem Link.receiveCells_handshake (p : Params) (n : Nat) (v : Byte) (k : Link) :
    Link.HandshakeSpec k (Link.receiveCells p n v k).2 := by
  induction n generalizing v k with
  | zero => exact Link.pull_handshake _ _ rfl
  | succ n ih =>
    have h1 := Link.timeoutWait_handshake p k .clk .released (by simp)
    simp only [Link.receiveCells]
    generalize Link.timeoutWait p k .clk .released = w1 at h1 ⊢
    split
    · exact h1
    · have h2 := (h1.trans (Link.afterRead_handshake w1.2 .data (by simp))).trans
        (Link.timeoutWait_handshake p (w1.2.afterRead .data) .clk .pulled (by simp))
      generalize Link.timeoutWait p (w1.2.afterRead .data) .clk .pulled = w2 at h2 ⊢
      split
      · exact h2
      · exact h2.trans (ih _ _)

theorem Link.receiveByte_handshake (p : Params) (k : Link) : Link.HandshakeSpec k (Link.receiveByte p k).2 := by
  have h0 : Link.HandshakeSpec k { k with flags := k.flags.clearForReceive } := ⟨Bus.Later.refl _, id, rfl, id⟩
  have h1 := h0.trans (Link.timeoutWait_handshake p _ .clk .released (by simp))
  simp only [Link.receiveByte]
  generalize Link.timeoutWait p { k with flags := k.flags.clearForReceive } .clk .released = w1 at h1 ⊢
  split
  · exact h1
  · have h2 := (h1.trans (Link.release_handshake _ .data rfl)).trans (Link.measureEoi_handshake p _)
    generalize Link.measureEoi p (w1.2.release .data) = w2 at h2 ⊢
    split
    · exact h2
    · have h3 : Link.HandshakeSpec k w2.2.noteAtn := h2.trans (Link.noteAtn_handshake w2.2)
      have h4 := Link.receiveCells_handshake p 8 0x00#8 w2.2.noteAtn
      exact h3.trans h4

/-- A step of `receiveByte` that returns a success flag tells it by `flags.err`. -/
theorem Link.acknowledgeEoi_err (p : Params) (k : Link) (h : k.flags.err = false) :
    (Link.acknowledgeEoi p k).2.flags.err = !(Link.acknowledgeEoi p k).1 := by
  have w := Link.timeoutWait_err p (((Link.pull { k with flags := k.flags.setEoi } .data).delay p.tEoiAck).release .data) .clk
    .pulled (by simpa [Flags.setEoi] using h)
  simp only [Link.acknowledgeEoi]
  exact w

theorem Link.eoiLoop_err (p : Params) (t0 n : Nat) (k : Link) (h : k.flags.err = false) :
    (Link.eoiLoop p t0 n k).2.flags.err = !(Link.eoiLoop p t0 n k).1 := by
  induction n generalizing k with
  | zero => simp only [Link.eoiLoop]; exact Link.acknowledgeEoi_err p _ (by simpa using h)
  | succ n ih =>
    simp only [Link.eoiLoop]
    split
    · simpa using h
    · split
      · exact Link.acknowledgeEoi_err p _ (by simpa using h)
      · split
        · exact Link.acknowledgeEoi_err p _ (by simpa using h)
        · exact ih _ (by simpa using h)

theorem Link.noteAtn_err (k : Link) : k.noteAtn.flags.err = k.flags.err := by
  unfold Link.noteAtn; simp only; split <;> rfl

/-- The cells that are left: a failure returns 0x00 with `flags.err = 1`, a success leaves DATA pulled (R154, R155). -/
theorem Link.receiveCells_err (p : Params) (n : Nat) (v : Byte) (k : Link) (h : k.flags.err = false) :
    let r := Link.receiveCells p n v k
    (r.2.flags.err = true → r.1 = 0x00#8) ∧ (r.2.flags.err = false → r.2.bus.own.data = .pulled) := by
  induction n generalizing v k with
  | zero => simp [Link.receiveCells, h, Lines.set]
  | succ n ih =>
    have e1 := Link.timeoutWait_err p k .clk .released h
    simp only [Link.receiveCells]
    split
    · rename_i hw; simp [e1, hw]
    · rename_i hw
      have e2 := Link.timeoutWait_err p ((Link.timeoutWait p k .clk .released).2.afterRead .data) .clk .pulled
        (by simpa [e1] using hw)
      split
      · rename_i hw2; simp [e2, hw2]
      · rename_i hw2
        exact ih _ _ (by simpa [e2] using hw2)

/-- "On any failed wait the operation returns 0x00 with `flags.err = 1`"; else the engine ends with DATA pulled (R150, R155). -/
theorem Link.receiveByte_err (p : Params) (k : Link) :
    let r := Link.receiveByte p k
    (r.2.flags.err = true → r.1 = 0x00#8) ∧ (r.2.flags.err = false → r.2.bus.own.data = .pulled) := by
  have e1 := Link.timeoutWait_err p { k with flags := k.flags.clearForReceive } .clk .released rfl
  simp only [Link.receiveByte]
  generalize Link.timeoutWait p { k with flags := k.flags.clearForReceive } .clk .released = w1 at e1 ⊢
  split
  · rename_i hw; simp [e1, hw]
  · rename_i hw
    have e2 : (Link.measureEoi p (w1.2.release .data)).2.flags.err = !(Link.measureEoi p (w1.2.release .data)).1 :=
      Link.eoiLoop_err p _ _ _ (by simpa [e1] using hw)
    generalize Link.measureEoi p (w1.2.release .data) = w2 at e2 ⊢
    split
    · rename_i hw2; simp [e2, hw2]
    · rename_i hw2
      exact Link.receiveCells_err p 8 0x00#8 w2.2.noteAtn (by rw [Link.noteAtn_err, e2]; simpa using hw2)

/-! ### Sending -/

theorem Link.sendCell_handshake (p : Params) (v : Byte) (n : Nat) (k : Link) : Link.HandshakeSpec k (Link.sendCell p v n k) := by
  have h1 := Link.pull_handshake k .clk rfl
  simp only [Link.sendCell]
  split
  · exact (((h1.trans (Link.release_handshake _ .data rfl)).trans (Link.delay_handshake _ _)).trans
      (Link.release_handshake _ .clk rfl)).trans (Link.delay_handshake _ _)
  · exact (((h1.trans (Link.pull_handshake _ .data rfl)).trans (Link.delay_handshake _ _)).trans
      (Link.release_handshake _ .clk rfl)).trans (Link.delay_handshake _ _)

theorem Link.sendCell_flags (p : Params) (v : Byte) (n : Nat) (k : Link) : (Link.sendCell p v n k).flags = k.flags := by
  unfold Link.sendCell; simp only; split <;> rfl

theorem Link.sendCells_handshake (p : Params) (v : Byte) (left n : Nat) (k : Link) :
    Link.HandshakeSpec k (Link.sendCells p v left n k) := by
  induction left generalizing n k with
  | zero => exact .refl _
  | succ left ih => exact (Link.sendCell_handshake p v n k).trans (ih _ _)

theorem Link.sendCells_flags (p : Params) (v : Byte) (left n : Nat) (k : Link) :
    (Link.sendCells p v left n k).flags = k.flags := by
  induction left generalizing n k with
  | zero => rfl
  | succ left ih => simp only [Link.sendCells]; rw [ih, Link.sendCell_flags]

theorem Link.awaitEoiAck_handshake (p : Params) (e : Bool) (k : Link) : Link.HandshakeSpec k (Link.awaitEoiAck p e k).2 := by
  unfold Link.awaitEoiAck
  split
  · have h1 := Link.timeoutWait_handshake p k .data .pulled (by simp)
    simp only
    split
    · exact h1
    · exact h1.trans (Link.timeoutWait_handshake p _ .data .released (by simp))
  · exact .refl _

theorem Link.awaitEoiAck_err (p : Params) (e : Bool) (k : Link) (h : k.flags.err = false) :
    (Link.awaitEoiAck p e k).2.flags.err = !(Link.awaitEoiAck p e k).1 := by
  unfold Link.awaitEoiAck
  split
  · have e1 := Link.timeoutWait_err p k .data .pulled h
    simp only
    split
    · rename_i hw; simp [e1, hw]
    · rename_i hw
      exact Link.timeoutWait_err p _ _ _ (by simpa [e1] using hw)
  · simpa using h

/-- Steps 4 to 6 of `sendByte`, from a listener that is ready: whatever it answers, `flags.err` tells it. -/
def Link.sendTail (p : Params) (v : Byte) (k : Link) : Bool × Link :=
  Link.timeoutWait p (((Link.sendCells p v 8 0 k).pull .clk).release .data) .data .pulled

theorem Link.sendByte_eq (p : Params) (v : Byte) (e : Bool) (k : Link) :
    Link.sendByte p v e k =
      (let w1 := Link.timeoutWait p (Link.release { k with flags := k.flags.clearErr } .clk) .data .released
       if w1.1 = false then (false, w1.2)
       else
         let w2 := Link.awaitEoiAck p e w1.2
         if w2.1 = false then (false, w2.2) else Link.sendTail p v w2.2) := rfl

theorem Link.sendTail_handshake (p : Params) (v : Byte) (k : Link) : Link.HandshakeSpec k (Link.sendTail p v k).2 := by
  unfold Link.sendTail
  have h := Link.sendCells_handshake p v 8 0 k
  generalize Link.sendCells p v 8 0 k = j at h ⊢
  exact ((h.trans (Link.pull_handshake _ .clk rfl)).trans (Link.release_handshake _ .data rfl)).trans
    (Link.timeoutWait_handshake p _ .data .pulled (by simp))

theorem Link.sendTail_err (p : Params) (v : Byte) (k : Link) (h : k.flags.err = false) :
    (Link.sendTail p v k).2.flags.err = !(Link.sendTail p v k).1 := by
  unfold Link.sendTail
  have hf := Link.sendCells_flags p v 8 0 k
  generalize Link.sendCells p v 8 0 k = j at hf ⊢
  exact Link.timeoutWait_err p _ _ _ (by simp [hf, h])

/-- After a byte was accepted the engine pulls CLK and does not pull DATA: the talker's idle state (R160 step 5). -/
theorem Link.sendTail_sent (p : Params) (v : Byte) (k : Link) (h : (Link.sendTail p v k).1 = true) :
    (Link.sendTail p v k).2.bus.own.clk = .pulled ∧ (Link.sendTail p v k).2.bus.own.data = .released := by
  unfold Link.sendTail at h ⊢
  generalize Link.sendCells p v 8 0 k = j at h ⊢
  have r := Link.timeoutWait_spec p ((j.pull .clk).release .data) .data .pulled
  exact ⟨(r.own_other .clk (by simp) (by simp)).trans (by simp [Lines.get, Lines.set]), (r.seen h).2.2⟩

theorem Link.sendByte_handshake (p : Params) (v : Byte) (e : Bool) (k : Link) :
    Link.HandshakeSpec k (Link.sendByte p v e k).2 := by
  have h0 : Link.HandshakeSpec k { k with flags := k.flags.clearErr } := ⟨Bus.Later.refl _, id, rfl, id⟩
  have h1 := (h0.trans (Link.release_handshake _ .clk rfl)).trans (Link.timeoutWait_handshake p _ .data .released (by simp))
  rw [Link.sendByte_eq]
  simp only
  generalize Link.timeoutWait p (Link.release { k with flags := k.flags.clearErr } .clk) .data .released = w1 at h1 ⊢
  split
  · exact h1
  · have h2 := h1.trans (Link.awaitEoiAck_handshake p e _)
    split
    · exact h2
    · exact h2.trans (Link.sendTail_handshake p v _)

/-- `sendByte` returns true exactly when it leaves `flags.err = 0` (R160). -/
theorem Link.sendByte_err (p : Params) (v : Byte) (e : Bool) (k : Link) :
    (Link.sendByte p v e k).2.flags.err = !(Link.sendByte p v e k).1 := by
  have e1 := Link.timeoutWait_err p (Link.release { k with flags := k.flags.clearErr } .clk) .data .released rfl
  rw [Link.sendByte_eq]
  simp only
  generalize Link.timeoutWait p (Link.release { k with flags := k.flags.clearErr } .clk) .data .released = w1 at e1 ⊢
  split
  · rename_i hw; simp [e1, hw]
  · rename_i hw
    have e2 := Link.awaitEoiAck_err p e w1.2 (by simpa [e1] using hw)
    split
    · rename_i hw2; simp [e2, hw2]
    · rename_i hw2
      exact Link.sendTail_err p v _ (by simpa [e2] using hw2)

/-- A byte that was sent leaves the talker's idle state. -/
theorem Link.sendByte_sent (p : Params) (v : Byte) (e : Bool) (k : Link) (h : (Link.sendByte p v e k).1 = true) :
    (Link.sendByte p v e k).2.bus.own.clk = .pulled ∧ (Link.sendByte p v e k).2.bus.own.data = .released := by
  rw [Link.sendByte_eq] at h ⊢
  simp only at h ⊢
  generalize Link.timeoutWait p (Link.release { k with flags := k.flags.clearErr } .clk) .data .released = w1 at h ⊢
  split at h
  · simp at h
  · rename_i h1
    rw [if_neg h1]
    split at h
    · simp at h
    · rename_i h2
      rw [if_neg h2]
      exact Link.sendTail_sent p v _ h

end Sys2Proof.Machine
end

