-- ==== Sys2Proof/Laws/Memory.lean ====
section
/-! SUPPORT. The auxiliary buffer's cells: read after write, and that every operation keeps the canonical form. -/
namespace Sys2Proof.Machine
open Sys2Proof

theorem Memory.read_write_same (m : Memory) (i : Nat) (v : Byte) : (m.write i v).read i = some v := by
  induction m with
  | nil => simp [Memory.write, Memory.read]
  | cons c rest ih =>
    obtain ⟨a, w⟩ := c
    simp only [Memory.write]
    split
    · simp [Memory.read]
    · split
      · simp [Memory.read]
      · have : a ≠ i := fun h => by simp_all
        simp [Memory.read, this, ih]

theorem Memory.read_write_other (m : Memory) (i j : Nat) (v : Byte) (h : j ≠ i) : (m.write i v).read j = m.read j := by
  induction m with
  | nil => simp [Memory.write, Memory.read, h.symm]
  | cons c rest ih =>
    obtain ⟨a, w⟩ := c
    simp only [Memory.write]
    split
    · simp [Memory.read, h.symm]
    · split
      · subst_vars; simp [Memory.read, h.symm]
      · simp only [Memory.read, ih]

theorem Memory.fst_write_of_above (m : Memory) (n : Nat) (v : Byte) (h : ∀ c ∈ m, c.1 < n) :
    m.write n v = m ++ [(n, v)] := by
  induction m with
  | nil => rfl
  | cons c rest ih =>
    obtain ⟨a, w⟩ := c
    have ha : a < n := h (a, w) (by simp)
    have hr := ih fun c hc => h c (by simp [hc])
    simp [Memory.write, Nat.not_lt.mpr (Nat.le_of_lt ha), Nat.ne_of_gt ha, hr]

theorem Memory.mem_write (m : Memory) (i : Nat) (v : Byte) (c : Host.Cell) (h : c ∈ m.write i v) : c = (i, v) ∨ c ∈ m := by
  induction m with
  | nil => simpa [Memory.write] using h
  | cons d rest ih =>
    obtain ⟨a, w⟩ := d
    simp only [Memory.write] at h
    split at h
    · simpa using h
    · split at h
      · rcases List.mem_cons.mp h with h | h
        · exact .inl h
        · exact .inr (by simp [h])
      · rcases List.mem_cons.mp h with h | h
        · exact .inr (by simp [h])
        · exact (ih h).imp id fun h => by simp [h]

/-- A write keeps the canonical form. -/
theorem Memory.write_wf (m : Memory) (i : Nat) (v : Byte) (h : m.wf) : (m.write i v).wf := by
  induction m with
  | nil => simp [Memory.write]
  | cons d rest ih =>
    obtain ⟨a, w⟩ := d
    have h := List.pairwise_cons.mp h
    simp only [Memory.write]
    split
    · rename_i hia
      refine List.pairwise_cons.mpr ⟨fun c hc => ?_, List.pairwise_cons.mpr h⟩
      rcases List.mem_cons.mp hc with rfl | hc
      · exact hia
      · exact Nat.lt_trans hia (h.1 c hc)
    · split
      · rename_i hia
        subst hia
        exact List.pairwise_cons.mpr h
      · refine List.pairwise_cons.mpr ⟨fun c hc => ?_, ih h.2⟩
        rcases Memory.mem_write rest i v c hc with rfl | hc
        · simp only; omega
        · exact h.1 c hc

theorem Memory.truncate_eq_filter (m : Memory) (n : Nat) : m.truncate n = m.filter fun c => decide (c.1 < n) := by
  induction m with
  | nil => rfl
  | cons c rest ih =>
    obtain ⟨a, w⟩ := c
    by_cases h : a < n <;> simp [Memory.truncate, h, ih]

/-- A change of `rec.aux_len` keeps the canonical form. -/
theorem Memory.truncate_wf (m : Memory) (n : Nat) (h : m.wf) : (m.truncate n).wf := by
  rw [Memory.truncate_eq_filter]
  exact h.filter _

@[simp] theorem Memory.truncate_zero (m : Memory) : m.truncate 0 = [] := by
  simp [Memory.truncate_eq_filter]

/-- Cells that hold exactly the indices below `n` are canonical. -/
theorem Memory.wf_of_fst_eq_range (m : Memory) (n : Nat) (h : m.map (·.1) = List.range n) : m.wf := by
  have := List.pairwise_lt_range (n := n)
  rw [← h, List.pairwise_map] at this
  exact this

/-- A listed cell holds a byte. -/
theorem Memory.exists_read_of_mem (m : Memory) (i : Nat) (h : i ∈ m.map (·.1)) : ∃ v, m.read i = some v := by
  induction m with
  | nil => simp at h
  | cons c m ih =>
    obtain ⟨a, v⟩ := c
    simp only [List.map_cons, List.mem_cons] at h
    unfold Memory.read
    split
    · exact ⟨v, rfl⟩
    · next ha => exact ih (h.resolve_left fun e => ha e.symm)

/-- Every cell below `rec.aux_len` can be read. -/
theorem ATNRecord.exists_memRead (r : ATNRecord) (i : Nat) (h : r.aux.map (·.1) = List.range r.auxLen) (hi : i < r.auxLen) :
    ∃ v, r.memRead i = some v := by
  unfold ATNRecord.memRead
  rw [if_pos hi]
  exact Memory.exists_read_of_mem _ _ (by rw [h]; exact List.mem_range.mpr hi)

/-- No cell at or above `rec.aux_len` can be read. -/
theorem ATNRecord.memRead_of_le (r : ATNRecord) (i : Nat) (h : r.auxLen ≤ i) : r.memRead i = none :=
  if_neg (by omega)

@[simp] theorem ATNRecord.setAuxLen_zero (r : ATNRecord) : r.setAuxLen 0 = { r with auxLen := 0, aux := [] } := by
  simp [ATNRecord.setAuxLen]

/-- Appending to a buffer that holds exactly the indices below its length puts the byte at the end. -/
theorem ATNRecord.append_aux (r : ATNRecord) (v : Byte) (h : r.aux.map (·.1) = List.range r.auxLen) :
    (r.append v).aux = r.aux ++ [(r.auxLen, v)] := by
  refine Memory.fst_write_of_above _ _ _ fun c hc => ?_
  have : c.1 ∈ r.aux.map (·.1) := List.mem_map_of_mem hc
  rw [h] at this
  exact List.mem_range.mp this

end Sys2Proof.Machine
end

