-- ==== Sys2Proof/Laws/Coordinator.lean ====
section
/-! SUPPORT. What the operations on the whole state can do: the handshakes leave everything but the bus, the flags, the turn and
the cause; what ends a call, serves a reset or enters a phase keeps the invariant. -/
namespace Sys2Proof.Machine
open Sys2Proof

/-! ### The handshakes on the whole state -/

/-- `t` differs from `s` at most in the bus, the flags, the turn and the cause register, the bus as `Link.HandshakeSpec` says. -/
structure State.HandshakeSpec (s t : State) : Prop where
  link : Link.HandshakeSpec s.link t.link
  cfg : t.cfg = s.cfg
  record : t.record = s.record
  role : t.role = s.role
  active : t.active = s.active
  enabled : t.enabled = s.enabled
  slots : t.slots = s.slots
  resetLatch : t.resetLatch = s.resetLatch
  ctl : t.ctl = s.ctl
  host : t.host = s.host
  device : t.device = s.device
  result : t.result = s.result

theorem State.HandshakeSpec.refl (s : State) : State.HandshakeSpec s s :=
  ⟨.refl _, rfl, rfl, rfl, rfl, rfl, rfl, rfl, rfl, rfl, rfl, rfl⟩

theorem State.HandshakeSpec.trans {a b c : State} (h : State.HandshakeSpec a b) (g : State.HandshakeSpec b c) :
    State.HandshakeSpec a c :=
  ⟨h.link.trans g.link, g.cfg.trans h.cfg, g.record.trans h.record, g.role.trans h.role, g.active.trans h.active,
    g.enabled.trans h.enabled, g.slots.trans h.slots, g.resetLatch.trans h.resetLatch, g.ctl.trans h.ctl,
    g.host.trans h.host, g.device.trans h.device, g.result.trans h.result⟩

theorem State.HandshakeSpec.of_link (s : State) (k : Link) (h : Link.HandshakeSpec s.link k) :
    State.HandshakeSpec s (s.withLink k) := ⟨h, rfl, rfl, rfl, rfl, rfl, rfl, rfl, rfl, rfl, rfl, rfl⟩

theorem State.timeoutWait_handshake (s : State) (l : Line) (x : LineState) (hl : l ≠ .srq) :
    State.HandshakeSpec s (s.timeoutWait l x).2 := .of_link s _ (Link.timeoutWait_handshake _ _ _ _ hl)

theorem State.receiveByte_handshake (s : State) : State.HandshakeSpec s s.receiveByte.2 :=
  .of_link s _ (Link.receiveByte_handshake _ _)

theorem State.sendByte_handshake (s : State) (v : Byte) (e : Bool) : State.HandshakeSpec s (s.sendByte v e).2 :=
  .of_link s _ (Link.sendByte_handshake _ _ _ _)

theorem State.pull_handshake (s : State) (l : Line) (hl : undrivenLine l = false) : State.HandshakeSpec s (s.pull l) :=
  .of_link s _ (Link.pull_handshake s.link l hl)

theorem State.release_handshake (s : State) (l : Line) (hl : undrivenLine l = false) : State.HandshakeSpec s (s.release l) :=
  .of_link s _ (Link.release_handshake s.link l hl)

theorem State.afterRead_handshake (s : State) (l : Line) (hl : l ≠ .srq) : State.HandshakeSpec s (s.afterRead l) :=
  .of_link s _ (Link.afterRead_handshake s.link l hl)

theorem State.delay_handshake (s : State) (d : Nat) : State.HandshakeSpec s (s.delay d) :=
  .of_link s _ (Link.delay_handshake s.link d)

theorem State.raise_handshake (s : State) (c : Cause) (i : Byte) : State.HandshakeSpec s (s.raise c i) :=
  ⟨.refl _, rfl, rfl, rfl, rfl, rfl, rfl, rfl, rfl, rfl, rfl, rfl⟩

theorem State.setErr_handshake (s : State) : State.HandshakeSpec s s.setErr :=
  ⟨⟨Bus.Later.refl _, id, rfl, id⟩, rfl, rfl, rfl, rfl, rfl, rfl, rfl, rfl, rfl, rfl, rfl⟩

theorem State.clearErr_handshake (s : State) : State.HandshakeSpec s s.clearErr :=
  ⟨⟨Bus.Later.refl _, id, rfl, id⟩, rfl, rfl, rfl, rfl, rfl, rfl, rfl, rfl, rfl, rfl, rfl⟩

theorem State.setRst_handshake (s : State) : State.HandshakeSpec s s.setRst :=
  ⟨⟨Bus.Later.refl _, id, rfl, fun _ => rfl⟩, rfl, rfl, rfl, rfl, rfl, rfl, rfl, rfl, rfl, rfl, rfl⟩

theorem State.withTurn_handshake (s : State) (t : Turn) : State.HandshakeSpec s { s with turn := t } :=
  ⟨.refl _, rfl, rfl, rfl, rfl, rfl, rfl, rfl, rfl, rfl, rfl, rfl⟩

theorem State.turnError_handshake (s : State) : State.HandshakeSpec s s.turnError :=
  s.setErr_handshake.trans (State.raise_handshake _ _ _)

theorem State.turnAround_handshake (s : State) : State.HandshakeSpec s s.turnAround.2 := by
  have h0 := s.clearErr_handshake
  unfold State.turnAround
  simp only
  split
  · exact h0.trans (State.turnError_handshake _)
  · have h1 := h0.trans (State.timeoutWait_handshake s.clearErr .clk .released (by simp))
    generalize s.clearErr.timeoutWait .clk .released = w at h1 ⊢
    split
    · exact h1
    · exact ((((h1.trans (State.release_handshake w.2 .data rfl)).trans (State.delay_handshake _ _)).trans
        (State.pull_handshake _ .clk rfl)).trans (State.delay_handshake _ _)).trans (State.withTurn_handshake _ _)

theorem State.undoTurnAround_handshake (s : State) : State.HandshakeSpec s s.undoTurnAround.2 := by
  have h0 := s.clearErr_handshake
  unfold State.undoTurnAround
  simp only
  split
  · exact h0.trans (State.turnError_handshake _)
  · have h1 := ((((h0.trans (State.pull_handshake s.clearErr .data rfl)).trans
      (State.delay_handshake (s.clearErr.pull .data) s.cfg.tTurn)).trans
      (State.release_handshake ((s.clearErr.pull .data).delay s.cfg.tTurn) .clk rfl)).trans
      (State.delay_handshake (((s.clearErr.pull .data).delay s.cfg.tTurn).release .clk) s.cfg.tTurn)).trans
      (State.withTurn_handshake ((((s.clearErr.pull .data).delay s.cfg.tTurn).release .clk).delay s.cfg.tTurn) .undone)
    exact h1.trans (State.timeoutWait_handshake _ .clk .pulled (by simp))

theorem State.timeoutWait_err (s : State) (l : Line) (x : LineState) (h : s.flags.err = false) :
    (s.timeoutWait l x).2.flags.err = !(s.timeoutWait l x).1 := Link.timeoutWait_err s.cfg s.link l x h

/-- A turnaround that fails leaves `flags.err = 1`; one that succeeds leaves the engine the talker (R170). -/
theorem State.turnAround_result (s : State) :
    (s.turnAround.1 = false → s.turnAround.2.flags.err = true) ∧
    (s.turnAround.1 = true → s.turnAround.2.flags.err = false ∧ s.turnAround.2.turn = .turned ∧
      s.turnAround.2.bus.own.clk = .pulled ∧ s.turnAround.2.bus.own.data = .released) := by
  have e := State.timeoutWait_err s.clearErr .clk .released rfl
  unfold State.turnAround
  simp only
  generalize s.clearErr.timeoutWait .clk .released = w at e ⊢
  split
  · simp [State.turnError]
  · split
    · rename_i _ hw; simp [e, hw]
    · rename_i _ hw; simp [e, hw, Lines.set]

/-! ### The base of the invariant -/

/-- The clauses of the invariant that do not speak of where the call stands. -/
structure State.Base (s : State) : Prop where
  ids_nodup : (s.slots.map fun r => r.deviceId).Nodup
  ids_assignable : ∀ r ∈ s.slots, idAssignable r.deviceId = true
  refs_nodup : (s.slots.map fun r => r.ref).Nodup
  capacity : s.slots.length ≤ Config.nSlots
  active_ok : ∀ id, s.active = some id → hasId s.slots id = true ∧ maskHas s.enabled id = true
  role_active : s.role = .none ↔ s.active = none
  aux_bound : s.record.auxLen ≤ s.cfg.maxLen
  aux_cells : (s.record.aux.map fun c => c.1) = List.range s.record.auxLen
  aux_open : s.record.auxLen ≠ 0 → s.record.kind = .opn
  id_range : s.record.deviceId ≠ 31#5
  no_srq : s.cfg.hasSrq = false → s.bus.own.srq = .released

theorem State.Inv.base {s : State} (h : s.Inv) : s.Base :=
  ⟨h.ids_nodup, h.ids_assignable, h.refs_nodup, h.capacity, h.active_ok, h.role_active, h.aux_bound, h.aux_cells, h.aux_open,
    h.id_range, h.no_srq⟩

theorem State.Base.inv {s : State} (h : s.Base) (hl : s.ctl ≠ .idle → s.resetLatch = false) (hp : s.PlaceOk) : s.Inv :=
  ⟨h.ids_nodup, h.ids_assignable, h.refs_nodup, h.capacity, h.active_ok, h.role_active, h.aux_bound, h.aux_cells, h.aux_open,
    h.id_range, h.no_srq, hl, hp⟩

/-- The base speaks of the setup, the selection, the record and the SRQ line only. -/
theorem State.Base.congr {s t : State} (h : s.Base) (cfg : t.cfg = s.cfg) (record : t.record = s.record)
    (role : t.role = s.role) (active : t.active = s.active) (enabled : t.enabled = s.enabled) (slots : t.slots = s.slots)
    (srq : t.bus.own.srq = s.bus.own.srq) : t.Base := by
  constructor
  · rw [slots]; exact h.ids_nodup
  · rw [slots]; exact h.ids_assignable
  · rw [slots]; exact h.refs_nodup
  · rw [slots]; exact h.capacity
  · rw [slots, active, enabled]; exact h.active_ok
  · rw [role, active]; exact h.role_active
  · rw [record, cfg]; exact h.aux_bound
  · rw [record]; exact h.aux_cells
  · rw [record]; exact h.aux_open
  · rw [record]; exact h.id_range
  · rw [cfg, srq]; exact h.no_srq

theorem State.Base.handshake {s t : State} (h : s.Base) (g : State.HandshakeSpec s t) : t.Base :=
  h.congr g.cfg g.record g.role g.active g.enabled g.slots g.link.own_srq

/-- The base does not depend on the mode. -/
theorem State.Base.setMode {s : State} (h : s.Base) (m : ATNMode) : (s.setMode m).Base :=
  ⟨h.ids_nodup, h.ids_assignable, h.refs_nodup, h.capacity, h.active_ok, h.role_active, h.aux_bound, h.aux_cells, h.aux_open,
    h.id_range, h.no_srq⟩

/-- `rec.aux_len <- 0` keeps the base. -/
theorem State.Base.clearAux {s : State} (h : s.Base) (m : ATNMode) :
    State.Base { s with record := { s.record.setAuxLen 0 with mode := m } } := by
  refine ⟨h.ids_nodup, h.ids_assignable, h.refs_nodup, h.capacity, h.active_ok, h.role_active, ?_, ?_, ?_, ?_, h.no_srq⟩
  · simp
  · simp
  · simp
  · simpa using h.id_range

theorem State.Inv.handshake {s t : State} (h : s.Inv) (g : State.HandshakeSpec s t) : t.Inv := by
  refine (h.base.handshake g).inv (by rw [g.ctl, g.resetLatch]; exact h.latch_clear) ?_
  have hp := h.place_ok
  unfold State.PlaceOk at hp ⊢
  rw [g.ctl, g.record, g.role]
  exact hp

/-! ### Ends of a call -/

theorem State.Base.toIdle {s : State} (h : s.Base) : s.toIdle.Base := by
  refine ⟨h.ids_nodup, h.ids_assignable, h.refs_nodup, h.capacity, by simp, by simp, by simp, by simp, by simp, ?_, ?_⟩
  · simpa using h.id_range
  · simpa [Lines.set] using h.no_srq

/-- `toIdle()` and a return keep the invariant, whatever the mode returned. -/
theorem State.Base.toIdle_return {s : State} (h : s.Base) (m : ATNMode) : (s.toIdle.returnMode m).Inv :=
  (h.toIdle.congr (t := s.toIdle.returnMode m) rfl rfl rfl rfl rfl rfl rfl).inv (by simp) (by simp [State.PlaceOk, modeOf])

/-- The end of a broadcast. -/
theorem State.broadcast_nil (s : State) : s.broadcast [] =
    State.endReset { s.toIdle.letGoUndriven with flags := s.toIdle.flags.clearAfterBroadcast } := rfl

/-- The engine's side of the lines when a broadcast ends: an SRQ line that is not there stays as it was. -/
theorem State.broadcast_nil_own (s : State) : (s.broadcast []).bus.own =
    { Lines.released with srq := if s.cfg.hasSrq then .released else s.bus.own.srq } := by
  simp [State.broadcast_nil, Lines.set, Lines.released]

/-- Every line the engine has is released when a broadcast ends (10_state.md R52, column 3). -/
theorem State.broadcast_nil_released (s : State) (l : Line) (h : s.linePresent l = true) :
    (s.broadcast []).bus.own.get l = .released := by
  rw [State.broadcast_nil_own]
  cases l <;> simp_all [Lines.get, Lines.released, State.linePresent]

/-- The base of the invariant reads SRQ only to say that it is released without `HAS_SRQ`. -/
theorem State.Base.letGo {s t : State} (h : s.Base) (cfg : t.cfg = s.cfg) (record : t.record = s.record)
    (role : t.role = s.role) (active : t.active = s.active) (enabled : t.enabled = s.enabled) (slots : t.slots = s.slots)
    (srq : t.cfg.hasSrq = false → t.bus.own.srq = .released) : t.Base :=
  { h.congr (t := { t with bus := s.bus }) cfg record role active enabled slots rfl with no_srq := srq }

theorem State.Base.broadcast {s : State} (h : s.Base) (hl : s.resetLatch = false) (refs : List DeviceRef) :
    (s.broadcast refs).Inv := by
  cases refs with
  | nil =>
    have srq : s.cfg.hasSrq = false → (s.broadcast []).bus.own.srq = .released := by
      intro q; simpa [State.broadcast, q, Lines.set] using h.no_srq q
    exact (h.toIdle.letGo (t := s.broadcast []) rfl rfl rfl rfl rfl rfl srq).inv
      (by simp [State.broadcast]) (by simp [State.broadcast, State.PlaceOk, modeOf])
  | cons dev rest =>
    exact (h.congr (t := s.broadcast (dev :: rest)) rfl rfl rfl rfl rfl rfl rfl).inv (fun _ => hl)
      (by simp [State.broadcast, State.PlaceOk])

theorem State.Base.serveReset {s : State} (h : s.Base) (hl : s.resetLatch = false) : s.serveReset.Inv := by
  unfold State.serveReset
  rw [if_neg (by simp [hl])]
  exact State.Base.broadcast (h.congr (t := s.raise .reset 0x00#8) rfl rfl rfl rfl rfl rfl rfl) hl _

theorem State.Base.recover {s : State} (h : s.Base) (hl : s.resetLatch = false) : s.recover.Inv := by
  have g : State.HandshakeSpec (s.setMode .error)
      (if (s.setMode .error).turn = .turned then (s.setMode .error).undoTurnAround.2 else s.setMode .error) := by
    split
    · exact State.undoTurnAround_handshake _
    · exact .refl _
  unfold State.recover
  simp only
  generalize (if (s.setMode .error).turn = .turned then (s.setMode .error).undoTurnAround.2 else s.setMode .error) = t at g ⊢
  have ht := (h.setMode .error).handshake g
  split
  · exact ht.serveReset (g.resetLatch.trans hl)
  · exact ht.toIdle_return _

theorem State.Base.decodeError {s : State} (h : s.Base) (hl : s.resetLatch = false) (c : Cause) (i : Byte) :
    (s.decodeError c i).Inv :=
  State.Base.recover ((h.handshake (s.raise_handshake c i)).clearAux .error) hl

theorem State.Base.decodeReset {s : State} (h : s.Base) (hl : s.resetLatch = false) : s.decodeReset.Inv :=
  State.Base.serveReset ((h.handshake (s.raise_handshake .reset 0x00#8)).setMode .reset) hl

theorem State.Base.phaseError {s : State} (h : s.Base) (hl : s.resetLatch = false) (c : Cause) (i : Byte) :
    (s.phaseError c i).Inv :=
  State.Base.recover (h.handshake (s.raise_handshake c i)) hl

theorem State.Base.notAddressed {s : State} (h : s.Base) : s.notAddressed.Inv :=
  State.Base.toIdle_return (State.Base.setMode (h.handshake
    ((s.release_handshake .data rfl).trans (State.release_handshake _ .clk rfl))) .idle) .idle

/-! ### Phases -/

/-- A return from a call whose device stays selected. -/
theorem State.Base.returnSelected {s : State} (h : s.Base) (m : ATNMode) (hm : s.record.mode = modeOf s.role) :
    (s.returnMode m).Inv :=
  (h.congr (t := s.returnMode m) rfl rfl rfl rfl rfl rfl rfl).inv (by simp) (by simpa [State.PlaceOk] using hm)

theorem State.Base.processCommand {s : State} (h : s.Base) (hl : s.resetLatch = false) (ended : Bool)
    (hm : s.record.mode = modeOf s.role) (hr : s.role ≠ .none) (hk : s.record.kind.isSecondary) :
    (s.callHook (.processCommand s.record ended)).Inv :=
  (h.congr (t := s.callHook (.processCommand s.record ended)) rfl rfl rfl rfl rfl rfl rfl).inv (fun _ => hl)
    ⟨rfl, hm, hr, hk⟩

theorem State.Base.talkPhase {s : State} (h : s.Base) (hl : s.resetLatch = false)
    (hm : s.record.mode = modeOf s.role) (hr : s.role ≠ .none) (hk : s.record.kind.isSecondary) : s.talkPhase.Inv := by
  have g1 := s.timeoutWait_handshake .atn .released (by simp)
  unfold State.talkPhase
  simp only
  generalize s.timeoutWait .atn .released = w at g1 ⊢
  have b1 := h.handshake g1
  have l1 := g1.resetLatch.trans hl
  split
  · split
    · exact b1.serveReset l1
    · exact b1.phaseError l1 _ _
  · have g2 := g1.trans w.2.turnAround_handshake
    generalize w.2.turnAround = t at g2 ⊢
    have b2 := h.handshake g2
    have l2 := g2.resetLatch.trans hl
    split
    · split
      · exact b2.serveReset l2
      · split
        · exact b2.phaseError l2 _ _
        · exact b2.recover l2
    · exact b2.processCommand l2 _ (by rw [g2.record, g2.role]; exact hm) (by rw [g2.role]; exact hr)
        (by rw [g2.record]; exact hk)

theorem State.Base.afterHook {s : State} (h : s.Base) (hl : s.resetLatch = false) (f : State → State) (hf : (f s).Inv) :
    (s.afterHook f).Inv := by
  unfold State.afterHook
  split
  · exact h.serveReset hl
  · split
    · exact h.recover hl
    · exact hf

theorem State.Base.talkTop {s : State} (h : s.Base) (hl : s.resetLatch = false)
    (hm : s.record.mode = .talk) (hr : s.role = .talker) : s.talkTop.Inv := by
  have g1 := s.afterRead_handshake .reset (by simp)
  have g2 := g1.trans (State.afterRead_handshake _ .atn (by simp))
  unfold State.talkTop
  simp only
  split
  · exact State.Base.serveReset (h.handshake (g1.trans (State.setRst_handshake _))) hl
  · split
    · exact State.Base.returnSelected (h.handshake g2) _ (by simp [hm, hr, modeOf])
    · exact ((h.handshake g2).congr (t := ((s.afterRead .reset).afterRead .atn).callHook .talkData)
        rfl rfl rfl rfl rfl rfl rfl).inv (fun _ => hl)
        (by simp [State.PlaceOk, hm, hr])

theorem State.Base.talkAnswer {s : State} (h : s.Base) (hl : s.resetLatch = false)
    (hm : s.record.mode = .talk) (hr : s.role = .talker) (a : Option (Byte × Bool)) : (s.talkAnswer a).Inv := by
  cases a with
  | none =>
    exact State.Base.returnSelected (h.handshake (s.release_handshake .clk rfl)) _ (by simp [hm, hr, modeOf])
  | some bl =>
    obtain ⟨b, last⟩ := bl
    have g := s.sendByte_handshake b last
    simp only [State.talkAnswer]
    generalize s.sendByte b last = w at g ⊢
    have b1 := h.handshake g
    have l1 := g.resetLatch.trans hl
    have hm1 : w.2.record.mode = .talk := by rw [g.record, hm]
    have hr1 : w.2.role = .talker := by rw [g.role, hr]
    split
    · exact b1.serveReset l1
    · split
      · exact b1.phaseError l1 _ _
      · split
        · exact State.Base.returnSelected (b1.handshake (State.release_handshake _ .clk rfl)) _ (by simp [hm1, hr1, modeOf])
        · exact b1.talkTop l1 hm1 hr1

/-! ### When a data primitive is accepted -/

/-- Where 45_device_contract.md R300 accepts a send primitive, the model does. -/
theorem State.InTalkerHook.accepts {s : State} {h : Hook} {pd : Bool} (a : s.InTalkerHook h pd) : s.acceptsSend = true := by
  obtain ⟨hc, hn, hr, ht⟩ := a
  cases h with
  | reset dev rest => exact absurd rfl (hn dev rest)
  | processCommand r e => simp [State.acceptsSend, State.inDeviceHook, hc, hr, ht]
  | listenData b e => simp [State.acceptsSend, State.inDeviceHook, hc, hr, ht]
  | talkData => simp [State.acceptsSend, State.inDeviceHook, hc, hr, ht]

/-- Where 45_device_contract.md R300 accepts a receive primitive, the model does. -/
theorem State.InListenerHook.accepts {s : State} {h : Hook} {pd : Bool} (a : s.InListenerHook h pd) :
    s.acceptsReceive = true := by
  obtain ⟨hc, hn, hr⟩ := a
  cases h with
  | reset dev rest => exact absurd rfl (hn dev rest)
  | processCommand r e => simp [State.acceptsReceive, State.inDeviceHook, hc, hr]
  | listenData b e => simp [State.acceptsReceive, State.inDeviceHook, hc, hr]
  | talkData => simp [State.acceptsReceive, State.inDeviceHook, hc, hr]

end Sys2Proof.Machine
end

