-- ==== Sys2Proof/Laws/Steady.lean ====
section
/-! SUPPORT. Lines that hold still: what the environment holds now it still holds after every operation, and what a wait and a
byte each way do while it holds RESET released. -/
namespace Sys2Proof.Machine
open Sys2Proof

/-- Whatever the environment holds on `b` it still holds on `c`. -/
def Bus.KeepsHolds (b c : Bus) : Prop := ∀ l x, b.Holds l x → c.Holds l x

theorem Bus.KeepsHolds.refl (b : Bus) : Bus.KeepsHolds b b := fun _ _ h => h

theorem Bus.KeepsHolds.trans {a b c : Bus} (h : Bus.KeepsHolds a b) (g : Bus.KeepsHolds b c) : Bus.KeepsHolds a c :=
    fun l x k => g l x (h l x k)

theorem Bus.KeepsHolds.of {b c : Bus} (h1 : c.ext = b.ext) (h2 : c.env = b.env) : Bus.KeepsHolds b c :=
    fun l x k => by unfold Bus.Holds at *; rw [h1, h2]; exact k

theorem Bus.keepsHolds_envMove (b : Bus) : Bus.KeepsHolds b b.envMove := by
  intro l x ⟨h1, h2⟩
  unfold Bus.envMove
  split
  · exact ⟨h1, h2⟩
  · rename_i m rest h
    rw [h] at h2
    exact ⟨h2 m (by simp), fun n hn => h2 n (by simp [hn])⟩

theorem Bus.keepsHolds_afterRead (b : Bus) (l) : Bus.KeepsHolds b (b.afterRead l) := (Bus.keepsHolds_envMove b).trans
    (.of (by simp) (by simp))

theorem Bus.keepsHolds_pull (b : Bus) (l) : Bus.KeepsHolds b (b.pull l) := (Bus.keepsHolds_envMove b).trans
    (.of (by simp) (by simp))

theorem Bus.keepsHolds_release (b : Bus) (l) : Bus.KeepsHolds b (b.release l) := (Bus.keepsHolds_envMove b).trans
    (.of (by simp) (by simp))

theorem Bus.keepsHolds_tick (b : Bus) : Bus.KeepsHolds b b.tick := Bus.keepsHolds_envMove b

theorem Bus.keepsHolds_delay (b : Bus) (d) : Bus.KeepsHolds b (b.delay d) := (Bus.keepsHolds_envMove b).trans (.of rfl rfl)

theorem Bus.keepsHolds_passTo (b : Bus) (d) : Bus.KeepsHolds b (b.passTo d) := .of rfl rfl

/-- What a held line reads as. -/
theorem Bus.Holds.sampled {b : Bus} {l x} (h : b.Holds l x) : b.envMove.ext.get l = x := (Bus.keepsHolds_envMove b l x h).1

theorem Link.waitLoop_keepsHolds (T l x t0 n) : ∀ k : Link, Bus.KeepsHolds k.bus (Link.waitLoop T l x t0 n k).2.bus := by
  induction n with
  | zero => intro k; exact Bus.keepsHolds_passTo _ _
  | succ n ih =>
    intro k
    have h1 : Bus.KeepsHolds k.bus (k.afterRead .reset).bus := Bus.keepsHolds_afterRead _ _
    have h2 : Bus.KeepsHolds k.bus ((k.afterRead .reset).afterRead l).bus := h1.trans (Bus.keepsHolds_afterRead _ _)
    have h3 : Bus.KeepsHolds k.bus ((k.afterRead .reset).afterRead l).tick.bus := h2.trans (Bus.keepsHolds_tick _)
    simp only [Link.waitLoop]
    split
    · exact h1
    · split
      · exact h2
      · split
        · exact h2.trans (Bus.keepsHolds_passTo _ _)
        · split
          · exact h3
          · exact h3.trans (ih _)

theorem Link.timeoutWait_keepsHolds (p k l x) : Bus.KeepsHolds k.bus (Link.timeoutWait p k l x).2.bus :=
    (Bus.keepsHolds_tick _).trans (Link.waitLoop_keepsHolds _ _ _ _ _ k.tick)

theorem State.timeoutWait_keepsHolds (s : State) (l x) : Bus.KeepsHolds s.bus (s.timeoutWait l x).2.bus :=
    Link.timeoutWait_keepsHolds s.cfg s.link l x

/-- Where RESET is held released a wait that fails has passed its deadline: it only sets `flags.err`. -/
theorem Link.waitLoop_noReset (T l x t0 n) : ∀ k : Link, k.bus.Holds .reset .released →
    (Link.waitLoop T l x t0 n k).1 = false → (Link.waitLoop T l x t0 n k).2.flags = k.flags.setErr := by
  induction n with
  | zero => intro k _ _; rfl
  | succ n ih =>
    intro k hr
    have hr1 : k.sample .reset = .released := by simp [hr.sampled]
    have hr3 : ((k.afterRead .reset).afterRead l).tick.bus.Holds .reset .released :=
      Bus.keepsHolds_tick _ _ _ (Bus.keepsHolds_afterRead _ _ _ _ (Bus.keepsHolds_afterRead _ _ _ _ hr))
    simp only [Link.waitLoop, hr1]
    simp only [reduceCtorEq, if_false]
    split
    · simp
    · split
      · intro _; rfl
      · split
        · intro _; rfl
        · exact ih _ hr3

theorem Link.timeoutWait_noReset (p : Params) (k : Link) (l x) (hr : k.bus.Holds .reset .released) (hf :
    (Link.timeoutWait p k l x).1 = false) :
    (Link.timeoutWait p k l x).2.flags = k.flags.setErr :=
      Link.waitLoop_noReset _ _ _ _ _ k.tick (Bus.keepsHolds_tick _ _ _ hr) hf

theorem Link.timeoutWait_flags_kept (p : Params) (k : Link) (l x) (hr : k.bus.Holds .reset .released) :
    (Link.timeoutWait p k l x).2.flags.rst = k.flags.rst ∧ (Link.timeoutWait p k l x).2.flags.eoi = k.flags.eoi ∧
      (Link.timeoutWait p k l x).2.flags.atn = k.flags.atn := by
  have sp := Link.timeoutWait_spec p k l x
  cases hf : (Link.timeoutWait p k l x).1
  · rw [Link.timeoutWait_noReset p k l x hr hf]; exact ⟨rfl, rfl, rfl⟩
  · rw [(sp.seen hf).1]; exact ⟨rfl, rfl, rfl⟩

/-- A line held at the expected level is seen in the first iteration. -/
theorem Link.timeoutWait_seenAtOnce (p : Params) (k : Link) (l x) (hr : k.bus.Holds .reset .released) (hl :
    k.bus.Holds l x) :
    Link.timeoutWait p k l x = (true, (k.tick.afterRead .reset).afterRead l) := by
  have a1 : k.tick.sample .reset = .released := by
    have := (Bus.keepsHolds_tick _ _ _ hr).sampled; simpa using this
  have a2 : (k.tick.afterRead .reset).sample l = x := by
    have := (Bus.keepsHolds_afterRead _ .reset _ _ (Bus.keepsHolds_tick _ _ _ hl)).sampled; simpa using this
  simp only [Link.timeoutWait, Link.waitLoop, a1, a2]
  simp

/-- A line held at another level is never seen. -/
theorem Link.waitLoop_neverSeen (T l x y t0 n) (hne : y ≠ x) : ∀ k : Link, k.bus.Holds l y →
    (Link.waitLoop T l x t0 n k).1 = false := by
  induction n with
  | zero => intro k _; rfl
  | succ n ih =>
    intro k hy
    have h2 : (k.afterRead .reset).sample l = y := by
      have := (Bus.keepsHolds_afterRead _ .reset _ _ hy).sampled; simpa using this
    have h3 : ((k.afterRead .reset).afterRead l).tick.bus.Holds l y :=
      Bus.keepsHolds_tick _ _ _ (Bus.keepsHolds_afterRead _ _ _ _ (Bus.keepsHolds_afterRead _ _ _ _ hy))
    simp only [Link.waitLoop, h2, hne, if_false]
    split
    · rfl
    · split
      · rfl
      · split
        · rfl
        · exact ih _ h3

theorem Link.waitLoop_deadline (T l x t0 n) : ∀ k : Link, t0 ≤ k.bus.now → k.bus.Holds .reset .released →
    (Link.waitLoop T l x t0 n k).1 = false → t0 + T ≤ (Link.waitLoop T l x t0 n k).2.bus.now := by
  induction n with
  | zero => intro k _ _ _; exact Nat.le_max_right _ _
  | succ n ih =>
    intro k h0 hr
    have hr1 : k.sample .reset = .released := by simp [hr.sampled]
    have hr3 : ((k.afterRead .reset).afterRead l).tick.bus.Holds .reset .released :=
      Bus.keepsHolds_tick _ _ _ (Bus.keepsHolds_afterRead _ _ _ _ (Bus.keepsHolds_afterRead _ _ _ _ hr))
    have l3 : k.bus.Later ((k.afterRead .reset).afterRead l).tick.bus :=
      ((Bus.later_afterRead _ _).trans (Bus.later_afterRead _ _)).trans (Bus.later_tick _)
    simp only [Link.waitLoop, hr1]
    simp only [reduceCtorEq, if_false]
    split
    · simp
    · split
      · intro _; exact Nat.le_max_right _ _
      · split
        · rename_i h; intro _
          have := l3.now_le
          simp only [Link.setErr_bus] at this ⊢; omega
        · exact ih _ (Nat.le_trans h0 l3.now_le) hr3

/-- A wait that no RESET ends has let its line go. -/
theorem Link.waitLoop_lineReleased (T l x t0 n) : ∀ k : Link, k.bus.Holds .reset .released → (0 < n) →
    (Link.waitLoop T l x t0 n k).2.bus.own.get l = .released := by
  induction n with
  | zero => intro k _ h; exact absurd h (by simp)
  | succ n ih =>
    intro k hr _
    have hr1 : k.sample .reset = .released := by simp [hr.sampled]
    have hr3 : ((k.afterRead .reset).afterRead l).tick.bus.Holds .reset .released :=
      Bus.keepsHolds_tick _ _ _ (Bus.keepsHolds_afterRead _ _ _ _ (Bus.keepsHolds_afterRead _ _ _ _ hr))
    simp only [Link.waitLoop, hr1]
    simp only [reduceCtorEq, if_false]
    split
    · simp
    · split
      · simp
      · split
        · simp
        · cases n with
          | zero => simp [Link.waitLoop]
          | succ n => exact ih _ hr3 (by omega)

theorem State.timeoutWait_flags_of_seen (s : State) (l x) (h : (s.timeoutWait l x).1 = true) :
    (s.timeoutWait l x).2.flags = s.flags :=
  ((Link.timeoutWait_spec s.cfg s.link l x).seen h).1

/-! ### Receiving -/
theorem Link.receiveCells_keepsHolds (p n) : ∀ v (k : Link), Bus.KeepsHolds k.bus (Link.receiveCells p n v k).2.bus ∧
    (k.bus.Holds .reset .released → (Link.receiveCells p n v k).2.flags.rst = k.flags.rst) := by
  induction n with
  | zero => intro v k; exact ⟨Bus.keepsHolds_pull _ _, fun _ => rfl⟩
  | succ n ih =>
    intro v k
    have h1 := Link.timeoutWait_keepsHolds p k .clk .released
    have r1 := fun h => (Link.timeoutWait_flags_kept p k .clk .released h).1
    simp only [Link.receiveCells]
    generalize Link.timeoutWait p k .clk .released = w at *
    split
    · exact ⟨h1, r1⟩
    · have h2 : Bus.KeepsHolds k.bus (w.2.afterRead .data).bus := h1.trans (Bus.keepsHolds_afterRead _ _)
      have h3 := h2.trans (Link.timeoutWait_keepsHolds p (w.2.afterRead .data) .clk .pulled)
      have r3 := fun h => (Link.timeoutWait_flags_kept p (w.2.afterRead .data) .clk .pulled h).1
      generalize Link.timeoutWait p (w.2.afterRead .data) .clk .pulled = w' at *
      have r4 : k.bus.Holds .reset .released → w'.2.flags.rst = k.flags.rst := fun h => (r3 (h2 _ _ h)).trans (r1 h)
      split
      · exact ⟨h3, r4⟩
      · have i := ih (insertBit v (w.2.sample .data)) w'.2
        exact ⟨h3.trans i.1, fun h => (i.2 (h3 _ _ h)).trans (r4 h)⟩

theorem Link.acknowledgeEoi_keepsHolds (p) (k : Link) : Bus.KeepsHolds k.bus (Link.acknowledgeEoi p k).2.bus ∧
    (k.bus.Holds .reset .released → (Link.acknowledgeEoi p k).2.flags.rst = k.flags.rst) := by
  have a : Bus.KeepsHolds k.bus (((Link.pull { k with flags :=
      k.flags.setEoi } .data).delay p.tEoiAck).release .data).bus :=
    ((Bus.keepsHolds_pull k.bus .data).trans (Bus.keepsHolds_delay _ p.tEoiAck)).trans (Bus.keepsHolds_release _ .data)
  have w := Link.timeoutWait_keepsHolds p (((Link.pull { k with flags := k.flags.setEoi } .data).delay p.tEoiAck).release
    .data) .clk .pulled
  have f := fun h => (Link.timeoutWait_flags_kept p (((Link.pull { k with flags := k.flags.setEoi } .data).delay
    p.tEoiAck).release .data) .clk .pulled (a _ _ h)).1
  simp only [Link.acknowledgeEoi]
  generalize Link.timeoutWait p (((Link.pull { k with flags := k.flags.setEoi } .data).delay p.tEoiAck).release .data) .clk
    .pulled = t at w f ⊢
  exact ⟨a.trans w, fun h => (f h).trans (by simp [Flags.setEoi])⟩

theorem Link.eoiLoop_keepsHolds (p t0 n) : ∀ k : Link, Bus.KeepsHolds k.bus (Link.eoiLoop p t0 n k).2.bus ∧
    (k.bus.Holds .reset .released → (Link.eoiLoop p t0 n k).2.flags.rst = k.flags.rst) := by
  induction n with
  | zero =>
    intro k
    have := Link.acknowledgeEoi_keepsHolds p (k.passTo (t0 + p.tEoi))
    simp only [Link.eoiLoop]
    exact ⟨(Bus.keepsHolds_passTo _ _).trans this.1, fun h => (this.2 (Bus.keepsHolds_passTo _ _ _ _ h)).trans (by simp)⟩
  | succ n ih =>
    intro k
    have h1 : Bus.KeepsHolds k.bus (k.afterRead .clk).bus := Bus.keepsHolds_afterRead _ _
    simp only [Link.eoiLoop]
    split
    · exact ⟨h1, fun _ => by simp⟩
    · split
      · have := Link.acknowledgeEoi_keepsHolds p ((k.afterRead .clk).passTo (t0 + p.tEoi))
        exact ⟨(h1.trans (Bus.keepsHolds_passTo _ _)).trans this.1,
          fun h => (this.2 (Bus.keepsHolds_passTo _ _ _ _ (h1 _ _ h))).trans (by simp)⟩
      · have h2 : Bus.KeepsHolds k.bus (k.afterRead .clk).tick.bus := h1.trans (Bus.keepsHolds_tick _)
        split
        · have := Link.acknowledgeEoi_keepsHolds p (k.afterRead .clk).tick
          exact ⟨h2.trans this.1, fun h => (this.2 (h2 _ _ h)).trans (by simp)⟩
        · have := ih (k.afterRead .clk).tick
          exact ⟨h2.trans this.1, fun h => (this.2 (h2 _ _ h)).trans (by simp)⟩

theorem Link.noteAtn_keepsHolds (k : Link) : Bus.KeepsHolds k.bus k.noteAtn.bus ∧ k.noteAtn.flags.rst = k.flags.rst := by
  unfold Link.noteAtn; simp only; split
  · exact ⟨Bus.keepsHolds_afterRead _ _, rfl⟩
  · exact ⟨Bus.keepsHolds_afterRead _ _, rfl⟩

theorem Link.receiveByte_keepsHolds (p) (k : Link) : Bus.KeepsHolds k.bus (Link.receiveByte p k).2.bus ∧
    (k.bus.Holds .reset .released → (Link.receiveByte p k).2.flags.rst = k.flags.rst) := by
  have h1 := Link.timeoutWait_keepsHolds p { k with flags := k.flags.clearForReceive } .clk .released
  have r1 := fun h => (Link.timeoutWait_flags_kept p { k with flags := k.flags.clearForReceive } .clk .released h).1
  simp only [Link.receiveByte]
  generalize Link.timeoutWait p { k with flags := k.flags.clearForReceive } .clk .released = w at *
  split
  · exact ⟨h1, r1⟩
  · have h2 : Bus.KeepsHolds k.bus (w.2.release .data).tick.bus :=
      (h1.trans (Bus.keepsHolds_release _ _)).trans (Bus.keepsHolds_tick _)
    have i := Link.eoiLoop_keepsHolds p (w.2.release .data).tick.bus.now
      ((w.2.release .data).tick.bus.env.length + 1) (w.2.release .data).tick
    have i' : Bus.KeepsHolds k.bus (Link.measureEoi p (w.2.release .data)).2.bus := h2.trans i.1
    have r' : k.bus.Holds .reset .released → (Link.measureEoi p (w.2.release .data)).2.flags.rst = k.flags.rst :=
        fun h => (i.2 (h2 _ _ h)).trans (r1 h)
    generalize Link.measureEoi p (w.2.release .data) = m at *
    split
    · exact ⟨i', r'⟩
    · have n := Link.noteAtn_keepsHolds m.2
      have c := Link.receiveCells_keepsHolds p 8 0x00#8 m.2.noteAtn
      exact ⟨(i'.trans n.1).trans c.1, fun h => (c.2 (n.1 _ _ (i' _ _ h))).trans (n.2.trans (r' h))⟩

theorem State.receiveByte_keepsHolds (s : State) : Bus.KeepsHolds s.bus s.receiveByte.2.bus ∧
    (s.bus.Holds .reset .released → s.receiveByte.2.flags.rst = s.flags.rst) := Link.receiveByte_keepsHolds s.cfg s.link

theorem Link.sendCell_keepsHolds (p v n) (k : Link) : Bus.KeepsHolds k.bus (k.sendCell p v n).bus := by
  have a := Bus.keepsHolds_pull k.bus .clk
  simp only [Link.sendCell]
  split
  · exact (((a.trans (Bus.keepsHolds_release _ .data)).trans (Bus.keepsHolds_delay _ _)).trans
      (Bus.keepsHolds_release _ .clk)).trans (Bus.keepsHolds_delay _ _)
  · exact (((a.trans (Bus.keepsHolds_pull _ .data)).trans (Bus.keepsHolds_delay _ _)).trans
      (Bus.keepsHolds_release _ .clk)).trans (Bus.keepsHolds_delay _ _)

theorem Link.sendCells_keepsHolds (p v left) : ∀ n (k : Link), Bus.KeepsHolds k.bus (Link.sendCells p v left n k).bus := by
  induction left with
  | zero => intro n k; exact .refl _
  | succ left ih => intro n k; exact (Link.sendCell_keepsHolds p v n k).trans (ih _ _)

theorem Link.awaitEoiAck_keepsHolds (p e) (k : Link) : Bus.KeepsHolds k.bus (Link.awaitEoiAck p e k).2.bus ∧
    (k.bus.Holds .reset .released → (Link.awaitEoiAck p e k).2.flags.rst = k.flags.rst) := by
  unfold Link.awaitEoiAck
  split
  · have h := Link.timeoutWait_keepsHolds p k .data .pulled
    have r := fun x => (Link.timeoutWait_flags_kept p k .data .pulled x).1
    simp only
    generalize Link.timeoutWait p k .data .pulled = w at *
    split
    · exact ⟨h, r⟩
    · exact ⟨h.trans (Link.timeoutWait_keepsHolds _ _ _ _),
        fun x => (Link.timeoutWait_flags_kept p w.2 .data .released (h _ _ x)).1.trans (r x)⟩
  · exact ⟨.refl _, fun _ => rfl⟩

theorem Link.sendByte_keepsHolds (p v e) (k : Link) : Bus.KeepsHolds k.bus (Link.sendByte p v e k).2.bus ∧
    (k.bus.Holds .reset .released → (Link.sendByte p v e k).2.flags.rst = k.flags.rst) := by
  have h0 := Bus.keepsHolds_release k.bus .clk
  have h1 := h0.trans (Link.timeoutWait_keepsHolds p (Link.release { k with flags := k.flags.clearErr } .clk) .data .released)
  have r1 := fun h => (Link.timeoutWait_flags_kept p (Link.release { k with flags := k.flags.clearErr } .clk) .data .released
    (h0 _ _ h)).1
  simp only [Link.sendByte]
  generalize Link.timeoutWait p (Link.release { k with flags := k.flags.clearErr } .clk) .data .released = w1 at *
  split
  · exact ⟨h1, r1⟩
  · have a := Link.awaitEoiAck_keepsHolds p e w1.2
    have h2 := h1.trans a.1
    have r2 := fun h => (a.2 (h1 _ _ h)).trans (r1 h)
    generalize Link.awaitEoiAck p e w1.2 = w2 at *
    split
    · exact ⟨h2, r2⟩
    · have h3 : Bus.KeepsHolds k.bus (((Link.sendCells p v 8 0 w2.2).pull .clk).release .data).bus :=
        (h2.trans (Link.sendCells_keepsHolds p v 8 0 w2.2)).trans
          ((Bus.keepsHolds_pull _ .clk).trans (Bus.keepsHolds_release _ .data))
      have f : (((Link.sendCells p v 8 0 w2.2).pull .clk).release .data).flags = w2.2.flags := Link.sendCells_flags p v 8 0 w2.2
      generalize ((Link.sendCells p v 8 0 w2.2).pull .clk).release .data = k3 at h3 f ⊢
      exact ⟨h3.trans (Link.timeoutWait_keepsHolds _ _ _ _),
        fun h => (Link.timeoutWait_flags_kept p k3 .data .pulled (h3 _ _ h)).1.trans ((congrArg Flags.rst f).trans (r2 h))⟩

theorem State.sendByte_keepsHolds (s : State) (v e) : Bus.KeepsHolds s.bus (s.sendByte v e).2.bus ∧
    (s.bus.Holds .reset .released → (s.sendByte v e).2.flags.rst = s.flags.rst) := Link.sendByte_keepsHolds s.cfg v e s.link

end Sys2Proof.Machine
end

