-- ==== Sys2Proof/Laws/EndOfCall.lean ====
section
/-! SUPPORT. How a service() call ends: in IDLE after recovery, not addressed or at the end of a transaction, or in a reset
broadcast; and where a command byte is read and a hook returns. -/
namespace Sys2Proof.Machine
open Sys2Proof

/-! ### The state, field by field -/

theorem State.eq_of {a b : State} (h1 : a.cfg = b.cfg) (h2 : a.bus = b.bus) (h3 : a.flags = b.flags) (h4 :
    a.record = b.record)
   (h5 : a.role = b.role) (h6 : a.active = b.active) (h7 : a.enabled = b.enabled) (h8 : a.slots = b.slots) (h9 :
     a.cause = b.cause)
   (h10 : a.causeInfo = b.causeInfo) (h11 : a.resetLatch = b.resetLatch) (h12 : a.turn = b.turn) (h13 : a.ctl = b.ctl)
   (h14 : a.host = b.host) (h15 : a.device = b.device) (h16 : a.result = b.result) : a = b := by
  cases a; cases b; simp_all

theorem State.timeoutWait_seenAtOnce (s : State) (l x) (hr : s.bus.Holds .reset .released) (hl : s.bus.Holds l x) :
    (s.timeoutWait l x).1 = true ∧ (s.timeoutWait l x).2 = s.withLink ((s.link.tick.afterRead .reset).afterRead l) := by
  have e := Link.timeoutWait_seenAtOnce s.cfg s.link l x hr hl
  unfold State.timeoutWait
  simp only [e, and_self]

/-! ### Undoing the turnaround -/

/-- What `undoTurnAround` leaves of a turned state when its wait sees no RESET (the wait may fail: 60_exceptions.md R344). -/
structure State.UndoSpec (s t : State) : Prop where
  rst : t.flags.rst = s.flags.rst
  eoi : t.flags.eoi = s.flags.eoi
  atn : t.flags.atn = s.flags.atn
  cause : t.cause = s.cause
  info : t.causeInfo = s.causeInfo
  own_atn : t.bus.own.atn = s.bus.own.atn
  own_srq : t.bus.own.srq = s.bus.own.srq
  own_reset : s.bus.own.reset = .released → t.bus.own.reset = .released

/-- `undoTurnAround` up to its wait. -/
def State.beforeUndoWait (s : State) : State :=
  { ((((s.clearErr.pull .data).delay s.cfg.tTurn).release .clk).delay s.cfg.tTurn) with turn := .undone }

theorem State.undoTurnAround_eq (s : State) (h : s.turn = .turned) :
    s.undoTurnAround = (State.beforeUndoWait s).timeoutWait .clk .pulled := by
  unfold State.undoTurnAround
  simp only
  rw [if_neg (by simp [h])]
  rfl

theorem State.beforeUndoWait_keepsHolds (s : State) : Bus.KeepsHolds s.bus (State.beforeUndoWait s).bus :=
  (((Bus.keepsHolds_pull s.bus .data).trans (Bus.keepsHolds_delay _ s.cfg.tTurn)).trans (Bus.keepsHolds_release _ .clk)).trans (Bus.keepsHolds_delay _ s.cfg.tTurn)

theorem State.beforeUndoWait_own (s : State) :
    (State.beforeUndoWait s).bus.own = (s.bus.own.set .data .pulled).set .clk .released := by simp [State.beforeUndoWait]

/-- What a wait keeps, whatever the environment does. -/
theorem State.timeoutWait_kept (s : State) (l : Line) (x : LineState) :
    let t := (s.timeoutWait l x).2
    t.flags.eoi = s.flags.eoi ∧ t.flags.atn = s.flags.atn ∧ t.cause = s.cause ∧ t.causeInfo = s.causeInfo ∧
    (∀ m, m ≠ .reset → m ≠ l → t.bus.own.get m = s.bus.own.get m) ∧
    (s.bus.own.reset = .released → t.bus.own.reset = .released) := by
  have sp := Link.timeoutWait_spec s.cfg s.link l x
  simp only [State.timeoutWait]
  generalize Link.timeoutWait s.cfg s.link l x = w at sp ⊢
  have f : w.2.flags.eoi = s.flags.eoi ∧ w.2.flags.atn = s.flags.atn := by
    cases hw : w.1
    · rcases sp.failed hw with ⟨h, _⟩ | ⟨h, _⟩ <;> rw [h] <;> exact ⟨rfl, rfl⟩
    · rw [(sp.seen hw).1]; exact ⟨rfl, rfl⟩
  exact ⟨f.1, f.2, rfl, rfl, sp.own_other, sp.own_released .reset⟩

/-- `UndoSeesReset` reads the configuration, the bus, the flags and `turn`, and nothing else. -/
theorem State.UndoSeesReset.congr {s t : State} (h : s.UndoSeesReset) (h1 : t.cfg = s.cfg) (h2 : t.bus = s.bus)
    (h3 : t.flags = s.flags) (h4 : t.turn = s.turn) : t.UndoSeesReset := by
  obtain ⟨ht, hf⟩ := h
  have ht' := h4.trans ht
  refine ⟨ht', ?_⟩
  rw [State.undoTurnAround_eq _ ht] at hf
  rw [State.undoTurnAround_eq _ ht']
  have e : (State.beforeUndoWait t).link = (State.beforeUndoWait s).link := by
    simp only [State.beforeUndoWait, State.link, State.delay, State.release, State.pull, State.clearErr, h1, h2, h3]
  have c : (State.beforeUndoWait t).cfg = (State.beforeUndoWait s).cfg := h1
  simp only [State.timeoutWait] at hf ⊢
  rw [e, c]
  exact hf

theorem State.undoTurnAround_spec (s : State) (h : s.turn = .turned) (h0 : s.flags.rst = false) (hn : ¬ s.UndoSeesReset) :
    State.UndoSpec s s.undoTurnAround.2 := by
  have hr : s.undoTurnAround.2.flags.rst = false := by
    rw [← Bool.not_eq_true]; exact fun g => hn ⟨h, g⟩
  rw [State.undoTurnAround_eq s h] at hr ⊢
  have o := State.beforeUndoWait_own s
  have k := State.timeoutWait_kept (State.beforeUndoWait s) .clk .pulled
  have f : (State.beforeUndoWait s).flags.eoi = s.flags.eoi ∧ (State.beforeUndoWait s).flags.atn = s.flags.atn ∧
      (State.beforeUndoWait s).cause = s.cause ∧ (State.beforeUndoWait s).causeInfo = s.causeInfo := ⟨rfl, rfl, rfl, rfl⟩
  generalize State.beforeUndoWait s = u at o k f hr ⊢
  generalize (u.timeoutWait .clk .pulled).2 = t at k hr ⊢
  obtain ⟨k2, k3, k4, k5, k6, k7⟩ := k
  obtain ⟨f2, f3, f4, f5⟩ := f
  refine ⟨hr.trans h0.symm, k2.trans f2, k3.trans f3, k4.trans f4, k5.trans f5, ?_, ?_, fun hx => k7 ?_⟩
  · exact (k6 .atn (by simp) (by simp)).trans (by rw [o]; rfl)
  · exact (k6 .srq (by simp) (by simp)).trans (by rw [o]; rfl)
  · rw [o]; exact hx

theorem State.toIdle_ended {s t : State} {m : ATNMode} (r : ATNRecord) (hrec : t.record = { r with mode := t.record.mode })
    (ha : t.bus.own.atn = s.bus.own.atn) (hs : t.bus.own.srq = s.bus.own.srq) (hr : s.bus.own.reset = .released →
      t.bus.own.reset = .released)
    (h1 : t.flags.eoi = s.flags.eoi) (h2 : t.flags.atn = s.flags.atn) (h3 : t.flags.rst = s.flags.rst) (h4 : t.cfg = s.cfg)
    (h5 : t.slots = s.slots) (h6 : t.enabled = s.enabled) (h7 : t.resetLatch = s.resetLatch) (h8 : t.host = s.host) (h9 :
      t.device = s.device) :
    State.EndedIdle s r (t.toIdle.returnMode m) m := by
  refine ⟨rfl, rfl, rfl, rfl, rfl, ?_, ?_, ?_, ?_, ?_, ?_, h1, h2, h3, h4, h5, h6, h7, h8, h9⟩
  · simp [Lines.set]
  · simp [Lines.set]
  · simpa [Lines.set] using ha
  · simpa [Lines.set] using hs
  · intro h; simpa [Lines.set] using hr h
  · have h0 : (t.toIdle.returnMode m).record = { t.record with mode := .idle, aux := [], auxLen := 0 } := by simp
    rw [h0, hrec]

/-- `recover()` that sees no RESET ends in IDLE with the cause it found (R281; 60_exceptions.md R343). -/
theorem State.recover_ended (s : State) (h0 : s.flags.rst = false) (hn : ¬ s.UndoSeesReset) :
    State.EndedIdle s s.record s.recover .error ∧ s.recover.cause = s.cause ∧ s.recover.causeInfo = s.causeInfo := by
  have g : State.UndoSpec (s.setMode .error)
      (if (s.setMode .error).turn = .turned then (s.setMode .error).undoTurnAround.2 else s.setMode .error) := by
    split
    · rename_i h; exact State.undoTurnAround_spec _ h h0 fun g => hn (g.congr rfl rfl rfl rfl)
    · exact ⟨rfl, rfl, rfl, rfl, rfl, rfl, rfl, id⟩
  have k : State.HandshakeSpec (s.setMode .error)
      (if (s.setMode .error).turn = .turned then (s.setMode .error).undoTurnAround.2 else s.setMode .error) := by
    split
    · exact State.undoTurnAround_handshake _
    · exact .refl _
  unfold State.recover
  simp only
  generalize (if (s.setMode .error).turn = .turned then (s.setMode .error).undoTurnAround.2 else s.setMode .error) = t at g k ⊢
  have : t.flags.rst = false := g.rst.trans h0
  rw [if_neg (by simp [this])]
  refine ⟨State.toIdle_ended s.record ?_ g.own_atn g.own_srq g.own_reset g.eoi g.atn g.rst k.cfg k.slots k.enabled k.resetLatch k.host k.device, g.cause, g.info⟩
  rw [k.record]; rfl

theorem State.EndedIdle.record_congr {s t : State} {r r' : ATNRecord} {m} (h : State.EndedIdle s r t m)
   (e : ({ r with mode := .idle, aux := [], auxLen := 0 } : ATNRecord) = { r' with mode := .idle, aux := [], auxLen :=
     0 }) : State.EndedIdle s r' t m :=
  { h with record := h.record.trans e }

/-- The same end seen from another state with the same bus, flags, setup, latch and inputs. -/
theorem State.EndedIdle.of_same {u s t : State} {r : ATNRecord} {m} (h : State.EndedIdle u r t m) (hb :
    u.bus = s.bus) (hf : u.flags = s.flags)
  (h4 : u.cfg = s.cfg) (h5 : u.slots = s.slots) (h6 : u.enabled = s.enabled) (h7 : u.resetLatch = s.resetLatch) (h8 :
    u.host = s.host) (h9 : u.device = s.device) : State.EndedIdle s r t m :=
  ⟨h.active, h.role, h.turn, h.ctl, h.result, h.clk, h.data, h.atn_line.trans (by rw [hb]),
    h.srq_line.trans (by rw [hb]), fun x => h.reset_line (by rw [hb]; exact x), h.record,
   h.eoi.trans (by rw [hf]), h.atn_flag.trans (by rw [hf]), h.rst.trans (by rw [hf]), h.cfg.trans h4, h.slots.trans h5,
     h.enabled.trans h6, h.latch.trans h7, h.host.trans h8, h.device.trans h9⟩

theorem State.decodeError_ended (s : State) (c i) (h0 : s.flags.rst = false) (hn : ¬ s.UndoSeesReset) :
    State.EndedIdle s s.record (s.decodeError c i) .error ∧ (s.decodeError c i).cause = c ∧
      (s.decodeError c i).causeInfo = i := by
  have r := State.recover_ended { s.raise c i with record := { (s.raise c i).record.setAuxLen 0 with mode :=
      .error } } h0 fun g => hn (g.congr rfl rfl rfl rfl)
  refine ⟨?_, r.2.1, r.2.2⟩
  refine State.EndedIdle.record_congr (State.EndedIdle.of_same r.1 rfl rfl rfl rfl rfl rfl rfl rfl) ?_
  simp

theorem State.phaseError_ended (s : State) (c i) (h0 : s.flags.rst = false) (hn : ¬ s.UndoSeesReset) :
    State.EndedIdle s s.record (s.phaseError c i) .error ∧ (s.phaseError c i).cause = c ∧
      (s.phaseError c i).causeInfo = i := by
  have r := State.recover_ended (s.raise c i) h0 fun g => hn (g.congr rfl rfl rfl rfl)
  exact ⟨State.EndedIdle.of_same r.1 rfl rfl rfl rfl rfl rfl rfl rfl, r.2.1, r.2.2⟩

theorem State.notAddressed_ended (s : State) : State.EndedIdle s s.record s.notAddressed .idle := by
  unfold State.notAddressed
  refine State.toIdle_ended s.record rfl ?_ ?_ ?_ rfl rfl rfl rfl rfl rfl rfl rfl rfl
  · simp [Lines.set]
  · simp [Lines.set]
  · intro h; simpa [Lines.set] using h

theorem State.endTransaction_ended (s : State) : State.EndedIdle s s.record s.endTransaction .cmd := by
  exact State.toIdle_ended s.record rfl rfl rfl id rfl rfl rfl rfl rfl rfl rfl rfl rfl

/-! ### Serving a reset -/

/-- `serveReset()` in a new assertion cycle. -/
theorem State.serveReset_begun (s : State) (hl : s.resetLatch = false) : s.ResetBegun s.serveReset ∧
    s.serveReset.device = s.device := by
  unfold State.serveReset
  rw [if_neg (by simp [hl])]
  have : ∀ refs, refs = s.slots.map (fun r => r.ref) → s.ResetBegun (State.broadcast (s.raise .reset 0x00#8) refs) ∧
      (State.broadcast (s.raise .reset 0x00#8) refs).device = s.device := by
    intro refs h
    cases hs : s.slots with
    | nil =>
      have : refs = [] := by rw [h, hs]; rfl
      subst this
      have e := State.broadcast_nil (s.raise .reset 0x00#8)
      rw [e]
      refine ⟨⟨by simp, by simp, by simp, by simp, by simp, by simp, ?_⟩, by simp⟩
      rw [hs]
      refine ⟨by simp, by simp, by simp, by simp, by simp, ?_, by simp, by simp,
        by simp [Flags.clearAfterBroadcast, Flags.clearRst], by simp⟩
      rw [← e]
      exact State.broadcast_nil_released (s.raise .reset 0x00#8)
    | cons r rest =>
      have : refs = r.ref :: rest.map (fun r => r.ref) := by rw [h, hs]; rfl
      subst this
      refine ⟨⟨rfl, rfl, rfl, rfl, rfl, rfl, ?_⟩, rfl⟩
      rw [hs]
      exact ⟨rfl, rfl, rfl⟩
  exact this _ rfl

theorem State.ResetBegun.congr {u s t : State} (h : u.ResetBegun t) (h1 : u.cfg = s.cfg) (h2 : u.slots = s.slots) (h3 :
    u.enabled = s.enabled) (h4 : u.host = s.host) (h5 : u.active = s.active) (h6 : u.role = s.role) : s.ResetBegun t := by
  obtain ⟨a, b, c, d, e, f, g⟩ := h
  refine ⟨a, b, c.trans h1, d.trans h2, e.trans h3, f.trans h4, ?_⟩
  rw [h2] at g
  cases hs : s.slots with
  | nil => rw [hs] at g; exact g
  | cons r rest => rw [hs] at g; exact ⟨g.1, g.2.1.trans h5, g.2.2.trans h6⟩

theorem State.ResetBegun.handshake {s u t : State} (g : State.HandshakeSpec s u) (h : u.ResetBegun t) : s.ResetBegun t :=
    State.ResetBegun.congr h g.cfg g.slots g.enabled g.host g.active g.role

theorem State.decodeReset_begun (s : State) (hl : s.resetLatch = false) : s.ResetBegun s.decodeReset ∧
    s.decodeReset.device = s.device := by
  have := State.serveReset_begun ((s.raise .reset 0x00#8).setMode .reset) hl
  exact ⟨State.ResetBegun.congr this.1 rfl rfl rfl rfl rfl rfl, this.2⟩

/-- `recover()` that finds RESET seen, or whose undo of the turnaround sees it, serves it (R281; 60_exceptions.md R341). -/
theorem State.recover_begun (s : State) (hl : s.resetLatch = false) (h : s.flags.rst = true ∨ s.UndoSeesReset) :
    s.ResetBegun s.recover ∧ s.recover.device = s.device := by
  have g := State.undoTurnAround_handshake (s.setMode .error)
  have q : s.turn = .turned → (s.setMode .error).undoTurnAround.2.flags.rst = true := fun ht =>
    h.elim (fun f => g.link.rst f) (fun u => (State.UndoSeesReset.congr (t := s.setMode .error) u rfl rfl rfl rfl).2)
  unfold State.recover
  simp only
  by_cases ht : s.turn = .turned
  · rw [if_pos (show (s.setMode .error).turn = .turned from ht), if_pos (q ht)]
    have d := State.serveReset_begun (s.setMode .error).undoTurnAround.2 (g.resetLatch.trans hl)
    exact ⟨State.ResetBegun.congr (State.ResetBegun.handshake g d.1) rfl rfl rfl rfl rfl rfl, d.2.trans g.device⟩
  · have f : s.flags.rst = true := h.elim id fun u => absurd u.1 ht
    rw [if_neg (show ¬ (s.setMode .error).turn = .turned from ht), if_pos (show (s.setMode .error).flags.rst = true from f)]
    have d := State.serveReset_begun (s.setMode .error) hl
    exact ⟨State.ResetBegun.congr d.1 rfl rfl rfl rfl rfl rfl, d.2⟩

/-! ### Where a command byte is read, and a hook that returns -/

theorem State.byPlace_primary {s : State} {p q r l} (h : s.ctl = .primary) : s.byPlace p q r l = p s :=
    by simp [State.byPlace, h]

theorem State.byPlace_secondary {s : State} {p q r l} (h : s.ctl = .secondary) : s.byPlace p q r l = q s :=
    by simp [State.byPlace, h]

theorem State.byPlace_payload {s : State} {p q r l} (h : s.ctl = .payload) : s.byPlace p q r l = r s :=
    by simp [State.byPlace, h]

theorem State.byPlace_listening {s : State} {p q r l} (h : s.ctl = .listening) : s.byPlace p q r l = l s :=
    by simp [State.byPlace, h]

/-- A hook that returns: the service() call goes on from the device's answer. -/
theorem fetch_hookReturn (s : State) (h pd) (hc : s.ctl = .hook h pd) (hd : s.HookReturns) :
   ∃ a, fetch s = .done (State.hookReturn { s with device := s.device.tail } h pd a) ∧ ((s.device = [] ∧
     a = none) ∨ s.device = .ret a :: s.device.tail) := by
  rcases hd with hv | ⟨a, rest, hv⟩
  · rw [hv]
    refine ⟨none, ?_, .inl ⟨rfl, rfl⟩⟩
    have : ({ s with device := List.tail [] } : State) = s := by rw [List.tail_nil, ← hv]
    rw [this]; unfold fetch; rw [hc]; simp only [fetchDevice]; rw [hv]
  · refine ⟨a, ?_, .inr (by rw [hv]; rfl)⟩
    unfold fetch; rw [hc]; simp only [fetchDevice]; rw [hv]; simp only [List.tail_cons, hc]

/-- A device's request that is no data primitive is refused (30_encoding.md R103). -/
theorem step_deviceRequest_refused (s : State) (h pd) (r rest) (hc : s.ctl = .hook h pd)
    (hd : s.device = .request r :: rest) (hp : isDataPrimitive r.op = false) :
    step s = .next (State.refuse { s with device := rest } r.op) := by
  simp [step, fetch, hc, fetchDevice, hd, fetchDeviceRequest, hp]

/-- A device's data primitive is fetched as any request is. -/
theorem fetch_dataPrimitive (s : State) (h pd) (r rest) (hc : s.ctl = .hook h pd)
    (hd : s.device = .request r :: rest) (hp : isDataPrimitive r.op = true) :
    fetch s = fetchRequest r { s with device := rest } := by
  simp [fetch, hc, fetchDevice, hd, fetchDeviceRequest, hp]

theorem fetch_hook {s : State} {h pd} (hc : s.ctl = .hook h pd) : fetch s = fetchDevice h pd s := by unfold fetch; rw [hc]

/-- A device's read of the payload inside a hook (20_memory.md R66). -/
theorem step_readAux (s : State) (h pd) (i rest) (hc : s.ctl = .hook h pd) (hd : s.device = .readAux i :: rest) :
    step s = .next (State.deviceRead { s with device := rest } i) := by
  simp [step, fetch, hc, fetchDevice, hd]

/-- A device's write of the record inside a hook (93_implementation_defined.md F7). -/
theorem step_writeAux (s : State) (h pd) (i b rest) (hc : s.ctl = .hook h pd) (hd : s.device = .writeAux i b :: rest) :
    step s = .next (State.refuseAccess { s with device := rest }) := by
  simp [step, fetch, hc, fetchDevice, hd]

end Sys2Proof.Machine
end

