-- ==== Sys2Proof/Laws/Registry.lean ====
section
/-! SUPPORT. What the operations on the chain and the mask can do: one law per operation, on a chain split at the slot it
finds. -/
namespace Sys2Proof.Machine
open Sys2Proof

/-- The bit of one id (43_device_registry.md R227). -/
theorem maskBit_getLsbD (id j : DeviceId) : (maskBit id).getLsbD j.toNat = (j == id) := by
  revert id j; decide

/-- A test of the mask is that bit (R226). -/
theorem maskHas_eq (m : Mask) (id : DeviceId) : maskHas m id = m.getLsbD id.toNat := by
  have h := id.isLt
  unfold maskHas
  have key : ((m >>> id.toNat) &&& 1#32) = BitVec.setWidth 32 (BitVec.ofBool (m.getLsbD id.toNat)) := by
    apply BitVec.eq_of_getLsbD_eq
    intro i hi
    simp only [BitVec.getLsbD_and, BitVec.getLsbD_ushiftRight, BitVec.getLsbD_setWidth]
    rcases Nat.eq_zero_or_pos i with rfl | hp
    · cases hm : m.getLsbD id.toNat <;> simp_all
    · have : (1#32).getLsbD i = false := by simp [BitVec.getLsbD_one]; omega
      have h2 : (BitVec.ofBool (m.getLsbD id.toNat)).getLsbD i = false := by simp [BitVec.getLsbD_ofBool]; omega
      simp [this, h2]
  rw [key]; cases m.getLsbD id.toNat <;> decide

/-- Setup time (R221). -/
theorem setupTime_true {s : State} (h1 : s.record.mode = .idle) (h2 : s.ctl = .idle) : s.setupTime = true := by
  simp [State.setupTime, h1, h2]

theorem setupTime_false {s : State} (h : s.record.mode ≠ .idle ∨ s.ctl ≠ .idle) : s.setupTime = false :=
    by unfold State.setupTime; rcases h with h | h <;> simp [h]

/-- The ids a device may have (R222). -/
theorem assignable_iff (id : DeviceId) : idAssignable id = true ↔ 4 ≤ id.toNat ∧ id.toNat ≤ 30 := by
  unfold idAssignable; rw [Bool.and_eq_true, decide_eq_true_iff, decide_eq_true_iff]; exact Iff.rfl

theorem hasId_iff (l : List Registration) (id) : hasId l id = true ↔ ∃ r ∈ l, r.deviceId = id := by simp [hasId]

theorem hasRef_iff (l : List Registration) (id) : hasRef l id = true ↔ ∃ r ∈ l, r.ref = id := by simp [hasRef]

theorem hasId_not_mem {slots : List Registration} {id} (h : hasId slots id = false) : id ∉ slots.map (·.deviceId) := by
  intro hm
  obtain ⟨r, hr, e⟩ := List.mem_map.mp hm
  have : hasId slots id = true := by
    unfold hasId; exact List.any_eq_true.mpr ⟨r, hr, by simp [e]⟩
  simp [h] at this

theorem hasRef_not_mem {slots : List Registration} {ref} (h : hasRef slots ref = false) : ref ∉ slots.map (·.ref) := by
  intro hm
  obtain ⟨r, hr, e⟩ := List.mem_map.mp hm
  have : hasRef slots ref = true := by
    unfold hasRef; exact List.any_eq_true.mpr ⟨r, hr, by simp [e]⟩
  simp [h] at this

/-- The linear scan finds the first slot with the id (R224). -/
theorem slotById_append (before : List Registration) (r after id) (h : r.deviceId = id) (hb : ∀ q ∈ before,
    q.deviceId ≠ id) :
    slotById (before ++ r :: after) id = some r.ref := by
  induction before with
  | nil => simp [slotById, h]
  | cons q rest ih => simp [slotById, hb q (by simp), ih fun q hq => hb q (by simp [hq])]

theorem slotById_eq_none (l : List Registration) (id) (hb : ∀ q ∈ l, q.deviceId ≠ id) : slotById l id = none := by
  induction l with
  | nil => rfl
  | cons q rest ih => simp [slotById, hb q (by simp), ih fun q hq => hb q (by simp [hq])]

theorem idOfRef_append (before : List Registration) (r after ref) (h : r.ref = ref) (hb : ∀ q ∈ before, q.ref ≠ ref) :
    idOfRef (before ++ r :: after) ref = some r.deviceId := by
  induction before with
  | nil => simp [idOfRef, h]
  | cons q rest ih =>
    have := hb q (by simp)
    simp [idOfRef, this, ih fun q hq => hb q (by simp [hq])]

theorem idOfRef_eq_none (l : List Registration) (ref) (hb : ∀ q ∈ l, q.ref ≠ ref) : idOfRef l ref = none := by
  induction l with
  | nil => rfl
  | cons q rest ih => simp [idOfRef, hb q (by simp), ih fun q hq => hb q (by simp [hq])]

/-- Removing closes the gap and keeps the order (R223). -/
theorem removeRef_append (before : List Registration) (r after ref) (h : r.ref = ref) (hb : ∀ q ∈ before, q.ref ≠ ref) :
    removeRef (before ++ r :: after) ref = before ++ after := by
  induction before with
  | nil => simp [removeRef, h]
  | cons q rest ih =>
    have := hb q (by simp)
    simp [removeRef, this, ih fun q hq => hb q (by simp [hq])]

theorem removeRef_sublist (slots : List Registration) (ref) : (removeRef slots ref).Sublist slots := by
  induction slots with
  | nil => exact .slnil
  | cons r rest ih =>
    unfold removeRef; split
    · exact List.sublist_cons_self _ _
    · exact ih.cons_cons _

/-- Renumbering keeps the place in the chain (R225). -/
theorem renumberRef_append (before : List Registration) (r after ref id) (h : r.ref = ref) (hb : ∀ q ∈ before,
    q.ref ≠ ref) :
    renumberRef (before ++ r :: after) ref id = before ++ { r with deviceId := id } :: after := by
  induction before with
  | nil => simp [renumberRef, h]
  | cons q rest ih =>
    have := hb q (by simp)
    simp [renumberRef, this, ih fun q hq => hb q (by simp [hq])]

theorem renumberRef_refs (slots : List Registration) (ref id) :
    (renumberRef slots ref id).map (·.ref) = slots.map (·.ref) := by
  induction slots with
  | nil => rfl
  | cons r rest ih => unfold renumberRef; split <;> simp_all

theorem renumberRef_mem (slots : List Registration) (ref id) : ∀ r ∈ renumberRef slots ref id,
    r ∈ slots ∨ r.deviceId = id := by
  induction slots with
  | nil => simp [renumberRef]
  | cons r rest ih =>
    intro x hx
    unfold renumberRef at hx
    split at hx
    · rcases List.mem_cons.mp hx with rfl | hx
      · right; rfl
      · left; simp [hx]
    · rcases List.mem_cons.mp hx with rfl | hx
      · left; simp
      · rcases ih x hx with h | h
        · left; simp [h]
        · right; exact h

theorem renumberRef_length (slots : List Registration) (ref id) : (renumberRef slots ref id).length = slots.length := by
  induction slots with
  | nil => rfl
  | cons r rest ih => unfold renumberRef; split <;> simp_all

/-- I1 under a renumbering to an unused id (R230). -/
theorem renumberRef_nodup (slots : List Registration) (ref id) (h : (slots.map (·.deviceId)).Nodup) (hid :
    id ∉ slots.map (·.deviceId)) :
    ((renumberRef slots ref id).map (·.deviceId)).Nodup := by
  induction slots with
  | nil => simp [renumberRef]
  | cons r rest ih =>
    simp only [List.map_cons, List.nodup_cons, List.mem_cons, not_or] at h hid
    unfold renumberRef; split
    · simp only [List.map_cons, List.nodup_cons]; exact ⟨hid.2, h.2⟩
    · simp only [List.map_cons, List.nodup_cons]
      refine ⟨?_, ih h.2 hid.2⟩
      intro hm
      obtain ⟨x, hx, e⟩ := List.mem_map.mp hm
      rcases renumberRef_mem rest ref id x hx with hx | hx
      · exact h.1 (e ▸ List.mem_map_of_mem hx)
      · exact hid.1 (hx.symm.trans e)

theorem selectable_some {s : State} {id} (h : s.selectable id = true) : hasId s.slots id = true ∧
    maskHas s.enabled id = true := by
  unfold State.selectable at h
  simp only [Bool.and_eq_true] at h
  refine ⟨?_, h.2⟩
  have := h.1
  revert this
  generalize s.slots = l
  induction l with
  | nil => simp [slotById]
  | cons r rest ih =>
    unfold slotById
    split
    · intro; simp_all [hasId]
    · intro hx; have := ih hx; unfold hasId at this ⊢; simp [List.any_cons] at this ⊢; right; exact this

/-- At setup time nobody is selected (R221; 10_state.md R31). -/
theorem active_none_at_setup {s : State} (h : s.Inv) (hs : s.setupTime = true) : s.active = none := by
  unfold State.setupTime at hs
  have hm : s.record.mode = .idle := by simp_all
  have hc : s.ctl = .idle := by simp_all
  have hp := h.place_ok
  unfold State.PlaceOk at hp
  rw [hc] at hp
  simp only at hp
  rw [hm] at hp
  refine h.role_active.mp ?_
  revert hp
  cases s.role <;> simp [modeOf]

/-- A change of the chain and the mask that keeps I1 to I4, at setup time, keeps the invariant (R230). -/
theorem setup_change_inv {s : State} (h : s.Inv) (hs : s.setupTime = true) (slots : List Registration) (en : Mask)
    (h1 : (slots.map fun r => r.deviceId).Nodup) (h2 : ∀ r ∈ slots, idAssignable r.deviceId = true)
    (h3 : (slots.map fun r => r.ref).Nodup) (h4 : slots.length ≤ Config.nSlots) (v : Result) :
    State.Inv { s with slots := slots, enabled := en, result := v } := by
  have ha := active_none_at_setup h hs
  refine State.Base.inv ⟨h1, h2, h3, h4, ?_, h.role_active, h.aux_bound, h.aux_cells, h.aux_open, h.id_range,
    h.no_srq⟩ h.latch_clear h.place_ok
  simp [ha]

end Sys2Proof.Machine
end

