-- ==== Sys2Proof/Laws/Invariant.lean ====
section
/-! SUPPORT. The invariant, operation by operation: each says that one shared operation, or one meaning built on it, keeps
`State.Inv`. -/
namespace Sys2Proof.Machine
open Sys2Proof

/-! ### Requests -/

/-- The invariant reads only these fields. -/
theorem State.Inv.congr {s t : State} (h : s.Inv) (cfg : t.cfg = s.cfg) (record : t.record = s.record)
    (role : t.role = s.role) (active : t.active = s.active) (enabled : t.enabled = s.enabled) (slots : t.slots = s.slots)
    (srq : t.cfg.hasSrq = false → t.bus.own.srq = .released) (ctl : t.ctl = s.ctl) (latch :
      t.resetLatch = s.resetLatch) : t.Inv := by
  refine State.Base.inv ?_ (by rw [ctl, latch]; exact h.latch_clear) ?_
  · constructor
    · rw [slots]; exact h.ids_nodup
    · rw [slots]; exact h.ids_assignable
    · rw [slots]; exact h.refs_nodup
    · rw [slots]; exact h.capacity
    · rw [slots, active, enabled]; exact h.active_ok
    · rw [role, active]; exact h.role_active
    · rw [record, cfg]; exact h.aux_bound
    · rw [record]; exact h.aux_cells
    · rw [record]; exact h.aux_open
    · rw [record]; exact h.id_range
    · exact srq
  · have hp := h.place_ok
    unfold State.PlaceOk at hp ⊢
    rw [ctl, record, role]; exact hp

theorem State.Inv.refuse {s : State} (h : s.Inv) (b : BitVec 5) : (s.refuse b).Inv :=
  h.congr (t := s.refuse b) rfl rfl rfl rfl rfl rfl h.no_srq rfl rfl

theorem State.Inv.complete {s : State} (h : s.Inv) (v : Value) : (s.complete v).Inv :=
  h.congr (t := s.complete v) rfl rfl rfl rfl rfl rfl h.no_srq rfl rfl

theorem srq_released_after_set {s : State} (h : s.Inv) (l : Line) (v : LineState) (hl : s.linePresent l = true) :
    s.cfg.hasSrq = false → (s.bus.own.set l v).srq = .released := by
  intro hs
  cases l <;> first | exact h.no_srq hs | (simp [State.linePresent, hs] at hl)

theorem execPull_inv {s : State} (h : s.Inv) (l : Line) : ∀ t, execPull l s = .next t → t.Inv := by
  intro t; unfold execPull; split
  · rename_i hl; rintro ⟨⟩
    exact h.congr (t := (s.pull l).complete .none) rfl rfl rfl rfl rfl rfl (by simpa using srq_released_after_set h l .pulled hl) rfl rfl
  · rintro ⟨⟩; exact State.Inv.refuse h _

theorem execRelease_inv {s : State} (h : s.Inv) (l : Line) : ∀ t, execRelease l s = .next t → t.Inv := by
  intro t; unfold execRelease; split
  · rename_i hl; rintro ⟨⟩
    exact h.congr (t := (s.release l).complete .none) rfl rfl rfl rfl rfl rfl (by simpa using srq_released_after_set h l .released hl) rfl rfl
  · rintro ⟨⟩; exact State.Inv.refuse h _

theorem execRead_inv {s : State} (h : s.Inv) (l : Line) : ∀ t, execRead l s = .next t → t.Inv := by
  intro t; unfold execRead; split
  · rename_i hl; rintro ⟨⟩
    exact h.congr (t := (s.afterRead l).complete _) rfl rfl rfl rfl rfl rfl (by simpa using srq_released_after_set h l .released hl) rfl rfl
  · rintro ⟨⟩; exact State.Inv.refuse h _

theorem execTimeoutWait_inv {s : State} (h : s.Inv) (l : Line) (x : LineState) : ∀ t, execTimeoutWait l x s = .next t →
    t.Inv := by
  intro t; unfold execTimeoutWait; split
  · rename_i hl; rintro ⟨⟩
    refine State.Inv.complete ?_ _
    refine h.congr (t := (s.timeoutWait l x).2) rfl rfl rfl rfl rfl rfl ?_ rfl rfl
    intro hs
    exact (Link.timeoutWait_spec s.cfg s.link l x).own_released .srq (h.no_srq hs)
  · rintro ⟨⟩; exact State.Inv.refuse h _

/-- `phase_done` is a local of the call. -/
theorem setPhaseDone_inv {s : State} (h : s.Inv) : s.setPhaseDone.Inv := by
  cases hc : s.ctl with
  | hook hk pd =>
    have e : s.setPhaseDone = { s with ctl := .hook hk true } := by simp [State.setPhaseDone, hc]
    rw [e]
    have hp := h.place_ok
    have hb := h.base.congr (t := { s with ctl := .hook hk true }) rfl rfl rfl rfl rfl rfl rfl
    refine hb.inv (fun _ => h.latch_clear (by simp [hc])) ?_
    unfold State.PlaceOk at hp ⊢
    rw [hc] at hp
    cases hk <;> exact hp
  | _ => simpa [State.setPhaseDone, hc] using h

theorem setErr_inv {s : State} (h : s.Inv) : s.setErr.Inv := h.handshake s.setErr_handshake

theorem raise_inv {s : State} (h : s.Inv) (c i) : (s.raise c i).Inv := h.handshake (s.raise_handshake c i)

theorem primitiveFailed_inv {s : State} (h : s.Inv) : s.primitiveFailed.Inv := by
  unfold State.primitiveFailed; split
  · exact setPhaseDone_inv h
  · exact raise_inv (setPhaseDone_inv h) _ _

theorem sendPrimitive_inv {s : State} (h : s.Inv) (b) : (s.sendPrimitive b).2.Inv := by
  have h1 := h.handshake (s.sendByte_handshake b false)
  unfold State.sendPrimitive
  simp only
  generalize s.sendByte b false = w at h1 ⊢
  split
  · exact primitiveFailed_inv h1
  · exact h1

theorem sendAll_inv (l : List Byte) : ∀ {s : State}, s.Inv → (State.sendAll l s).2.Inv := by
  induction l with
  | nil => intro s h; exact h
  | cons b rest ih =>
    intro s h
    have h1 := sendPrimitive_inv h b
    simp only [State.sendAll]
    generalize s.sendPrimitive b = w at h1 ⊢
    split
    · exact h1
    · exact ih h1

theorem sendEoiPrimitive_inv {s : State} (h : s.Inv) (b) : (s.sendEoiPrimitive b).2.Inv := by
  have h1 := h.handshake (s.sendByte_handshake b true)
  unfold State.sendEoiPrimitive
  simp only
  generalize s.sendByte b true = w at h1 ⊢
  split
  · exact primitiveFailed_inv h1
  · exact (setPhaseDone_inv h1).handshake (State.release_handshake _ .clk rfl)

theorem receivePrimitive_inv {s : State} (h : s.Inv) : s.receivePrimitive.2.Inv := by
  have h1 := h.handshake s.receiveByte_handshake
  unfold State.receivePrimitive
  simp only
  generalize s.receiveByte = w at h1 ⊢
  split
  · exact primitiveFailed_inv h1
  · split
    · exact raise_inv (setPhaseDone_inv (setErr_inv h1)) _ _
    · split
      · exact setPhaseDone_inv h1
      · exact h1

theorem receiveAll_inv (n : Nat) : ∀ {s : State}, s.Inv → (State.receiveAll n s).2.2.Inv := by
  induction n with
  | zero => intro s h; exact h
  | succ n ih =>
    intro s h
    have h1 := receivePrimitive_inv h
    simp only [State.receiveAll]
    generalize s.receivePrimitive = w at h1 ⊢
    split
    · exact h1
    · split
      · exact h1
      · exact ih h1

theorem execAddDevice_inv {s : State} (h : s.Inv) (ref id) : ∀ t, execAddDevice ref id s = .next t → t.Inv := by
  intro t
  unfold execAddDevice
  split
  · rintro ⟨⟩; exact State.Inv.refuse h _
  · rename_i hs
    split
    · rintro ⟨⟩; exact State.Inv.complete (raise_inv h _ _) _
    · rename_i ha
      split
      · rintro ⟨⟩; exact State.Inv.complete (raise_inv h _ _) _
      · rename_i hi
        split
        · rintro ⟨⟩; exact State.Inv.complete (raise_inv h _ _) _
        · rename_i hr
          split
          · rintro ⟨⟩; exact State.Inv.complete (raise_inv h _ _) _
          · rename_i hn
            rintro ⟨⟩
            refine setup_change_inv h (by simpa using hs) _ _ ?_ ?_ ?_ ?_ _
            · rw [List.map_append, List.nodup_append]
              refine ⟨h.ids_nodup, by simp, ?_⟩
              have := hasId_not_mem (by simpa using hi)
              simp only [List.map_cons, List.map_nil, List.mem_singleton]
              rintro a hx b rfl rfl; exact this hx
            · intro r hr
              rcases List.mem_append.mp hr with hr | hr
              · exact h.ids_assignable r hr
              · simp at hr; subst hr; simpa using ha
            · rw [List.map_append, List.nodup_append]
              refine ⟨h.refs_nodup, by simp, ?_⟩
              have := hasRef_not_mem (by simpa using hr)
              simp only [List.map_cons, List.map_nil, List.mem_singleton]
              rintro a hx b rfl rfl; exact this hx
            · have := h.capacity; simp; omega

theorem execRemoveDevice_inv {s : State} (h : s.Inv) (ref) : ∀ t, execRemoveDevice ref s = .next t → t.Inv := by
  intro t
  unfold execRemoveDevice
  split
  · rintro ⟨⟩; exact State.Inv.refuse h _
  · rename_i hs
    split
    · rintro ⟨⟩; exact State.Inv.complete h _
    · rintro ⟨⟩
      have sl := removeRef_sublist s.slots ref
      exact setup_change_inv h (by simpa using hs) _ _ (h.ids_nodup.sublist (sl.map _)) (fun r hr => h.ids_assignable r (sl.subset hr))
        (h.refs_nodup.sublist (sl.map _)) (Nat.le_trans sl.length_le h.capacity) _

theorem execChangeDeviceId_inv {s : State} (h : s.Inv) (ref id) : ∀ t, execChangeDeviceId ref id s = .next t → t.Inv := by
  intro t
  unfold execChangeDeviceId
  split
  · rintro ⟨⟩; exact State.Inv.refuse h _
  · rename_i hs
    split
    · rintro ⟨⟩; exact State.Inv.complete h _
    · split
      · rintro ⟨⟩; exact State.Inv.complete h _
      · split
        · rintro ⟨⟩; exact State.Inv.complete (raise_inv h _ _) _
        · rename_i ha
          split
          · rintro ⟨⟩; exact State.Inv.complete (raise_inv h _ _) _
          · rename_i hi
            rintro ⟨⟩
            refine setup_change_inv h (by simpa using hs) _ _ ?_ ?_ ?_ ?_ _
            · exact renumberRef_nodup _ _ _ h.ids_nodup (hasId_not_mem (by simpa using hi))
            · intro r hr
              rcases renumberRef_mem _ _ _ r hr with hr | hr
              · exact h.ids_assignable r hr
              · rw [hr]; simpa using ha
            · rw [renumberRef_refs]; exact h.refs_nodup
            · rw [renumberRef_length]; exact h.capacity

theorem execEnableDevice_inv {s : State} (h : s.Inv) (id) : ∀ t, execEnableDevice id s = .next t → t.Inv := by
  intro t; unfold execEnableDevice; split
  · rintro ⟨⟩; exact State.Inv.refuse h _
  · rename_i hs; rintro ⟨⟩
    exact setup_change_inv h (by simpa using hs) _ _ h.ids_nodup h.ids_assignable h.refs_nodup h.capacity _

theorem execDisableDevice_inv {s : State} (h : s.Inv) (id) : ∀ t, execDisableDevice id s = .next t → t.Inv := by
  intro t; unfold execDisableDevice; split
  · rintro ⟨⟩; exact State.Inv.refuse h _
  · rename_i hs; rintro ⟨⟩
    exact setup_change_inv h (by simpa using hs) _ _ h.ids_nodup h.ids_assignable h.refs_nodup h.capacity _

/-! ### Command bytes and service() -/

/-- A command byte meets the place it is read at. -/
theorem byPlace_inv {s : State} (h : s.Inv) {p q r l : State → State}
    (hp : s.ctl = .primary → (p s).Inv) (hq : s.ctl = .secondary → (q s).Inv)
    (hr : s.ctl = .payload → (r s).Inv) (hl : s.ctl = .listening → (l s).Inv) : (s.byPlace p q r l).Inv := by
  unfold State.byPlace
  split <;> first | (apply hp; assumption) | (apply hq; assumption) | (apply hr; assumption) | (apply hl; assumption) | exact h

theorem latch_clear_at {s : State} (h : s.Inv) {c : Ctl} (hc : s.ctl = c) (hn : c ≠ .idle) : s.resetLatch = false :=
  h.latch_clear (by rw [hc]; exact hn)

theorem malformedInDecode_inv {s : State} (h : s.Inv) {c : Ctl} (hc : s.ctl = c) (hn : c ≠ .idle) (b) :
    (malformedInDecode b s).Inv :=
  h.base.decodeError (latch_clear_at h hc hn) _ _

theorem malformedInListen_inv {s : State} (h : s.Inv) {c : Ctl} (hc : s.ctl = c) (hn : c ≠ .idle) (b) :
    (malformedInListen b s).Inv :=
  h.base.phaseError (latch_clear_at h hc hn) _ _

theorem auxLen_eq_zero {s : State} (h : s.Inv) (hk : s.record.kind ≠ .opn) : s.record.auxLen = 0 := by
  by_contra hne; exact hk (h.aux_open hne)

theorem setCommand_base {s : State} (h : s.Inv) (hk : s.record.kind ≠ .opn) (b k) : (s.setCommand b k).Base := by
  have h0 := auxLen_eq_zero h hk
  exact ⟨h.ids_nodup, h.ids_assignable, h.refs_nodup, h.capacity, h.active_ok, h.role_active, h.aux_bound, h.aux_cells,
    fun hn => absurd h0 hn, h.id_range, h.no_srq⟩

theorem setChannel_base {s : State} (h : s.Base) (c) : (s.setChannel c).Base :=
  ⟨h.ids_nodup, h.ids_assignable, h.refs_nodup, h.capacity, h.active_ok, h.role_active, h.aux_bound, h.aux_cells,
    h.aux_open, h.id_range, h.no_srq⟩

theorem setDeviceId_base {s : State} (h : s.Base) (c) (hc : c ≠ 31#5) : (s.setDeviceId c).Base :=
  ⟨h.ids_nodup, h.ids_assignable, h.refs_nodup, h.capacity, h.active_ok, h.role_active, h.aux_bound, h.aux_cells,
    h.aux_open, hc, h.no_srq⟩

theorem primary_kind {s : State} (h : s.Inv) (hc : s.ctl = .primary) : s.record.kind = .none := by
  have := h.place_ok; unfold State.PlaceOk at this; rw [hc] at this; exact this.2

theorem primary_not_open {s : State} (h : s.Inv) (hc : s.ctl = .primary) : s.record.kind ≠ .opn :=
    by simp [primary_kind h hc]

theorem secondary_place {s : State} (h : s.Inv) (hc : s.ctl = .secondary) :     s.record.mode = modeOf s.role ∧
    s.role ≠ .none ∧ (s.record.kind = .listen ∨ s.record.kind = .talk) := by
  have := h.place_ok; unfold State.PlaceOk at this; rw [hc] at this; exact this

theorem secondary_not_open {s : State} (h : s.Inv) (hc : s.ctl = .secondary) : s.record.kind ≠ .opn := by
  rcases (secondary_place h hc).2.2 with e | e <;> simp [e]

/-- Selecting or ignoring a device (44_bus_coordinator.md R260). -/
theorem addressDevice_inv {s : State} (b : s.Base) (hl : s.resetLatch = false) (id r m) (hr : r ≠ .none) (hm : m = modeOf r)
   (hk : s.record.kind = .listen ∨ s.record.kind = .talk) :
    (addressDevice id r m s).Inv := by
  unfold addressDevice
  split
  · rename_i hs
    have hs := selectable_some hs
    refine State.Base.inv ⟨b.ids_nodup, b.ids_assignable, b.refs_nodup, b.capacity, ?_, ?_, b.aux_bound, b.aux_cells,
      b.aux_open, b.id_range, b.no_srq⟩ (fun _ => hl) ⟨hm, hr, hk⟩
    · intro j hj
      have : j = id := by have hj : some id = some j := hj; simpa using hj.symm
      subst this; exact hs
    · constructor
      · intro h; exact absurd h hr
      · intro h; have h : some id = none := h; simp at h
  · exact b.notAddressed

theorem listenPhase_inv {s : State} (b : s.Base) (hl : s.resetLatch = false) (e) (hm : s.record.mode = modeOf s.role)
    (hr : s.role ≠ .none) (hk : s.record.kind.isSecondary) : (s.listenPhase e).Inv := b.processCommand hl e hm hr hk

theorem enterPhase_inv {s : State} (b : s.Base) (hl : s.resetLatch = false) (hm : s.record.mode = modeOf s.role)
    (hr : s.role ≠ .none) (hk : s.record.kind.isSecondary) : (enterPhase s).Inv := by
  unfold enterPhase; split
  · exact b.talkPhase hl hm hr hk
  · exact listenPhase_inv b hl _ hm hr hk

theorem enterOpen_inv {s : State} (b : s.Base) (hl : s.resetLatch = false) (hm : s.record.mode = modeOf s.role)
    (hr : s.role ≠ .none) (hk : s.record.kind = .opn) : (enterOpen s).Inv := by
  unfold enterOpen; split
  · exact b.talkPhase hl hm hr (.inr (.inr hk))
  · rename_i ht
    have : s.role = .listener := by
      revert hm hr ht; cases s.role <;> cases s.record.mode <;> simp [modeOf]
    refine (b.congr (t := { s with ctl := .payload }) rfl rfl rfl rfl rfl rfl rfl).inv (fun _ => hl) ⟨?_, this, hk⟩
    show s.record.mode = .listen
    rw [hm, this]; rfl

theorem secondaryAsPrimary_inv {s : State} (b : s.Base) (hl : s.resetLatch = false) (f : State → State)
    (hf : ∀ t : State, t.Base → t.resetLatch = false → t.record.mode = modeOf t.role → t.role ≠ .none →
      t.record.kind = s.record.kind → (f t).Inv) :
    (secondaryAsPrimary s f).Inv := by
  unfold secondaryAsPrimary
  split
  · exact b.notAddressed
  · rename_i h
    exact hf _ (b.setMode _) hl (by simp [h, modeOf]) (by simp [h]) rfl
  · rename_i h
    exact hf _ (b.setMode _) hl (by simp [h, modeOf]) (by simp [h]) rfl

/-- UNLISTEN and UNTALK (44_bus_coordinator.md R263). -/
theorem endEpisode_inv {s : State} (b : (s.setCommand x k).Base) : (endEpisode x k s).Inv :=
  (b.setMode .cmd).toIdle_return _

theorem payload_place {s : State} (h : s.Inv) (hc : s.ctl = .payload) : s.record.mode = .listen ∧ s.role = .listener ∧
    s.record.kind = .opn := by
  have := h.place_ok; unfold State.PlaceOk at this; rw [hc] at this; exact this

theorem listening_place {s : State} (h : s.Inv) (hc : s.ctl = .listening) : s.record.mode = .listen ∧
    s.role = .listener ∧ s.record.kind = .data := by
  have := h.place_ok; unfold State.PlaceOk at this; rw [hc] at this; exact this

theorem invalidByte_inv {s : State} (h : s.Inv) (b) : (invalidByte b s).Inv := by
  unfold invalidByte
  refine byPlace_inv h ?_ ?_ ?_ ?_ <;> intro hc
  · exact (setCommand_base h (primary_not_open h hc) b .invalid).decodeError (show s.resetLatch = false from latch_clear_at h hc (by simp)) _ _
  · exact malformedInDecode_inv h hc (by simp) _
  · exact malformedInDecode_inv h hc (by simp) _
  · exact malformedInListen_inv h hc (by simp) _

/-- `service()` (44_bus_coordinator.md R250, R253 to R255). -/
theorem execService_inv {s : State} (h : s.Inv) : ∀ t, execService s = .next t → t.Inv := by
  intro t
  unfold execService
  split
  · rintro ⟨⟩; exact State.Inv.refuse h _
  · rename_i hc
    have hc : s.ctl = .idle := by simpa using hc
    have hp : s.record.mode = modeOf s.role := by
      have := h.place_ok; unfold State.PlaceOk at this; rw [hc] at this; exact this
    have b1 := h.base.handshake (s.afterRead_handshake .reset (by simp))
    simp only
    split
    · rintro ⟨⟩
      unfold State.serveReset
      split
      · exact (b1.congr (t := (s.afterRead .reset).endReset) rfl rfl rfl rfl rfl rfl rfl).inv (by simp [State.endReset,
          State.returnMode]) (by
          show (s.record.mode = modeOf s.role); exact hp)
      · rename_i hl
        exact State.Base.broadcast (b1.congr (t :=
          (s.afterRead .reset).raise .reset 0x00#8) rfl rfl rfl rfl rfl rfl rfl) (by simpa using hl) _
    · have b2 : State.Base { s.afterRead .reset with resetLatch := false } := b1.congr rfl rfl rfl rfl rfl rfl rfl
      have b3 := b2.handshake (State.afterRead_handshake _ .atn (by simp))
      split
      · rintro ⟨⟩
        exact b3.returnSelected _ hp
      · rintro ⟨⟩
        have bf : State.Base { State.afterRead { s.afterRead .reset with resetLatch := false } .atn with record :=
            ATNRecord.fresh } :=
          ⟨b3.ids_nodup, b3.ids_assignable, b3.refs_nodup, b3.capacity, b3.active_ok, b3.role_active, Nat.zero_le _, rfl,
            fun h => absurd rfl h, (by decide : ATNRecord.fresh.deviceId ≠ 31#5), b3.no_srq⟩
        have b4 := (bf.handshake (State.release_handshake _ .clk rfl)).handshake (State.pull_handshake _ .data rfl)
        unfold State.startDecode
        exact (b4.congr (t := { (State.release { State.afterRead { s.afterRead .reset with resetLatch :=
          false } .atn with record := ATNRecord.fresh } .clk).pull .data with ctl :=
            .primary }) rfl rfl rfl rfl rfl rfl rfl).inv (fun _ => rfl) ⟨rfl, rfl⟩

end Sys2Proof.Machine
end

