-- ==== Sys2Proof/Laws/PerInstr.lean ====
section
/-! SUPPORT. The family TableRow: every instruction's encoded form is its row of the opcode table, format, mask and pattern
(30_encoding.md R91, R93, R100), one lemma per constructor. -/
namespace Sys2Proof.Laws.TableRow
open Sys2Proof

/-- A row of the opcode table: a command byte's mask and match, or a request's select code. -/
inductive Row where
  | cmd8 (mask pattern : Byte)
  | op (select : BitVec 5)
deriving DecidableEq, Repr

/-- The row of each instruction, from the table's `format`, `mask` and `match`. -/
def row : Instr → Row
  | .globalCmd => .cmd8 0xFF#8 0x00#8
  | .unlisten => .cmd8 0xFF#8 0x3F#8
  | .untalk => .cmd8 0xFF#8 0x5F#8
  | .listen _ => .cmd8 0xE0#8 0x20#8
  | .talk _ => .cmd8 0xE0#8 0x40#8
  | .dataCmd _ => .cmd8 0xF0#8 0x60#8
  | .closeCmd _ => .cmd8 0xF0#8 0xE0#8
  | .openCmd _ => .cmd8 0xF0#8 0xF0#8
  | .invalid01_1F _ => .cmd8 0xE0#8 0x00#8
  | .invalid70_7F _ => .cmd8 0xF0#8 0x70#8
  | .invalid80_BF _ => .cmd8 0xC0#8 0x80#8
  | .invalidC0_DF _ => .cmd8 0xE0#8 0xC0#8
  | .service => .op 0x00#5
  | .pull _ => .op 0x01#5
  | .release _ => .op 0x02#5
  | .read _ => .op 0x03#5
  | .sendByte _ _ => .op 0x04#5
  | .receiveByte => .op 0x05#5
  | .turnAround => .op 0x06#5
  | .undoTurnAround => .op 0x07#5
  | .timeoutWait _ _ => .op 0x08#5
  | .addDevice _ _ => .op 0x10#5
  | .removeDevice _ => .op 0x11#5
  | .deviceById _ => .op 0x12#5
  | .changeDeviceId _ _ => .op 0x13#5
  | .numDevices => .op 0x14#5
  | .isEnabled _ => .op 0x15#5
  | .enableDevice _ => .op 0x16#5
  | .disableDevice _ => .op 0x17#5
  | .send _ => .op 0x18#5
  | .sendBuffer _ _ => .op 0x19#5
  | .sendEOI _ => .op 0x1A#5
  | .sendFileNotFound => .op 0x1B#5
  | .receive => .op 0x1C#5
  | .receiveBuffer _ _ => .op 0x1D#5

/-- The instruction's encoded form is its row: the byte under the mask is the pattern, or the request has the select code. -/
def Statement (i : Instr) : Prop :=
  match encode i, row i with
  | .cmd b, .cmd8 mask pattern => b &&& mask = pattern
  | .op r, .op select => r.op = select
  | .cmd _, .op _ => False
  | .op _, .cmd8 _ _ => False

theorem globalCmd : Statement .globalCmd := by
  show _ &&& _ = _
  decide
theorem unlisten : Statement .unlisten := by
  show _ &&& _ = _
  decide
theorem untalk : Statement .untalk := by
  show _ &&& _ = _
  decide
theorem listen (id : DeviceId) : Statement (.listen id) := by
  show _ &&& _ = _
  revert id
  decide +kernel
theorem talk (id : DeviceId) : Statement (.talk id) := by
  show _ &&& _ = _
  revert id
  decide +kernel
theorem dataCmd (ch : Channel) : Statement (.dataCmd ch) := by
  show _ &&& _ = _
  revert ch
  decide +kernel
theorem closeCmd (ch : Channel) : Statement (.closeCmd ch) := by
  show _ &&& _ = _
  revert ch
  decide +kernel
theorem openCmd (ch : Channel) : Statement (.openCmd ch) := by
  show _ &&& _ = _
  revert ch
  decide +kernel
theorem invalid01_1F (x : BitVec 5) : Statement (.invalid01_1F x) := by
  show _ &&& _ = _
  revert x
  decide +kernel
theorem invalid70_7F (x : BitVec 4) : Statement (.invalid70_7F x) := by
  show _ &&& _ = _
  revert x
  decide +kernel
theorem invalid80_BF (x : BitVec 6) : Statement (.invalid80_BF x) := by
  show _ &&& _ = _
  revert x
  decide +kernel
theorem invalidC0_DF (x : BitVec 5) : Statement (.invalidC0_DF x) := by
  show _ &&& _ = _
  revert x
  decide +kernel
theorem service : Statement (.service) := rfl
theorem pull (l : Line) : Statement (.pull l) := rfl
theorem release (l : Line) : Statement (.release l) := rfl
theorem read (l : Line) : Statement (.read l) := rfl
theorem sendByte (v : Byte) (e : Bool) : Statement (.sendByte v e) := rfl
theorem receiveByte : Statement (.receiveByte) := rfl
theorem turnAround : Statement (.turnAround) := rfl
theorem undoTurnAround : Statement (.undoTurnAround) := rfl
theorem timeoutWait (l : Line) (x : LineState) : Statement (.timeoutWait l x) := rfl
theorem addDevice (ref : DeviceRef) (id : DeviceId) : Statement (.addDevice ref id) := rfl
theorem removeDevice (ref : DeviceRef) : Statement (.removeDevice ref) := rfl
theorem deviceById (id : DeviceId) : Statement (.deviceById id) := rfl
theorem changeDeviceId (ref : DeviceRef) (id : DeviceId) : Statement (.changeDeviceId ref id) := rfl
theorem numDevices : Statement (.numDevices) := rfl
theorem isEnabled (id : DeviceId) : Statement (.isEnabled id) := rfl
theorem enableDevice (id : DeviceId) : Statement (.enableDevice id) := rfl
theorem disableDevice (id : DeviceId) : Statement (.disableDevice id) := rfl
theorem send (b : Byte) : Statement (.send b) := rfl
theorem sendBuffer (buf : List Byte) (n : Nat) : Statement (.sendBuffer buf n) := rfl
theorem sendEOI (b : Byte) : Statement (.sendEOI b) := rfl
theorem sendFileNotFound : Statement (.sendFileNotFound) := rfl
theorem receive : Statement (.receive) := rfl
theorem receiveBuffer (buf : List Byte) (n : Nat) : Statement (.receiveBuffer buf n) := rfl

end Sys2Proof.Laws.TableRow
end

