-- ==== Sys2Proof/Laws/Script.lean ====
section
/-! SUPPORT. The pieces of a byte handshake against a partner that follows the protocol (talkerScriptOf and listenerScript
of Machine/Fetch.lean): one wait, one cell each way, the EOI measurement. -/
namespace Sys2Proof.Machine
open Sys2Proof

theorem Bus.envMove_cons (b : Bus) {m rest} (h : b.env = m :: rest) : b.envMove.ext = m.ext ∧ b.envMove.env = rest ∧
    b.envMove.now = b.now + m.dt := by
  unfold Bus.envMove; rw [h]; exact ⟨rfl, rfl, rfl⟩

/-- A wait whose third move brings the line to the expected level. -/
theorem Link.timeoutWait_script (p : Params) (k : Link) (l x) {m1 m2 m3 rest} (h : k.bus.env = m1 :: m2 :: m3 ::
    rest) (hr : m2.ext.reset = .released)
   (hx : m3.ext.get l = x) :
   let w := Link.timeoutWait p k l x
   w.1 = true ∧ w.2.flags = k.flags ∧ w.2.bus.env = rest ∧ w.2.bus.ext = m3.ext ∧
     w.2.bus.own = (k.bus.own.set .reset .released).set l .released ∧
    w.2.bus.now = k.bus.now + m1.dt + m2.dt + m3.dt := by
  have e1 := Bus.envMove_cons k.bus h
  have e1' : k.tick.bus.env = m2 :: m3 :: rest := by show k.bus.envMove.env = _; exact e1.2.1
  have e2 := Bus.envMove_cons k.tick.bus e1'
  have e2' : (k.tick.afterRead .reset).bus.env = m3 ::
      rest := by simp only [Link.afterRead_bus, Bus.afterRead_env]; exact e2.2.1
  have e3 := Bus.envMove_cons (k.tick.afterRead .reset).bus e2'
  have a1 : k.tick.sample .reset = .released := by rw [Link.sample_eq, e2.1]; exact hr
  have a2 : (k.tick.afterRead .reset).sample l = x := by rw [Link.sample_eq, e3.1]; exact hx
  have e : Link.timeoutWait p k l x = (true, (k.tick.afterRead .reset).afterRead l) := by
    simp only [Link.timeoutWait, Link.waitLoop, a1, a2]; simp
  intro w
  have hw : w = (true, (k.tick.afterRead .reset).afterRead l) := e
  rw [hw]
  refine ⟨rfl, rfl, ?_, ?_, ?_, ?_⟩
  · simp only [Link.afterRead_bus, Bus.afterRead_env]; exact e3.2.1
  · simp only [Link.afterRead_bus, Bus.afterRead_ext]; exact e3.1
  · simp
  · have h3 := e3.2.2; have h2 := e2.2.2; have h1 := e1.2.2
    simp only [Link.afterRead_bus, Bus.afterRead_now] at h3 ⊢
    rw [h3, h2]
    show k.bus.envMove.now + _ + _ = _
    rw [h1]

/-! ### A line that comes late (41_byte_handshake.md R141) -/

/-- The time a stretch of the environment's script takes. -/
def spent (ms : List EnvMove) : Nat := (ms.map fun m => m.dt).sum

@[simp] theorem spent_nil : spent [] = 0 := rfl
@[simp] theorem spent_cons (m : EnvMove) (ms) : spent (m :: ms) = m.dt + spent ms := by simp [spent]
@[simp] theorem spent_append (a b : List EnvMove) : spent (a ++ b) = spent a + spent b := by simp [spent]

/-- The top of an iteration that sees the line. -/
theorem Link.waitLoop_seen (T l x t0 n) (k : Link) (hr : k.sample .reset = .released) (hx : (k.afterRead .reset).sample l = x) :
    Link.waitLoop T l x t0 (n + 1) k = (true, (k.afterRead .reset).afterRead l) := by
  simp only [Link.waitLoop, hr, hx]; simp

/-- A whole iteration takes three moves; before the deadline it either sees the line or leaves the loop to the next one. -/
theorem Link.waitLoop_iteration (T l x t0 n) (k : Link) {a b c rest} (h : k.bus.env = a :: b :: c :: rest)
    (ha : a.ext.reset = .released) (h0 : t0 ≤ k.bus.now) (ht : k.bus.now + a.dt + b.dt + c.dt < t0 + T) :
    ((Link.waitLoop T l x t0 (n + 1) k).1 = true ∧
      (Link.waitLoop T l x t0 (n + 1) k).2.bus.now = k.bus.now + a.dt + b.dt) ∨
    ∃ j : Link, Link.waitLoop T l x t0 (n + 1) k = Link.waitLoop T l x t0 n j ∧ j.bus.env = rest ∧ j.bus.ext = c.ext ∧
      j.bus.now = k.bus.now + a.dt + b.dt + c.dt := by
  have e1 := Bus.envMove_cons k.bus h
  have e2 := Bus.envMove_cons (k.afterRead .reset).bus (m := b) (rest := c :: rest) (by simpa using e1.2.1)
  have e3 := Bus.envMove_cons ((k.afterRead .reset).afterRead l).bus (m := c) (rest := rest) (by simpa using e2.2.1)
  have n1 : (k.afterRead .reset).bus.now = k.bus.now + a.dt := by simpa using e1.2.2
  have n2 : ((k.afterRead .reset).afterRead l).bus.now = k.bus.now + a.dt + b.dt := by
    simp only [Link.afterRead_bus, Bus.afterRead_now] at e2 n1 ⊢; rw [e2.2.2, n1]
  have n3 : ((k.afterRead .reset).afterRead l).tick.bus.now = k.bus.now + a.dt + b.dt + c.dt := by
    show ((k.afterRead .reset).afterRead l).bus.envMove.now = _
    rw [e3.2.2, n2]
  have hr : k.sample .reset = .released := by rw [Link.sample_eq, e1.1]; exact ha
  by_cases hx : (k.afterRead .reset).sample l = x
  · rw [Link.waitLoop_seen T l x t0 n k hr hx]; exact .inl ⟨rfl, n2⟩
  · refine .inr ⟨((k.afterRead .reset).afterRead l).tick, ?_, e3.2.1, e3.1, n3⟩
    have q : k.bus.env.isEmpty = false := by rw [h]; rfl
    simp only [Link.waitLoop]
    rw [if_neg (by rw [hr]; simp), if_neg hx, q, if_neg (by simp), if_neg (by rw [n3]; omega)]

/-- The line is in the state at the move an iteration samples it at: the loop sees it there or before. -/
theorem Link.waitLoop_seenAt (T l x t0) (q : Nat) : ∀ n (k : Link) (early : List EnvMove) (m : EnvMove) (rest : List EnvMove),
    q < n → k.bus.env = early ++ m :: rest → early.length = 3 * q + 1 → (∀ e ∈ early, e.ext.reset = .released) →
    m.ext.get l = x → t0 ≤ k.bus.now → k.bus.now + spent early + m.dt < t0 + T →
    (Link.waitLoop T l x t0 n k).1 = true ∧ (Link.waitLoop T l x t0 n k).2.bus.now ≤ k.bus.now + spent early + m.dt := by
  induction q with
  | zero =>
    intro n k early m rest hn h hl hr hx h0 ht
    obtain ⟨n, rfl⟩ : ∃ j, n = j + 1 := ⟨n - 1, by omega⟩
    obtain ⟨a, rfl⟩ := List.length_eq_one_iff.mp hl
    have e1 := Bus.envMove_cons k.bus h
    have e2 := Bus.envMove_cons (k.afterRead .reset).bus (m := m) (rest := rest) (by simpa using e1.2.1)
    have h1 : k.sample .reset = .released := by rw [Link.sample_eq, e1.1]; exact hr a (by simp)
    have h2 : (k.afterRead .reset).sample l = x := by rw [Link.sample_eq, e2.1]; exact hx
    rw [Link.waitLoop_seen T l x t0 n k h1 h2]
    refine ⟨rfl, Nat.le_of_eq ?_⟩
    simp only [Link.afterRead_bus, Bus.afterRead_now] at e2 ⊢
    rw [e2.2.2, e1.2.2]; simp
  | succ q ih =>
    intro n k early m rest hn h hl hr hx h0 ht
    obtain ⟨n, rfl⟩ : ∃ j, n = j + 1 := ⟨n - 1, by omega⟩
    match early, hl with
    | a :: b :: c :: early, hl =>
      simp only [spent_cons] at ht ⊢
      rcases Link.waitLoop_iteration T l x t0 n k h (hr a (by simp)) h0 (by omega) with g | ⟨j, e, j1, _, j3⟩
      · exact ⟨g.1, by omega⟩
      · rw [e]
        have i := ih n j early m rest (by omega) j1 (by simp at hl; omega) (fun e he => hr e (by simp [he])) hx (by omega)
          (by omega)
        exact ⟨i.1, by omega⟩

/-- The line ends in the state: the loop sees it there or before. -/
theorem Link.waitLoop_seenLast (T l x t0) : ∀ n (k : Link), k.bus.env.length < n →
    (∀ e ∈ k.bus.env, e.ext.reset = .released) → (∀ m, k.bus.env.getLast? = some m → m.ext.get l = x) →
    (k.bus.env = [] → k.bus.ext.reset = .released ∧ k.bus.ext.get l = x) → t0 ≤ k.bus.now →
    k.bus.now + spent k.bus.env < t0 + T →
    (Link.waitLoop T l x t0 n k).1 = true ∧ (Link.waitLoop T l x t0 n k).2.bus.now ≤ k.bus.now + spent k.bus.env := by
  intro n
  induction n with
  | zero => intro k h; omega
  | succ n ih =>
    intro k hn hr hlast hnil h0 ht
    match h : k.bus.env with
    | [] =>
      have g := hnil h
      have e0 : k.bus.envMove = k.bus := by unfold Bus.envMove; rw [h]
      have e1 : (k.afterRead .reset).bus.envMove = (k.afterRead .reset).bus := by
        have : (k.afterRead .reset).bus.env = [] := by simp [e0, h]
        unfold Bus.envMove; rw [this]
      have h1 : k.sample .reset = .released := by rw [Link.sample_eq, e0]; exact g.1
      have h2 : (k.afterRead .reset).sample l = x := by rw [Link.sample_eq, e1]; simpa [e0] using g.2
      rw [Link.waitLoop_seen T l x t0 n k h1 h2]
      refine ⟨rfl, Nat.le_of_eq ?_⟩
      simp only [Link.afterRead_bus, Bus.afterRead_now] at e1 ⊢
      rw [e1]; simp [e0]
    | [a] =>
      rw [h] at hr hlast
      have e0 := Bus.envMove_cons k.bus h
      have e1 : (k.afterRead .reset).bus.envMove = (k.afterRead .reset).bus := by
        have : (k.afterRead .reset).bus.env = [] := by simpa using e0.2.1
        unfold Bus.envMove; rw [this]
      have h1 : k.sample .reset = .released := by rw [Link.sample_eq, e0.1]; exact hr a (by simp)
      have h2 : (k.afterRead .reset).sample l = x := by
        rw [Link.sample_eq, e1]; simp only [Link.afterRead_bus, Bus.afterRead_ext]; rw [e0.1]; exact hlast a rfl
      rw [Link.waitLoop_seen T l x t0 n k h1 h2]
      refine ⟨rfl, Nat.le_of_eq ?_⟩
      simp only [Link.afterRead_bus, Bus.afterRead_now] at e1 ⊢
      rw [e1]; simp [e0.2.2]
    | [a, b] =>
      rw [h] at hr hlast
      have e1 := Bus.envMove_cons k.bus h
      have e2 := Bus.envMove_cons (k.afterRead .reset).bus (m := b) (rest := []) (by simpa using e1.2.1)
      have h1 : k.sample .reset = .released := by rw [Link.sample_eq, e1.1]; exact hr a (by simp)
      have h2 : (k.afterRead .reset).sample l = x := by rw [Link.sample_eq, e2.1]; exact hlast b rfl
      rw [Link.waitLoop_seen T l x t0 n k h1 h2]
      refine ⟨rfl, Nat.le_of_eq ?_⟩
      simp only [Link.afterRead_bus, Bus.afterRead_now] at e2 ⊢
      rw [e2.2.2, e1.2.2]; simp; omega
    | a :: b :: c :: rest =>
      rw [h] at hr hlast hn ht
      simp only [spent_cons] at ht ⊢
      rcases Link.waitLoop_iteration T l x t0 n k h (hr a (by simp)) h0 (by omega) with g | ⟨j, e, j1, j2, j3⟩
      · exact ⟨g.1, by omega⟩
      · rw [e]
        have i := ih j (by rw [j1]; simp at hn; omega) (fun e he => hr e (by rw [j1] at he; simp [he]))
          (fun m hm => hlast m (by rw [j1] at hm; cases rest <;> simp_all))
          (fun hm => by rw [j1] at hm; rw [j2]; exact ⟨hr c (by simp), hlast c (by rw [hm]; rfl)⟩) (by omega)
          (by rw [j1]; omega)
        rw [j1] at i
        exact ⟨i.1, by omega⟩

/-- A line that comes late is seen: at three moves in a row, one of which an iteration samples it at, or for good. -/
theorem Link.timeoutWait_seenLate (p : Params) (k : Link) (l x) (early seen rest : List EnvMove)
    (h : k.bus.env = early ++ seen ++ rest) (hs : seen.length = 3 ∨ (seen ≠ [] ∧ rest = []))
    (hr : ∀ m ∈ early ++ seen, m.ext.reset = .released) (hx : ∀ m ∈ seen, m.ext.get l = x)
    (ht : spent (early ++ seen) < p.tTimeout) :
    (Link.timeoutWait p k l x).1 = true ∧ (Link.timeoutWait p k l x).2.bus.now < k.bus.now + p.tTimeout := by
  have first : ∃ m0 ms, k.bus.env = m0 :: ms ∧ k.tick.bus.env = ms ∧ k.tick.bus.ext = m0.ext ∧
      k.tick.bus.now = k.bus.now + m0.dt := by
    match e : k.bus.env with
    | [] => rcases hs with g | g <;> rw [e] at h <;> simp_all
    | m0 :: ms =>
      have e1 := Bus.envMove_cons k.bus e
      exact ⟨m0, ms, rfl, e1.2.1, e1.1, e1.2.2⟩
  obtain ⟨m0, ms, e0, t1, t2, t3⟩ := first
  rcases hs with hs | ⟨hs, rfl⟩
  · -- one of the three moves is the one an iteration samples the line at
    have split : ∃ (pre : List EnvMove) (m : EnvMove) (post : List EnvMove) (q : Nat), early ++ seen = pre ++ m :: post ∧
        pre.length = 3 * q + 2 ∧ m ∈ seen := by
      match seen, hs with
      | [a, b, c], _ =>
        have : early.length % 3 = 2 ∨ early.length % 3 = 1 ∨ early.length % 3 = 0 := by omega
        rcases this with g | g | g
        · exact ⟨early, a, [b, c], early.length / 3, rfl, by omega, by simp⟩
        · exact ⟨early ++ [a], b, [c], early.length / 3, by simp, by simp; omega, by simp⟩
        · exact ⟨early ++ [a, b], c, [], early.length / 3, by simp, by simp; omega, by simp⟩
    obtain ⟨pre, m, post, q, e1, e2, e3⟩ := split
    match pre, e2 with
    | p0 :: pre, e2 =>
      rw [e1] at h hr ht
      have hc : m0 :: ms = p0 :: (pre ++ m :: (post ++ rest)) := by rw [← e0, h]; simp
      obtain ⟨rfl, hms⟩ := List.cons.inj hc
      rw [hms] at t1
      simp only [spent_append, spent_cons, List.cons_append] at ht
      have i := Link.waitLoop_seenAt p.tTimeout l x k.tick.bus.now q (k.tick.bus.env.length + 1) k.tick pre m (post ++ rest)
        (by rw [t1]; simp at e2 ⊢; omega) t1 (by simp at e2; omega) (fun e he => hr e (by simp [he])) (hx m e3)
        (Nat.le_refl _) (by omega)
      exact ⟨i.1, Nat.lt_of_le_of_lt i.2 (by omega)⟩
  · rw [List.append_nil] at h
    rw [← h, e0] at hr ht
    have lst : ∀ m, (m0 :: ms).getLast? = some m → m.ext.get l = x := by
      intro m hm
      rw [← e0, h, List.getLast?_append_of_ne_nil _ hs] at hm
      exact hx m (List.mem_of_getLast? hm)
    simp only [spent_cons] at ht
    have i := Link.waitLoop_seenLast p.tTimeout l x k.tick.bus.now (k.tick.bus.env.length + 1) k.tick (by omega)
      (fun e he => hr e (by rw [t1] at he; simp [he])) (fun m hm => lst m (by
        rw [t1] at hm
        cases ms with
        | nil => simp at hm
        | cons a ms => rw [List.getLast?_cons_cons]; exact hm))
      (fun hm => by rw [t1] at hm; rw [t2]; exact ⟨hr m0 (by simp), lst m0 (by rw [hm]; rfl)⟩) (Nat.le_refl _)
      (by rw [t1]; omega)
    exact ⟨i.1, Nat.lt_of_le_of_lt i.2 (by rw [t1]; omega)⟩

/-- `receiveByte` takes one cell a talker presents. -/
theorem Link.receiveCell_script (p n v) (k : Link) (atn dt bit rest) (h : k.bus.env = talkerCell atn dt bit ++ rest) :
   ∃ j : Link, Link.receiveCells p (n+1) v k = Link.receiveCells p n (insertBit v bit) j ∧ j.flags = k.flags ∧
     j.bus.env = rest ∧
     j.bus.own = ((k.bus.own.set .reset .released).set .clk .released).set .data .released := by
  have h' : k.bus.env = envTo atn .released bit dt :: envTo atn .released bit dt :: envTo atn .released bit dt ::
      envTo atn .released bit dt :: envTo atn .pulled bit dt
     :: envTo atn .pulled bit dt :: envTo atn .pulled bit dt :: rest := h
  have w1 := Link.timeoutWait_script p k .clk .released h' rfl rfl
  simp only [Link.receiveCells]
  generalize Link.timeoutWait p k .clk .released = w at *
  obtain ⟨a1, a2, a3, a4, a5, a6⟩ := w1
  rw [if_neg (by simp [a1])]
  have e := Bus.envMove_cons w.2.bus a3
  have e' : (w.2.afterRead .data).bus.env = envTo atn .pulled bit dt :: envTo atn .pulled bit dt ::
      envTo atn .pulled bit dt :: rest := by
    simp only [Link.afterRead_bus, Bus.afterRead_env]; exact e.2.1
  have d : w.2.sample .data = bit := by rw [Link.sample_eq, e.1]; rfl
  have w2 := Link.timeoutWait_script p (w.2.afterRead .data) .clk .pulled e' rfl rfl
  generalize Link.timeoutWait p (w.2.afterRead .data) .clk .pulled = w' at *
  obtain ⟨b1, b2, b3, b4, b5, b6⟩ := w2
  rw [if_neg (by simp [b1]), d]
  refine ⟨w'.2, rfl, ?_, b3, ?_⟩
  · rw [b2]; exact a2
  · rw [b5]; simp only [Link.afterRead_bus, Bus.afterRead_own, a5]; simp [Lines.set]

theorem Link.receiveCells_script (p) (atn dt) (cells : List LineState) : ∀ v (k : Link) rest, k.bus.env = cells.flatMap (talkerCell atn dt) ++ envTo atn .pulled .released dt :: rest →
   (cells ≠ [] ∨ k.bus.own.clk = .released ) →
   ∃ j : Link, Link.receiveCells p cells.length v k = (cells.foldl insertBit v, j) ∧ j.flags = k.flags ∧ j.bus.env = rest ∧
     j.bus.own.clk = .released ∧ j.bus.own.data = .pulled ∧ j.bus.own.srq = k.bus.own.srq := by
  induction cells with
  | nil =>
    intro v k rest h hc
    have e := Bus.envMove_cons k.bus h
    refine ⟨k.pull .data, rfl, rfl, ?_, ?_, ?_, ?_⟩
    · simp only [Link.pull_bus, Bus.pull_env]; exact e.2.1
    · simpa [Lines.set] using hc
    · simp [Lines.set]
    · simp [Lines.set]
  | cons c cs ih =>
    intro v k rest h _
    obtain ⟨j, h1, h2, h3, h4⟩ := Link.receiveCell_script p cs.length v k atn dt c (cs.flatMap (talkerCell atn dt) ++
      envTo atn .pulled .released dt :: rest) (by rw [h]; simp)
    obtain ⟨j', g1, g2, g3, g4, g5, g6⟩ := ih (insertBit v c) j rest h3 (.inr (by rw [h4]; rfl))
    refine ⟨j', ?_, g2.trans h2, g3, g4, g5, g6.trans (by rw [h4]; rfl)⟩
    simp only [List.length_cons]; rw [h1, g1]; rfl

/-- Eight insertions of a byte's cells give the byte back (20_memory.md R65; 41_byte_handshake.md R154). -/
theorem foldl_insertBit_cellsOf : ∀ v : Byte, (cellsOf v).foldl insertBit 0#8 = v := by decide +kernel

theorem cellsOf_length (v : Byte) : (cellsOf v).length = 8 := by simp [cellsOf]

theorem Link.noteAtn_script (k : Link) (m rest) (h : k.bus.env = m :: rest) :
   k.noteAtn.flags = { k.flags with atn := m.ext.atn == .pulled || k.flags.atn } ∧ k.noteAtn.bus.env = rest ∧
     k.noteAtn.bus.own = k.bus.own.set .atn .released := by
  have e := Bus.envMove_cons k.bus h
  have a : k.sample .atn = m.ext.atn := by rw [Link.sample_eq, e.1]; rfl
  unfold Link.noteAtn
  simp only [a]
  cases hm : m.ext.atn
  · have hb : (LineState.released == LineState.pulled) = false := rfl
    simp [e.2.1, hb]
  · simp [e.2.1, Flags.setAtn]

theorem Link.measureEoi_script (p) (k : Link) (atn dt e rest) (h : k.bus.env = envTo atn .released .released dt ::
     (if e then List.replicate 5 (envTo atn .released .released dt) ++ List.replicate 3 (envTo atn .pulled .released dt)
        else [envTo atn .pulled .released dt]) ++ rest) (he : e = true → p.tEoi ≤ 2 * dt) :
   ∃ j : Link, Link.measureEoi p k = (true, j) ∧ j.flags = { k.flags with eoi := e || k.flags.eoi } ∧ j.bus.env = rest ∧
     j.bus.own.srq = k.bus.own.srq := by
  have e1 := Bus.envMove_cons k.bus h
  have e1' : k.tick.bus.env = (if e then List.replicate 5 (envTo atn .released .released dt) ++
      List.replicate 3 (envTo atn .pulled .released dt)
        else [envTo atn .pulled .released dt]) ++ rest := e1.2.1
  have hs : k.tick.bus.own.srq = k.bus.own.srq := by simp
  have hf : k.tick.flags = k.flags := rfl
  cases e with
  | false =>
    have e2 := Bus.envMove_cons k.tick.bus (m := envTo atn .pulled .released dt) (rest := rest) e1'
    refine ⟨k.tick.afterRead .clk, ?_, ?_, ?_, ?_⟩
    · have a : k.tick.sample .clk = .pulled := by rw [Link.sample_eq, e2.1]; rfl
      simp only [Link.measureEoi, Link.eoiLoop, a]; simp
    · simp
    · simp only [Link.afterRead_bus, Bus.afterRead_env]; exact e2.2.1
    · simp [Lines.set]
  | true =>
    have e1'' : k.tick.bus.env = envTo atn .released .released dt :: envTo atn .released .released dt ::
        (List.replicate 3 (envTo atn .released .released dt) ++ (List.replicate 3 (envTo atn .pulled .released dt) ++
          rest)) := e1'
    obtain ⟨k0, hk0⟩ : ∃ k0, k0 = k.tick := ⟨_, rfl⟩
    rw [← hk0] at e1'' hs hf
    have e2 := Bus.envMove_cons k0.bus e1''
    have a : k0.sample .clk = .released := by rw [Link.sample_eq, e2.1]; rfl
    have e3' : (k0.afterRead .clk).bus.env = envTo atn .released .released dt ::
        (List.replicate 3 (envTo atn .released .released dt) ++ (List.replicate 3 (envTo atn .pulled .released dt) ++
          rest)) := by
      simp only [Link.afterRead_bus, Bus.afterRead_env]; exact e2.2.1
    have e3 := Bus.envMove_cons _ e3'
    have hn : p.tEoi ≤ (k0.afterRead .clk).tick.bus.now - k0.bus.now := by
      have : (k0.afterRead .clk).tick.bus.now = k0.bus.now + dt + dt := by
        show (k0.afterRead .clk).bus.envMove.now = _
        rw [e3.2.2]; simp only [Link.afterRead_bus, Bus.afterRead_now]; rw [e2.2.2]; rfl
      have := he rfl
      omega
    have hne : k0.bus.env.isEmpty = false := by rw [e1'']; rfl
    have hk : Link.eoiLoop p k0.bus.now (k0.bus.env.length + 1) k0 = Link.acknowledgeEoi p (k0.afterRead .clk).tick := by
      simp only [Link.eoiLoop, a, hne]; rw [if_neg (by simp), if_neg (by simp), if_pos hn]
    have e4' : (k0.afterRead .clk).tick.bus.env = List.replicate 3 (envTo atn .released .released dt) ++
        (List.replicate 3 (envTo atn .pulled .released dt) ++ rest) := e3.2.1
    have s4 : (k0.afterRead .clk).tick.bus.own.srq = k0.bus.own.srq := by simp [Lines.set]
    have f4 : (k0.afterRead .clk).tick.flags = k0.flags := rfl
    generalize (k0.afterRead .clk).tick = j at *
    have q0 : ({ j with flags := j.flags.setEoi } : Link).bus.env = envTo atn .released .released dt ::
        envTo atn .released .released dt :: envTo atn .released .released dt ::
          (List.replicate 3 (envTo atn .pulled .released dt) ++ rest) := e4'
    have q1 := Bus.envMove_cons _ q0
    have q1' : ((Link.pull { j with flags := j.flags.setEoi } .data)).bus.env = envTo atn .released .released dt ::
        envTo atn .released .released dt :: (List.replicate 3 (envTo atn .pulled .released dt) ++ rest) := by
      simp only [Link.pull_bus, Bus.pull_env]; exact q1.2.1
    have q2 := Bus.envMove_cons _ q1'
    have q2' : ((Link.pull { j with flags := j.flags.setEoi } .data).delay p.tEoiAck).bus.env = envTo atn .released .released dt :: (List.replicate 3 (envTo atn .pulled .released dt) ++ rest) := q2.2.1
    have q3 := Bus.envMove_cons _ q2'
    have q3' : (((Link.pull { j with flags := j.flags.setEoi } .data).delay p.tEoiAck).release .data).bus.env = envTo atn .pulled .released dt :: envTo atn .pulled .released dt :: envTo atn .pulled .released dt :: rest := by
      simp only [Link.release_bus, Bus.release_env]; exact q3.2.1
    have w := Link.timeoutWait_script p _ .clk .pulled q3' rfl rfl
    have hA : Link.acknowledgeEoi p j =
        Link.timeoutWait p (((Link.pull { j with flags := j.flags.setEoi } .data).delay p.tEoiAck).release .data) .clk .pulled := by
      simp only [Link.acknowledgeEoi]
    have ho := (Link.acknowledgeEoi_handshake p j).own_srq
    rw [hA] at hk ho
    simp only [Link.measureEoi]
    rw [← hk0, hk]
    generalize Link.timeoutWait p (((Link.pull { j with flags := j.flags.setEoi } .data).delay p.tEoiAck).release .data) .clk
      .pulled = t at w ho
    refine ⟨t.2, Prod.ext w.1 rfl, ?_, w.2.2.1, (ho.trans s4).trans hs⟩
    refine w.2.1.trans ?_; simp [Flags.setEoi, f4]; rw [hf]; simp

/-- CLK pulled before `T_EOI` is over ends the measurement, with no EOI (R152). -/
theorem Link.eoiLoop_pulledInTime (p : Params) (t0 atn dt) (n : Nat) : ∀ fuel (k : Link) (m : EnvMove) (rest : List EnvMove),
    n < fuel → k.bus.env = List.replicate (2 * n) (envTo atn .released .released dt) ++ m :: rest → m.ext.clk = .pulled →
    t0 ≤ k.bus.now → n = 0 ∨ k.bus.now + 2 * n * dt < t0 + p.tEoi →
    ∃ j : Link, Link.eoiLoop p t0 fuel k = (true, j) ∧ j.flags = k.flags ∧ j.bus.env = rest ∧
      j.bus.own.srq = k.bus.own.srq := by
  induction n with
  | zero =>
    intro fuel k m rest hf h hm _ _
    obtain ⟨fuel, rfl⟩ : ∃ q, fuel = q + 1 := ⟨fuel - 1, by omega⟩
    have e := Bus.envMove_cons k.bus (m := m) (rest := rest) (by simpa using h)
    have a : k.sample .clk = .pulled := by rw [Link.sample_eq, e.1]; exact hm
    refine ⟨k.afterRead .clk, by simp only [Link.eoiLoop, a]; simp, rfl, ?_, by simp [Lines.set]⟩
    simp only [Link.afterRead_bus, Bus.afterRead_env]; exact e.2.1
  | succ n ih =>
    intro fuel k m rest hf h hm h0 ht
    obtain ⟨fuel, rfl⟩ : ∃ q, fuel = q + 1 := ⟨fuel - 1, by omega⟩
    have ht : k.bus.now + 2 * (n + 1) * dt < t0 + p.tEoi := ht.resolve_left (by omega)
    have hd : 2 * (n + 1) * dt = dt + dt + 2 * n * dt := by rw [Nat.mul_add, Nat.add_mul]; omega
    have h : k.bus.env = envTo atn .released .released dt :: envTo atn .released .released dt ::
        (List.replicate (2 * n) (envTo atn .released .released dt) ++ m :: rest) := by
      rw [h, show 2 * (n + 1) = 2 * n + 1 + 1 by omega]; rfl
    have e1 := Bus.envMove_cons k.bus h
    have h1 : (k.afterRead .clk).bus.env = envTo atn .released .released dt ::
        (List.replicate (2 * n) (envTo atn .released .released dt) ++ m :: rest) := by
      simp only [Link.afterRead_bus, Bus.afterRead_env]; exact e1.2.1
    have e2 := Bus.envMove_cons _ h1
    have a : k.sample .clk = .released := by rw [Link.sample_eq, e1.1]; rfl
    have q : k.bus.env.isEmpty = false := by rw [h]; rfl
    have now : (k.afterRead .clk).tick.bus.now = k.bus.now + dt + dt := by
      show (k.afterRead .clk).bus.envMove.now = _
      rw [e2.2.2]; simp only [Link.afterRead_bus, Bus.afterRead_now]; rw [e1.2.2]; rfl
    have e : Link.eoiLoop p t0 (fuel + 1) k = Link.eoiLoop p t0 fuel (k.afterRead .clk).tick := by
      simp only [Link.eoiLoop, a, q]; rw [if_neg (by simp), if_neg (by simp), if_neg (by rw [now]; omega)]
    obtain ⟨j, j1, j2, j3, j4⟩ := ih fuel (k.afterRead .clk).tick m rest (by omega) e2.2.1 hm (by rw [now]; omega)
      (.inr (by rw [now]; omega))
    exact ⟨j, e.trans j1, j2.trans rfl, j3, j4.trans (by simp [Lines.set])⟩

/-- CLK stays released for `n` samples and less than `T_EOI`: no EOI. -/
theorem Link.measureEoi_short (p : Params) (k : Link) (atn dt) (n : Nat) (rest) (h : k.bus.env =
    envTo atn .released .released dt :: (List.replicate (2 * n) (envTo atn .released .released dt) ++
      envTo atn .pulled .released dt :: rest)) (ht : n = 0 ∨ 2 * n * dt < p.tEoi) :
    ∃ j : Link, Link.measureEoi p k = (true, j) ∧ j.flags = k.flags ∧ j.bus.env = rest ∧
      j.bus.own.srq = k.bus.own.srq := by
  have e1 := Bus.envMove_cons k.bus h
  have h1 : k.tick.bus.env = List.replicate (2 * n) (envTo atn .released .released dt) ++
      envTo atn .pulled .released dt :: rest := e1.2.1
  obtain ⟨j, j1, j2, j3, j4⟩ := Link.eoiLoop_pulledInTime p k.tick.bus.now atn dt n (k.tick.bus.env.length + 1) k.tick _ _
    (by rw [h1]; simp; omega) h1 rfl (Nat.le_refl _) (by omega)
  exact ⟨j, j1, j2.trans rfl, j3, j4.trans (by simp)⟩

theorem Link.sendCell_script (p v n) (k : Link) {a b c d e rest} (h : k.bus.env = a :: b :: c :: d :: e :: rest) :
   (Link.sendCell p v n k).bus.env = rest ∧ (Link.sendCell p v n k).bus.own.atn = k.bus.own.atn ∧
     (Link.sendCell p v n k).bus.own.clk = .released := by
  have e1 : (k.pull .clk).bus.env = b :: c :: d :: e ::
      rest := by simp only [Link.pull_bus, Bus.pull_env]; exact (Bus.envMove_cons _ h).2.1
  have key : ∀ j : Link, j.bus.env = c :: d :: e :: rest →
      (((j.delay p.tBit).release .clk).delay p.tBit).bus.env = rest := by
    intro j hj
    have f1 : (j.delay p.tBit).bus.env = d :: e :: rest := (Bus.envMove_cons _ hj).2.1
    have f2 : ((j.delay p.tBit).release .clk).bus.env = e ::
        rest := by simp only [Link.release_bus, Bus.release_env]; exact (Bus.envMove_cons _ f1).2.1
    exact (Bus.envMove_cons _ f2).2.1
  unfold Link.sendCell
  simp only
  split
  · refine ⟨key _ ?_, by simp [Lines.set], by simp [Lines.set]⟩
    simp only [Link.release_bus, Bus.release_env]; exact (Bus.envMove_cons _ e1).2.1
  · refine ⟨key _ ?_, by simp [Lines.set], by simp [Lines.set]⟩
    simp only [Link.pull_bus, Bus.pull_env]; exact (Bus.envMove_cons _ e1).2.1

theorem Link.sendCells_script (p v) (m : EnvMove) (left) : ∀ n (k : Link) rest, k.bus.env = List.replicate (5 * left) m ++ rest →
   (Link.sendCells p v left n k).bus.env = rest ∧ (Link.sendCells p v left n k).bus.own.atn = k.bus.own.atn := by
  induction left with
  | zero => intro n k rest h; exact ⟨by simpa [Link.sendCells] using h, rfl⟩
  | succ left ih =>
    intro n k rest h
    have h' : k.bus.env = m :: m :: m :: m :: m :: (List.replicate (5 * left) m ++ rest) := by
      rw [h, show 5 * (left+1) = 5 * left + 1 + 1 + 1 + 1 + 1 from by omega]; simp [List.replicate_succ]
    have a := Link.sendCell_script p v n k h'
    have b := ih (n+1) _ rest a.1
    exact ⟨b.1, b.2.trans a.2.1⟩

end Sys2Proof.Machine
end

