-- ==== Sys2Proof/Laws/Wire.lean ====
section
/-! SUPPORT. What the engine's drives write on the wire, in the views of Safety.lean: DATA at the releases of CLK, DATA
changing only under a pulled CLK, the times CLK changes at, up to the eight cells of a sent byte; and the EOI acknowledge
pulse of a received one. -/
namespace Sys2Proof.Machine
open Sys2Proof

theorem dataAtClkRelease_append (d : LineState) (xs : List WireEvent) (e : WireEvent) (cur : LineState) :
  (cur = xs.foldl (fun a e => if e.line = .data then e.state else a) d) →
  dataAtClkRelease d (xs ++ [e]) = dataAtClkRelease d xs ++ (if e.line = .clk ∧
    e.state = .released then [cur] else []) := by
  induction xs generalizing d with
  | nil => intro h; subst h; by_cases h : e.line = .data <;> simp [dataAtClkRelease, h]
  | cons x xs ih =>
    intro h
    simp only [List.cons_append, dataAtClkRelease]
    simp only [List.foldl_cons] at h
    split
    · rename_i hx; exact ih _ (by simpa [hx] using h)
    · rename_i hx
      rw [if_neg hx] at h
      split
      · simp [ih _ h]
      · exact ih _ h

theorem dataOnlyUnderClk_append (c : LineState) (xs : List WireEvent) (e : WireEvent) (cur : LineState) :
  (cur = xs.foldl (fun a e => if e.line = .clk then e.state else a) c) →
  dataOnlyUnderClk c (xs ++ [e]) = (dataOnlyUnderClk c xs && (if e.line = .data then cur == .pulled else true)) := by
  induction xs generalizing c with
  | nil => intro h; subst h; by_cases h : e.line = .data
           · simp [dataOnlyUnderClk, h]
           · by_cases h2 : e.line = .clk <;> simp [dataOnlyUnderClk, h, h2]
  | cons x xs ih =>
    intro h
    simp only [List.cons_append, dataOnlyUnderClk]
    simp only [List.foldl_cons] at h
    split
    · rename_i hx; exact ih _ (by simpa [hx] using h)
    · rename_i hx
      rw [if_neg hx] at h
      split
      · rw [ih _ h, Bool.and_assoc]
      · exact ih _ h

/-- What the engine did to the wire from `b0` to `b`: DATA at the releases of CLK was `out`, and `ok` says that DATA changed
only while CLK was pulled. -/
structure Bus.Wrote (b0 b : Bus) (out : List LineState) (ok : Bool) : Prop where
  ex : ∃ ev : List WireEvent, b.wire = ev.reverse ++ b0.wire ∧ dataAtClkRelease b0.own.data ev = out ∧
    b.own.data = ev.foldl (fun a e => if e.line = .data then e.state else a) b0.own.data ∧
    b.own.clk = ev.foldl (fun a e => if e.line = .clk then e.state else a) b0.own.clk ∧
    dataOnlyUnderClk b0.own.clk ev = ok

theorem Bus.Wrote.refl (b : Bus) : Bus.Wrote b b [] true := ⟨[], by simp [dataAtClkRelease, dataOnlyUnderClk]⟩

theorem Bus.Wrote.newEvents {b0 b out ok} (h : Bus.Wrote b0 b out ok) :
    dataAtClkRelease b0.own.data (newEvents b0 b) = out ∧ dataOnlyUnderClk b0.own.clk (newEvents b0 b) = ok := by
  obtain ⟨ev, h1, h2, _, _, h3⟩ := h.ex
  have : Machine.newEvents b0 b = ev := by simp [Machine.newEvents, h1]
  rw [this]; exact ⟨h2, h3⟩

theorem Bus.Wrote.same {b0 b c out ok} (h : Bus.Wrote b0 b out ok) (h1 : c.wire = b.wire) (h2 : c.own = b.own) :
    Bus.Wrote b0 c out ok := by
  obtain ⟨ev, a⟩ := h.ex
  exact ⟨ev, by rw [h1, h2]; exact a⟩

theorem Bus.Wrote.envMove {b0 b out ok} (h : Bus.Wrote b0 b out ok) : Bus.Wrote b0 b.envMove out ok :=
    h.same (by simp) (by simp)

theorem Bus.Wrote.delay {b0 b out ok} (h : Bus.Wrote b0 b out ok) (d) : Bus.Wrote b0 (b.delay d) out ok :=
    h.same (by simp [Bus.delay]) (by simp)

theorem Bus.Wrote.tick {b0 b out ok} (h : Bus.Wrote b0 b out ok) : Bus.Wrote b0 b.tick out ok := h.envMove

theorem Bus.Wrote.passTo {b0 b out ok} (h : Bus.Wrote b0 b out ok) (d) : Bus.Wrote b0 (b.passTo d) out ok := h.same rfl rfl

theorem Bus.Wrote.drive {b0 b out ok} (h : Bus.Wrote b0 b out ok) (l v) :
   Bus.Wrote b0 (b.drive l v) (out ++ (if l = .clk ∧ v = .released ∧ b.own.clk = .pulled then [b.own.data] else []))
     (ok && (if l = .data ∧ b.own.data ≠ v then b.own.clk == .pulled else true)) := by
  obtain ⟨ev, h1, h2, h3, h4, h5⟩ := h.ex
  by_cases e : b.own.get l = v
  · have hd : b.drive l v = b := by simp [Bus.drive, e]
    rw [hd]
    have x1 : ¬ (l = .clk ∧ v = .released ∧ b.own.clk = .pulled) := by
      rintro ⟨rfl, rfl, h⟩; simp [Lines.get, h] at e
    have x2 : ¬ (l = .data ∧ b.own.data ≠ v) := by rintro ⟨rfl, h⟩; exact h e
    simp only [x1, x2, if_false]
    simpa using h
  · have hd : b.drive l v = { b with own := b.own.set l v, wire := { time := b.now, line := l, state :=
      v } :: b.wire } := by simp [Bus.drive, e]
    rw [hd]
    refine ⟨ev ++ [{ time := b.now, line := l, state := v }], by simp [h1], ?_, ?_, ?_, ?_⟩
    · rw [dataAtClkRelease_append _ _ _ _ h3, h2]
      congr 1
      by_cases hl : l = .clk
      · subst hl
        cases v
        · simp [Lines.get] at e; cases hc : b.own.clk <;> simp_all
        · simp
      · simp [hl]
    · simp only [List.foldl_append, ← h3, List.foldl_cons, List.foldl_nil]
      cases l <;> simp [Lines.set]
    · simp only [List.foldl_append, ← h4, List.foldl_cons, List.foldl_nil]
      cases l <;> simp [Lines.set]
    · rw [dataOnlyUnderClk_append _ _ _ _ h4, h5]
      congr 1
      by_cases hl : l = .data
      · subst hl
        have : b.own.data ≠ v := e
        simp [this]
      · simp [hl]

theorem Bus.Wrote.drive_other {b0 b out ok} (h : Bus.Wrote b0 b out ok) (l v) (h1 : l ≠ .clk) (h2 : l ≠ .data) :
    Bus.Wrote b0 (b.drive l v) out ok := by
  simpa [h1, h2] using h.drive l v

theorem Bus.Wrote.pullClk {b0 b out ok} (h : Bus.Wrote b0 b out ok) : Bus.Wrote b0 (b.pull .clk) out ok := by
  have := h.envMove.drive .clk .pulled
  simp at this; exact this

theorem Bus.Wrote.releaseClk {b0 b out ok} (h : Bus.Wrote b0 b out ok) :
    Bus.Wrote b0 (b.release .clk) (out ++ (if b.own.clk = .pulled then [b.own.data] else [])) ok := by
  have := h.envMove.drive .clk .released
  simp at this; exact this

theorem Bus.Wrote.dataUnder {b0 b out ok} (h : Bus.Wrote b0 b out ok) (v) (hc : b.own.clk = .pulled) :
    Bus.Wrote b0 (b.envMove.drive .data v) out ok := by
  simpa [hc] using h.envMove.drive .data v

theorem Bus.Wrote.dataSame {b0 b out ok} (h : Bus.Wrote b0 b out ok) (v) (hc : b.own.data = v) :
    Bus.Wrote b0 (b.envMove.drive .data v) out ok := by
  simpa [hc] using h.envMove.drive .data v

theorem Bus.Wrote.dataAny {b0 b out ok} (h : Bus.Wrote b0 b out ok) (v) : ∃ ok',
    Bus.Wrote b0 (b.envMove.drive .data v) out ok' := by
  have := h.envMove.drive .data v
  simp at this
  exact ⟨_, this⟩

theorem Bus.Wrote.afterReset {b0 b out ok} (h : Bus.Wrote b0 b out ok) : Bus.Wrote b0 (b.afterRead .reset) out ok :=
  h.envMove.drive_other _ _ (by simp) (by simp)

/-- A wait on DATA by an engine that has let DATA go leaves the wire as it is. -/
theorem Link.waitLoop_wire (T x t0 n) {b0 out ok} : ∀ k : Link, Bus.Wrote b0 k.bus out ok → k.bus.own.data = .released →
    Bus.Wrote b0 (Link.waitLoop T .data x t0 n k).2.bus out ok := by
  induction n with
  | zero => intro k h hd; exact h.passTo _
  | succ n ih =>
    intro k h hd
    have h1 : Bus.Wrote b0 (k.afterRead .reset).bus out ok := h.afterReset
    have d1 : (k.afterRead .reset).bus.own.data = .released := by simp [Lines.set, hd]
    have h2 : Bus.Wrote b0 ((k.afterRead .reset).afterRead .data).bus out ok := h1.dataSame _ d1
    have d2 : ((k.afterRead .reset).afterRead .data).tick.bus.own.data = .released := by simp [Lines.set]
    simp only [Link.waitLoop]
    split
    · exact h1
    · split
      · exact h2
      · split
        · exact h2.passTo _
        · split
          · exact h2.tick
          · exact ih _ h2.tick d2

theorem Link.timeoutWait_wire (p x) {b0 out ok} (k : Link) (h : Bus.Wrote b0 k.bus out ok) (hd :
    k.bus.own.data = .released) :
   Bus.Wrote b0 (Link.timeoutWait p k .data x).2.bus out ok := Link.waitLoop_wire _ _ _ _ k.tick h.tick (by simpa using hd)

theorem Link.waitLoop_wire_any (T x t0 n) {b0 out ok} : ∀ k : Link, Bus.Wrote b0 k.bus out ok →
    ∃ ok', Bus.Wrote b0 (Link.waitLoop T .data x t0 n k).2.bus out ok' := by
  induction n with
  | zero => intro k h; exact ⟨_, h.passTo _⟩
  | succ n ih =>
    intro k h
    have h1 : Bus.Wrote b0 (k.afterRead .reset).bus out ok := h.afterReset
    obtain ⟨ok', h2⟩ : ∃ ok', Bus.Wrote b0 ((k.afterRead .reset).afterRead .data).bus out ok' := h1.dataAny _
    have d2 : ((k.afterRead .reset).afterRead .data).tick.bus.own.data = .released := by simp [Lines.set]
    simp only [Link.waitLoop]
    split
    · exact ⟨_, h1⟩
    · split
      · exact ⟨_, h2⟩
      · split
        · exact ⟨_, h2.passTo _⟩
        · split
          · exact ⟨_, h2.tick⟩
          · exact ⟨_, Link.waitLoop_wire T x t0 n _ h2.tick d2⟩

theorem Link.timeoutWait_wire_any (p x) {b0 out ok} (k : Link) (h : Bus.Wrote b0 k.bus out ok) :
   ∃ ok', Bus.Wrote b0 (Link.timeoutWait p k .data x).2.bus out ok' := Link.waitLoop_wire_any _ _ _ _ k.tick h.tick

theorem Link.sendCell_wire (p v n) {b0 out ok} (k : Link) (h : Bus.Wrote b0 k.bus out ok) :
   Bus.Wrote b0 (Link.sendCell p v n k).bus (out ++ [bitLevel v n]) ok ∧
     (Link.sendCell p v n k).bus.own.clk = .released := by
  have h1 : Bus.Wrote b0 (k.pull .clk).bus out ok := h.pullClk
  have c1 : (k.pull .clk).bus.own.clk = .pulled := by simp [Lines.set]
  have key : ∀ j : Link, Bus.Wrote b0 j.bus out ok → j.bus.own.clk = .pulled → j.bus.own.data = bitLevel v n →
      Bus.Wrote b0 (((j.delay p.tBit).release .clk).delay p.tBit).bus (out ++ [bitLevel v n]) ok := by
    intro j h2 c2 d2
    have := (h2.delay p.tBit).releaseClk.delay p.tBit
    simp [c2, d2] at this
    exact this
  unfold Link.sendCell
  simp only
  split
  · rename_i hb
    refine ⟨key _ (h1.dataUnder _ c1) ?_ ?_, by simp [Lines.set]⟩
    · simp [Lines.set]
    · simp [Lines.set, bitLevel, hb]
  · rename_i hb
    refine ⟨key _ (h1.dataUnder _ c1) ?_ ?_, by simp [Lines.set]⟩
    · simp [Lines.set]
    · simp [Lines.set, bitLevel, hb]

theorem Link.sendCells_wire (p v) {b0 ok} (left) : ∀ n out (k : Link), Bus.Wrote b0 k.bus out ok →
   Bus.Wrote b0 (Link.sendCells p v left n k).bus (out ++ (List.range' n left).map (bitLevel v)) ok := by
  induction left with
  | zero => intro n out k h; simpa [Link.sendCells] using h
  | succ left ih =>
    intro n out k h
    have := ih (n+1) _ _ (Link.sendCell_wire p v n k h).1
    simpa [Link.sendCells, List.range'_succ] using this

theorem Link.sendTail_wire (p v) {b0 out ok} (k : Link) (h : Bus.Wrote b0 k.bus out ok) :
    Bus.Wrote b0 (Link.sendTail p v k).2.bus (out ++ cellsOf v) ok := by
  have h8 := Link.sendCells_wire p v 8 0 out k h
  unfold Link.sendTail
  generalize Link.sendCells p v 8 0 k = j at h8 ⊢
  have c : (j.pull .clk).bus.own.clk = .pulled := by simp [Lines.set]
  have h9 : Bus.Wrote b0 ((j.pull .clk).release .data).bus _ ok := (h8.pullClk).dataUnder .released c
  have := Link.timeoutWait_wire p .pulled _ h9 (by simp [Lines.set])
  have e : cellsOf v = (List.range' 0 8).map (bitLevel v) := by simp [cellsOf, List.range_eq_range']
  rw [e]; exact this

/-! ### When CLK changes -/

/-- The engine's changes of CLK from `b0` to `b` were `cs`, oldest first. -/
def Bus.Clocked (b0 b : Bus) (cs : List WireEvent) : Prop :=
  ∃ ev : List WireEvent, b.wire = ev.reverse ++ b0.wire ∧ eventsOf .clk ev = cs

theorem Bus.Clocked.refl (b : Bus) : Bus.Clocked b b [] := ⟨[], rfl, rfl⟩

theorem Bus.Clocked.newEvents {b0 b cs} (h : Bus.Clocked b0 b cs) : eventsOf .clk (newEvents b0 b) = cs := by
  obtain ⟨ev, h1, h2⟩ := h
  have : Machine.newEvents b0 b = ev := by simp [Machine.newEvents, h1]
  rw [this]; exact h2

theorem Bus.Clocked.same {b0 b c cs} (h : Bus.Clocked b0 b cs) (hw : c.wire = b.wire) : Bus.Clocked b0 c cs := by
  obtain ⟨ev, h1, h2⟩ := h
  exact ⟨ev, by rw [hw, h1], h2⟩

theorem Bus.Clocked.drive_same {b0 b cs} (h : Bus.Clocked b0 b cs) (l v) (hl : b.own.get l = v) :
    Bus.Clocked b0 (b.drive l v) cs := h.same (by simp [Bus.drive, hl])

theorem Bus.Clocked.drive_other {b0 b cs} (h : Bus.Clocked b0 b cs) (l v) (hl : l ≠ .clk) : Bus.Clocked b0 (b.drive l v) cs := by
  obtain ⟨ev, h1, h2⟩ := h
  by_cases e : b.own.get l = v
  · exact Bus.Clocked.drive_same ⟨ev, h1, h2⟩ l v e
  · exact ⟨ev ++ [⟨b.now, l, v⟩], by simp [Bus.drive, e, h1], by simp [eventsOf] at h2 ⊢; simp [h2, hl]⟩

theorem Bus.Clocked.drive_clk {b0 b cs} (h : Bus.Clocked b0 b cs) (v) (hv : b.own.clk ≠ v) :
    Bus.Clocked b0 (b.drive .clk v) (cs ++ [⟨b.now, .clk, v⟩]) := by
  obtain ⟨ev, h1, h2⟩ := h
  have e : b.own.get .clk ≠ v := hv
  exact ⟨ev ++ [⟨b.now, .clk, v⟩], by simp [Bus.drive, e, h1], by simp [eventsOf] at h2 ⊢; simp [h2]⟩

theorem Bus.Clocked.envMove {b0 b cs} (h : Bus.Clocked b0 b cs) : Bus.Clocked b0 b.envMove cs := h.same (by simp)

theorem Bus.Clocked.delay {b0 b cs} (h : Bus.Clocked b0 b cs) (d) : Bus.Clocked b0 (b.delay d) cs :=
  h.same (by simp [Bus.delay])

/-- A wait on a line that is not CLK leaves CLK alone. -/
theorem Link.waitLoop_clocked (T : Nat) (l : Line) (hl : l ≠ .clk) (x t0 n) {b0 cs} : ∀ k : Link, Bus.Clocked b0 k.bus cs →
    Bus.Clocked b0 (Link.waitLoop T l x t0 n k).2.bus cs := by
  induction n with
  | zero => intro k h; exact h.same rfl
  | succ n ih =>
    intro k h
    have h1 : Bus.Clocked b0 (k.afterRead .reset).bus cs := h.envMove.drive_other _ _ (by simp)
    have h2 : Bus.Clocked b0 ((k.afterRead .reset).afterRead l).bus cs := h1.envMove.drive_other _ _ hl
    simp only [Link.waitLoop]
    split
    · exact h1
    · split
      · exact h2
      · split
        · exact h2.same rfl
        · split
          · exact h2.envMove
          · exact ih _ h2.envMove

theorem Link.timeoutWait_clocked (p : Params) (l : Line) (hl : l ≠ .clk) (x) {b0 cs} (k : Link) (h : Bus.Clocked b0 k.bus cs) :
    Bus.Clocked b0 (Link.timeoutWait p k l x).2.bus cs := Link.waitLoop_clocked _ _ hl _ _ _ k.tick h.envMove

/-- One bit cell pulls CLK and releases it, `T_BIT` apart, and `T_BIT` passes after (41_byte_handshake.md R160). -/
theorem Link.sendCell_clocked (p : Params) (v n) {b0 cs} (k : Link) (h : Bus.Clocked b0 k.bus cs)
    (hc : k.bus.own.clk = .released) : ∃ t1 t2, k.bus.now ≤ t1 ∧ t1 + p.tBit ≤ t2 ∧ t2 + p.tBit ≤ (k.sendCell p v n).bus.now ∧
      Bus.Clocked b0 (k.sendCell p v n).bus (cs ++ [⟨t1, .clk, .pulled⟩, ⟨t2, .clk, .released⟩]) := by
  have h1 : Bus.Clocked b0 (k.pull .clk).bus (cs ++ [⟨k.bus.envMove.now, .clk, .pulled⟩]) :=
    h.envMove.drive_clk _ (by simp [hc])
  have key : ∀ j : Link, Bus.Clocked b0 j.bus (cs ++ [⟨k.bus.envMove.now, .clk, .pulled⟩]) → j.bus.own.clk = .pulled →
      k.bus.envMove.now ≤ j.bus.now → ∃ t1 t2, k.bus.now ≤ t1 ∧ t1 + p.tBit ≤ t2 ∧
        t2 + p.tBit ≤ (((j.delay p.tBit).release .clk).delay p.tBit).bus.now ∧
        Bus.Clocked b0 (((j.delay p.tBit).release .clk).delay p.tBit).bus
          (cs ++ [⟨t1, .clk, .pulled⟩, ⟨t2, .clk, .released⟩]) := by
    intro j hj cj nj
    have a := (Bus.later_envMove k.bus).now_le
    have b := (Bus.later_envMove j.bus).now_le
    have c := (Bus.later_envMove (j.bus.delay p.tBit)).now_le
    have d := (Bus.later_envMove ((j.bus.delay p.tBit).release .clk)).now_le
    have e : (j.bus.delay p.tBit).now = j.bus.envMove.now + p.tBit := rfl
    refine ⟨k.bus.envMove.now, (j.bus.delay p.tBit).envMove.now, a, by omega, ?_, ?_⟩
    · show _ ≤ ((j.bus.delay p.tBit).release .clk).envMove.now + p.tBit
      have f : ((j.bus.delay p.tBit).release .clk).now = (j.bus.delay p.tBit).envMove.now := by simp
      omega
    · have g := ((hj.delay p.tBit).envMove.drive_clk .released (by simp [cj])).delay p.tBit
      rw [List.append_assoc] at g
      exact g
  unfold Link.sendCell
  simp only
  split
  · exact key _ (h1.envMove.drive_other _ _ (by simp)) (by simp [Lines.set])
      (by simpa using (Bus.later_release (k.bus.pull .clk) .data).now_le)
  · exact key _ (h1.envMove.drive_other _ _ (by simp)) (by simp [Lines.set])
      (by simpa using (Bus.later_pull (k.bus.pull .clk) .data rfl).now_le)

/-- The cells that are left pull and release CLK in turn, each change `T_BIT` after the one before. -/
theorem Link.sendCells_clocked (p : Params) (v) {b0} (left) : ∀ n cs (k : Link), Bus.Clocked b0 k.bus cs →
    k.bus.own.clk = .released → ∃ cl : List WireEvent,
      Bus.Clocked b0 (Link.sendCells p v left n k).bus (cs ++ cl) ∧
      (cl.map fun e => e.state) = (List.replicate left [LineState.pulled, .released]).flatten ∧
      (cl.Pairwise fun e f => e.time + p.tBit ≤ f.time) ∧ (∀ e ∈ cl, k.bus.now ≤ e.time) ∧
      (∀ e ∈ cl, e.time + p.tBit ≤ (Link.sendCells p v left n k).bus.now) ∧
      k.bus.now ≤ (Link.sendCells p v left n k).bus.now ∧ (Link.sendCells p v left n k).bus.own.clk = .released := by
  induction left with
  | zero => intro n cs k h hc; exact ⟨[], by simpa [Link.sendCells] using h, rfl, .nil, by simp, by simp, Nat.le_refl _, hc⟩
  | succ left ih =>
    intro n cs k h hc
    obtain ⟨t1, t2, g1, g2, g3, g4⟩ := Link.sendCell_clocked p v n k h hc
    have gc : (k.sendCell p v n).bus.own.clk = .released := (Link.sendCell_wire p v n k (Bus.Wrote.refl _)).2
    obtain ⟨cl, i1, i2, i3, i4, i5, i6, i7⟩ := ih (n + 1) _ _ g4 gc
    refine ⟨⟨t1, .clk, .pulled⟩ :: ⟨t2, .clk, .released⟩ :: cl, by simpa [Link.sendCells] using i1, ?_, ?_, ?_, ?_, ?_, i7⟩
    · simp [i2, List.replicate_succ]
    · refine .cons (fun f hf => ?_) (.cons (fun f hf => ?_) i3)
      · rcases List.mem_cons.mp hf with rfl | hf
        · exact g2
        · have := i4 f hf; show t1 + p.tBit ≤ f.time; omega
      · have := i4 f hf; show t2 + p.tBit ≤ f.time; omega
    · intro e he
      rcases List.mem_cons.mp he with rfl | he
      · exact g1
      · rcases List.mem_cons.mp he with rfl | he
        · show k.bus.now ≤ t2; omega
        · have := i4 e he; omega
    · intro e he
      show e.time + p.tBit ≤ (Link.sendCells p v left (n + 1) (k.sendCell p v n)).bus.now
      rcases List.mem_cons.mp he with rfl | he
      · show t1 + p.tBit ≤ _; omega
      · rcases List.mem_cons.mp he with rfl | he
        · show t2 + p.tBit ≤ _; omega
        · exact i5 e he
    · show k.bus.now ≤ (Link.sendCells p v left (n + 1) (k.sendCell p v n)).bus.now
      omega

/-- The eight cells and the end of the byte: eight pulls and releases of CLK and a last pull. -/
theorem Link.sendTail_clocked (p : Params) (v) {b0 cs} (k : Link) (h : Bus.Clocked b0 k.bus cs) (hc : k.bus.own.clk = .released) :
    ∃ cl : List WireEvent, Bus.Clocked b0 (Link.sendTail p v k).2.bus (cs ++ cl) ∧
      (cl.map fun e => e.state) = (List.replicate 8 [LineState.pulled, .released]).flatten ++ [.pulled] ∧
      cl.Pairwise fun e f => e.time + p.tBit ≤ f.time := by
  obtain ⟨cl, i1, i2, i3, _, i5, _, i7⟩ := Link.sendCells_clocked p v 8 0 cs k h hc
  unfold Link.sendTail
  generalize Link.sendCells p v 8 0 k = j at i1 i5 i7 ⊢
  have a : Bus.Clocked b0 (j.pull .clk).bus ((cs ++ cl) ++ [⟨j.bus.envMove.now, .clk, .pulled⟩]) :=
    i1.envMove.drive_clk _ (by simp [i7])
  have b : Bus.Clocked b0 ((j.pull .clk).release .data).bus _ := a.envMove.drive_other .data .released (by simp)
  refine ⟨cl ++ [⟨j.bus.envMove.now, .clk, .pulled⟩], ?_, by simp [i2], ?_⟩
  · have := Link.timeoutWait_clocked p .data (by simp) .pulled _ b
    rw [List.append_assoc] at this
    exact this
  · rw [List.pairwise_append]
    refine ⟨i3, List.pairwise_singleton _ _, fun e he f hf => ?_⟩
    have := i5 e he
    have := (Bus.later_envMove j.bus).now_le
    rw [List.mem_singleton.mp hf]
    show e.time + p.tBit ≤ j.bus.envMove.now
    omega

/-! ### The EOI acknowledge pulse (41_byte_handshake.md R152) -/

/-- From `b0` to `b` DATA was pulled, no earlier than `t0`, and then released, `d` or more later and with nothing between. -/
def Bus.Pulsed (t0 d : Nat) (b0 b : Bus) : Prop :=
  ∃ (t1 t2 : Nat) (w : List WireEvent), t0 ≤ t1 ∧ t1 + d ≤ t2 ∧ t2 ≤ b.now ∧ b0.wire <:+ w ∧
    (⟨t2, .data, .released⟩ :: ⟨t1, .data, .pulled⟩ :: w) <:+ b.wire

theorem Bus.Pulsed.later {t0 t d b0 b1 b c} (h : Bus.Pulsed t d b1 b) (ht : t0 ≤ t) (h0 : b0.Later b1) (hc : b.Later c) :
    Bus.Pulsed t0 d b0 c := by
  obtain ⟨t1, t2, w, a0, a1, an, a2, a3⟩ := h
  exact ⟨t1, t2, w, Nat.le_trans ht a0, a1, Nat.le_trans an hc.now_le, h0.wire_suffix.trans a2, a3.trans hc.wire_suffix⟩

theorem Bus.Pulsed.newEvents {t0 d b0 b} (h : Bus.Pulsed t0 d b0 b) : ∃ (before after : List WireEvent) (t1 t2 : Nat),
    t0 ≤ t1 ∧ t1 + d ≤ t2 ∧
    newEvents b0 b = before ++ [⟨t1, .data, .pulled⟩, ⟨t2, .data, .released⟩] ++ after := by
  obtain ⟨t1, t2, w, a0, a1, _, ⟨x, rfl⟩, ⟨y, a3⟩⟩ := h
  refine ⟨x.reverse, y.reverse, t1, t2, a0, a1, ?_⟩
  have : b.wire = (y ++ ⟨t2, .data, .released⟩ :: ⟨t1, .data, .pulled⟩ :: x) ++ b0.wire := by rw [← a3]; simp
  rw [Machine.newEvents, this, List.length_append, Nat.add_sub_cancel, List.take_left]
  simp

/-- A pulse takes its time. -/
theorem Bus.Pulsed.now_le {t0 d b0 b} (h : Bus.Pulsed t0 d b0 b) : t0 + d ≤ b.now := by
  obtain ⟨_, _, _, _, _, _, _⟩ := h; omega

theorem Link.timeoutWait_eoi (p : Params) (k : Link) (l x) : (Link.timeoutWait p k l x).2.flags.eoi = k.flags.eoi := by
  have r := Link.timeoutWait_spec p k l x
  cases hw : (Link.timeoutWait p k l x).1
  · rcases r.failed hw with ⟨h, _⟩ | ⟨h, _⟩ <;> rw [h] <;> rfl
  · rw [(r.seen hw).1]

theorem Link.acknowledgeEoi_pulsed (p : Params) (k : Link) (hd : k.bus.own.data = .released) :
    Bus.Pulsed k.bus.now p.tEoiAck k.bus (Link.acknowledgeEoi p k).2.bus := by
  have l := (Link.timeoutWait_spec p
    (((Link.pull { k with flags := k.flags.setEoi } .data).delay p.tEoiAck).release .data) .clk .pulled).later
  simp only [Link.acknowledgeEoi]
  refine Bus.Pulsed.later (b := (((k.bus.pull .data).delay p.tEoiAck).release .data)) ?_ (Nat.le_refl _) (.refl _) l
  have e1 : (k.bus.pull .data).wire = ⟨k.bus.envMove.now, .data, .pulled⟩ :: k.bus.wire := by
    simp [Bus.pull, Bus.drive, Lines.get, hd]
  have e2 : (((k.bus.pull .data).delay p.tEoiAck).release .data).wire =
      ⟨((k.bus.pull .data).delay p.tEoiAck).envMove.now, .data, .released⟩ :: (k.bus.pull .data).wire := by
    simp [Bus.release, Bus.drive, Lines.get, Lines.set, Bus.delay]
  refine ⟨k.bus.envMove.now, ((k.bus.pull .data).delay p.tEoiAck).envMove.now, k.bus.wire,
    (Bus.later_envMove k.bus).now_le, ?_, Nat.le_of_eq (by simp), List.suffix_refl _, by rw [e2, e1]⟩
  have a := (Bus.later_envMove ((k.bus.pull .data).delay p.tEoiAck)).now_le
  have b := (Bus.later_envMove (k.bus.pull .data)).now_le
  have c : ((k.bus.pull .data).delay p.tEoiAck).now = (k.bus.pull .data).envMove.now + p.tEoiAck := rfl
  have d : (k.bus.pull .data).now = k.bus.envMove.now := by simp
  omega

/-- EOI is read only once `T_EOI` has passed since `t0`. -/
theorem Link.eoiLoop_pulsed (p : Params) (t0 n) : ∀ k : Link, t0 ≤ k.bus.now → k.bus.own.data = .released →
    k.flags.eoi = false → (Link.eoiLoop p t0 n k).2.flags.eoi = true →
    Bus.Pulsed (t0 + p.tEoi) p.tEoiAck k.bus (Link.eoiLoop p t0 n k).2.bus := by
  induction n with
  | zero =>
    intro k _ hd _ _
    simp only [Link.eoiLoop]
    exact (Link.acknowledgeEoi_pulsed p (k.passTo (t0 + p.tEoi)) hd).later (Nat.le_max_right _ _) (Bus.later_passTo _ _)
      (.refl _)
  | succ n ih =>
    intro k h0 hd he
    have l1 : k.bus.Later (k.afterRead .clk).bus := Bus.later_afterRead _ _
    have l2 : k.bus.Later (k.afterRead .clk).tick.bus := l1.trans (Bus.later_tick _)
    have d1 : (k.afterRead .clk).bus.own.data = .released := by simp [Lines.set, hd]
    have d2 : (k.afterRead .clk).tick.bus.own.data = .released := by simp [Lines.set, hd]
    simp only [Link.eoiLoop]
    split
    · intro h; simp [he] at h
    · split
      · intro _
        exact (Link.acknowledgeEoi_pulsed p ((k.afterRead .clk).passTo (t0 + p.tEoi)) d1).later (Nat.le_max_right _ _)
          (l1.trans (Bus.later_passTo _ _)) (.refl _)
      · have n2 := Nat.le_trans h0 l2.now_le
        split
        · intro _
          exact (Link.acknowledgeEoi_pulsed p (k.afterRead .clk).tick d2).later (by omega) l2 (.refl _)
        · intro h; exact (ih _ n2 d2 he h).later (Nat.le_refl _) l2 (.refl _)

theorem Link.noteAtn_eoi (k : Link) : k.noteAtn.flags.eoi = k.flags.eoi := by
  unfold Link.noteAtn; simp only; split <;> rfl

theorem Link.receiveCells_eoi (p : Params) (n) : ∀ v (k : Link), (Link.receiveCells p n v k).2.flags.eoi = k.flags.eoi := by
  induction n with
  | zero => intro v k; rfl
  | succ n ih =>
    intro v k
    have a := Link.timeoutWait_eoi p k .clk .released
    simp only [Link.receiveCells]
    generalize Link.timeoutWait p k .clk .released = w at *
    split
    · exact a
    · have b := Link.timeoutWait_eoi p (w.2.afterRead .data) .clk .pulled
      generalize Link.timeoutWait p (w.2.afterRead .data) .clk .pulled = w2 at *
      split
      · exact b.trans a
      · exact (ih _ _).trans (b.trans a)

end Sys2Proof.Machine
end

