-- ==== Sys2Proof/Tests/Slice0.lean ====
section
/-! SUPPORT. The model's own tests: what WellFormed refuses, words written out from 30_encoding.md, one step of each
instruction against the vectors of 95_test_vectors.md (cited as V<n>, W<n>, P<n>), and for every obligation that has
hypotheses a witness that meets them all together, at the ends of each clause's range. -/
namespace Sys2Proof.Tests
open Sys2Proof Sys2Proof.Machine

/-! ### States the tests start from -/

/-- The parameters of 95_test_vectors.md: `MAXLEN = 40`, `HAS_SRQ = false`, `T_TIMEOUT = 1000`, `T_EOI = 200`. -/
def params : Params :=
  { hasSrq := false, maxLen := 40, tTimeout := 1000, tEoi := 200, tEoiAck := 60, tBit := 60, tTurn := 80, tFnf := 100,
    enabledInit := 0, eoi_lt_timeout := by decide +kernel, maxLen_pos := by decide +kernel }

/-- S0 of 95_test_vectors.md: A (reference 1) is device 8 and B (reference 2) is device 9, both enabled. -/
def s0 : State :=
  { State.reset with cfg := params, enabled := 0x300#32, slots := [⟨8, 1⟩, ⟨9, 2⟩] }

/-- Some line released or pulled by the engine, the others released. -/
def owning (l : Line) : Lines := Lines.released.set l .pulled

/-- `s` on a bus with these own and other levels and these coming moves. -/
def onBus (own ext : Lines) (env : List EnvMove) (s : State) : State :=
  { s with bus := { s.bus with own := own, ext := ext, env := env } }

/-- In `decode()`, the primary byte comes next. -/
def atPrimary : State := { s0 with ctl := .primary, record := ATNRecord.fresh }

/-- In `decode()` after LISTEN 8: the secondary comes next. -/
def atSecondary : State :=
  { s0 with
    ctl := .secondary, role := .listener, active := some 8
    record := { ATNRecord.fresh with mode := .listen, raw := 0x28#8, kind := .listen, deviceId := 8 } }

/-- The same after TALK 8. -/
def atTalkSecondary : State :=
  { s0 with
    ctl := .secondary, role := .talker, active := some 8
    record := { ATNRecord.fresh with mode := .talk, raw := 0x48#8, kind := .talk, deviceId := 8 } }

/-- The record of LISTEN 8, OPEN 2. -/
def openRecord : ATNRecord :=
  { ATNRecord.fresh with mode := .listen, raw := 0xF2#8, kind := .opn, channel := 2, deviceId := 8 }

/-- The record of LISTEN 8, DATA 2. -/
def dataRecord : ATNRecord :=
  { ATNRecord.fresh with mode := .listen, raw := 0x62#8, kind := .data, channel := 2, deviceId := 8 }

/-- The record of TALK 8, DATA 0. -/
def talkRecord : ATNRecord :=
  { ATNRecord.fresh with mode := .talk, raw := 0x60#8, kind := .data, channel := 0, deviceId := 8 }

/-- At the top of an OPEN payload loop. -/
def atPayload : State :=
  onBus (owning .data) Lines.released []
    { s0 with ctl := .payload, role := .listener, active := some 8, record := openRecord }

/-- At the top of the listen loop. -/
def atListening : State :=
  onBus (owning .data) Lines.released []
    { s0 with ctl := .listening, role := .listener, active := some 8, record := dataRecord }

/-- Inside a hook of the listening device A. -/
def inListenHook : State := { atListening with ctl := .hook (.processCommand dataRecord false) false }

/-- Inside a hook of the talking device A, the engine talker and turned. -/
def inTalkHook : State :=
  onBus (owning .clk) Lines.released []
    { s0 with
      ctl := .hook (.processCommand talkRecord false) false, role := .talker, active := some 8, turn := .turned
      record := talkRecord }

/-- The next state of an outcome. -/
def after : Host.Outcome State Fault Refusal → State
  | .next t => t
  | .fault _ => s0
  | .refused _ => s0

/-! ### Well-formedness -/

theorem test_listen_31_ill_formed : WellFormed (.listen 31) = false := by decide
theorem test_talk_31_ill_formed : WellFormed (.talk 31) = false := by decide
theorem test_invalid01_0_ill_formed : WellFormed (.invalid01_1F 0) = false := by decide
theorem test_short_sendBuffer_ill_formed : WellFormed (.sendBuffer [0x41#8] 2) = false := by decide
theorem test_short_receiveBuffer_ill_formed : WellFormed (.receiveBuffer [] 1) = false := by decide
theorem test_well_formed_ends : WellFormed (.listen 30) = true ∧ WellFormed (.talk 0) = true ∧
    WellFormed (.invalid01_1F 1) = true ∧ WellFormed (.sendBuffer [0x41#8] 1) = true ∧
    WellFormed (.receiveBuffer [] 0) = true := by decide

/-! ### Decoding: words written out from 30_encoding.md R91, R92, R100, R101 -/

/-- The ends of every range of 30_encoding.md R92 (95_test_vectors.md, 2.3). -/
theorem test_decode_command_ranges :
    decode (.cmd 0b00000000#8) = .instr .globalCmd ∧ decode (.cmd 0b00111111#8) = .instr .unlisten ∧
    decode (.cmd 0b01011111#8) = .instr .untalk ∧
    decode (.cmd 0b00100000#8) = .instr (.listen 0) ∧ decode (.cmd 0b00111110#8) = .instr (.listen 30) ∧
    decode (.cmd 0b01000000#8) = .instr (.talk 0) ∧ decode (.cmd 0b01011110#8) = .instr (.talk 30) ∧
    decode (.cmd 0b01100000#8) = .instr (.dataCmd 0) ∧ decode (.cmd 0b01101111#8) = .instr (.dataCmd 15) ∧
    decode (.cmd 0b11100000#8) = .instr (.closeCmd 0) ∧ decode (.cmd 0b11101111#8) = .instr (.closeCmd 15) ∧
    decode (.cmd 0b11110000#8) = .instr (.openCmd 0) ∧ decode (.cmd 0b11111111#8) = .instr (.openCmd 15) := by decide

theorem test_decode_illegal_ranges :
    decode (.cmd 0b00000001#8) = .instr (.invalid01_1F 1) ∧ decode (.cmd 0b00011111#8) = .instr (.invalid01_1F 31) ∧
    decode (.cmd 0b01110000#8) = .instr (.invalid70_7F 0) ∧ decode (.cmd 0b01111111#8) = .instr (.invalid70_7F 15) ∧
    decode (.cmd 0b10000000#8) = .instr (.invalid80_BF 0) ∧ decode (.cmd 0b10111111#8) = .instr (.invalid80_BF 63) ∧
    decode (.cmd 0b11000000#8) = .instr (.invalidC0_DF 0) ∧ decode (.cmd 0b11011111#8) = .instr (.invalidC0_DF 31) := by
  decide

/-- A request with every operand field at a value of its own. -/
def request (sel : BitVec 5) : OpRequest :=
  { op := sel, line := 0b001#3, expected := 0b1#1, id := 0b01000#5, value := 0x53#8, eoi := 0b1#1, ref := 7,
    buffer := [0x41#8, 0x42#8], length := 1 }

theorem test_decode_line_requests :
    decode (.op (request 0b00001#5)) = .instr (.pull .clk) ∧ decode (.op (request 0b00010#5)) = .instr (.release .clk) ∧
    decode (.op (request 0b00011#5)) = .instr (.read .clk) ∧
    decode (.op (request 0b01000#5)) = .instr (.timeoutWait .clk .pulled) ∧
    decode (.op { request 0b00001#5 with line := 0b000#3 }) = .instr (.pull .atn) ∧
    decode (.op { request 0b00001#5 with line := 0b010#3 }) = .instr (.pull .data) ∧
    decode (.op { request 0b00001#5 with line := 0b011#3 }) = .instr (.pull .srq) ∧
    decode (.op { request 0b00001#5 with line := 0b100#3 }) = .instr (.pull .reset) := by decide

theorem test_decode_handshake_requests :
    decode (.op (request 0b00000#5)) = .instr .service ∧
    decode (.op (request 0b00100#5)) = .instr (.sendByte 0x53#8 true) ∧
    decode (.op (request 0b00101#5)) = .instr .receiveByte ∧ decode (.op (request 0b00110#5)) = .instr .turnAround ∧
    decode (.op (request 0b00111#5)) = .instr .undoTurnAround := by decide

theorem test_decode_registry_requests :
    decode (.op (request 0b10000#5)) = .instr (.addDevice 7 8) ∧ decode (.op (request 0b10001#5)) = .instr (.removeDevice 7) ∧
    decode (.op (request 0b10010#5)) = .instr (.deviceById 8) ∧
    decode (.op (request 0b10011#5)) = .instr (.changeDeviceId 7 8) ∧
    decode (.op (request 0b10100#5)) = .instr .numDevices ∧ decode (.op (request 0b10101#5)) = .instr (.isEnabled 8) ∧
    decode (.op (request 0b10110#5)) = .instr (.enableDevice 8) ∧
    decode (.op (request 0b10111#5)) = .instr (.disableDevice 8) := by decide

theorem test_decode_primitive_requests :
    decode (.op (request 0b11000#5)) = .instr (.send 0x53#8) ∧
    decode (.op (request 0b11001#5)) = .instr (.sendBuffer [0x41#8, 0x42#8] 1) ∧
    decode (.op (request 0b11010#5)) = .instr (.sendEOI 0x53#8) ∧
    decode (.op (request 0b11011#5)) = .instr .sendFileNotFound ∧ decode (.op (request 0b11100#5)) = .instr .receive ∧
    decode (.op (request 0b11101#5)) = .instr (.receiveBuffer [0x41#8, 0x42#8] 1) := by decide

/-- The nine reserved select codes, and none beside them (30_encoding.md R102). -/
theorem test_reserved_selects :
    (List.range 32).filter (fun n => decodeOp (OpRequest.ofSelect (BitVec.ofNat 5 n)) = .reject .reservedSelect) =
      [0x09, 0x0A, 0x0B, 0x0C, 0x0D, 0x0E, 0x0F, 0x1E, 0x1F] := by decide

/-- Line codes 5 to 7 in every operation with a line operand (30_encoding.md R101). -/
theorem test_reserved_lines :
    decodeOp { request 0x01#5 with line := 0b101#3 } = .reject .reservedLine ∧
    decodeOp { request 0x02#5 with line := 0b110#3 } = .reject .reservedLine ∧
    decodeOp { request 0x03#5 with line := 0b111#3 } = .reject .reservedLine ∧
    decodeOp { request 0x08#5 with line := 0b101#3 } = .reject .reservedLine := by decide

theorem test_short_buffer_rejected :
    decodeOp { request 0x19#5 with length := 3 } = .reject .shortBuffer ∧
    decodeOp { request 0x1D#5 with length := 3 } = .reject .shortBuffer := by decide

/-- The two formats of one byte in the table's numbering (log 11). -/
theorem test_table_words :
    decodeTableWord 8 0x28 = some (.listen 8) ∧ decodeTableWord 8 0xFF = some (.openCmd 15) ∧
    decodeTableWord 8 0x00 = some .service ∧ decodeTableWord 8 0x1D = some (.receiveBuffer [] 0) ∧
    decodeTableWord 8 0x09 = some (.invalid01_1F 9) ∧ decodeTableWord 5 0x09 = none := by decide

/-- A placed command byte is the one the next step runs: LISTEN 8, placed on a bus with no call running. -/
theorem test_placed_command_runs :
    (after (step (s0.withFetchWord 8 0x28))).active = some 8 ∧ (after (step (s0.withFetchWord 8 0x28))).ctl = .secondary ∧
    (after (step (s0.withFetchWord 8 0x14))).result = .completed (.count 2) := by decide +kernel

/-! ### The command bytes -/

/-- V43. -/
theorem test_global :
    (after (exec .globalCmd atPrimary)).record = { ATNRecord.fresh with mode := .idle, raw := 0x00#8, kind := .global } ∧
    (after (exec .globalCmd atPrimary)).result = .completed (.mode .idle) := by decide

/-- P1 step 3, and V44: device 10 is not registered. -/
theorem test_listen :
    (after (exec (.listen 8) atPrimary)).active = some 8 ∧ (after (exec (.listen 8) atPrimary)).role = .listener ∧
    (after (exec (.listen 8) atPrimary)).record.mode = .listen ∧
    (after (exec (.listen 10) atPrimary)).record =
      { ATNRecord.fresh with mode := .idle, raw := 0x2A#8, kind := .listen, deviceId := 10 } ∧
    (after (exec (.listen 10) atPrimary)).active = none := by decide

/-- P4 step 1. -/
theorem test_talk_selects :
    (after (exec (.talk 8) atPrimary)).role = .talker ∧ (after (exec (.talk 8) atPrimary)).turn = .notTurned ∧
    (after (exec (.talk 8) atPrimary)).record.raw = 0x48#8 := by decide

/-- V49: TALK where a secondary is expected. -/
theorem test_talk_as_secondary :
    (after (exec (.talk 8) atSecondary)).cause = .malformed ∧ (after (exec (.talk 8) atSecondary)).causeInfo = 0x48#8 ∧
    (after (exec (.talk 8) atSecondary)).active = none := by decide +kernel

/-- V48. -/
theorem test_unlisten_as_secondary :
    (after (exec .unlisten atSecondary)).record =
      { ATNRecord.fresh with mode := .idle, raw := 0x3F#8, kind := .unlisten, deviceId := 8 } ∧
    (after (exec .unlisten atSecondary)).result = .completed (.mode .cmd) := by decide

/-- V54: an OPEN with an empty payload, closed by UNLISTEN. -/
theorem test_unlisten_in_payload :
    (after (exec .unlisten atPayload)).ctl = .hook (.processCommand openRecord true) false := by decide

/-- P4 step 8. -/
theorem test_untalk :
    (after (exec .untalk atPrimary)).result = .completed (.mode .cmd) ∧
    (after (exec .untalk atPrimary)).record.raw = 0x5F#8 ∧ (after (exec .untalk atPrimary)).active = none := by decide

/-- V46. -/
theorem test_data_listener :
    (after (exec (.dataCmd 2) atSecondary)).ctl = .hook (.processCommand dataRecord false) false := by decide

/-- P4 steps 3 and 4: the controller has released ATN and CLK. -/
theorem test_data_talker :
    (after (exec (.dataCmd 0) atTalkSecondary)).ctl = .hook (.processCommand talkRecord false) false ∧
    (after (exec (.dataCmd 0) atTalkSecondary)).turn = .turned ∧
    (after (exec (.dataCmd 0) atTalkSecondary)).bus.own = owning .clk := by decide +kernel

/-- V47. -/
theorem test_close_listener :
    (after (exec (.closeCmd 2) atSecondary)).ctl =
      .hook (.processCommand { dataRecord with raw := 0xE2#8, kind := .close } false) false := by decide

/-- P1 step 4. -/
theorem test_open_listener :
    (after (exec (.openCmd 2) atSecondary)).record = openRecord ∧
    (after (exec (.openCmd 2) atSecondary)).ctl = .payload := by decide

/-- V55: LISTEN 8 inside a payload. -/
theorem test_command_in_payload :
    (after (exec (.listen 8) atPayload)).cause = .malformed ∧ (after (exec (.listen 8) atPayload)).causeInfo = 0x28#8 ∧
    (after (exec (.listen 8) atPayload)).result = .completed (.mode .error) := by decide +kernel

theorem test_invalid01 :
    (after (exec (.invalid01_1F 1) atPrimary)).causeInfo = 0x01#8 ∧
    (after (exec (.invalid01_1F 1) atPrimary)).record.kind = .invalid := by decide +kernel

/-- V50. -/
theorem test_invalid70 :
    (after (exec (.invalid70_7F 15) atPrimary)).causeInfo = 0x7F#8 ∧
    (after (exec (.invalid70_7F 15) atPrimary)).result = .completed (.mode .error) := by decide +kernel

theorem test_invalid80 : (after (exec (.invalid80_BF 63) atPrimary)).causeInfo = 0xBF#8 := by decide +kernel
theorem test_invalidC0 : (after (exec (.invalidC0_DF 31) atPrimary)).causeInfo = 0xDF#8 := by decide +kernel

/-! ### service -/

/-- V61. -/
theorem test_service_reports :
    (after (exec .service { s0 with resetLatch := true })).result = .completed (.mode .idle) ∧
    (after (exec .service { s0 with resetLatch := true })).resetLatch = false := by decide

/-- V60 and V62: RESET and ATN both pulled; A's `reset()` comes first, B's is still to come. -/
theorem test_service_reset_first :
    (after (exec .service (onBus Lines.released { owning .reset with atn := .pulled } [] s0))).ctl =
      .hook (.reset 1 [2]) false ∧
    (after (exec .service (onBus Lines.released { owning .reset with atn := .pulled } [] s0))).cause = .reset := by decide

/-! ### The Line Driver: V1 to V8 -/

theorem test_pull : (after (exec (.pull .data) s0)).bus.own = owning .data ∧
    (after (exec (.pull .data) s0)).bus.level .data = .pulled := by decide
theorem test_pull_srq_refused : (after (exec (.pull .srq) s0)).cause = .refused ∧
    (after (exec (.pull .srq) s0)).bus = s0.bus := by decide
theorem test_release : (after (exec (.release .clk) (onBus (owning .clk) (owning .clk) [] s0))).bus.own = Lines.released ∧
    (after (exec (.release .clk) (onBus (owning .clk) (owning .clk) [] s0))).bus.level .clk = .pulled := by decide
theorem test_read_released : (after (exec (.read .data) (onBus (owning .data) Lines.released [] s0))).result =
      .completed (.line .released) ∧
    (after (exec (.read .data) (onBus (owning .data) Lines.released [] s0))).bus.own = Lines.released := by decide
theorem test_read_pulled : (after (exec (.read .data) (onBus (owning .data) (owning .data) [] s0))).result =
    .completed (.line .pulled) := by decide

/-! ### The Byte Handshake -/

/-- V11: CLK pulled throughout, entry at `now = 5000`. -/
theorem test_wait_deadline :
    let s := { s0 with bus := { s0.bus with ext := owning .clk, now := 5000 } }
    (after (exec (.timeoutWait .clk .released) s)).result = .completed (.bool false) ∧
    (after (exec (.timeoutWait .clk .released) s)).flags.err = true ∧
    6000 ≤ (after (exec (.timeoutWait .clk .released) s)).bus.now := by decide

/-- V12: RESET is tested first. -/
theorem test_wait_reset_first :
    (after (exec (.timeoutWait .clk .released) (onBus Lines.released (owning .reset) [] s0))).result =
      .completed (.bool false) ∧
    (after (exec (.timeoutWait .clk .released) (onBus Lines.released (owning .reset) [] s0))).flags =
      { eoi := false, atn := false, err := true, rst := true } := by decide

/-- V20: DATA cells p p p r p r p p are 0x28. -/
theorem test_receive_0x28 :
    let cells : List LineState :=
      [.pulled, .pulled, .pulled, .released, .pulled, .released, .pulled, .pulled]
    let s := onBus (owning .data) Lines.released (talkerScriptOf .released 5 false cells) s0
    (after (exec .receiveByte s)).result = .completed (.byte 0x28#8) ∧
    (after (exec .receiveByte s)).flags = { eoi := false, atn := false, err := false, rst := false } := by decide +kernel

/-- V22: eight released cells after CLK stayed released for `T_EOI`. -/
theorem test_receive_0xFF_eoi :
    let s := onBus (owning .data) Lines.released (talkerScriptOf .released 100 true (List.replicate 8 .released)) s0
    (after (exec .receiveByte s)).result = .completed (.byte 0xFF#8) ∧
    (after (exec .receiveByte s)).flags.eoi = true := by decide +kernel

/-- V25: 0x53 goes out as r r p p r p r p. -/
theorem test_send_0x53 :
    let s := onBus (owning .clk) Lines.released (listenerScript 5 false) s0
    let t := after (exec (.sendByte 0x53#8 false) s)
    t.result = .completed (.bool true) ∧
    dataAtClkRelease .released (newEvents s.bus t.bus) =
      .released :: [.released, .released, .pulled, .pulled, .released, .pulled, .released, .pulled] := by decide +kernel

/-- V35: the listener never releases DATA. -/
theorem test_send_no_listener :
    let t := after (exec (.sendByte 0x53#8 false) (onBus (owning .clk) (owning .data) [] s0))
    t.result = .completed (.bool false) ∧ t.flags.err = true ∧ t.bus.own.clk = .released := by decide +kernel

/-- V37. -/
theorem test_turnAround :
    let t := after (exec .turnAround (onBus (owning .data) Lines.released [] s0))
    t.result = .completed (.bool true) ∧ t.turn = .turned ∧ t.bus.own = owning .clk := by decide +kernel

/-- V38. -/
theorem test_turnAround_twice :
    (after (exec .turnAround inTalkHook)).cause = .protocolError ∧ (after (exec .turnAround inTalkHook)).causeInfo = 1#8 ∧
    (after (exec .turnAround inTalkHook)).bus = inTalkHook.bus := by decide +kernel

/-- V39. -/
theorem test_undoTurnAround :
    let t := after (exec .undoTurnAround (onBus (owning .clk) (owning .clk) [] inTalkHook))
    t.result = .completed (.bool true) ∧ t.turn = .undone ∧ t.bus.own = owning .data := by decide +kernel

/-- V42. -/
theorem test_undoTurnAround_first :
    (after (exec .undoTurnAround s0)).cause = .protocolError ∧ (after (exec .undoTurnAround s0)).causeInfo = 0#8 := by
  decide +kernel

/-! ### The Device Registry -/

/-- V75: chain order is insertion order. -/
theorem test_addDevice : (after (exec (.addDevice 3 4) s0)).slots = [⟨8, 1⟩, ⟨9, 2⟩, ⟨4, 3⟩] ∧
    (after (exec (.addDevice 3 4) s0)).enabled = 0x300#32 := by decide
/-- V70. -/
theorem test_addDevice_duplicate : (after (exec (.addDevice 3 8) s0)).cause = .configError ∧
    (after (exec (.addDevice 3 8) s0)).causeInfo = 8#8 ∧
    (after (exec (.addDevice 3 8) s0)).result = .completed (.bool false) := by decide
/-- V76. -/
theorem test_removeDevice : (after (exec (.removeDevice 1) s0)).slots = [⟨9, 2⟩] ∧
    (after (exec (.removeDevice 1) s0)).enabled = 0x300#32 := by decide
/-- V77. -/
theorem test_removeDevice_unknown : (after (exec (.removeDevice 3) s0)).result = .completed (.bool false) ∧
    (after (exec (.removeDevice 3) s0)).cause = .none := by decide
/-- V78. -/
theorem test_deviceById : (after (exec (.deviceById 9) s0)).result = .completed (.ref (some 2)) := by decide
/-- V81. -/
theorem test_changeDeviceId : (after (exec (.changeDeviceId 1 10) s0)).slots = [⟨10, 1⟩, ⟨9, 2⟩] ∧
    (after (exec (.changeDeviceId 1 10) s0)).enabled = 0x300#32 := by decide
/-- V80. -/
theorem test_changeDeviceId_in_use : (after (exec (.changeDeviceId 1 9) s0)).cause = .configError ∧
    (after (exec (.changeDeviceId 1 9) s0)).slots = s0.slots := by decide
/-- V83. -/
theorem test_numDevices : (after (exec .numDevices s0)).result = .completed (.count 2) := by decide
/-- V84. -/
theorem test_isEnabled : (after (exec (.isEnabled 8) s0)).result = .completed (.bool true) ∧
    (after (exec (.isEnabled 10) s0)).result = .completed (.bool false) ∧
    (after (exec (.isEnabled 31) s0)).result = .completed (.bool false) := by decide
/-- V85. -/
theorem test_enableDevice : (after (exec (.enableDevice 31) s0)).enabled = 0x80000300#32 := by decide
/-- V86. -/
theorem test_disableDevice : (after (exec (.disableDevice 8) s0)).enabled = 0x200#32 := by decide
/-- V87. -/
theorem test_disableDevice_refused :
    (after (exec (.disableDevice 8) { s0 with record := dataRecord })).cause = .refused ∧
    (after (exec (.disableDevice 8) { s0 with record := dataRecord })).enabled = 0x300#32 := by decide

/-! ### The data primitives -/

/-- V91. -/
theorem test_send :
    let t := after (exec (.send 0x41#8) (onBus (owning .clk) Lines.released (listenerScript 5 false) inTalkHook))
    t.result = .completed (.bool true) ∧ t.ctl = .hook (.processCommand talkRecord false) false := by decide +kernel
/-- V97. -/
theorem test_send_refused : (after (exec (.send 0x41#8) s0)).cause = .refused ∧
    (after (exec (.send 0x41#8) s0)).result = .refused (.bool false) := by decide
/-- V90, the buffer. -/
theorem test_sendBuffer :
    let t := after (exec (.sendBuffer [0x41#8] 1) (onBus (owning .clk) Lines.released (listenerScript 5 false) inTalkHook))
    t.result = .completed (.bool true) ∧ t.bus.own = owning .clk := by decide +kernel
/-- V90, the last byte. -/
theorem test_sendEOI :
    let t := after (exec (.sendEOI 0x42#8) (onBus (owning .clk) Lines.released (listenerScript 5 true) inTalkHook))
    t.result = .completed (.bool true) ∧ t.ctl = .hook (.processCommand talkRecord false) true ∧
    t.bus.own = Lines.released := by decide +kernel
/-- V92. -/
theorem test_sendFileNotFound :
    (after (exec .sendFileNotFound inTalkHook)).bus.own = Lines.released ∧
    (after (exec .sendFileNotFound inTalkHook)).flags.err = false ∧
    (after (exec .sendFileNotFound inTalkHook)).ctl = .hook (.processCommand talkRecord false) true := by decide
/-- V93. -/
theorem test_receive_wrong_role : (after (exec .receive inTalkHook)).result = .refused (.byte 0x00#8) := by decide
/-- V99: a byte under ATN. -/
theorem test_receive_under_atn :
    let t := after (exec .receive (onBus (owning .data) Lines.released (talkerScript .pulled 5 false 0x3F#8) inListenHook))
    t.result = .completed (.byte 0x3F#8) ∧ t.cause = .malformed ∧ t.causeInfo = 0x3F#8 ∧
    t.flags = { eoi := false, atn := true, err := true, rst := false } := by decide +kernel
/-- V95: two bytes of four. -/
theorem test_receiveBuffer :
    let s := onBus (owning .data) Lines.released
      (talkerScript .released 5 false 0x53#8 ++ talkerScript .released 100 true 0x41#8) inListenHook
    (after (exec (.receiveBuffer (List.replicate 4 0x00#8) 4) s)).result =
      .completed (.buffer false [0x53#8, 0x41#8, 0x00#8, 0x00#8]) := by decide +kernel

/-! ### Steps without an instruction -/

/-- The parameters with `MAXLEN = 1`: one payload byte, and one over. -/
def tiny : Params := { params with maxLen := 1, maxLen_pos := by decide +kernel }

/-- P5: the byte at the bound is stored, one over is Overflow with that byte. -/
theorem test_payload_bound :
    let at0 := onBus (owning .data) Lines.released (envTo .released .pulled .released 0 :: talkerScript .released 5 false 0x41#8)
      { atPayload with cfg := tiny }
    let t := after (step at0)
    t.record.memRead 0 = some 0x41#8 ∧ t.ctl = .payload ∧
    (after (step (onBus t.bus.own Lines.released
      (envTo .released .pulled .released 0 :: talkerScript .released 5 false 0x45#8) t))).cause = .overflow := by decide +kernel

/-- V69: `talkData` answers none at once. -/
theorem test_talkData_none :
    let t := after (step { inTalkHook with ctl := .hook .talkData false, device := [.ret none] })
    t.result = .completed (.mode .talk) ∧ t.bus.own = Lines.released ∧ t.active = some 8 := by decide

/-- P3 step 5: B's `reset()` returns and the call returns RESET; a pull of ATN the host program left ends (10_state.md R52). -/
theorem test_reset_done :
    let t := after (step (onBus { owning .data with atn := .pulled } Lines.released []
      { inListenHook with ctl := .hook (.reset 2 []) false, cause := .reset }))
    t.result = .completed (.mode .reset) ∧ t.active = none ∧ t.resetLatch = true ∧ t.bus.own = Lines.released := by decide

/-- A host program's own pull of SRQ ends too, and the environment moves before each release (10_state.md R52; log 31). -/
theorem test_reset_lets_srq_go :
    let s := onBus (owning .srq) Lines.released (List.replicate 9 ⟨Lines.released, 1⟩)
      { inListenHook with ctl := .hook (.reset 2 []) false, cfg := { params with hasSrq := true } }
    let t := after (step s)
    t.bus.own = Lines.released ∧ t.bus.wire = [⟨4, .srq, .released⟩] ∧ t.bus.env.length = 4 := by decide

/-- Inside A's hook after an OPEN with the payload 0x41. -/
def inOpenHook : State :=
  let r := { openRecord with aux := [(0, 0x41#8)], auxLen := 1 }
  { inListenHook with ctl := .hook (.processCommand r false) false, record := r }

/-- A device reads the payload: below `rec.aux_len`, and at it (93_implementation_defined.md F7). -/
theorem test_device_reads_payload :
    (after (step { inOpenHook with device := [.readAux 0] })).result = .completed (.byte 0x41#8) ∧
    (after (step { inOpenHook with device := [.readAux 1] })).cause = .refused ∧
    (after (step { inOpenHook with device := [.writeAux 0 0x42#8] })).record = inOpenHook.record := by decide

/-- A Line Driver request from a hook is refused and touches no line (30_encoding.md R103). -/
theorem test_device_pull_refused :
    let t := after (step { inListenHook with device := [.request { request 0x01#5 with line := 0b001#3 }] })
    t.cause = .refused ∧ t.causeInfo = 0x01#8 ∧ t.bus = inListenHook.bus := by decide

/-! ### Witnesses: every obligation's hypotheses are met together -/

/-- What `Bus.Holds` asks of a bus whose environment has no move left. -/
theorem holds_of_quiet (b : Bus) (l : Line) (x : LineState) (h : b.env = []) (hx : b.ext.get l = x) : b.Holds l x :=
  ⟨hx, by simp [h]⟩

theorem witness_DecodeOfEncode : WellFormed (.listen 0) = true ∧ WellFormed (.listen 30) = true ∧
    WellFormed (.talk 30) = true ∧ WellFormed (.invalid01_1F 1) = true ∧ WellFormed (.invalid01_1F 31) = true ∧
    WellFormed (.sendBuffer [0x41#8] 1) = true ∧ WellFormed (.receiveBuffer [] 0) = true := by decide

/-- The ends of each range clause. -/
theorem witness_ClassificationByByteRanges :
    (∀ b ∈ [0x20#8, 0x3E#8], 0x20 ≤ b.toNat ∧ b.toNat ≤ 0x3E) ∧ (∀ b ∈ [0x40#8, 0x5E#8], 0x40 ≤ b.toNat ∧ b.toNat ≤ 0x5E) ∧
    (∀ b ∈ [0x60#8, 0x6F#8], 0x60 ≤ b.toNat ∧ b.toNat ≤ 0x6F) ∧ (∀ b ∈ [0xE0#8, 0xEF#8], 0xE0 ≤ b.toNat ∧ b.toNat ≤ 0xEF) ∧
    (∀ b ∈ [0xF0#8, 0xFF#8], 0xF0 ≤ b.toNat) ∧ (∀ b ∈ [0x01#8, 0x1F#8], 0x01 ≤ b.toNat ∧ b.toNat ≤ 0x1F) ∧
    (∀ b ∈ [0x70#8, 0x7F#8], 0x70 ≤ b.toNat ∧ b.toNat ≤ 0x7F) ∧ (∀ b ∈ [0x80#8, 0xBF#8], 0x80 ≤ b.toNat ∧ b.toNat ≤ 0xBF) ∧
    (∀ b ∈ [0xC0#8, 0xDF#8], 0xC0 ≤ b.toNat ∧ b.toNat ≤ 0xDF) := by simp

theorem witness_ReservedSelectIsRefused :
    (∀ sel ∈ [0x09#5, 0x0F#5, 0x1E#5, 0x1F#5], decodeOp (OpRequest.ofSelect sel) = .reject .reservedSelect) ∧
    { s0 with host := [OpRequest.ofSelect 0x09#5] }.ctl = .idle ∧
    { inTalkHook with device := [.request (OpRequest.ofSelect 0x1F#5)] }.ctl =
      .hook (.processCommand talkRecord false) false := by decide

theorem witness_AbsentLineIsRefused : 5 ≤ ({ request 0x01#5 with line := 5 } : OpRequest).line.toNat ∧
    5 ≤ ({ request 0x08#5 with line := 7 } : OpRequest).line.toNat ∧ s0.cfg.hasSrq = false := by decide

/-- A request at each of its two places, and a command byte at each of the four. -/
theorem witness_StepRunsTheDecodedInstruction :
    (∃ i, s0.ctl = .idle ∧ { s0 with host := [request 0x14#5] }.host = [request 0x14#5] ∧
      decode (.op (request 0x14#5)) = .instr i) ∧
    (s0.ctl = .idle ∧ s0.host = []) ∧
    (∀ sel ∈ [0x18#5, 0x1D#5], ∃ i h pd, { inTalkHook with device := [.request (request sel)] }.ctl = .hook h pd ∧
      0x18 ≤ (request sel).op.toNat ∧ decode (.op (request sel)) = .instr i) ∧
    (∃ h pd, { inTalkHook with device := [.hang] }.ctl = .hook h pd) ∧
    (∀ s ∈ [s0, atSecondary, atPayload], ∃ b u i,
      ((s.placeCommand 0x28#8).ctl = .primary ∨ (s.placeCommand 0x28#8).ctl = .secondary ∨
        (s.placeCommand 0x28#8).ctl = .payload) ∧
      (s.placeCommand 0x28#8).sample .reset = .released ∧
      ((s.placeCommand 0x28#8).afterRead .reset).receiveByte = (b, u) ∧
      u.flags.rst = false ∧ u.flags.err = false ∧ u.flags.atn = true ∧ decode (.cmd b) = .instr i) ∧
    (∃ b u i, (atListening.placeCommand 0x3F#8).ctl = .listening ∧
      (atListening.placeCommand 0x3F#8).sample .reset = .released ∧
      ((atListening.placeCommand 0x3F#8).afterRead .reset).sample .atn = .released ∧
      (((atListening.placeCommand 0x3F#8).afterRead .reset).afterRead .atn).receiveByte = (b, u) ∧
      u.flags.rst = false ∧ u.flags.err = false ∧ u.flags.atn = true ∧ decode (.cmd b) = .instr i) := by
  refine ⟨⟨_, rfl, rfl, rfl⟩, ⟨rfl, rfl⟩, ?_, ⟨_, _, rfl⟩, ?_, ?_⟩
  · intro sel hs
    simp only [List.mem_cons, List.not_mem_nil, or_false] at hs
    rcases hs with rfl | rfl
    · exact ⟨_, _, _, rfl, by decide, rfl⟩
    · exact ⟨_, _, _, rfl, by decide, rfl⟩
  · intro s hs
    simp only [List.mem_cons, List.not_mem_nil, or_false] at hs
    rcases hs with rfl | rfl | rfl
    · exact ⟨_, _, _, .inl rfl, by decide, rfl, by decide +kernel, by decide +kernel, by decide +kernel, rfl⟩
    · exact ⟨_, _, _, .inr (.inl rfl), by decide, rfl, by decide +kernel, by decide +kernel, by decide +kernel, rfl⟩
    · exact ⟨_, _, _, .inr (.inr rfl), by decide, rfl, by decide +kernel, by decide +kernel, by decide +kernel, rfl⟩
  · exact ⟨_, _, _, rfl, by decide, by decide, rfl, by decide +kernel, by decide +kernel, by decide +kernel, rfl⟩

theorem s0_inv : s0.Inv :=
  ⟨by decide, by decide, by decide, by decide, by decide, by decide, by decide, by decide, by decide, by decide, by decide,
    by decide, rfl⟩

/-- A running call whose next step ends it in IDLE: an OPEN that UNLISTEN closed. -/
def closing : State := { inListenHook with ctl := .hook (.processCommand openRecord true) false, record := openRecord }

theorem closing_inv : closing.Inv :=
  ⟨by decide, by decide, by decide, by decide, by decide, by decide, by decide, by decide, by decide, by decide, by decide,
    by decide, ⟨rfl, rfl, by decide, .inr (.inr rfl)⟩⟩

theorem witness_StepKeepsInvariant : s0.Inv ∧ step s0 = .next (after (step s0)) ∧ closing.Inv ∧
    step closing = .next (after (step closing)) := ⟨s0_inv, rfl, closing_inv, rfl⟩

theorem witness_RunningCallKeepsSetup : closing.ctl ≠ .idle ∧ step closing = .next (after (step closing)) :=
  ⟨by decide, rfl⟩

theorem witness_ReturnToIdleLetsGo : closing.Inv ∧ closing.ctl ≠ .idle ∧ step closing = .next (after (step closing)) ∧
    (after (step closing)).ctl = .idle ∧ (after (step closing)).record.mode = .idle :=
  ⟨closing_inv, by decide, rfl, by decide, by decide⟩

theorem witness_EngineNeverPullsAtnResetOrSrq :
    (∀ l ∈ [Line.atn, .srq, .reset], undrivenLine l = true ∧ s0.bus.own.get l = .released ∧
      ∀ u, fetch s0 ≠ .run (.pull l) u) ∧ step s0 = .next (after (step s0)) := by
  have f : fetch s0 = .run .service s0 := rfl
  exact ⟨fun l hl => ⟨by revert l; decide, by revert l; decide, fun u => by rw [f]; simp⟩, rfl⟩

theorem witness_TimeAndWireOnlyGrow : step closing = .next (after (step closing)) := rfl

/-- The parameters of an engine that has an SRQ line. -/
def withSrq : Params := { params with hasSrq := true, maxLen_pos := by decide +kernel }

/-- Every line, SRQ with `HAS_SRQ`; the engine pulls the line already, and does not. -/
theorem witness_PullDrivesTheLine :
    (∀ l ∈ [Line.atn, .clk, .data, .srq, .reset], { s0 with cfg := withSrq }.linePresent l = true) ∧
    inTalkHook.linePresent .clk = true ∧ inTalkHook.bus.own.get .clk = .pulled ∧
    { s0 with cfg := { params with hasSrq := false } }.linePresent .srq = false := by decide
theorem witness_ReleaseLetsTheLineGo : inTalkHook.linePresent .clk = true ∧ inTalkHook.linePresent .data = true ∧
    inTalkHook.bus.own.get .data = .released ∧
    { s0 with cfg := { params with hasSrq := false } }.linePresent .srq = false := by decide
theorem witness_ReadReleasesAndSenses : inTalkHook.linePresent .clk = true ∧ inTalkHook.linePresent .reset = true := by decide

theorem witness_WaitOnSteadyLines :
    s0.linePresent .clk = true ∧ s0.bus.Holds .reset .released ∧ s0.bus.Holds .clk .released ∧
    LineState.released ≠ .pulled ∧
    (onBus Lines.released (owning .reset) [] s0).bus.Holds .reset .pulled :=
  ⟨by decide, holds_of_quiet _ _ _ rfl rfl, holds_of_quiet _ _ _ rfl rfl, by decide, holds_of_quiet _ _ _ rfl rfl⟩
/-- A wait that sees the line, one that passes its deadline, one that sees RESET. -/
theorem witness_WaitResultIsSound : s0.linePresent .clk = true ∧
    (after (exec (.timeoutWait .clk .released) s0)).result = .completed (.bool true) ∧
    (after (exec (.timeoutWait .clk .pulled) s0)).result = .completed (.bool false) ∧
    (after (exec (.timeoutWait .clk .pulled) (onBus Lines.released (owning .reset) [] s0))).result = .completed (.bool false) := by
  decide
/-- CLK that comes late, after 900 of `T_TIMEOUT = 1000`: for three moves and then not, and for good, after each number of moves
an iteration can be at; and the last of them seen by the engine (R141). -/
theorem witness_WaitResultIsSound_late :
    (∀ n ∈ [3, 4, 5], ∀ p ∈ [(3, [⟨owning .clk, 5000⟩]), (1, ([] : List EnvMove))],
      let early : List EnvMove := ⟨owning .clk, 900⟩ :: List.replicate n ⟨owning .clk, 0⟩
      let seen : List EnvMove := List.replicate p.1 ⟨Lines.released, 33⟩
      (onBus Lines.released (owning .clk) (early ++ seen ++ p.2) s0).bus.env = early ++ seen ++ p.2 ∧
      (seen.length = 3 ∨ (seen ≠ [] ∧ p.2 = [])) ∧ (∀ m ∈ early ++ seen, m.ext.reset = .released) ∧
      (∀ m ∈ seen, m.ext.get .clk = .released) ∧ ((early ++ seen).map fun m => m.dt).sum < params.tTimeout) ∧
    (let s := onBus Lines.released (owning .clk) (⟨owning .clk, 900⟩ :: List.replicate 5 ⟨owning .clk, 0⟩ ++ [⟨Lines.released, 33⟩]) s0;
      (after (exec (.timeoutWait .clk .released) s)).result = .completed (.bool true) ∧
      (after (exec (.timeoutWait .clk .released) s)).bus.now = 933) := by decide +kernel

/-- Both framings; with EOI, `T_EOI` exactly; without, CLK released at the first sample no more, and for 50 of `T_EOI = 200`
(V31). -/
theorem witness_ReceiveByteTakesTheTalkersByte :
    (onBus Lines.released Lines.released (talkerScript .pulled 0 false 0x00#8) s0).bus.env =
      List.replicate (2 * 0) (envTo .pulled .released .released 0) ++ talkerScript .pulled 0 false 0x00#8 ++ [] ∧
    (onBus Lines.released Lines.released (talkerScript .released 100 true 0xFF#8) s0).bus.env =
      List.replicate (2 * 0) (envTo .released .released .released 100) ++ talkerScript .released 100 true 0xFF#8 ++ [] ∧
    params.tEoi ≤ 2 * 100 ∧
    (onBus Lines.released Lines.released (List.replicate 2 (envTo .released .released .released 25) ++
        talkerScript .released 25 false 0xFF#8) s0).bus.env =
      List.replicate (2 * 1) (envTo .released .released .released 25) ++ talkerScript .released 25 false 0xFF#8 ++ [] ∧
    2 * 1 * 25 < params.tEoi := by decide +kernel
/-- A byte that is received, a wait that fails, and a byte with EOI (the reset flag held, as a clause asks); V31, CLK released
for 50 and then pulled: no EOI; and a call that is over before `T_EOI`. -/
theorem witness_ReceiveByteAlwaysEnds :
    (after (exec .receiveByte (onBus Lines.released Lines.released (talkerScript .released 0 false 0x41#8) s0))).flags.err =
      false ∧
    (after (exec .receiveByte (onBus Lines.released (owning .clk) [] s0))).flags.err = true ∧
    { s0 with flags := { s0.flags with rst := true } }.flags.rst = true ∧
    (after (exec .receiveByte (onBus Lines.released Lines.released (talkerScript .released 100 true 0x41#8) s0))).flags.eoi =
      true ∧
    (let t := after (exec .receiveByte (onBus Lines.released Lines.released
        (List.replicate 2 (envTo .released .released .released 25) ++ talkerScript .released 25 false 0x41#8) s0));
      t.flags.eoi = false ∧ t.result = .completed (.byte 0x41#8)) ∧
    (after (exec .receiveByte (onBus Lines.released Lines.released (talkerScript .released 0 false 0x41#8) s0))).bus.now <
      s0.bus.now + s0.cfg.tEoi := by decide +kernel
theorem witness_SendByteIsAccepted :
    (onBus (owning .clk) Lines.released (listenerScript 0 false) s0).bus.env = listenerScript 0 false ++ [] ∧
    (onBus (owning .clk) Lines.released (listenerScript 9 true) s0).bus.env = listenerScript 9 true ++ [] := by
  decide +kernel
/-- A byte that is taken, from the talker's state with CLK pulled and DATA released, and one that is not. -/
theorem witness_SendByteClocksOutTheBits :
    let s := onBus (owning .clk) Lines.released (listenerScript 5 false) s0
    (after (exec (.sendByte 0x53#8 false) s)).result = .completed (.bool true) ∧ s.bus.own.clk = .pulled ∧
    s.bus.own.data = .released ∧ (after (exec (.sendByte 0x53#8 false) s0)).result = .completed (.bool false) := by
  decide +kernel
theorem witness_SentByteIsReceived :
    let s := onBus (owning .clk) Lines.released (listenerScript 5 true) s0
    let t := after (exec (.sendByte 0x0D#8 true) s)
    let cells : List LineState := [.released, .pulled, .released, .released, .pulled, .pulled, .pulled, .pulled]
    let r := onBus (owning .data) Lines.released (talkerScriptOf .released 100 true cells) s0
    exec (.sendByte 0x0D#8 true) s = .next t ∧ t.result = .completed (.bool true) ∧ cells.length = 8 ∧
    cells <:+ dataAtClkRelease s.bus.own.data (newEvents s.bus t.bus) ∧
    r.bus.env = talkerScriptOf .released 100 true cells ++ [] ∧ r.cfg.tEoi ≤ 2 * 100 := by
  intro s t cells r
  exact ⟨rfl, by decide +kernel, rfl, by decide +kernel, by decide +kernel, by decide⟩

theorem witness_TurnaroundSwapsTheRoles :
    (s0.turn = .notTurned ∧ s0.bus.Holds .reset .released ∧ s0.bus.Holds .clk .released) ∧
    (inTalkHook.turn = .turned ∧ (onBus (owning .clk) (owning .clk) [] inTalkHook).bus.Holds .reset .released ∧
      (onBus (owning .clk) (owning .clk) [] inTalkHook).bus.Holds .clk .pulled) :=
  ⟨⟨rfl, holds_of_quiet _ _ _ rfl rfl, holds_of_quiet _ _ _ rfl rfl⟩,
    ⟨rfl, holds_of_quiet _ _ _ rfl rfl, holds_of_quiet _ _ _ rfl rfl⟩⟩
/-- The waits that fail: CLK held pulled before the turnaround, CLK left released after the undo, and RESET held in each. -/
theorem witness_TurnaroundSwapsTheRoles_late :
    (let s := onBus (owning .data) (owning .clk) [] s0;
      s.turn = .notTurned ∧ s.bus.Holds .reset .released ∧ s.bus.Holds .clk .pulled) ∧
    (inTalkHook.turn = .turned ∧ inTalkHook.bus.Holds .reset .released ∧ inTalkHook.bus.Holds .clk .released) ∧
    ((onBus (owning .data) (owning .reset) [] s0).turn = .notTurned ∧
      (onBus (owning .data) (owning .reset) [] s0).bus.Holds .reset .pulled) ∧
    ((onBus (owning .clk) (owning .reset) [] inTalkHook).turn = .turned ∧
      (onBus (owning .clk) (owning .reset) [] inTalkHook).bus.Holds .reset .pulled) :=
  ⟨⟨rfl, holds_of_quiet _ _ _ rfl rfl, holds_of_quiet _ _ _ rfl rfl⟩,
    ⟨rfl, holds_of_quiet _ _ _ rfl rfl, holds_of_quiet _ _ _ rfl rfl⟩, ⟨rfl, holds_of_quiet _ _ _ rfl rfl⟩,
    ⟨rfl, holds_of_quiet _ _ _ rfl rfl⟩⟩

/-- ATN let go only after this many moves of a wait that has not passed its deadline, and then these moves. -/
def atnLate (n : Nat) (rest : List EnvMove) (s : State) : State :=
  onBus s.bus.own (owning .atn) (List.replicate n ⟨owning .atn, 10⟩ ++ [⟨Lines.released, 10⟩] ++ rest) s

/-- `turnAround` when turned and when undone, `undoTurnAround` before and after; and V68's second talk phase, ATN let go only after
the byte, as secondary too, with a turnaround to undo and without; without one, RESET pulled later is not seen. -/
theorem witness_SecondReversalIsProtocolError :
    (inTalkHook.turn ≠ .notTurned ∧ s0.turn ≠ .turned ∧ { s0 with turn := .undone }.turn ≠ .notTurned ∧
      { s0 with turn := .undone }.turn ≠ .turned) ∧
    (∀ n ∈ [0, 2, 5], ∀ p ∈ [(Turn.turned, ([] : List EnvMove)), (.undone, []), (.undone, [⟨Lines.released, 0⟩, ⟨Lines.released, 0⟩,
        ⟨Lines.released, 0⟩, ⟨owning .reset, 0⟩])],
      let s := atnLate n p.2 { atTalkSecondary with turn := p.1 }
      ((s.ctl = .secondary ∧ s.record.mode = .talk) ∧ { s with ctl := .primary }.role = .talker) ∧
      (s.timeoutWait .atn .released).1 = true ∧ s.turn ≠ .notTurned ∧
      let v := (s.timeoutWait .atn .released).2.turnAround.2
      v.flags.rst = false ∧ ¬ v.UndoSeesReset) := by
  unfold State.UndoSeesReset
  decide +kernel

theorem witness_ListenAndTalkSelectTheDevice : atPrimary.ctl = .primary ∧ (slotById atPrimary.slots 8).isSome = true ∧
    maskHas atPrimary.enabled 8 = true := by decide
/-- An id that is not registered, and one that is not enabled (P2). -/
theorem witness_UnaddressedDeviceIsIgnored : atPrimary.ctl = .primary ∧ slotById atPrimary.slots 10 = none ∧
    maskHas { atPrimary with enabled := 0x200#32 }.enabled 8 = false := by decide
theorem witness_UnlistenAndUntalkClearTheSelection : atPrimary.ctl = .primary ∧ atSecondary.ctl = .secondary := by decide
theorem witness_UnlistenEndsPayloadAndListenData : atPayload.ctl = .payload ∧ atListening.ctl = .listening := by decide
/-- As the secondary of a LISTEN, and in a later episode by the standing role. -/
theorem witness_SecondaryOfAListenerReachesTheDevice : (atSecondary.ctl = .secondary ∧ atSecondary.record.mode = .listen) ∧
    ({ atPrimary with role := .listener, active := some 8 }.ctl = .primary ∧
      { atPrimary with role := .listener, active := some 8 }.role = .listener) := by decide
/-- ATN, and CLK after it, let go only after the byte (R176): the ordinary talk transaction, as secondary and in a later episode,
RESET pulled once the bus has been taken; and lines that hold still. -/
theorem witness_SecondaryOfATalkerTakesTheBus :
    (∀ c ∈ [Ctl.secondary, .primary],
      let s := onBus (owning .data) { owning .atn with clk := .pulled }
        (List.replicate 5 ⟨{ owning .atn with clk := .pulled }, 20⟩ ++ List.replicate 5 ⟨owning .clk, 20⟩ ++
          List.replicate 8 ⟨Lines.released, 20⟩ ++ [⟨owning .reset, 0⟩]) { atTalkSecondary with ctl := c }
      (s.ctl = .secondary ∧ s.record.mode = .talk ∨ s.ctl = .primary ∧ s.role = .talker) ∧
      (s.timeoutWait .atn .released).1 = true ∧ (s.timeoutWait .atn .released).2.turnAround.1 = true) ∧
    (atTalkSecondary.flags.rst = false ∧ atTalkSecondary.bus.Holds .reset .released ∧
      atTalkSecondary.bus.Holds .atn .released ∧ atTalkSecondary.turn = .notTurned ∧ atTalkSecondary.bus.Holds .clk .released ∧
      (onBus Lines.released (owning .clk) [] atTalkSecondary).bus.Holds .clk .pulled ∧
      (onBus Lines.released (owning .atn) [] atTalkSecondary).bus.Holds .atn .pulled) :=
  ⟨by decide +kernel, rfl, holds_of_quiet _ _ _ rfl rfl, holds_of_quiet _ _ _ rfl rfl, rfl, holds_of_quiet _ _ _ rfl rfl,
    holds_of_quiet _ _ _ rfl rfl, holds_of_quiet _ _ _ rfl rfl⟩
/-- ATN that is not let go in time, before the turnaround and after it, and CLK that is not; RESET pulled later, where nothing
samples it any more. -/
theorem witness_SecondaryOfATalkerTakesTheBus_late :
    (∀ p ∈ [(Turn.notTurned, [⟨owning .reset, 0⟩]), (.turned, []), (.undone, [⟨owning .reset, 0⟩])],
      let s := onBus (owning .data) (owning .atn) (List.replicate 4 ⟨owning .atn, 1000⟩ ++ p.2) { atTalkSecondary with turn := p.1 }
      (s.timeoutWait .atn .released).1 = false ∧
      let u := (s.timeoutWait .atn .released).2
      u.flags.rst = false ∧ ¬ u.UndoSeesReset) ∧
    (let s := onBus (owning .data) (owning .clk) (List.replicate 3 ⟨owning .clk, 0⟩ ++ List.replicate 4 ⟨owning .clk, 1000⟩ ++
        [⟨owning .reset, 0⟩]) atTalkSecondary;
      (s.timeoutWait .atn .released).1 = true ∧ s.turn = .notTurned ∧
      let w := (s.timeoutWait .atn .released).2.turnAround
      w.1 = false ∧ w.2.flags.rst = false ∧ w.2.bus.env = [⟨owning .reset, 0⟩]) := by
  unfold State.UndoSeesReset
  decide +kernel
theorem witness_EpisodeForNobodyIsNotAddressed : atPrimary.ctl = .primary ∧ atPrimary.role = .none := by decide

/-- `s` with RESET pulled after the moves it has. -/
def resetLater (s : State) : State := { s with bus := { s.bus with env := s.bus.env ++ [⟨owning .reset, 0⟩] } }

/-- The ends of the illegal ranges, a misplaced byte at each other place, and the state at each of the four places: with no
turnaround to undo RESET pulled in the next move is not seen; with one, none is pulled. -/
theorem witness_MalformedCommandIsRecovered :
    (∀ p ∈ [(Instr.invalid01_1F 1, 0x01#8), (.invalid01_1F 31, 0x1F#8), (.invalid70_7F 0, 0x70#8), (.invalid70_7F 15, 0x7F#8),
        (.invalid80_BF 0, 0x80#8), (.invalid80_BF 63, 0xBF#8), (.invalidC0_DF 0, 0xC0#8), (.invalidC0_DF 31, 0xDF#8),
        (.globalCmd, 0x00#8), (.untalk, 0x5F#8), (.openCmd 15, 0xFF#8)],
      encode p.1 = .cmd p.2 ∧ p.1 ≠ .unlisten) ∧
    (invalid01Byte 31 = 0x1F#8 ∧ invalid70Byte 15 = 0x7F#8 ∧ invalid80Byte 63 = 0xBF#8 ∧ invalidC0Byte 31 = 0xDF#8) ∧
    (∀ s ∈ [atPrimary, atSecondary, atPayload, atListening, resetLater atPrimary, resetLater atSecondary, resetLater atPayload,
        resetLater atListening, { atPrimary with turn := .turned }],
      s.flags.rst = false ∧ ¬ s.UndoSeesReset ∧
      (s.ctl = .primary ∨ s.ctl = .secondary ∨ s.ctl = .payload ∨ s.ctl = .listening)) := by
  unfold State.UndoSeesReset
  decide +kernel

/-- `s` with a talker about to send this byte, ATN as given, after `lead` samples. -/
def offered (s : State) (lead : Nat) (atn : LineState) (eoi : Bool) (b : Byte) : State :=
  onBus s.bus.own Lines.released (List.replicate lead (envTo .released .pulled .released 0) ++ talkerScript atn 100 eoi b) s

/-- The last byte that fits, without and with EOI. -/
theorem witness_PayloadByteIsStored : ∀ e ∈ [false, true], ∃ b u,
    let s := offered { atPayload with cfg := tiny } 1 .released e 0x41#8
    s.ctl = .payload ∧ s.sample .reset = .released ∧ (s.afterRead .reset).receiveByte = (b, u) ∧ u.flags.rst = false ∧
    u.flags.err = false ∧ u.flags.atn = false ∧ u.flags.eoi = e ∧ s.record.auxLen < s.cfg.maxLen := by
  intro e he
  simp only [List.mem_cons, List.not_mem_nil, or_false] at he
  rcases he with rfl | rfl
  · exact ⟨_, _, rfl, by decide, rfl, by decide +kernel, by decide +kernel, by decide +kernel, by decide +kernel, by decide⟩
  · exact ⟨_, _, rfl, by decide, rfl, by decide +kernel, by decide +kernel, by decide +kernel, by decide +kernel, by decide⟩

/-- The byte at the bound, and the byte one over; RESET pulled after the byte, and the turnaround done, are not in the way. -/
theorem witness_OneByteOverTheBoundIsOverflow : ∀ n ∈ [0, 1], ∀ f ∈ [id, resetLater, fun s => { s with turn := .turned }],
    let s := f (offered { atPayload with cfg := tiny, record := { openRecord with auxLen := n, aux := (List.range n).map (·, 0x40#8) } }
      1 .released false 0x41#8)
    s.ctl = .payload ∧ s.sample .reset = .released ∧
    let u := (s.afterRead .reset).receiveByte.2
    u.flags.rst = false ∧ u.flags.err = false ∧ u.flags.atn = false ∧ ¬ u.UndoSeesReset ∧
    (s.record.auxLen + 1 = s.cfg.maxLen ∨ s.record.auxLen = s.cfg.maxLen) := by
  unfold State.UndoSeesReset
  decide +kernel

theorem witness_ListenLoopForwardsEachByte :
    (∃ b u,
      let s := offered atListening 2 .released true 0x41#8
      s.ctl = .listening ∧ s.sample .reset = .released ∧ (s.afterRead .reset).sample .atn = .released ∧
      ((s.afterRead .reset).afterRead .atn).receiveByte = (b, u) ∧ u.flags.rst = false ∧ u.flags.err = false ∧
      u.flags.atn = false) ∧
    (let s := onBus (owning .data) (owning .atn) [] atListening;
      s.ctl = .listening ∧ s.sample .reset = .released ∧ (s.afterRead .reset).sample .atn = .pulled) :=
  ⟨⟨_, _, rfl, by decide, by decide, rfl, by decide +kernel, by decide +kernel, by decide +kernel⟩, rfl, by decide, by decide⟩

/-- Nobody sends (the wait fails); RESET pulled after the wait, and the turnaround done. -/
theorem witness_LateOrUnattendedByteEndsTheEpisode :
    ∀ s ∈ [atPrimary, atSecondary, atPayload], ∀ p ∈ [(Turn.notTurned, [⟨owning .reset, 0⟩]), (.turned, ([] : List EnvMove))],
      let s := onBus s.bus.own (owning .clk) (List.replicate 5 ⟨owning .clk, 1000⟩ ++ p.2) { s with turn := p.1 }
      (s.ctl = .primary ∨ s.ctl = .secondary ∨ s.ctl = .payload) ∧ s.sample .reset = .released ∧
      let u := (s.afterRead .reset).receiveByte.2
      u.flags.rst = false ∧ ¬ u.UndoSeesReset ∧ u.flags.err = true := by
  unfold State.UndoSeesReset
  decide +kernel
/-- A byte without ATN where a command byte is due, and nobody sends a listen byte (V64); RESET pulled after it. -/
theorem witness_LateOrUnattendedByteEndsTheEpisode_unattended :
    (∀ f ∈ [id, resetLater, fun s => { s with turn := .turned }],
      let s := f (offered atSecondary 1 .released false 0xF2#8)
      s.ctl = .secondary ∧ s.sample .reset = .released ∧
      let u := (s.afterRead .reset).receiveByte.2
      u.flags.rst = false ∧ ¬ u.UndoSeesReset ∧ u.flags.err = false ∧ u.flags.atn = false ∧ s.ctl ≠ .payload) ∧
    (let s := resetLater (onBus (owning .data) (owning .clk) (List.replicate 6 ⟨owning .clk, 1000⟩) atListening);
      s.ctl = .listening ∧ s.sample .reset = .released ∧ (s.afterRead .reset).sample .atn = .released ∧
      let u := ((s.afterRead .reset).afterRead .atn).receiveByte.2
      u.flags.rst = false ∧ ¬ u.UndoSeesReset ∧ u.flags.err = true) := by
  unfold State.UndoSeesReset
  decide +kernel

/-- RESET after this many other moves of a bus whose lines are released. -/
def resetAfter (n : Nat) : List EnvMove := List.replicate n (envTo .released .pulled .released 0) ++ [⟨owning .reset, 0⟩]

/-- RESET pulled at the sample, RESET pulled only inside the byte's waits, and a reset seen inside a hook. -/
theorem witness_ResetAbortsTheEpisode :
    (∀ s ∈ [atPrimary, atSecondary, atPayload, atListening], s.resetLatch = false ∧
      (onBus s.bus.own (owning .reset) [] s).sample .reset = .pulled) ∧
    (∀ s ∈ [atPrimary, atSecondary, atPayload],
      let s := onBus s.bus.own Lines.released (resetAfter 1) s
      s.sample .reset = .released ∧ (s.afterRead .reset).receiveByte.2.flags.rst = true) ∧
    (let s := onBus (owning .data) Lines.released (resetAfter 2) atListening;
      s.ctl = .listening ∧ s.sample .reset = .released ∧ (s.afterRead .reset).sample .atn = .released ∧
      ((s.afterRead .reset).afterRead .atn).receiveByte.2.flags.rst = true) ∧
    (let s := { inListenHook with flags := { s0.flags with rst := true } };
      s.resetLatch = false ∧ s.ctl = .hook (.processCommand dataRecord false) false ∧ s.device = [] ∧
      s.flags.rst = true) := by decide +kernel

/-- In the talk phase: the wait for ATN's release, the turnaround's wait, the top of the loop, the byte's waits, and the top
after a byte that was taken. -/
theorem witness_ResetAbortsTheTalkPhase :
    (let s := onBus Lines.released { owning .reset with atn := .pulled } [] atTalkSecondary;
      s.ctl = .secondary ∧ s.record.mode = .talk ∧ (s.timeoutWait .atn .released).1 = false ∧
      (s.timeoutWait .atn .released).2.flags.rst = true) ∧
    (let s := onBus Lines.released Lines.released (resetAfter 3) atTalkSecondary;
      (s.timeoutWait .atn .released).1 = true ∧ (s.timeoutWait .atn .released).2.turnAround.1 = false ∧
      (s.timeoutWait .atn .released).2.turnAround.2.flags.rst = true) ∧
    (let s := onBus (owning .clk) (owning .reset) [] inTalkHook;
      s.ctl = .hook (.processCommand talkRecord false) false ∧ talkRecord.mode = .talk ∧ s.device = [] ∧
      s.flags.rst = false ∧ s.flags.err = false ∧ s.sample .reset = .pulled) ∧
    (let s := onBus (owning .clk) (owning .reset) [] { inTalkHook with ctl := .hook .talkData false };
      s.flags.rst = false ∧ s.flags.err = false ∧ (s.sendByte 0x4F#8 false).2.flags.rst = true) ∧
    (let s := onBus (owning .clk) Lines.released (listenerScript 5 false ++ [⟨owning .reset, 0⟩])
        { inTalkHook with ctl := .hook .talkData false };
      (s.sendByte 0x4F#8 false).1 = true ∧ (s.sendByte 0x4F#8 false).2.sample .reset = .pulled) := by
  decide +kernel

/-- `s` in a later episode, the turnaround done, on a bus where nothing changes for `lead` moves and one timeout, and then RESET
comes: a wait takes four moves of 1000 to pass its deadline. -/
def lateThenReset (own : Lines) (lead : Nat) (move : Lines) (s : State) : State :=
  onBus own move (List.replicate (lead + 4) ⟨move, 1000⟩ ++ [⟨owning .reset, 0⟩]) { s with turn := .turned }

/-- `s` in a later episode, the turnaround done, RESET coming after the moves it has. -/
def thenReset (s : State) : State := { resetLater s with turn := .turned }

/-- RESET seen by the wait of `undoTurnAround` in a recovery: a misplaced byte at each place, a byte that does not come, a
command byte without ATN, and the byte over the bound. -/
theorem witness_ResetAbortsARecovery :
    (∀ p ∈ [(atPrimary, Instr.invalid70_7F 0), (atSecondary, .globalCmd), (atPayload, .untalk), (atListening, .openCmd 15)],
      let s := { onBus p.1.bus.own (owning .reset) [] p.1 with turn := .turned };
      s.resetLatch = false ∧ misplaced s.ctl p.2 = true ∧ s.UndoSeesReset ∧
      { p.1 with flags := { s0.flags with rst := true } }.flags.rst = true) ∧
    (∀ s ∈ [atPrimary, atSecondary, atPayload],
      let s := lateThenReset s.bus.own 1 (owning .clk) s
      s.sample .reset = .released ∧
      let u := (s.afterRead .reset).receiveByte.2
      u.flags.rst = false ∧ u.UndoSeesReset ∧ u.flags.err = true) ∧
    (let s := thenReset (offered atSecondary 1 .released false 0xF2#8);
      s.sample .reset = .released ∧
      let u := (s.afterRead .reset).receiveByte.2
      u.flags.rst = false ∧ u.UndoSeesReset ∧ u.flags.atn = false ∧ s.ctl ≠ .payload) ∧
    (let s := thenReset (offered { atPayload with cfg := tiny, record := { openRecord with auxLen := 1, aux := [(0, 0x40#8)] } } 1
        .released false 0x41#8);
      s.sample .reset = .released ∧
      let u := (s.afterRead .reset).receiveByte.2
      u.flags.rst = false ∧ u.UndoSeesReset ∧ u.flags.atn = false ∧ s.record.auxLen = s.cfg.maxLen) ∧
    (let s := lateThenReset (owning .data) 2 (owning .clk) atListening;
      s.sample .reset = .released ∧ (s.afterRead .reset).sample .atn = .released ∧
      let u := ((s.afterRead .reset).afterRead .atn).receiveByte.2
      u.flags.rst = false ∧ u.UndoSeesReset ∧ u.flags.err = true) := by
  unfold State.UndoSeesReset
  decide +kernel

/-- The same in the talk phase: ATN that is never released, the second reversal of V68, a byte nobody takes, and a failure
inside a hook. -/
theorem witness_ResetAbortsARecoveryOfATalker :
    (let s := lateThenReset Lines.released 0 (owning .atn) { atTalkSecondary with ctl := .primary };
      s.ctl = .primary ∧ s.role = .talker ∧ (s.timeoutWait .atn .released).1 = false ∧
      let u := (s.timeoutWait .atn .released).2
      u.flags.rst = false ∧ u.UndoSeesReset) ∧
    (let s := thenReset (onBus Lines.released Lines.released (List.replicate 3 ⟨Lines.released, 0⟩) atTalkSecondary);
      (s.timeoutWait .atn .released).1 = true ∧
      let u := (s.timeoutWait .atn .released).2
      u.turnAround.1 = false ∧ u.turnAround.2.flags.rst = false ∧ u.turnAround.2.UndoSeesReset) ∧
    (let s := lateThenReset (owning .clk) 1 (owning .data) { inTalkHook with ctl := .hook .talkData false };
      s.flags.rst = false ∧ s.flags.err = false ∧ (s.sendByte 0x4F#8 false).1 = false ∧
      let u := (s.sendByte 0x4F#8 false).2
      u.flags.rst = false ∧ u.UndoSeesReset) ∧
    (let s := onBus (owning .clk) (owning .reset) [] { inTalkHook with flags := { s0.flags with err := true } };
      s.flags.rst = false ∧ s.flags.err = true ∧ s.UndoSeesReset) := by
  unfold State.UndoSeesReset
  decide +kernel

theorem witness_ServiceWithAtnReleasedOnlyReports : s0.ctl = .idle ∧ s0.flags.rst = false ∧ s0.sample .reset = .released ∧
    (s0.afterRead .reset).sample .atn = .released := by decide
theorem witness_ServiceAnswersAtn :
    let s := onBus Lines.released (owning .atn) [] s0
    s.ctl = .idle ∧ s.flags.rst = false ∧ s.sample .reset = .released ∧ (s.afterRead .reset).sample .atn = .pulled := by
  decide
/-- RESET pulled, or a reset seen before; two devices, one answers and one has no move left; each place of the chain. -/
theorem witness_ResetReachesEveryDeviceOnce :
    { onBus Lines.released (owning .reset) [] s0 with device := [.ret none] }.Inv ∧
    let s := { onBus Lines.released (owning .reset) [] s0 with device := [.ret none] }
    s.ctl = .idle ∧ s.host = [] ∧ s.resetLatch = false ∧ s.sample .reset = .pulled ∧
    s.device.take s.slots.length = [.ret none] ∧ (s.slots.map fun r => r.ref) = [] ++ 1 :: [2] ∧
    (s.slots.map fun r => r.ref) = [1] ++ 2 :: [] ∧ { s0 with flags := { s0.flags with rst := true } }.flags.rst = true :=
  ⟨⟨by decide, by decide, by decide, by decide, by decide, by decide, by decide, by decide, by decide, by decide, by decide,
    by decide, rfl⟩, by decide⟩
theorem witness_ServiceStopsAtStepOne :
    (let s := { onBus Lines.released (owning .reset) [] s0 with resetLatch := true };
      s.ctl = .idle ∧ s.resetLatch = true ∧ s.sample .reset = .pulled) ∧ inListenHook.ctl ≠ .idle := by decide

/-- The device has no move left, or returns; each hook, and each end of it. -/
theorem witness_ListenHookReturns :
    (closing.flags.rst = false ∧ closing.flags.err = false ∧ closing.HookReturns ∧
      closing.ctl = .hook (.processCommand openRecord true) false ∧ openRecord.mode = .listen) ∧
    (inListenHook.flags.rst = false ∧ inListenHook.flags.err = false ∧ { inListenHook with device := [.ret none] }.HookReturns ∧
      inListenHook.ctl = .hook (.processCommand dataRecord false) false ∧ dataRecord.mode = .listen ∧
      dataRecord.kind = .data ∧ openRecord.kind ≠ .data) ∧
    { inListenHook with ctl := .hook (.listenData 0x41#8 true) false }.ctl = .hook (.listenData 0x41#8 true) false :=
  ⟨⟨rfl, rfl, .inl rfl, rfl, rfl⟩, ⟨rfl, rfl, .inr ⟨_, _, rfl⟩, by decide⟩, rfl⟩

theorem witness_TalkLoopAsksTheDevice :
    (inTalkHook.flags.rst = false ∧ inTalkHook.flags.err = false ∧
      inTalkHook.ctl = .hook (.processCommand talkRecord false) false ∧ talkRecord.mode = .talk ∧
      inTalkHook.device = [] ∧ inTalkHook.sample .reset = .released ∧
      (inTalkHook.afterRead .reset).sample .atn = .released ∧
      ((onBus (owning .clk) (owning .atn) [] inTalkHook).afterRead .reset).sample .atn = .pulled) ∧
    (let s := { inTalkHook with ctl := .hook .talkData false, device := [.ret none] };
      s.ctl = .hook .talkData false ∧ s.device = .ret none :: []) ∧
    (∀ last ∈ [false, true],
      let s := onBus (owning .clk) Lines.released (listenerScript 5 last)
        { inTalkHook with ctl := .hook .talkData false, device := [.ret (some (0x4F#8, last))] }
      s.ctl = .hook .talkData false ∧ s.device = .ret (some (0x4F#8, last)) :: [] ∧
      s.bus.env = listenerScript 5 last ++ [] ∧ s.bus.own.clk = .pulled ∧ s.bus.own.data = .released) ∧
    (let s := { inTalkHook with ctl := .hook .talkData true, device := [.ret (some (0x4F#8, false))] };
      s.ctl = .hook .talkData true ∧ s.device = .ret (some (0x4F#8, false)) :: []) := by decide +kernel
/-- A byte that was taken, the last or another, and then ATN released or pulled. -/
theorem witness_TalkLoopAsksTheDevice_next : ∀ last ∈ [false, true], ∀ atn ∈ [LineState.released, .pulled],
    let s := onBus (owning .clk) Lines.released (listenerScript 5 last ++ [envTo .released .released .released 5, envTo atn .released .released 5])
      { inTalkHook with ctl := .hook .talkData false, device := [.ret (some (0x4F#8, last))] }
    s.ctl = .hook .talkData false ∧ s.device = .ret (some (0x4F#8, last)) :: [] ∧ (s.sendByte 0x4F#8 last).1 = true ∧
    let u := (s.sendByte 0x4F#8 last).2
    u.flags.rst = false ∧ u.sample .reset = .released ∧ (u.afterRead .reset).sample .atn = atn := by decide +kernel
/-- Nobody takes the byte the device answers; the turnaround is undone and sees no RESET, or was undone before and RESET comes
after the wait. -/
theorem witness_TalkLoopAsksTheDevice_late :
    ∀ s ∈ [onBus (owning .clk) (owning .data) [] inTalkHook,
      resetLater (onBus (owning .clk) (owning .data) (List.replicate 5 ⟨owning .data, 1000⟩) { inTalkHook with turn := .undone })],
    let s := { s with ctl := .hook .talkData false, device := [.ret (some (0x4F#8, false))] }
    s.ctl = .hook .talkData false ∧ s.device = .ret (some (0x4F#8, false)) :: [] ∧ (s.sendByte 0x4F#8 false).1 = false ∧
    let u := (s.sendByte 0x4F#8 false).2
    u.flags.rst = false ∧ ¬ u.UndoSeesReset := by
  unfold State.UndoSeesReset
  decide +kernel

/-- A talker's hook, the turnaround to be undone with no RESET, and a listener's, with RESET pulled in the next move. -/
theorem witness_FailureInsideAHookIsRecovered :
    (let s := { inTalkHook with flags := { s0.flags with err := true }, cause := .timeout };
      s.ctl = .hook (.processCommand talkRecord false) false ∧ s.device = [] ∧ s.flags.rst = false ∧
      s.flags.err = true ∧ ¬ s.UndoSeesReset) ∧
    (let s := resetLater { inListenHook with flags := { s0.flags with err := true }, cause := .timeout };
      s.ctl = .hook (.processCommand dataRecord false) false ∧ s.device = [] ∧ s.flags.rst = false ∧
      s.flags.err = true ∧ ¬ s.UndoSeesReset) := by
  unfold State.UndoSeesReset
  decide +kernel

/-- Both ends of the assignable ids. -/
theorem witness_AddDeviceAppends : s0.record.mode = .idle ∧ s0.ctl = .idle ∧
    (∀ id ∈ [(4 : DeviceId), 30], 4 ≤ id.toNat ∧ id.toNat ≤ 30 ∧ ∀ r ∈ s0.slots, r.deviceId ≠ id ∧ r.ref ≠ 3) ∧
    s0.slots.length ≠ Config.nSlots := by decide

/-- 27 registrations: the chain is full. -/
def fullChain : List Registration := (List.range 27).map fun n => ⟨BitVec.ofNat 5 (n + 4), n⟩

/-- Out of range at both ends, a duplicate id, a duplicate reference, and a full chain with the id free: by I1 and I2 no run
reaches one (27 ids are assignable), so the witness holds the id 0. -/
theorem witness_AddDeviceRejectsInOrder : s0.record.mode = .idle ∧ s0.ctl = .idle ∧
    ((3 : DeviceId).toNat < 4 ∧ 30 < (31 : DeviceId).toNat) ∧ (∃ r ∈ s0.slots, r.deviceId = (8 : DeviceId)) ∧
    ((∀ r ∈ s0.slots, r.deviceId ≠ (10 : DeviceId)) ∧ ∃ r ∈ s0.slots, r.ref = 1) ∧
    (let slots := (⟨0, 99⟩ : Registration) :: fullChain.tail;
      (∀ r ∈ slots, r.deviceId ≠ (4 : DeviceId)) ∧ slots.length = Config.nSlots) := by decide

theorem witness_RemoveDeviceClosesTheGap : s0.record.mode = .idle ∧ s0.ctl = .idle ∧
    (s0.slots = [⟨8, 1⟩] ++ ⟨9, 2⟩ :: [] ∧ ∀ q ∈ [(⟨8, 1⟩ : Registration)], q.ref ≠ 2) ∧ (∀ r ∈ s0.slots, r.ref ≠ 3) := by
  decide
theorem witness_DeviceByIdScansTheChain : (s0.slots = [⟨8, 1⟩] ++ ⟨9, 2⟩ :: [] ∧
    ∀ q ∈ [(⟨8, 1⟩ : Registration)], q.deviceId ≠ 9) ∧ (∀ r ∈ s0.slots, r.deviceId ≠ 3) ∧ s0.Inv ∧
    (3 : DeviceId).toNat < 4 ∧ (31 : DeviceId).toNat = 31 := ⟨by decide, by decide, s0_inv, by decide, by decide⟩
theorem witness_ChangeDeviceIdRenumbersInPlace : s0.record.mode = .idle ∧ s0.ctl = .idle ∧
    (s0.slots = [] ++ ⟨8, 1⟩ :: [⟨9, 2⟩] ∧ (∀ id ∈ [(4 : DeviceId), 30], 4 ≤ id.toNat ∧ id.toNat ≤ 30 ∧
      ∀ q ∈ s0.slots, q.deviceId ≠ id)) ∧
    ((8 : DeviceId) ≠ 3 ∧ (3 : DeviceId).toNat < 4 ∧ 30 < (31 : DeviceId).toNat ∧ ∃ q ∈ s0.slots, q.deviceId = 9) ∧
    (∀ r ∈ s0.slots, r.ref ≠ 3) := by decide
theorem witness_QueriesAnswerAtAnyTime : s0.Inv := s0_inv
theorem witness_EnableAndDisableWriteOneBit : s0.record.mode = .idle ∧ s0.ctl = .idle := by decide
/-- A device selected between calls, and a running call. -/
theorem witness_SetupOutsideSetupTimeIsRefused : (s0.Inv ∧ s0.ctl = .idle ∧ s0.record.mode = .idle) ∧
    { s0 with record := dataRecord }.record.mode ≠ .idle ∧ closing.ctl ≠ .idle :=
  ⟨⟨s0_inv, by decide, by decide⟩, by decide, by decide⟩

/-- Outside a hook, inside a `reset()` hook, in the wrong role, and before the turnaround. -/
theorem witness_PrimitiveOutsideItsRoleIsRefused :
    (∀ h pd, s0.ctl = .hook h pd → ∃ d rest, h = .reset d rest) ∧
    (∀ h pd, { s0 with ctl := .hook (.reset 1 []) false }.ctl = .hook h pd → ∃ d rest, h = .reset d rest) ∧
    inListenHook.role ≠ .talker ∧ inTalkHook.role ≠ .listener ∧ { inTalkHook with turn := .notTurned }.turn ≠ .turned := by
  refine ⟨fun h pd e => ?_, fun h pd e => ?_, by decide, by decide, by decide⟩
  · have e' : Ctl.idle = .hook h pd := e
    cases e'
  · have e' : Ctl.hook (.reset 1 []) false = .hook h pd := e
    cases e'
    exact ⟨_, _, rfl⟩

theorem inOpenHook_inv : inOpenHook.Inv :=
  ⟨by decide, by decide, by decide, by decide, by decide, by decide, by decide, by decide, by decide, by decide, by decide,
    by decide, ⟨rfl, rfl, by decide, .inr (.inr rfl)⟩⟩

/-- Where R300 accepts a primitive: each hook in which a device is talker or listener, on any bus. -/
theorem inTalkHook_accepted (own ext : Lines) (env : List EnvMove) :
    ∀ h ∈ [Hook.processCommand talkRecord false, .talkData], ∀ pd,
      { onBus own ext env inTalkHook with ctl := .hook h pd }.InTalkerHook h pd := by
  intro h hh pd
  refine ⟨rfl, fun dev rest e => ?_, rfl, rfl⟩
  subst e
  simp at hh
theorem inListenHook_accepted (own ext : Lines) (env : List EnvMove) :
    ∀ h ∈ [Hook.processCommand dataRecord false, .listenData 0x41#8 true], ∀ pd,
      { onBus own ext env inListenHook with ctl := .hook h pd }.InListenerHook h pd := by
  intro h hh pd
  refine ⟨rfl, fun dev rest e => ?_, rfl⟩
  subst e
  simp at hh
theorem inTalkHook_in (own ext : Lines) (env : List EnvMove) :
    (onBus own ext env inTalkHook).InTalkerHook (.processCommand talkRecord false) false :=
  inTalkHook_accepted own ext env _ (.head _) false
theorem inListenHook_in (own ext : Lines) (env : List EnvMove) :
    (onBus own ext env inListenHook).InListenerHook (.processCommand dataRecord false) false :=
  inListenHook_accepted own ext env _ (.head _) false
/-- A primitive of each kind with the shortest buffer. -/
theorem witness_PrimitiveIsAccepted :
    (onBus (owning .clk) Lines.released [] inTalkHook).InTalkerHook (.processCommand talkRecord false) false ∧
    (onBus (owning .data) Lines.released [] inListenHook).InListenerHook (.processCommand dataRecord false) false ∧
    0 ≤ ([] : List Byte).length := ⟨inTalkHook_in _ _ _, inListenHook_in _ _ _, by decide⟩

/-- Requests at both ends below the data primitives, and the payload's cells on both sides of `rec.aux_len`. -/
theorem witness_DeviceIsRefused : (∀ sel ∈ [0x00#5, 0x17#5], (request sel).op.toNat < 0x18) ∧
    (∃ h pd, inOpenHook.ctl = .hook h pd) ∧ inOpenHook.Inv ∧ inOpenHook.record.auxLen ≤ 1 ∧ 0 < inOpenHook.record.auxLen :=
  ⟨by decide, ⟨_, _, rfl⟩, inOpenHook_inv, by decide, by decide⟩

theorem witness_SendDeliversTheByte : ∀ e ∈ [false, true],
    let s := onBus (owning .clk) Lines.released (listenerScript 5 e) inTalkHook
    s.InTalkerHook (.processCommand talkRecord false) false ∧ s.bus.own.clk = .pulled ∧ s.bus.own.data = .released ∧
    s.bus.env = listenerScript 5 e ++ [] :=
  fun _ _ => ⟨inTalkHook_in _ _ _, rfl, rfl, (List.append_nil _).symm⟩
/-- No byte, and two. -/
theorem witness_SendBufferSendsTheBytesInOrder : ∀ n ∈ [0, 2],
    let s := onBus (owning .clk) Lines.released (List.replicate n (listenerScript 5 false)).flatten inTalkHook
    s.InTalkerHook (.processCommand talkRecord false) false ∧ n ≤ (List.replicate n 0x41#8).length ∧
    s.bus.own.clk = .pulled ∧ s.bus.own.data = .released ∧
    s.bus.env = (List.replicate n (listenerScript 5 false)).flatten ++ [] :=
  fun n _ => ⟨inTalkHook_in _ _ _, by simp, rfl, rfl, (List.append_nil _).symm⟩
/-- A send that succeeds, and one that times out. -/
theorem witness_SendFailureEndsThePhase :
    (∀ env, (onBus (owning .clk) Lines.released env inTalkHook).InTalkerHook (.processCommand talkRecord false) false) ∧
    (after (exec (.send 0x41#8) inTalkHook)).result = .completed (.bool false) ∧
    (after (exec (.send 0x41#8) (onBus (owning .clk) Lines.released (listenerScript 5 false) inTalkHook))).result =
      .completed (.bool true) := ⟨fun _ => inTalkHook_in _ _ _, by decide +kernel, by decide +kernel⟩
theorem witness_FileNotFoundSendsNothing : inTalkHook.InTalkerHook (.processCommand talkRecord false) false :=
  inTalkHook_in _ _ _
/-- One byte; a full buffer whose last byte has no EOI; one that ends early with EOI, `T_EOI` exactly. -/
theorem witness_ReceiveStoresTheBytes :
    (∀ env, (onBus (owning .data) Lines.released env inListenHook).InListenerHook (.processCommand dataRecord false) false) ∧
    (onBus (owning .data) Lines.released (talkerScript .released 100 true 0x41#8) inListenHook).bus.env =
      talkerScript .released 100 true 0x41#8 ++ [] ∧ inListenHook.cfg.tEoi ≤ 2 * 100 ∧
    (2 ≤ (List.replicate 2 0x00#8).length ∧ [0x41#8].length + 1 ≤ 2 ∧ ¬[0x41#8].length + 1 < 2) ∧
    ([0x41#8].length + 1 ≤ 4 ∧ [0x41#8].length + 1 < 4) :=
  ⟨fun _ => inListenHook_in _ _ _, by decide +kernel, by decide, by decide, by decide⟩
/-- Nobody sends, a byte under ATN (V99), RESET, and the second byte of a buffer of two that does not come. -/
theorem witness_ReceiveFailureEndsThePhase :
    (∃ b u,
      let s := onBus (owning .data) (owning .clk) [] inListenHook
      s.InListenerHook (.processCommand dataRecord false) false ∧ s.Receives [] s ∧
      s.receiveByte = (b, u) ∧ u.flags.err = true ∧ u.flags.rst = false) ∧
    (∃ b u,
      let s := onBus (owning .data) Lines.released (talkerScript .pulled 5 false 0x3F#8) inListenHook
      s.InListenerHook (.processCommand dataRecord false) false ∧ s.receiveByte = (b, u) ∧
      u.flags.err = false ∧ u.flags.atn = true) ∧
    (∃ b u,
      let s := onBus (owning .data) (owning .reset) [] inListenHook
      s.InListenerHook (.processCommand dataRecord false) false ∧ s.receiveByte = (b, u) ∧ u.flags.err = true ∧ u.flags.rst = true) ∧
    (∃ m b u,
      let s := onBus (owning .data) Lines.released (talkerScript .released 5 false 0x41#8) inListenHook
      s.InListenerHook (.processCommand dataRecord false) false ∧ s.Receives [0x41#8] m ∧ m.receiveByte = (b, u) ∧
      u.flags.err = true ∧ [0x41#8].length < 2 ∧ 2 ≤ [0#8, 0#8].length) :=
  ⟨⟨_, _, inListenHook_in _ _ _, rfl, rfl, by decide +kernel, by decide +kernel⟩,
    ⟨_, _, inListenHook_in _ _ _, rfl, by decide +kernel, by decide +kernel⟩,
    ⟨_, _, inListenHook_in _ _ _, rfl, by decide +kernel, by decide +kernel⟩,
    ⟨_, _, _, inListenHook_in _ _ _, ⟨by decide +kernel, by decide +kernel, by decide +kernel, rfl⟩, rfl, by decide +kernel, by decide, by decide⟩⟩

end Sys2Proof.Tests
end

section
/-! PROOF. The setup (parameters, registry, enable mask) and what leaves it unchanged: every shared operation, every
instruction but the registry's writers, and the fetch. At the end the statement that a running call keeps it. -/
namespace Sys2Proof.Machine
open Sys2Proof

/-! ### The setup -/

/-- What the host sets up before it calls `service()`: the parameters (00_scope.md R7), the registry and the enable mask
(43_device_registry.md R221). -/
def State.setup (s : State) : Params × List Registration × Mask := (s.cfg, s.slots, s.enabled)

theorem State.setup_eq_iff {s t : State} :
    t.setup = s.setup ↔ t.cfg = s.cfg ∧ t.slots = s.slots ∧ t.enabled = s.enabled := by
  simp [State.setup]

theorem State.HandshakeSpec.setup_eq {s t : State} (h : State.HandshakeSpec s t) : t.setup = s.setup :=
  State.setup_eq_iff.mpr ⟨h.cfg, h.slots, h.enabled⟩

/-! The updates of other registers, and the handshakes on the lines. -/

section
variable (s : State)

theorem State.withLink_setup (k : Link) : (s.withLink k).setup = s.setup := rfl
@[simp] theorem State.pull_setup (l : Line) : (s.pull l).setup = s.setup := rfl
@[simp] theorem State.release_setup (l : Line) : (s.release l).setup = s.setup := rfl
@[simp] theorem State.afterRead_setup (l : Line) : (s.afterRead l).setup = s.setup := rfl
@[simp] theorem State.delay_setup (d : Nat) : (s.delay d).setup = s.setup := rfl
@[simp] theorem State.setRst_setup : s.setRst.setup = s.setup := rfl
@[simp] theorem State.raise_setup (c : Cause) (i : Byte) : (s.raise c i).setup = s.setup := rfl
@[simp] theorem State.complete_setup (v : Value) : (s.complete v).setup = s.setup := rfl
@[simp] theorem State.refuse_setup (sel : BitVec 5) : (s.refuse sel).setup = s.setup := rfl
@[simp] theorem State.refuseAccess_setup : s.refuseAccess.setup = s.setup := rfl
@[simp] theorem State.setMode_setup (m : ATNMode) : (s.setMode m).setup = s.setup := rfl
@[simp] theorem State.returnMode_setup (m : ATNMode) : (s.returnMode m).setup = s.setup := rfl
@[simp] theorem State.callHook_setup (h : Hook) : (s.callHook h).setup = s.setup := rfl
@[simp] theorem State.listenPhase_setup (ended : Bool) : (s.listenPhase ended).setup = s.setup := rfl
@[simp] theorem State.setCommand_setup (b : Byte) (k : CmdKind) : (s.setCommand b k).setup = s.setup := rfl
@[simp] theorem State.setDeviceId_setup (id : DeviceId) : (s.setDeviceId id).setup = s.setup := rfl
@[simp] theorem State.setChannel_setup (ch : Channel) : (s.setChannel ch).setup = s.setup := rfl
@[simp] theorem State.toIdle_setup : s.toIdle.setup = s.setup := rfl
@[simp] theorem State.endReset_setup : s.endReset.setup = s.setup := rfl
@[simp] theorem State.notAddressed_setup : s.notAddressed.setup = s.setup := by simp [State.notAddressed]
@[simp] theorem State.endTransaction_setup : s.endTransaction.setup = s.setup := rfl
@[simp] theorem State.startDecode_setup : s.startDecode.setup = s.setup := rfl
@[simp] theorem State.timeoutWait_setup (l : Line) (x : LineState) : (s.timeoutWait l x).2.setup = s.setup :=
  s.withLink_setup _
@[simp] theorem State.receiveByte_setup : s.receiveByte.2.setup = s.setup := s.receiveByte_handshake.setup_eq
@[simp] theorem State.receiveByte_ctl : s.receiveByte.2.ctl = s.ctl := s.receiveByte_handshake.ctl
@[simp] theorem State.sendByte_setup (v : Byte) (e : Bool) : (s.sendByte v e).2.setup = s.setup :=
  (s.sendByte_handshake v e).setup_eq
@[simp] theorem State.turnAround_setup : s.turnAround.2.setup = s.setup := s.turnAround_handshake.setup_eq
@[simp] theorem State.undoTurnAround_setup : s.undoTurnAround.2.setup = s.setup := s.undoTurnAround_handshake.setup_eq

end

/-- From `s` to `t` the parameters stay, and in a running call the registry and the mask too. -/
def State.KeepsSetup (s t : State) : Prop :=
  t.cfg = s.cfg ∧ (s.ctl ≠ .idle → t.slots = s.slots ∧ t.enabled = s.enabled)

theorem State.KeepsSetup.of_setup_eq {s t : State} (h : t.setup = s.setup) : s.KeepsSetup t := by
  obtain ⟨hcfg, hslots, henabled⟩ := State.setup_eq_iff.mp h
  exact ⟨hcfg, fun _ => ⟨hslots, henabled⟩⟩

/-- What keeps the setup after a fetch that kept it and did not move the call. -/
theorem State.KeepsSetup.of_fetched {s u t : State} (hsetup : u.setup = s.setup) (hctl : u.ctl = s.ctl)
    (h : u.KeepsSetup t) : s.KeepsSetup t := by
  obtain ⟨hcfg, hslots, henabled⟩ := State.setup_eq_iff.mp hsetup
  unfold State.KeepsSetup at h
  rw [hcfg, hctl, hslots, henabled] at h
  exact h

/-- The registry's writers are refused outside setup time, and setup time lies outside every call (43_device_registry.md
R221): so of what they do at setup time only the parameters are left to compare. -/
theorem State.KeepsSetup.atSetupTime (s : State) (sel : BitVec 5) {t : State} (hcfg : t.cfg = s.cfg) :
    s.KeepsSetup (if s.setupTime = false then s.refuse sel else t) := by
  split
  · exact .of_setup_eq rfl
  · rename_i hs
    exact ⟨hcfg, fun hc => absurd (setupTime_false (.inr hc)) hs⟩

/-! ### Ends of a call -/

@[simp] theorem State.setPhaseDone_setup (s : State) : s.setPhaseDone.setup = s.setup := by
  unfold State.setPhaseDone; split <;> rfl

@[simp] theorem State.broadcast_setup (s : State) (refs : List DeviceRef) : (s.broadcast refs).setup = s.setup := by
  cases refs <;> rfl

@[simp] theorem State.serveReset_setup (s : State) : s.serveReset.setup = s.setup := by
  unfold State.serveReset
  split <;> simp

@[simp] theorem State.recover_setup (s : State) : s.recover.setup = s.setup := by
  have undone : (if (s.setMode .error).turn = .turned then (s.setMode .error).undoTurnAround.2
      else s.setMode .error).setup = s.setup := by
    split <;> simp
  unfold State.recover
  simp only
  generalize (if (s.setMode .error).turn = .turned then (s.setMode .error).undoTurnAround.2
      else s.setMode .error) = u at undone ⊢
  split <;> simp [undone]

@[simp] theorem State.decodeError_setup (s : State) (c : Cause) (i : Byte) : (s.decodeError c i).setup = s.setup :=
  State.recover_setup _

@[simp] theorem State.decodeReset_setup (s : State) : s.decodeReset.setup = s.setup := State.serveReset_setup _

@[simp] theorem State.phaseError_setup (s : State) (c : Cause) (i : Byte) : (s.phaseError c i).setup = s.setup :=
  State.recover_setup _

/-! ### The phases and the return of a hook -/

@[simp] theorem State.talkPhase_setup (s : State) : s.talkPhase.setup = s.setup := by
  unfold State.talkPhase
  simp only
  repeat' split
  all_goals simp

theorem State.afterHook_setup (s : State) (goOn : State → State) (h : (goOn s).setup = s.setup) :
    (s.afterHook goOn).setup = s.setup := by
  unfold State.afterHook
  split
  · simp
  · split
    · simp
    · exact h

@[simp] theorem State.talkTop_setup (s : State) : s.talkTop.setup = s.setup := by
  unfold State.talkTop
  simp only
  repeat' split
  all_goals simp

@[simp] theorem State.talkAnswer_setup (s : State) (answer : Option (Byte × Bool)) :
    (s.talkAnswer answer).setup = s.setup := by
  cases answer with
  | none => rfl
  | some answer =>
    simp only [State.talkAnswer]
    repeat' split
    all_goals simp

theorem State.hookReturn_setup (s : State) (h : Hook) (phaseDone : Bool) (answer : Option (Byte × Bool)) :
    (s.hookReturn h phaseDone answer).setup = s.setup := by
  cases h with
  | reset dev rest => exact State.broadcast_setup _ _
  | processCommand record ended =>
    refine State.afterHook_setup _ _ ?_
    split
    · split <;> simp
    · split
      · simp
      · split <;> rfl
  | listenData value eoi =>
    refine State.afterHook_setup _ _ ?_
    split <;> rfl
  | talkData =>
    refine State.afterHook_setup _ _ ?_
    split <;> simp

/-! ### The command bytes -/

/-- A command byte keeps the setup if its meaning at each of the four places does. -/
theorem State.byPlace_setup (s : State) {p q r l : State → State} (hp : (p s).setup = s.setup)
    (hq : (q s).setup = s.setup) (hr : (r s).setup = s.setup) (hl : (l s).setup = s.setup) :
    (s.byPlace p q r l).setup = s.setup := by
  unfold State.byPlace
  split
  · exact hp
  · exact hq
  · exact hr
  · exact hl
  · simp
  · simp

@[simp] theorem malformedInDecode_setup (b : Byte) (s : State) : (malformedInDecode b s).setup = s.setup :=
  State.decodeError_setup _ _ _

@[simp] theorem malformedInListen_setup (b : Byte) (s : State) : (malformedInListen b s).setup = s.setup :=
  State.phaseError_setup _ _ _

@[simp] theorem addressDevice_setup (id : DeviceId) (r : Role) (m : ATNMode) (s : State) :
    (addressDevice id r m s).setup = s.setup := by
  unfold addressDevice
  split
  · rfl
  · simp

theorem enterPhase_setup (s : State) : (enterPhase s).setup = s.setup := by
  unfold enterPhase
  split <;> simp

theorem enterOpen_setup (s : State) : (enterOpen s).setup = s.setup := by
  unfold enterOpen
  split
  · simp
  · rfl

theorem secondaryAsPrimary_setup (s : State) {goOn : State → State} (h : ∀ u : State, (goOn u).setup = u.setup) :
    (secondaryAsPrimary s goOn).setup = s.setup := by
  unfold secondaryAsPrimary
  split
  · simp
  · exact h _
  · exact h _

@[simp] theorem endEpisode_setup (b : Byte) (k : CmdKind) (s : State) : (endEpisode b k s).setup = s.setup := rfl

/-- DATA, CLOSE and OPEN: served as secondary and as primary, Malformed at the two other places. -/
theorem secondaryByte_setup (s : State) {f goOn : State → State} (b : Byte) (hf : (f s).setup = s.setup)
    (h : ∀ u : State, (goOn u).setup = u.setup) :
    (s.byPlace (fun s => secondaryAsPrimary (f s) goOn) (fun s => goOn (f s)) (malformedInDecode b)
      (malformedInListen b)).setup = s.setup :=
  s.byPlace_setup ((secondaryAsPrimary_setup _ h).trans hf) ((h _).trans hf) (malformedInDecode_setup b s)
    (malformedInListen_setup b s)

theorem invalidByte_setup (b : Byte) (s : State) : (invalidByte b s).setup = s.setup :=
  s.byPlace_setup (malformedInDecode_setup _ _) (malformedInDecode_setup _ _) (malformedInDecode_setup _ _)
    (malformedInListen_setup _ _)

/-! ### The data primitives -/

@[simp] theorem State.primitiveFailed_setup (s : State) : s.primitiveFailed.setup = s.setup := by
  unfold State.primitiveFailed
  split
  · simp
  · exact State.setPhaseDone_setup s

@[simp] theorem State.sendPrimitive_setup (s : State) (b : Byte) : (s.sendPrimitive b).2.setup = s.setup := by
  simp only [State.sendPrimitive]
  split <;> simp

@[simp] theorem State.sendAll_setup (l : List Byte) : ∀ s : State, (State.sendAll l s).2.setup = s.setup := by
  induction l with
  | nil => intro s; rfl
  | cons b rest ih =>
    intro s
    simp only [State.sendAll]
    split
    · exact State.sendPrimitive_setup s b
    · exact (ih _).trans (State.sendPrimitive_setup s b)

@[simp] theorem State.sendEoiPrimitive_setup (s : State) (b : Byte) : (s.sendEoiPrimitive b).2.setup = s.setup := by
  simp only [State.sendEoiPrimitive]
  split
  · simp
  · exact State.setPhaseDone_setup (s.sendByte b true).2

@[simp] theorem State.receivePrimitive_setup (s : State) : s.receivePrimitive.2.setup = s.setup := by
  simp only [State.receivePrimitive]
  split
  · simp
  · split
    · exact State.setPhaseDone_setup s.receiveByte.2.setErr
    · split
      · simp
      · simp

@[simp] theorem State.receiveAll_setup (n : Nat) : ∀ s : State, (State.receiveAll n s).2.2.setup = s.setup := by
  induction n with
  | zero => intro s; rfl
  | succ n ih =>
    intro s
    simp only [State.receiveAll]
    split
    · exact State.receivePrimitive_setup s
    · split
      · exact State.receivePrimitive_setup s
      · exact (ih _).trans (State.receivePrimitive_setup s)

/-- A meaning that may be refused keeps the setup if its accepted branch does. -/
theorem State.refuse_or_setup (s : State) (p : Prop) [Decidable p] (sel : BitVec 5) {t : State}
    (h : t.setup = s.setup) : (if p then s.refuse sel else t).setup = s.setup := by
  split
  · simp
  · exact h

/-! ### The instructions -/

/-- A line operation keeps the setup: it acts on the line, or is refused where there is no such line. -/
theorem State.onLine_setup (s : State) (l : Line) (sel : BitVec 5) {t : State} (h : t.setup = s.setup) :
    (if s.linePresent l then t else s.refuse sel).setup = s.setup := by
  split
  · exact h
  · simp

theorem execService_setup {s t : State} (h : execService s = .next t) : t.setup = s.setup := by
  have cleared : State.setup { s.afterRead .reset with resetLatch := false } = s.setup := rfl
  unfold execService at h
  injection h with h
  subst h
  simp only
  generalize { s.afterRead .reset with resetLatch := false } = u at cleared ⊢
  split
  · simp
  · split
    · simp
    · split <;> simp [cleared]

/-- The registry's writers act at setup time only; every other instruction keeps the setup. -/
theorem exec_keepsSetup {i : Instr} {s t : State} (h : exec i s = .next t) : s.KeepsSetup t := by
  cases i with
  | addDevice ref id =>
    cases h
    refine .atSetupTime s _ ?_
    repeat' split
    all_goals rfl
  | removeDevice ref =>
    cases h
    refine .atSetupTime s _ ?_
    split <;> rfl
  | changeDeviceId ref newId =>
    cases h
    refine .atSetupTime s _ ?_
    repeat' split
    all_goals rfl
  | enableDevice id => cases h; exact .atSetupTime s _ rfl
  | disableDevice id => cases h; exact .atSetupTime s _ rfl
  | service => exact .of_setup_eq (execService_setup h)
  | globalCmd => cases h; refine .of_setup_eq (s.byPlace_setup ?_ ?_ ?_ ?_) <;> simp
  | unlisten => cases h; refine .of_setup_eq (s.byPlace_setup ?_ ?_ ?_ ?_) <;> simp
  | untalk => cases h; refine .of_setup_eq (s.byPlace_setup ?_ ?_ ?_ ?_) <;> simp
  | listen id => cases h; refine .of_setup_eq (s.byPlace_setup ?_ ?_ ?_ ?_) <;> simp
  | talk id => cases h; refine .of_setup_eq (s.byPlace_setup ?_ ?_ ?_ ?_) <;> simp
  | dataCmd ch => cases h; exact .of_setup_eq (secondaryByte_setup s _ (by simp) enterPhase_setup)
  | closeCmd ch => cases h; exact .of_setup_eq (secondaryByte_setup s _ (by simp) enterPhase_setup)
  | openCmd ch => cases h; exact .of_setup_eq (secondaryByte_setup s _ (by simp) enterOpen_setup)
  | invalid01_1F x => cases h; exact .of_setup_eq (invalidByte_setup _ s)
  | invalid70_7F x => cases h; exact .of_setup_eq (invalidByte_setup _ s)
  | invalid80_BF x => cases h; exact .of_setup_eq (invalidByte_setup _ s)
  | invalidC0_DF x => cases h; exact .of_setup_eq (invalidByte_setup _ s)
  | pull l => cases h; exact .of_setup_eq (s.onLine_setup l _ (by simp))
  | release l => cases h; exact .of_setup_eq (s.onLine_setup l _ (by simp))
  | read l => cases h; exact .of_setup_eq (s.onLine_setup l _ (by simp))
  | timeoutWait l expected => cases h; exact .of_setup_eq (s.onLine_setup l _ (by simp))
  | sendByte value signalEOI => cases h; exact .of_setup_eq (by simp)
  | receiveByte => cases h; exact .of_setup_eq (by simp)
  | turnAround => cases h; exact .of_setup_eq (by simp)
  | undoTurnAround => cases h; exact .of_setup_eq (by simp)
  | deviceById id => cases h; exact .of_setup_eq (by simp)
  | numDevices => cases h; exact .of_setup_eq (by simp)
  | isEnabled id => cases h; exact .of_setup_eq (by simp)
  | send b => cases h; exact .of_setup_eq (s.refuse_or_setup _ _ (by simp))
  | sendBuffer buffer length => cases h; exact .of_setup_eq (s.refuse_or_setup _ _ (by simp))
  | sendEOI b => cases h; exact .of_setup_eq (s.refuse_or_setup _ _ (by simp))
  | sendFileNotFound => cases h; exact .of_setup_eq (s.refuse_or_setup _ _ (by simp))
  | receive => cases h; exact .of_setup_eq (s.refuse_or_setup _ _ (by simp))
  | receiveBuffer buffer length => cases h; exact .of_setup_eq (s.refuse_or_setup _ _ (by simp))

/-! ### The fetch -/

/-- A fetch from `s` keeps the setup; where it finds an instruction, the call stands where it stood. -/
def Fetched.KeepsSetup (s : State) : Fetched → Prop
  | .run _ u => u.setup = s.setup ∧ u.ctl = s.ctl
  | .done u => u.setup = s.setup

@[simp] theorem Fetched.keepsSetup_run {s u : State} {i : Instr} :
    (Fetched.run i u).KeepsSetup s ↔ u.setup = s.setup ∧ u.ctl = s.ctl := .rfl

@[simp] theorem Fetched.keepsSetup_done {s u : State} : (Fetched.done u).KeepsSetup s ↔ u.setup = s.setup := .rfl

theorem fetchRequest_keepsSetup (r : OpRequest) (s : State) : (fetchRequest r s).KeepsSetup s := by
  unfold fetchRequest
  split <;> simp

theorem fetchHost_keepsSetup (s : State) : (fetchHost s).KeepsSetup s := by
  unfold fetchHost
  split
  · simp
  · exact fetchRequest_keepsSetup _ _

theorem State.deviceRead_setup (s : State) (i : Nat) : (s.deviceRead i).setup = s.setup := by
  unfold State.deviceRead; split <;> simp

theorem fetchDeviceRequest_keepsSetup (r : OpRequest) (s : State) : (fetchDeviceRequest r s).KeepsSetup s := by
  unfold fetchDeviceRequest
  split
  · exact fetchRequest_keepsSetup r s
  · simp

theorem fetchDevice_keepsSetup (h : Hook) (phaseDone : Bool) (s : State) :
    (fetchDevice h phaseDone s).KeepsSetup s := by
  unfold fetchDevice
  split
  · exact State.hookReturn_setup _ _ _ _
  · exact fetchDeviceRequest_keepsSetup _ _
  · exact State.deviceRead_setup _ _
  · exact State.refuseAccess_setup _
  · exact rfl
  · exact State.hookReturn_setup _ _ _ _

theorem fetchCommand_keepsSetup (s : State) : (fetchCommand s).KeepsSetup s := by
  unfold fetchCommand
  simp only
  repeat' split
  all_goals simp

@[simp] theorem State.storePayload_setup (s : State) (b : Byte) : (s.storePayload b).setup = s.setup := by
  unfold State.storePayload
  simp only
  split
  · simp
  · split <;> rfl

theorem fetchPayload_keepsSetup (s : State) : (fetchPayload s).KeepsSetup s := by
  unfold fetchPayload
  simp only
  repeat' split
  all_goals simp

theorem fetchListen_keepsSetup (s : State) : (fetchListen s).KeepsSetup s := by
  unfold fetchListen
  simp only
  repeat' split
  all_goals simp

theorem fetch_keepsSetup (s : State) : (fetch s).KeepsSetup s := by
  unfold fetch
  split
  · exact fetchHost_keepsSetup s
  · exact fetchCommand_keepsSetup s
  · exact fetchCommand_keepsSetup s
  · exact fetchPayload_keepsSetup s
  · exact fetchListen_keepsSetup s
  · exact fetchDevice_keepsSetup _ _ s

/-! ### The step -/

/-- Settles O10: the fetch keeps the setup and the place of the call, and what it finds is run at that place, where the
registry's writers are refused. -/
theorem runningCallKeepsSetup : Obligations.RunningCallKeepsSetup := by
  intro s t h
  show s.KeepsSetup t
  have fetched := fetch_keepsSetup s
  unfold step at h
  split at h
  · rename_i i u found
    rw [found] at fetched
    obtain ⟨hsetup, hctl⟩ := fetched
    exact .of_fetched hsetup hctl (exec_keepsSetup h)
  · rename_i u found
    rw [found] at fetched
    cases h
    exact .of_setup_eq fetched

end Sys2Proof.Machine
end

section
/-! PROOF. Power-on and a served RESET: the state at power-on has the values of 10_state.md R52, column 2; the broadcast of
44_bus_coordinator.md R253 goes through the chain one hook at a time and ends in column 3. -/
namespace Sys2Proof.Machine
open Sys2Proof

/-! ### Power-on -/

/-- With an empty registry, nobody selected and an empty buffer there is nothing for the invariant to constrain. -/
theorem State.reset_inv : State.reset.Inv where
  ids_nodup := List.nodup_nil
  ids_assignable := fun _ hr => absurd hr List.not_mem_nil
  refs_nodup := List.nodup_nil
  capacity := Nat.zero_le _
  active_ok := fun _ h => nomatch h
  role_active := iff_of_true rfl rfl
  aux_bound := Nat.zero_le _
  aux_cells := rfl
  aux_open := fun h => absurd rfl h
  id_range := by decide
  no_srq := fun _ => rfl
  latch_clear := fun h => absurd rfl h
  place_ok := rfl

/-- Settles O8. No cell of the buffer holds a value because `rec.aux_len` is 0; every other value is read off. -/
theorem powerOnState : Obligations.PowerOnState := by
  have no_cell (i : Nat) : State.reset.record.memRead i = none := ATNRecord.memRead_of_le _ i (Nat.zero_le i)
  exact ⟨State.reset_inv, rfl, rfl, rfl, rfl, rfl, rfl, rfl, no_cell, rfl, rfl, rfl, rfl, rfl, rfl, rfl, rfl, rfl⟩

/-! ### A run, one step at a time -/

theorem run_succ {s t : State} (h : step s = .next t) (k : Nat) :
    Host.Core.run Sys2Proof.core (k + 1) s = Host.Core.run Sys2Proof.core k t := by
  have first : Sys2Proof.core.step s = .next t := h
  simp only [Host.Core.run, first]

/-! ### The beginning of a served reset -/

theorem step_callsService {s : State} (hc : s.ctl = .idle) (hh : s.host = []) : step s = execService s := by
  simp [step, fetch, hc, fetchHost, hh, exec]

theorem execService_ofReset {s : State} (hc : s.ctl = .idle)
    (hr : s.sample .reset = .pulled ∨ s.flags.rst = true) : execService s = .next (s.afterRead .reset).serveReset := by
  unfold execService
  rw [if_neg (not_not.mpr hc)]
  exact congrArg _ (if_pos hr)

theorem State.serveReset_ofLatchClear {s : State} (hl : s.resetLatch = false) :
    s.serveReset = (s.raise .reset 0x00#8).broadcast (s.slots.map fun r => r.ref) :=
  if_neg (by simp [hl])

/-- What serving a reset leaves of `s` once `n` devices have had their `reset()`: RESET has been sampled and is the cause, and
`n` moves of the device script are used up. Where the call stands is left to `State.broadcast`. -/
def State.afterResets (s : State) (n : Nat) : State :=
  { (s.afterRead .reset).raise .reset 0x00#8 with device := s.device.drop n }

theorem step_beginsBroadcast {s : State} (hc : s.ctl = .idle) (hh : s.host = []) (hl : s.resetLatch = false)
    (hr : s.sample .reset = .pulled ∨ s.flags.rst = true) :
    step s = .next ((s.afterResets 0).broadcast (s.slots.map fun r => r.ref)) := by
  rw [step_callsService hc hh, execService_ofReset hc hr, State.serveReset_ofLatchClear (by simpa using hl)]
  rfl

/-! ### The broadcast, one hook at a time -/

/-- What the broadcast does next does not depend on the place it comes from. -/
theorem State.broadcast_withCtl (s : State) (c : Ctl) (refs : List DeviceRef) :
    State.broadcast { s with ctl := c } refs = s.broadcast refs := by
  cases refs <;> rfl

/-- A `reset()` hook that returns hands on to the next device; of the device's answer nothing is kept. -/
theorem step_broadcast {s : State} (dev : DeviceRef) (rest : List DeviceRef) (hd : s.HookReturns) :
    step (s.broadcast (dev :: rest)) = .next (State.broadcast { s with device := s.device.tail } rest) := by
  obtain ⟨a, returned, -⟩ := fetch_hookReturn (s.broadcast (dev :: rest)) (.reset dev rest) false rfl hd
  simp only [step, returned, State.hookReturn]
  exact congrArg _ (State.broadcast_withCtl { s with device := s.device.tail } _ rest)

/-- With nothing but returns among its next moves, a device answers its hook and leaves such a script to the others. -/
theorem State.hookReturns_ofAnswers {s : State} {n : Nat} (answers : ∀ m ∈ s.device.take (n + 1), ∃ a, m = .ret a) :
    s.HookReturns ∧ ∀ m ∈ s.device.tail.take n, ∃ a, m = .ret a := by
  unfold State.HookReturns
  cases hd : s.device with
  | nil => simp
  | cons m moves =>
    rw [hd] at answers
    obtain ⟨⟨a, rfl⟩, later⟩ := List.forall_mem_cons.mp answers
    exact ⟨.inr ⟨a, moves, rfl⟩, later⟩

/-- Each device that has had its `reset()` cost one step and one move of the device script. -/
theorem run_broadcast (before after : List DeviceRef) : ∀ s : State,
    (∀ m ∈ s.device.take before.length, ∃ a, m = .ret a) →
    Host.Core.run Sys2Proof.core before.length (s.broadcast (before ++ after)) =
      .next (State.broadcast { s with device := s.device.drop before.length } after) := by
  induction before with
  | nil => intro s _; rfl
  | cons dev before ih =>
    intro s answers
    obtain ⟨now, later⟩ := State.hookReturns_ofAnswers answers
    calc Host.Core.run Sys2Proof.core (before.length + 1) (s.broadcast (dev :: (before ++ after)))
        = Host.Core.run Sys2Proof.core before.length
            (State.broadcast { s with device := s.device.tail } (before ++ after)) := run_succ (step_broadcast _ _ now) _
      _ = .next (State.broadcast { s with device := s.device.tail.drop before.length } after) := ih _ later
      _ = .next (State.broadcast { s with device := s.device.drop (before.length + 1) } after) := by
        rw [List.drop_tail]

/-- A served RESET after the `reset()` hooks of the devices `before`. -/
theorem run_servedReset {s : State} (hc : s.ctl = .idle) (hh : s.host = []) (hl : s.resetLatch = false)
    (hr : s.sample .reset = .pulled ∨ s.flags.rst = true)
    (answers : ∀ m ∈ s.device.take s.slots.length, ∃ a, m = .ret a) {before after : List DeviceRef}
    (chain : (s.slots.map fun r => r.ref) = before ++ after) :
    Host.Core.run Sys2Proof.core (before.length + 1) s =
      .next ((s.afterResets before.length).broadcast after) := by
  have covered : before.length ≤ s.slots.length := by
    have total : s.slots.length = before.length + after.length := by simpa using congrArg List.length chain
    omega
  rw [run_succ (step_beginsBroadcast hc hh hl hr), chain]
  exact run_broadcast before after (s.afterResets 0) fun m hm =>
    answers m (List.take_subset_take_left s.device covered hm)

/-! ### The end of the broadcast -/

theorem State.broadcast_nil_record (s : State) :
    (s.broadcast []).record = { s.record with mode := .idle, aux := [], auxLen := 0 } := by
  simp [State.broadcast_nil]

/-- Every line is released when a broadcast ends: without `HAS_SRQ` the SRQ line was never pulled. -/
theorem State.broadcast_nil_allReleased {s : State} (h : s.cfg.hasSrq = false → s.bus.own.srq = .released) :
    (s.broadcast []).bus.own = Lines.released := by
  rw [State.broadcast_nil_own]
  split
  · rfl
  · rename_i hq
    rw [h (by simpa using hq)]
    rfl

/-- Settles O41: the first step samples RESET and starts the broadcast, each further one goes to the next device of the
chain, and the one after the last device ends the call. -/
theorem resetReachesEveryDeviceOnce : Obligations.ResetReachesEveryDeviceOnce := by
  intro s hc hh hl hr answers
  have run {before after} := run_servedReset hc hh hl hr answers (before := before) (after := after)
  refine ⟨fun before dev after chain => ⟨_, run chain, rfl, rfl, rfl, rfl⟩, ?_⟩
  have ended := run (List.append_nil (s.slots.map fun r => r.ref)).symm
  rw [List.length_map] at ended
  have released (l : Line) (h : s.linePresent l = true) :
      ((s.afterResets s.slots.length).broadcast []).bus.own.get l = .released :=
    State.broadcast_nil_released (s.afterResets s.slots.length) l h
  have allReleased (inv : s.Inv) : ((s.afterResets s.slots.length).broadcast []).bus.own = Lines.released :=
    State.broadcast_nil_allReleased (by simpa [State.afterResets, Lines.set] using inv.no_srq)
  exact ⟨_, ended, rfl, rfl, rfl, rfl, rfl, released, allReleased, State.broadcast_nil_record _, rfl, rfl, rfl, rfl, rfl,
    rfl, rfl⟩

end Sys2Proof.Machine
end

section
/-! PROOF. Time, the environment's moves and the wire only go forward, and no rule of the engine pulls ATN, RESET or SRQ:
every operation but a requested `pull` leads to a bus that is `Bus.Later`. The lemmas say that an operation goes on from a state
whose bus is later than some bus `b`, so that they chain. -/
namespace Sys2Proof.Machine
open Sys2Proof

/-! ### One line action, one handshake -/

section
variable {b c : Bus} {s t : State}

theorem Bus.Later.pull (h : b.Later c) {l : Line} (hl : undrivenLine l = false) : b.Later (c.pull l) :=
  h.trans (c.later_pull l hl)

theorem Bus.Later.release (h : b.Later c) {l : Line} : b.Later (c.release l) := h.trans (c.later_release l)

theorem Bus.Later.afterRead (h : b.Later c) {l : Line} : b.Later (c.afterRead l) := h.trans (c.later_afterRead l)

theorem Bus.Later.delay (h : b.Later c) {d : Nat} : b.Later (c.delay d) := h.trans (c.later_delay d)

theorem Bus.Later.handshake (h : b.Later s.bus) (g : State.HandshakeSpec s t) : b.Later t.bus := h.trans g.link.later

/-- A wait on any line, SRQ too, of which `State.timeoutWait_handshake` does not speak. -/
theorem Bus.Later.timeoutWait (h : b.Later s.bus) {l : Line} {x : LineState} : b.Later (s.timeoutWait l x).2.bus :=
  h.trans (Link.timeoutWait_spec s.cfg s.link l x).later

theorem Bus.Later.receiveByte (h : b.Later s.bus) : b.Later s.receiveByte.2.bus := h.handshake s.receiveByte_handshake

theorem Bus.Later.sendByte (h : b.Later s.bus) {v : Byte} {e : Bool} : b.Later (s.sendByte v e).2.bus :=
  h.handshake (s.sendByte_handshake v e)

theorem Bus.Later.turnAround (h : b.Later s.bus) : b.Later s.turnAround.2.bus := h.handshake s.turnAround_handshake

theorem Bus.Later.undoTurnAround (h : b.Later s.bus) : b.Later s.undoTurnAround.2.bus :=
  h.handshake s.undoTurnAround_handshake

/-- A result for the caller is no line action. -/
theorem Bus.Later.complete (h : b.Later s.bus) {v : Value} : b.Later (s.complete v).bus := h

theorem Bus.Later.returnMode (h : b.Later s.bus) {m : ATNMode} : b.Later (s.returnMode m).bus := h

theorem Bus.Later.callHook (h : b.Later s.bus) {hook : Hook} : b.Later (s.callHook hook).bus := h

/-! ### Ends of a call -/

theorem Bus.Later.toIdle (h : b.Later s.bus) : b.Later s.toIdle.bus := h.release.release

theorem Bus.Later.broadcast (h : b.Later s.bus) (refs : List DeviceRef) : b.Later (s.broadcast refs).bus := by
  cases refs with
  | nil => exact h.toIdle.trans (Bus.later_letGoUndriven _ _)
  | cons dev rest => exact h

theorem Bus.Later.serveReset (h : b.Later s.bus) : b.Later s.serveReset.bus := by
  unfold State.serveReset
  split
  · exact h
  · exact Bus.Later.broadcast (s := s.raise .reset 0x00#8) h _

theorem Bus.Later.recover (h : b.Later s.bus) : b.Later s.recover.bus := by
  have undone : b.Later (if (s.setMode .error).turn = .turned then (s.setMode .error).undoTurnAround.2
      else s.setMode .error).bus := by
    split
    · exact Bus.Later.undoTurnAround (s := s.setMode .error) h
    · exact h
  have ended (u : State) (hu : b.Later u.bus) :
      b.Later (if u.flags.rst then u.serveReset else u.toIdle.returnMode .error).bus := by
    split
    · exact hu.serveReset
    · exact hu.toIdle
  exact ended _ undone

theorem Bus.Later.decodeError (h : b.Later s.bus) {c : Cause} {i : Byte} : b.Later (s.decodeError c i).bus :=
  Bus.Later.recover h

theorem Bus.Later.decodeReset (h : b.Later s.bus) : b.Later s.decodeReset.bus := Bus.Later.serveReset h

theorem Bus.Later.phaseError (h : b.Later s.bus) {c : Cause} {i : Byte} : b.Later (s.phaseError c i).bus :=
  Bus.Later.recover h

theorem Bus.Later.notAddressed (h : b.Later s.bus) : b.Later s.notAddressed.bus := by
  have letGo : b.Later (((s.release .data).release .clk).setMode .idle).bus := h.release.release
  exact letGo.toIdle.returnMode

/-! ### The phases and the return of a hook -/

theorem Bus.Later.talkPhase (h : b.Later s.bus) : b.Later s.talkPhase.bus := by
  have waited := h.timeoutWait (l := .atn) (x := .released)
  have turned := waited.turnAround
  unfold State.talkPhase
  simp only
  split
  · split
    · exact waited.serveReset
    · exact waited.phaseError
  · split
    · split
      · exact turned.serveReset
      · split
        · exact turned.phaseError
        · exact turned.recover
    · exact turned

theorem Bus.Later.afterHook (h : b.Later s.bus) {goOn : State → State} (hgo : b.Later (goOn s).bus) :
    b.Later (s.afterHook goOn).bus := by
  unfold State.afterHook
  split
  · exact h.serveReset
  · split
    · exact h.recover
    · exact hgo

theorem Bus.Later.talkTop (h : b.Later s.bus) : b.Later s.talkTop.bus := by
  unfold State.talkTop
  simp only
  split
  · exact Bus.Later.serveReset h.afterRead
  · split
    · exact Bus.Later.returnMode h.afterRead.afterRead
    · exact Bus.Later.callHook h.afterRead.afterRead

theorem Bus.Later.talkAnswer (h : b.Later s.bus) (answer : Option (Byte × Bool)) : b.Later (s.talkAnswer answer).bus := by
  cases answer with
  | none => exact Bus.Later.returnMode h.release
  | some answer =>
    have sent := h.sendByte (v := answer.1) (e := answer.2)
    simp only [State.talkAnswer]
    split
    · exact sent.serveReset
    · split
      · exact sent.phaseError
      · split
        · exact Bus.Later.returnMode sent.release
        · exact sent.talkTop

theorem Bus.Later.hookReturn (h : b.Later s.bus) (hook : Hook) (phaseDone : Bool) (answer : Option (Byte × Bool)) :
    b.Later (s.hookReturn hook phaseDone answer).bus := by
  cases hook with
  | reset dev rest => exact h.broadcast rest
  | processCommand record ended =>
    refine h.afterHook ?_
    split
    · split
      · exact h
      · exact h.talkTop
    · split
      · exact h.toIdle
      · split <;> exact h
  | listenData value eoi =>
    refine h.afterHook ?_
    split <;> exact h
  | talkData =>
    refine h.afterHook ?_
    split
    · exact h
    · exact h.talkAnswer answer

/-! ### The command bytes -/

/-- A command byte leads to a later bus if its meaning at each of the four places does. -/
theorem Bus.Later.byPlace (h : b.Later s.bus) {p q r l : State → State} (hp : b.Later (p s).bus) (hq : b.Later (q s).bus)
    (hr : b.Later (r s).bus) (hl : b.Later (l s).bus) : b.Later (s.byPlace p q r l).bus := by
  unfold State.byPlace
  split
  · exact hp
  · exact hq
  · exact hr
  · exact hl
  · exact h
  · exact h

theorem Bus.Later.malformedInDecode (h : b.Later s.bus) {v : Byte} : b.Later (malformedInDecode v s).bus := h.decodeError

theorem Bus.Later.malformedInListen (h : b.Later s.bus) {v : Byte} : b.Later (malformedInListen v s).bus := h.phaseError

theorem Bus.Later.addressDevice (h : b.Later s.bus) {id : DeviceId} {r : Role} {m : ATNMode} :
    b.Later (addressDevice id r m s).bus := by
  unfold Machine.addressDevice
  split
  · exact h
  · exact h.notAddressed

theorem Bus.Later.enterPhase (h : b.Later s.bus) : b.Later (enterPhase s).bus := by
  unfold Machine.enterPhase
  split
  · exact h.talkPhase
  · exact h

theorem Bus.Later.enterOpen (h : b.Later s.bus) : b.Later (enterOpen s).bus := by
  unfold Machine.enterOpen
  split
  · exact h.talkPhase
  · exact h

theorem Bus.Later.endEpisode (h : b.Later s.bus) {v : Byte} {k : CmdKind} : b.Later (endEpisode v k s).bus :=
  h.release.release

/-- LISTEN and TALK: a device is addressed by the primary, and Malformed at the three other places. -/
theorem Bus.Later.addressByte (h : b.Later s.bus) {f g : State → State} {id : DeviceId} {r : Role} {m : ATNMode} {v : Byte}
    (hf : (f s).bus = s.bus) (hg : (g s).bus = s.bus) :
    b.Later (s.byPlace (fun s => Machine.addressDevice id r m (f s)) (fun s => Machine.malformedInDecode v (g s))
      (Machine.malformedInDecode v) (Machine.malformedInListen v)).bus :=
  h.byPlace (Bus.Later.addressDevice (hf.symm ▸ h)) (Bus.Later.malformedInDecode (hg.symm ▸ h)) h.malformedInDecode
    h.malformedInListen

theorem Bus.Later.secondaryAsPrimary (h : b.Later s.bus) {goOn : State → State}
    (hgo : ∀ u : State, b.Later u.bus → b.Later (goOn u).bus) : b.Later (secondaryAsPrimary s goOn).bus := by
  unfold Machine.secondaryAsPrimary
  split
  · exact h.notAddressed
  · exact hgo _ h
  · exact hgo _ h

/-- DATA, CLOSE and OPEN: served as secondary and as primary, Malformed at the two other places. -/
theorem Bus.Later.secondaryByte (h : b.Later s.bus) {f goOn : State → State} {v : Byte} (hf : (f s).bus = s.bus)
    (hgo : ∀ u : State, b.Later u.bus → b.Later (goOn u).bus) :
    b.Later (s.byPlace (fun s => Machine.secondaryAsPrimary (f s) goOn) (fun s => goOn (f s))
      (Machine.malformedInDecode v) (Machine.malformedInListen v)).bus :=
  have served : b.Later (f s).bus := hf.symm ▸ h
  h.byPlace (served.secondaryAsPrimary hgo) (hgo _ served) h.malformedInDecode h.malformedInListen

theorem Bus.Later.invalidByte (h : b.Later s.bus) {v : Byte} : b.Later (invalidByte v s).bus :=
  h.byPlace (Bus.Later.malformedInDecode (s := s.setCommand v .invalid) h) h.malformedInDecode h.malformedInDecode
    h.malformedInListen

/-! ### The data primitives -/

@[simp] theorem State.setPhaseDone_bus (s : State) : s.setPhaseDone.bus = s.bus := by
  unfold State.setPhaseDone; split <;> rfl

@[simp] theorem State.primitiveFailed_bus (s : State) : s.primitiveFailed.bus = s.bus := by
  unfold State.primitiveFailed; split <;> simp

theorem Bus.Later.sendPrimitive (h : b.Later s.bus) {v : Byte} : b.Later (s.sendPrimitive v).2.bus := by
  have sent := h.sendByte (v := v) (e := false)
  simp only [State.sendPrimitive]
  split <;> simpa using sent

theorem Bus.Later.sendAll (l : List Byte) : ∀ {s : State}, b.Later s.bus → b.Later (State.sendAll l s).2.bus := by
  induction l with
  | nil => intro s h; exact h
  | cons v rest ih =>
    intro s h
    simp only [State.sendAll]
    split
    · exact h.sendPrimitive
    · exact ih h.sendPrimitive

theorem Bus.Later.sendEoiPrimitive (h : b.Later s.bus) {v : Byte} : b.Later (s.sendEoiPrimitive v).2.bus := by
  have sent := h.sendByte (v := v) (e := true)
  simp only [State.sendEoiPrimitive]
  split
  · simpa using sent
  · simpa using sent.release

theorem State.receivePrimitive_bus (s : State) : s.receivePrimitive.2.bus = s.receiveByte.2.bus := by
  simp only [State.receivePrimitive]
  split
  · simp
  · split
    · simp
    · split <;> simp

theorem Bus.Later.receivePrimitive (h : b.Later s.bus) : b.Later s.receivePrimitive.2.bus := by
  rw [State.receivePrimitive_bus]
  exact h.receiveByte

theorem Bus.Later.receiveAll (n : Nat) : ∀ {s : State}, b.Later s.bus → b.Later (State.receiveAll n s).2.2.bus := by
  induction n with
  | zero => intro s h; exact h
  | succ n ih =>
    intro s h
    simp only [State.receiveAll]
    split
    · exact h.receivePrimitive
    · split
      · exact h.receivePrimitive
      · exact ih h.receivePrimitive

/-! ### The instructions -/

/-- A refused request does nothing to the lines. -/
theorem Bus.Later.orRefused (h : b.Later s.bus) {p : Prop} [Decidable p] {sel : BitVec 5} {v : Value} (ht : b.Later t.bus) :
    b.Later (if p then s.refuse sel else t.complete v).bus := by
  split
  · exact h
  · exact ht

/-- An operation on a line that is not there is refused. -/
theorem Bus.Later.onLine (h : b.Later s.bus) {l : Line} {sel : BitVec 5} {v : Value} (ht : b.Later t.bus) :
    b.Later (if s.linePresent l then t.complete v else s.refuse sel).bus := by
  split
  · exact ht
  · exact h

theorem execSendFileNotFound_later (h : execSendFileNotFound s = .next t) : s.bus.Later t.bus := by
  have here : s.bus.Later s.bus := .refl _
  cases h
  refine here.orRefused ?_
  simpa using here.release.release.delay

theorem Bus.Later.startDecode (h : b.Later s.bus) : b.Later s.startDecode.bus :=
  (h.release (l := .clk)).pull (l := .data) rfl

theorem execService_later (h : execService s = .next t) : s.bus.Later t.bus := by
  have reset : s.bus.Later (s.afterRead .reset).bus := (Bus.Later.refl _).afterRead
  have atn : s.bus.Later (State.afterRead { s.afterRead .reset with resetLatch := false } .atn).bus := reset.afterRead
  cases h
  split
  · exact .refl _
  · simp only
    split
    · exact reset.serveReset
    · split
      · exact atn.returnMode
      · exact atn.startDecode

theorem execAddDevice_bus {ref : DeviceRef} {id : DeviceId} (h : execAddDevice ref id s = .next t) : t.bus = s.bus := by
  cases h
  repeat' split
  all_goals rfl

theorem execRemoveDevice_bus {ref : DeviceRef} (h : execRemoveDevice ref s = .next t) : t.bus = s.bus := by
  cases h
  repeat' split
  all_goals rfl

theorem execChangeDeviceId_bus {ref : DeviceRef} {id : DeviceId} (h : execChangeDeviceId ref id s = .next t) :
    t.bus = s.bus := by
  cases h
  repeat' split
  all_goals rfl

/-- Every instruction but `pull` leads to a later bus: of the engine's own rules none pulls another line than CLK and DATA
(20_memory.md R63). -/
theorem exec_later {i : Instr} (hi : ∀ l, i ≠ .pull l) (h : exec i s = .next t) : s.bus.Later t.bus := by
  have here : s.bus.Later s.bus := .refl _
  cases i with
  | pull l => exact absurd rfl (hi l)
  | globalCmd =>
    cases h
    exact here.byPlace (Bus.Later.notAddressed (s := s.setCommand 0x00#8 .global) here) here.malformedInDecode
      here.malformedInDecode here.malformedInListen
  | unlisten => cases h; exact here.byPlace here.endEpisode here.endEpisode here here.toIdle
  | untalk =>
    cases h
    exact here.byPlace here.endEpisode here.endEpisode here.malformedInDecode here.malformedInListen
  | listen id => cases h; exact here.addressByte rfl rfl
  | talk id => cases h; exact here.addressByte rfl rfl
  | dataCmd ch => cases h; exact here.secondaryByte rfl fun _ hu => hu.enterPhase
  | closeCmd ch => cases h; exact here.secondaryByte rfl fun _ hu => hu.enterPhase
  | openCmd ch => cases h; exact here.secondaryByte rfl fun _ hu => hu.enterOpen
  | invalid01_1F x => cases h; exact here.invalidByte
  | invalid70_7F x => cases h; exact here.invalidByte
  | invalid80_BF x => cases h; exact here.invalidByte
  | invalidC0_DF x => cases h; exact here.invalidByte
  | service => exact execService_later h
  | release l => cases h; exact here.onLine here.release
  | read l => cases h; exact here.onLine here.afterRead
  | timeoutWait l expected => cases h; exact here.onLine here.timeoutWait
  | sendByte value signalEOI => cases h; exact here.sendByte.complete
  | receiveByte => cases h; exact here.receiveByte.complete
  | turnAround => cases h; exact here.turnAround.complete
  | undoTurnAround => cases h; exact here.undoTurnAround.complete
  | addDevice ref id => rw [execAddDevice_bus h]; exact here
  | removeDevice ref => rw [execRemoveDevice_bus h]; exact here
  | changeDeviceId ref newId => rw [execChangeDeviceId_bus h]; exact here
  | deviceById id => cases h; exact here
  | numDevices => cases h; exact here
  | isEnabled id => cases h; exact here
  | enableDevice id => cases h; exact here.orRefused here
  | disableDevice id => cases h; exact here.orRefused here
  | send value => cases h; exact here.orRefused here.sendPrimitive
  | sendBuffer buffer length => cases h; exact here.orRefused (Bus.Later.sendAll _ here)
  | sendEOI value => cases h; exact here.orRefused here.sendEoiPrimitive
  | sendFileNotFound => exact execSendFileNotFound_later h
  | receive => cases h; exact here.orRefused here.receivePrimitive
  | receiveBuffer buffer length => cases h; exact here.orRefused (Bus.Later.receiveAll length here)

/-- `pull(l)` as an instruction: the pull, or a refusal where the line is not there. -/
theorem execPull_bus {l : Line} (h : execPull l s = .next t) : t.bus = s.bus.pull l ∨ t.bus = s.bus := by
  cases h
  split
  · exact .inl rfl
  · exact .inr rfl

end

/-! ### The fetch -/

/-- The state a fetch leaves. -/
def Fetched.state : Fetched → State
  | .run _ u => u
  | .done u => u

theorem Fetched.state_done (u : State) : (Fetched.done u).state = u := rfl

section
variable {b : Bus} {s : State}

theorem State.deviceRead_bus (s : State) (i : Nat) : (s.deviceRead i).bus = s.bus := by
  unfold State.deviceRead; split <;> rfl

theorem fetchRequest_bus (r : OpRequest) (s : State) : (fetchRequest r s).state.bus = s.bus := by
  unfold fetchRequest; split <;> rfl

theorem fetchHost_bus (s : State) : (fetchHost s).state.bus = s.bus := by
  unfold fetchHost
  split
  · rfl
  · exact fetchRequest_bus _ _

theorem fetchDeviceRequest_bus (r : OpRequest) (s : State) : (fetchDeviceRequest r s).state.bus = s.bus := by
  unfold fetchDeviceRequest
  split
  · exact fetchRequest_bus r s
  · rfl

theorem Bus.Later.fetchDevice (h : b.Later s.bus) (hook : Hook) (phaseDone : Bool) :
    b.Later (fetchDevice hook phaseDone s).state.bus := by
  unfold Machine.fetchDevice
  split
  · exact h.hookReturn _ _ _
  · rw [fetchDeviceRequest_bus]; exact h
  · rw [Fetched.state_done, State.deviceRead_bus]; exact h
  · exact h
  · exact h.trans s.bus.later_envMove
  · next answer rest _ => exact Bus.Later.hookReturn (s := { s with device := rest }) h _ _ _

theorem Bus.Later.fetchCommand (h : b.Later s.bus) : b.Later (fetchCommand s).state.bus := by
  have received := Bus.Later.receiveByte (s := s.afterRead .reset) h.afterRead
  unfold Machine.fetchCommand
  simp only
  split
  · exact Bus.Later.decodeReset h.afterRead
  · split
    · exact received.decodeReset
    · split
      · exact received.decodeError
      · split
        · exact received.decodeError
        · exact received

theorem Bus.Later.storePayload (h : b.Later s.bus) {v : Byte} : b.Later (s.storePayload v).bus := by
  unfold State.storePayload
  simp only
  split
  · exact h.decodeError
  · split <;> exact h

theorem Bus.Later.fetchPayload (h : b.Later s.bus) : b.Later (fetchPayload s).state.bus := by
  have received := Bus.Later.receiveByte (s := s.afterRead .reset) h.afterRead
  unfold Machine.fetchPayload
  simp only
  split
  · exact Bus.Later.decodeReset h.afterRead
  · split
    · exact received.decodeReset
    · split
      · exact received.decodeError
      · split
        · exact received
        · exact received.storePayload

theorem Bus.Later.fetchListen (h : b.Later s.bus) : b.Later (fetchListen s).state.bus := by
  have received := Bus.Later.receiveByte (s := (s.afterRead .reset).afterRead .atn) h.afterRead.afterRead
  unfold Machine.fetchListen
  simp only
  split
  · exact Bus.Later.serveReset h.afterRead
  · split
    · exact Bus.Later.returnMode h.afterRead.afterRead
    · split
      · exact received.serveReset
      · split
        · exact received.phaseError
        · split
          · exact received
          · exact received.callHook

end

theorem fetch_later (s : State) : s.bus.Later (fetch s).state.bus := by
  have here : s.bus.Later s.bus := .refl _
  unfold fetch
  split
  · rw [fetchHost_bus]; exact here
  · exact here.fetchCommand
  · exact here.fetchCommand
  · exact here.fetchPayload
  · exact here.fetchListen
  · exact here.fetchDevice _ _

/-! ### The step -/

/-- What a step can do to the lines: what every operation of the engine may, and where `pull(l)` was requested, that pull
after it. -/
theorem step_later_or_pulls {s t : State} (h : step s = .next t) :
    s.bus.Later t.bus ∨ ∃ l u, fetch s = .run (.pull l) u ∧ s.bus.Later u.bus ∧ t.bus = u.bus.pull l := by
  have fetched := fetch_later s
  unfold step at h
  split at h
  · rename_i i u found
    rw [found] at fetched
    by_cases hi : ∀ l, i ≠ .pull l
    · exact .inl (fetched.trans (exec_later hi h))
    · obtain ⟨l, rfl⟩ := not_forall_not.mp hi
      rcases execPull_bus h with pulled | refused
      · exact .inr ⟨l, u, found, fetched, pulled⟩
      · exact .inl (refused ▸ fetched)
  · rename_i u found
    rw [found] at fetched
    cases h
    exact .inl fetched

/-- What a pull of any line adds to the wire's record: events of that line. -/
theorem Bus.pull_wire_grows (b : Bus) (l : Line) : ∃ new, (b.pull l).wire = new ++ b.wire ∧ ∀ e ∈ new, e.line = l := by
  unfold Bus.pull Bus.drive
  split
  · exact ⟨[], b.envMove_wire, by simp⟩
  · exact ⟨[⟨b.envMove.now, l, .pulled⟩], congrArg _ b.envMove_wire, by simp⟩

/-! ### ATN, RESET and SRQ -/

/-- From `b` to `c` the engine does not pull `l`: released it stays released, and it is pulled at no moment in between. -/
def Bus.Spares (l : Line) (b c : Bus) : Prop :=
  (b.own.get l = .released → c.own.get l = .released) ∧ ∀ e ∈ newEvents b c, e.state = .pulled → e.line ≠ l

theorem Bus.Later.spares {b c : Bus} (h : b.Later c) {l : Line} (hl : undrivenLine l = true) : Bus.Spares l b c := by
  refine ⟨h.undriven l hl, fun e he hp eq => ?_⟩
  have driven := h.no_pull e he hp
  rw [eq, hl] at driven
  cases driven

/-- A pull of one line spares every other. -/
theorem Bus.Later.pull_spares {b c : Bus} (h : b.Later c) {l m : Line} (hl : undrivenLine l = true) (hm : l ≠ m) :
    Bus.Spares l b (c.pull m) := by
  obtain ⟨released, unpulled⟩ := h.spares hl
  obtain ⟨new, grown, -⟩ := h.wire_grows
  obtain ⟨ofPull, grownByPull, onLine⟩ := c.pull_wire_grows m
  refine ⟨fun hb => ?_, fun e he hp => ?_⟩
  · rw [Bus.pull_own, Lines.get_set_other _ _ _ _ hm]
    exact released hb
  · rw [newEvents_of_grows (new := ofPull ++ new) (by rw [grownByPull, grown, List.append_assoc]), List.mem_reverse] at he
    rcases List.mem_append.mp he with he | he
    · exact fun eq => hm (eq.symm.trans (onLine e he))
    · exact unpulled e (by rw [newEvents_of_grows grown]; exact List.mem_reverse.mpr he) hp

/-- Settles O12: a step is the engine's own work, which spares the undriven lines, with at most one requested pull after it, of
another line. -/
theorem engineNeverPullsAtnResetOrSrq : Obligations.EngineNeverPullsAtnResetOrSrq := by
  refine ⟨fun l _ => by cases l <;> rfl, fun s t l hl unrequested h => ?_⟩
  show Bus.Spares l s.bus t.bus
  rcases step_later_or_pulls h with later | ⟨m, u, found, later, pulled⟩
  · exact later.spares hl
  · have other : l ≠ m := fun eq => unrequested u (eq ▸ found)
    rw [pulled]
    exact later.pull_spares hl other

/-! ### Time and the wire -/

/-- Time goes on, the environment's moves are used in their order, and the wire's record only grows. -/
def Bus.OnlyGrows (b c : Bus) : Prop := b.now ≤ c.now ∧ c.env <:+ b.env ∧ b.wire <:+ c.wire

theorem Bus.Later.onlyGrows {b c : Bus} (h : b.Later c) : Bus.OnlyGrows b c := ⟨h.now_le, h.env_suffix, h.wire_suffix⟩

theorem Bus.OnlyGrows.trans {a b c : Bus} (h : Bus.OnlyGrows a b) (g : Bus.OnlyGrows b c) : Bus.OnlyGrows a c := by
  obtain ⟨now₁, env₁, wire₁⟩ := h
  obtain ⟨now₂, env₂, wire₂⟩ := g
  exact ⟨now₁.trans now₂, env₂.trans env₁, wire₁.trans wire₂⟩

theorem Bus.onlyGrows_pull (b : Bus) (l : Line) : Bus.OnlyGrows b (b.pull l) := by
  obtain ⟨new, grown, -⟩ := b.pull_wire_grows l
  refine ⟨?_, ?_, new, grown.symm⟩
  · rw [Bus.pull_now]; exact b.later_envMove.now_le
  · rw [Bus.pull_env]; exact b.later_envMove.env_suffix

/-- Settles O13: a step is the engine's own work with at most one requested pull after it, and neither takes anything back. -/
theorem timeAndWireOnlyGrow : Obligations.TimeAndWireOnlyGrow := by
  intro s t h
  show Bus.OnlyGrows s.bus t.bus
  rcases step_later_or_pulls h with later | ⟨l, u, -, later, pulled⟩
  · exact later.onlyGrows
  · rw [pulled]
    exact later.onlyGrows.trans (u.bus.onlyGrows_pull l)

end Sys2Proof.Machine
end

section
/-! PROOF. The decoder and the encoder: what the decoder makes of each encoded form (30_encoding.md R91 to R101), and from it
that decoding undoes encoding, that the byte ranges of R92 are the encodings of their rows, and which requests are rejected. -/
namespace Sys2Proof

/-! ### Operand codes (30_encoding.md R101) -/

@[simp] theorem decodeLine_lineCode (l : Line) : decodeLine (lineCode l) = some l := by cases l <;> rfl

@[simp] theorem decodeLineState_lineStateCode (x : LineState) : decodeLineState (lineStateCode x) = x := by cases x <;> rfl

@[simp] theorem decodeBool_boolCode (e : Bool) : decodeBool (boolCode e) = e := by cases e <;> rfl

theorem decodeLine_reserved {c : BitVec 3} (reserved : 5 ≤ c.toNat) : decodeLine c = none := by
  unfold decodeLine
  split
  case h_6 => rfl
  all_goals omega

@[simp] theorem decodeOnLine_lineCode (l : Line) (mk : Line → Instr) : decodeOnLine (lineCode l) mk = .instr (mk l) := by
  simp [decodeOnLine]

theorem decodeOnLine_reserved {c : BitVec 3} (reserved : 5 ≤ c.toNat) (mk : Line → Instr) :
    decodeOnLine c mk = .reject .reservedLine := by
  simp [decodeOnLine, decodeLine_reserved reserved]

theorem decodeOnBuffer_fits {buffer : List Byte} {length : Nat} (fits : length ≤ buffer.length)
    (mk : List Byte → Nat → Instr) : decodeOnBuffer buffer length mk = .instr (mk buffer length) := if_pos fits

/-- An operation on a line has an assigned select code: what can be wrong with it is the line. -/
@[simp] theorem decodeOnLine_selects (c : BitVec 3) (mk : Line → Instr) : decodeOnLine c mk ≠ .reject .reservedSelect := by
  unfold decodeOnLine; split <;> simp

/-- An operation on a buffer has an assigned select code: what can be wrong with it is the buffer. -/
@[simp] theorem decodeOnBuffer_selects (buffer : List Byte) (length : Nat) (mk : List Byte → Nat → Instr) :
    decodeOnBuffer buffer length mk ≠ .reject .reservedSelect := by
  unfold decodeOnBuffer; split <;> simp

/-! ### Command bytes: each row of 30_encoding.md R93 decodes, with its field

A field has at most 64 values, and the decoder is run on each. -/

theorem decodeCmd8_listenByte (id : DeviceId) (h : id ≠ 31) : decodeCmd8 (listenByte id) = .listen id := by decide +revert

theorem decodeCmd8_talkByte (id : DeviceId) (h : id ≠ 31) : decodeCmd8 (talkByte id) = .talk id := by decide +revert

theorem decodeCmd8_dataByte (ch : Channel) : decodeCmd8 (dataByte ch) = .dataCmd ch := by decide +revert

theorem decodeCmd8_closeByte (ch : Channel) : decodeCmd8 (closeByte ch) = .closeCmd ch := by decide +revert

theorem decodeCmd8_openByte (ch : Channel) : decodeCmd8 (openByte ch) = .openCmd ch := by decide +revert

theorem decodeCmd8_invalid01Byte (x : BitVec 5) (h : x ≠ 0) : decodeCmd8 (invalid01Byte x) = .invalid01_1F x := by
  decide +revert

theorem decodeCmd8_invalid70Byte (x : BitVec 4) : decodeCmd8 (invalid70Byte x) = .invalid70_7F x := by decide +revert

theorem decodeCmd8_invalid80Byte (x : BitVec 6) : decodeCmd8 (invalid80Byte x) = .invalid80_BF x := by decide +revert

theorem decodeCmd8_invalidC0Byte (x : BitVec 5) : decodeCmd8 (invalidC0Byte x) = .invalidC0_DF x := by decide +revert

/-! ### Decoding undoes encoding -/

/-- Settles O1, row by row: a command byte by its row's lemma, a request by the codes or the check of its operands. The rows left
are the bytes without a field and the requests whose operands are carried as they are. -/
theorem decodeOfEncode : Obligations.DecodeOfEncode := by
  intro i wf
  cases i with
  | listen id => exact congrArg Decoded.instr (decodeCmd8_listenByte id (by simpa [WellFormed] using wf))
  | talk id => exact congrArg Decoded.instr (decodeCmd8_talkByte id (by simpa [WellFormed] using wf))
  | dataCmd ch => exact congrArg Decoded.instr (decodeCmd8_dataByte ch)
  | closeCmd ch => exact congrArg Decoded.instr (decodeCmd8_closeByte ch)
  | openCmd ch => exact congrArg Decoded.instr (decodeCmd8_openByte ch)
  | invalid01_1F x => exact congrArg Decoded.instr (decodeCmd8_invalid01Byte x (by simpa [WellFormed] using wf))
  | invalid70_7F x => exact congrArg Decoded.instr (decodeCmd8_invalid70Byte x)
  | invalid80_BF x => exact congrArg Decoded.instr (decodeCmd8_invalid80Byte x)
  | invalidC0_DF x => exact congrArg Decoded.instr (decodeCmd8_invalidC0Byte x)
  | pull l => exact decodeOnLine_lineCode l .pull
  | release l => exact decodeOnLine_lineCode l .release
  | read l => exact decodeOnLine_lineCode l .read
  | timeoutWait l x => simp [encode, decode, decodeOp, OpRequest.ofSelect]
  | sendByte v e => simp [encode, decode, decodeOp, OpRequest.ofSelect]
  | sendBuffer buffer length => exact decodeOnBuffer_fits (by simpa [WellFormed] using wf) .sendBuffer
  | receiveBuffer buffer length => exact decodeOnBuffer_fits (by simpa [WellFormed] using wf) .receiveBuffer
  | _ => rfl

/-- Settles O3: the words are closed, and the decoder is run on them. -/
theorem writtenWordsDecode : Obligations.WrittenWordsDecode := by
  unfold Obligations.WrittenWordsDecode
  decide

/-! ### Byte ranges (30_encoding.md R92) -/

theorem append_ofNat_of_high {m k : Nat} (g : BitVec m) (b : BitVec (m + k)) (high : b.toNat / 2 ^ k = g.toNat) :
    g ++ BitVec.ofNat k b.toNat = b := by
  apply BitVec.eq_of_toNat_eq
  calc (g ++ BitVec.ofNat k b.toNat).toNat
      = g.toNat <<< k + b.toNat % 2 ^ k := by
        rw [BitVec.toNat_append, BitVec.toNat_ofNat, Nat.shiftLeft_add_eq_or_of_lt (Nat.mod_lt _ (Nat.two_pow_pos k))]
    _ = b.toNat := by rw [Nat.shiftLeft_eq, ← high, Nat.div_add_mod']

/-- The low `k` bits of a word are the same field, masked out first or not. -/
theorem ofNat_toNat_and {n k : Nat} (b mask : BitVec n) (low : mask.toNat = 2 ^ k - 1) :
    BitVec.ofNat k (b &&& mask).toNat = BitVec.ofNat k b.toNat := by
  apply BitVec.eq_of_toNat_eq
  rw [BitVec.toNat_and, low, Nat.and_two_pow_sub_one_eq_mod, BitVec.toNat_ofNat, BitVec.toNat_ofNat, Nat.mod_mod]

theorem ofNat_ne_of_mod_ne {k n : Nat} {x : BitVec k} (h : n % 2 ^ k ≠ x.toNat) : BitVec.ofNat k n ≠ x := by
  rintro rfl
  exact h (BitVec.toNat_ofNat n k).symm

/-- `i` is a well-formed instruction whose command byte is `b`. -/
def IsCommand (b : Byte) (i : Instr) : Prop := WellFormed i = true ∧ encode i = .cmd b

theorem IsCommand.decode {b : Byte} {i : Instr} (h : IsCommand b i) : decode (.cmd b) = .instr i := by
  obtain ⟨wf, encoded⟩ := h
  exact encoded ▸ decodeOfEncode i wf

/-! A range's bytes have the group of its row in their high bits, so each is its row's encoding of its own low bits. -/

section
variable {b : Byte}

theorem isCommand_globalCmd (h : b.toNat = 0x00) : IsCommand b .globalCmd :=
  ⟨rfl, congrArg Encoded.cmd (BitVec.eq_of_toNat_eq h.symm)⟩

theorem isCommand_unlisten (h : b.toNat = 0x3F) : IsCommand b .unlisten :=
  ⟨rfl, congrArg Encoded.cmd (BitVec.eq_of_toNat_eq h.symm)⟩

theorem isCommand_untalk (h : b.toNat = 0x5F) : IsCommand b .untalk :=
  ⟨rfl, congrArg Encoded.cmd (BitVec.eq_of_toNat_eq h.symm)⟩

theorem isCommand_listen (h : 0x20 ≤ b.toNat ∧ b.toNat ≤ 0x3E) : IsCommand b (.listen (BitVec.ofNat 5 b.toNat)) :=
  ⟨bne_iff_ne.mpr (ofNat_ne_of_mod_ne (show b.toNat % 32 ≠ 31 by omega)),
    congrArg Encoded.cmd (append_ofNat_of_high (k := 5) 0b001#3 b (show b.toNat / 32 = 0b001 by omega))⟩

theorem isCommand_talk (h : 0x40 ≤ b.toNat ∧ b.toNat ≤ 0x5E) : IsCommand b (.talk (BitVec.ofNat 5 b.toNat)) :=
  ⟨bne_iff_ne.mpr (ofNat_ne_of_mod_ne (show b.toNat % 32 ≠ 31 by omega)),
    congrArg Encoded.cmd (append_ofNat_of_high (k := 5) 0b010#3 b (show b.toNat / 32 = 0b010 by omega))⟩

theorem isCommand_dataCmd (h : 0x60 ≤ b.toNat ∧ b.toNat ≤ 0x6F) : IsCommand b (.dataCmd (BitVec.ofNat 4 b.toNat)) :=
  ⟨rfl, congrArg Encoded.cmd (append_ofNat_of_high (k := 4) 0b0110#4 b (show b.toNat / 16 = 0b0110 by omega))⟩

theorem isCommand_closeCmd (h : 0xE0 ≤ b.toNat ∧ b.toNat ≤ 0xEF) : IsCommand b (.closeCmd (BitVec.ofNat 4 b.toNat)) :=
  ⟨rfl, congrArg Encoded.cmd (append_ofNat_of_high (k := 4) 0b1110#4 b (show b.toNat / 16 = 0b1110 by omega))⟩

theorem isCommand_openCmd (h : 0xF0 ≤ b.toNat) : IsCommand b (.openCmd (BitVec.ofNat 4 b.toNat)) :=
  ⟨rfl, congrArg Encoded.cmd (append_ofNat_of_high (k := 4) 0b1111#4 b (show b.toNat / 16 = 0b1111 by omega))⟩

theorem isCommand_invalid01_1F (h : 0x01 ≤ b.toNat ∧ b.toNat ≤ 0x1F) :
    IsCommand b (.invalid01_1F (BitVec.ofNat 5 b.toNat)) :=
  ⟨bne_iff_ne.mpr (ofNat_ne_of_mod_ne (show b.toNat % 32 ≠ 0 by omega)),
    congrArg Encoded.cmd (append_ofNat_of_high (k := 5) 0b000#3 b (show b.toNat / 32 = 0b000 by omega))⟩

theorem isCommand_invalid70_7F (h : 0x70 ≤ b.toNat ∧ b.toNat ≤ 0x7F) :
    IsCommand b (.invalid70_7F (BitVec.ofNat 4 b.toNat)) :=
  ⟨rfl, congrArg Encoded.cmd (append_ofNat_of_high (k := 4) 0b0111#4 b (show b.toNat / 16 = 0b0111 by omega))⟩

theorem isCommand_invalid80_BF (h : 0x80 ≤ b.toNat ∧ b.toNat ≤ 0xBF) :
    IsCommand b (.invalid80_BF (BitVec.ofNat 6 b.toNat)) :=
  ⟨rfl, congrArg Encoded.cmd (append_ofNat_of_high (k := 6) 0b10#2 b (show b.toNat / 64 = 0b10 by omega))⟩

theorem isCommand_invalidC0_DF (h : 0xC0 ≤ b.toNat ∧ b.toNat ≤ 0xDF) :
    IsCommand b (.invalidC0_DF (BitVec.ofNat 5 b.toNat)) :=
  ⟨rfl, congrArg Encoded.cmd (append_ofNat_of_high (k := 5) 0b110#3 b (show b.toNat / 32 = 0b110 by omega))⟩

end

/-- Every byte is the command byte of a well-formed instruction: the ranges of 30_encoding.md R92 leave none out. -/
theorem exists_isCommand (b : Byte) : ∃ i, IsCommand b i := by
  have ranges : b.toNat = 0x00 ∨ (0x01 ≤ b.toNat ∧ b.toNat ≤ 0x1F) ∨ (0x20 ≤ b.toNat ∧ b.toNat ≤ 0x3E) ∨ b.toNat = 0x3F ∨
      (0x40 ≤ b.toNat ∧ b.toNat ≤ 0x5E) ∨ b.toNat = 0x5F ∨ (0x60 ≤ b.toNat ∧ b.toNat ≤ 0x6F) ∨
      (0x70 ≤ b.toNat ∧ b.toNat ≤ 0x7F) ∨ (0x80 ≤ b.toNat ∧ b.toNat ≤ 0xBF) ∨ (0xC0 ≤ b.toNat ∧ b.toNat ≤ 0xDF) ∨
      (0xE0 ≤ b.toNat ∧ b.toNat ≤ 0xEF) ∨ 0xF0 ≤ b.toNat := by omega
  rcases ranges with h | h | h | h | h | h | h | h | h | h | h | h
  · exact ⟨_, isCommand_globalCmd h⟩
  · exact ⟨_, isCommand_invalid01_1F h⟩
  · exact ⟨_, isCommand_listen h⟩
  · exact ⟨_, isCommand_unlisten h⟩
  · exact ⟨_, isCommand_talk h⟩
  · exact ⟨_, isCommand_untalk h⟩
  · exact ⟨_, isCommand_dataCmd h⟩
  · exact ⟨_, isCommand_invalid70_7F h⟩
  · exact ⟨_, isCommand_invalid80_BF h⟩
  · exact ⟨_, isCommand_invalidC0_DF h⟩
  · exact ⟨_, isCommand_closeCmd h⟩
  · exact ⟨_, isCommand_openCmd h⟩

theorem isCommand_decodeCmd8 (b : Byte) : IsCommand b (decodeCmd8 b) := by
  obtain ⟨i, h⟩ := exists_isCommand b
  obtain rfl : decodeCmd8 b = i := Decoded.instr.inj h.decode
  exact h

/-- Settles O2: each range holds the command bytes of its row, and a command byte decodes to the instruction it encodes. -/
theorem classificationByByteRanges : Obligations.ClassificationByByteRanges := by
  intro b
  obtain ⟨wf, encoded⟩ := isCommand_decodeCmd8 b
  rw [ofNat_toNat_and b 0x1F#8 rfl, ofNat_toNat_and b 0x0F#8 rfl]
  exact ⟨wf, encoded, fun h => (isCommand_globalCmd h).decode, fun h => (isCommand_unlisten h).decode,
    fun h => (isCommand_untalk h).decode, fun h => (isCommand_listen h).decode, fun h => (isCommand_talk h).decode,
    fun h => (isCommand_dataCmd h).decode, fun h => (isCommand_closeCmd h).decode, fun h => (isCommand_openCmd h).decode,
    fun h => (isCommand_invalid01_1F h).decode, fun h => (isCommand_invalid70_7F h).decode,
    fun h => (isCommand_invalid80_BF h).decode, fun h => (isCommand_invalidC0_DF h).decode⟩

/-! ### Requests that do not decode (30_encoding.md R101, R102) -/

/-- The rejection for the select code comes from the decoder's last row alone. -/
theorem decodeOp_reservedSelect_iff (r : OpRequest) :
    decodeOp r = .reject .reservedSelect ↔ (0x09 ≤ r.op.toNat ∧ r.op.toNat ≤ 0x0F) ∨ 0x1E ≤ r.op.toNat := by
  have width : r.op.toNat < 32 := r.op.isLt
  unfold decodeOp
  split
  case h_24 =>
    simp only [imp_false, true_iff] at *
    omega
  all_goals exact iff_of_false (by simp) (by omega)

theorem decodeOp_reservedLine {r : OpRequest} (reserved : 5 ≤ r.line.toNat)
    (onLine : r.op = 0x01#5 ∨ r.op = 0x02#5 ∨ r.op = 0x03#5 ∨ r.op = 0x08#5) : decodeOp r = .reject .reservedLine := by
  unfold decodeOp
  rcases onLine with h | h | h | h
  all_goals rw [h]; exact decodeOnLine_reserved reserved _

end Sys2Proof
end

section
/-! PROOF. Refused requests: a request that does not decode, and a request on the SRQ line where it is absent, change nothing but
the condition and the caller's answer (60_exceptions.md R337). -/
namespace Sys2Proof.Machine
open Sys2Proof

theorem State.refuse_refused (s : State) (sel : BitVec 5) : s.Refused (s.refuse sel) sel (refusalValue sel) :=
  ⟨rfl, rfl, rfl, rfl⟩

theorem fetchRequest_reject {r : OpRequest} {e : DecodeError} (h : decodeOp r = .reject e) (s : State) :
    fetchRequest r s = .done (s.refuse r.op) := by
  simp [fetchRequest, h]

theorem step_hostRequest_rejected {s : State} {r : OpRequest} {e : DecodeError} {rest : List OpRequest} (hc : s.ctl = .idle)
    (hh : s.host = r :: rest) (h : decodeOp r = .reject e) : step s = .next (State.refuse { s with host := rest } r.op) := by
  simp [step, fetch, hc, fetchHost, hh, fetchRequest_reject h]

/-- A device's request that does not decode is refused, be it because it is no data primitive or by the decoder. -/
theorem step_deviceRequest_rejected {s : State} {hook : Hook} {pd : Bool} {r : OpRequest} {e : DecodeError}
    {rest : List DevMove} (hc : s.ctl = .hook hook pd) (hd : s.device = .request r :: rest) (h : decodeOp r = .reject e) :
    step s = .next (State.refuse { s with device := rest } r.op) := by
  cases primitive : isDataPrimitive r.op with
  | false => exact step_deviceRequest_refused s hook pd r rest hc hd primitive
  | true => rw [step, fetch_dataPrimitive s hook pd r rest hc hd primitive, fetchRequest_reject h]

/-- Settles O4: the decoder's last row is the reserved select codes; a request it rejects is refused where it is fetched. -/
theorem reservedSelectIsRefused : Obligations.ReservedSelectIsRefused := by
  refine fun r => ⟨decodeOp_reservedSelect_iff r, fun e rejected => ⟨fun s rest hc hh => ?_, fun s rest hook pd hc hd => ?_⟩⟩
  · exact ⟨_, step_hostRequest_rejected hc hh rejected, State.refuse_refused _ _⟩
  · exact ⟨_, step_deviceRequest_rejected hc hd rejected, State.refuse_refused _ _⟩

/-- Settles O5: the decoder has no line for codes 5 to 7, and the four operations ask for the line's presence first. -/
theorem absentLineIsRefused : Obligations.AbsentLineIsRefused := by
  refine ⟨fun r => decodeOp_reservedLine, fun s noSrq => ?_⟩
  have absent : ¬ s.linePresent .srq = true := by simp [State.linePresent, noSrq]
  refine ⟨⟨s.refuse 0x01#5, ?_, s.refuse_refused _⟩, ⟨s.refuse 0x02#5, ?_, s.refuse_refused _⟩,
    ⟨s.refuse 0x03#5, ?_, s.refuse_refused _⟩, fun x => ⟨s.refuse 0x08#5, ?_, s.refuse_refused _⟩⟩
  all_goals exact congrArg Host.Outcome.next (if_neg absent)

end Sys2Proof.Machine
end

section
/-! PROOF. The Line Driver's three operations (40_line_driver.md R121 to R124): each lets the environment move and then writes
`own[l]`; the mode and the level of the line follow from what was written. -/
namespace Sys2Proof.Machine
open Sys2Proof

/-! ### The level of a line (20_memory.md R61) -/

theorem Bus.level_of_own_pulled {b : Bus} {l : Line} (h : b.own.get l = .pulled) : b.level l = .pulled :=
  if_pos (.inl h)

/-- The level of a line the engine does not pull is the others'. -/
theorem Bus.level_of_own_released {b : Bus} {l : Line} (h : b.own.get l = .released) : b.level l = b.ext.get l := by
  cases others : b.ext.get l <;> simp [Bus.level, h, others]

/-! ### One line action -/

theorem Bus.drive_of_own_eq {b : Bus} {l : Line} {v : LineState} (h : b.own.get l = v) : b.drive l v = b := if_pos h

/-- `c` is `b` after one write `own[l] <- v`, whatever the environment did meanwhile. -/
structure Bus.LineWritten (b c : Bus) (l : Line) (v : LineState) : Prop where
  own_line : c.own.get l = v
  isOutput_line : c.own.isOutput l = (v == .pulled)
  own_other : ∀ m, m ≠ l → c.own.get m = b.own.get m
  no_change : b.own.get l = v → c.own = b.own ∧ c.wire = b.wire

/-- `Bus.pull`, `Bus.release` and `Bus.afterRead` are this action. -/
theorem Bus.lineWritten_envMove_drive (b : Bus) (l : Line) (v : LineState) : b.LineWritten (b.envMove.drive l v) l v where
  own_line := by simp
  isOutput_line := by simp [Lines.isOutput]
  own_other := fun m other => by simp [Lines.get_set_other _ _ _ _ other]
  no_change := fun h => by
    have same : b.envMove.drive l v = b.envMove := Bus.drive_of_own_eq (by rw [Bus.envMove_own, h])
    rw [same]
    exact ⟨b.envMove_own, b.envMove_wire⟩

theorem Bus.lineWritten_pull (b : Bus) (l : Line) : b.LineWritten (b.pull l) l .pulled := b.lineWritten_envMove_drive l .pulled
theorem Bus.lineWritten_release (b : Bus) (l : Line) : b.LineWritten (b.release l) l .released :=
  b.lineWritten_envMove_drive l .released
theorem Bus.lineWritten_afterRead (b : Bus) (l : Line) : b.LineWritten (b.afterRead l) l .released :=
  b.lineWritten_envMove_drive l .released

/-! ### The requests -/

theorem decodeOp_pull {r : OpRequest} {l : Line} (select : r.op = 0x01#5) (line : r.line = lineCode l) :
    decodeOp r = .instr (.pull l) := by
  simp [decodeOp, select, line]

theorem decodeOp_release {r : OpRequest} {l : Line} (select : r.op = 0x02#5) (line : r.line = lineCode l) :
    decodeOp r = .instr (.release l) := by
  simp [decodeOp, select, line]

/-- An operation that asks for its line's presence first is refused where the line is absent (30_encoding.md R101). -/
theorem refused_of_lineAbsent {s : State} {l : Line} (absent : s.linePresent l = false) (t : State) (sel : BitVec 5) :
    ∃ u, (Host.Outcome.next (if s.linePresent l then t else s.refuse sel) : Host.Outcome State Fault Refusal) = .next u ∧
      s.Refused u sel (refusalValue sel) :=
  ⟨s.refuse sel, congrArg Host.Outcome.next (if_neg (by simp [absent])), s.refuse_refused sel⟩

/-- Settles O14: the one write `own[l] <- pulled` gives the mode and the level, and it is no write where it changes nothing. -/
theorem pullDrivesTheLine : Obligations.PullDrivesTheLine := by
  refine ⟨fun r l => decodeOp_pull, fun r select reserved => decodeOp_reservedLine reserved (.inl select),
    fun l s absent => refused_of_lineAbsent absent _ 0x01#5, fun l s present => ?_⟩
  obtain ⟨own_line, output, own_other, no_change⟩ := s.bus.lineWritten_pull l
  exact ⟨(s.pull l).complete .none, congrArg Host.Outcome.next (if_pos present), rfl, own_line, output,
    Bus.level_of_own_pulled own_line, own_other, no_change, rfl⟩

/-- Settles O15: once the engine's own side is released, the level is what the others make it. -/
theorem releaseLetsTheLineGo : Obligations.ReleaseLetsTheLineGo := by
  refine ⟨fun r l => decodeOp_release, fun r select reserved => decodeOp_reservedLine reserved (.inr (.inl select)),
    fun l s absent => refused_of_lineAbsent absent _ 0x02#5, fun l s present => ?_⟩
  obtain ⟨own_line, input, own_other, no_change⟩ := s.bus.lineWritten_release l
  exact ⟨(s.release l).complete .none, congrArg Host.Outcome.next (if_pos present), rfl, own_line, input,
    Bus.level_of_own_released own_line, own_other, no_change, rfl⟩

/-- Settles O16: the sample is the level after the write `own[l] <- released`, so it is the others'. -/
theorem readReleasesAndSenses : Obligations.ReadReleasesAndSenses := by
  intro l s present
  obtain ⟨own_line, input, own_other, -⟩ := s.bus.lineWritten_afterRead l
  have level : (s.bus.afterRead l).level l = (s.bus.afterRead l).ext.get l := Bus.level_of_own_released own_line
  exact ⟨(s.afterRead l).complete (.line (s.sample l)), congrArg Host.Outcome.next (if_pos present),
    congrArg (fun x => Result.completed (.line x)) level, own_line, input, level, own_other, rfl⟩

end Sys2Proof.Machine
end

section
/-! PROOF. The bounded wait (41_byte_handshake.md R141, R142; 60_exceptions.md R342): how it ends where the lines hold still, and
the statements about its result. -/
namespace Sys2Proof.Machine
open Sys2Proof

/-! ### A wait that fails on steady lines -/

/-- RESET held pulled is seen by the first sample. -/
theorem Link.timeoutWait_of_resetHeld (p : Params) (k : Link) (l : Line) (x : LineState) (reset : k.bus.Holds .reset .pulled) :
    Link.timeoutWait p k l x = (false, { k.tick.afterRead .reset with flags := k.flags.sawReset }) := by
  have seen : k.tick.sample .reset = .pulled := by simpa using (Bus.keepsHolds_tick _ _ _ reset).sampled
  exact if_pos seen

/-- A line held at another level is waited for until the deadline. -/
theorem Link.timeoutWait_of_otherHeld (p : Params) (k : Link) (l : Line) {x y : LineState} (other : y ≠ x)
    (noReset : k.bus.Holds .reset .released) (held : k.bus.Holds l y) :
    (Link.timeoutWait p k l x).1 = false ∧ (Link.timeoutWait p k l x).2.flags = k.flags.setErr ∧
      (Link.timeoutWait p k l x).2.bus.own.get l = .released ∧
      k.bus.now + p.tTimeout ≤ (Link.timeoutWait p k l x).2.bus.now := by
  have noReset' : k.tick.bus.Holds .reset .released := Bus.keepsHolds_tick _ _ _ noReset
  have failed : (Link.timeoutWait p k l x).1 = false :=
    Link.waitLoop_neverSeen _ _ _ _ _ _ other k.tick (Bus.keepsHolds_tick _ _ _ held)
  refine ⟨failed, Link.timeoutWait_noReset p k l x noReset failed,
    Link.waitLoop_lineReleased _ _ _ _ _ k.tick noReset' (Nat.succ_pos _), ?_⟩
  calc k.bus.now + p.tTimeout
      ≤ k.tick.bus.now + p.tTimeout := Nat.add_le_add_right (Bus.later_tick k.bus).now_le _
    _ ≤ (Link.timeoutWait p k l x).2.bus.now := Link.waitLoop_deadline _ _ _ _ _ k.tick (Nat.le_refl _) noReset' failed

/-! ### The request -/

theorem exec_timeoutWait {s : State} {l : Line} (present : s.linePresent l = true) (x : LineState) :
    exec (.timeoutWait l x) s = .next ((s.withLink (Link.timeoutWait s.cfg s.link l x).2).complete
      (.bool (Link.timeoutWait s.cfg s.link l x).1)) :=
  congrArg Host.Outcome.next (if_pos present)

/-- An operation on bus and flags that writes no flag changes nothing but the bus and the result. -/
theorem State.withLink_frame {s : State} {k : Link} (flags : k.flags = s.flags) (v : Value) :
    { (s.withLink k).complete v with bus := s.bus, result := s.result } = s := by
  simp [State.withLink, State.complete, flags]

/-- Settles O17: a line held in the state is seen at once, one held at the other level never, and RESET by the first sample. -/
theorem waitOnSteadyLines : Obligations.WaitOnSteadyLines := by
  intro s l x y present
  have wait := Link.timeoutWait_spec s.cfg s.link l x
  rw [exec_timeoutWait present]
  refine ⟨fun noReset held => ?_, fun noReset held other => ?_, fun reset => ?_⟩
  · have seen : (Link.timeoutWait s.cfg s.link l x).1 = true := (s.timeoutWait_seenAtOnce l x noReset held).1
    generalize Link.timeoutWait s.cfg s.link l x = w at *
    obtain ⟨flags, -, own⟩ := wait.seen seen
    exact ⟨_, rfl, by rw [seen]; rfl, own, fun m hl hr => wait.own_other m hr hl, State.withLink_frame flags _⟩
  · have ended := Link.timeoutWait_of_otherHeld s.cfg s.link l other noReset held
    generalize Link.timeoutWait s.cfg s.link l x = w at *
    obtain ⟨failed, flags, own, deadline⟩ := ended
    exact ⟨_, rfl, by rw [failed]; rfl, own, deadline, flags, fun m hl hr => wait.own_other m hr hl, rfl⟩
  · rw [Link.timeoutWait_of_resetHeld s.cfg s.link l x reset]
    exact ⟨_, rfl, rfl, rfl, fun m hm => by simp [Lines.get_set_other _ _ _ _ hm], rfl⟩

/-- Settles O18: what one wait can do is `Link.WaitSpec`, and a line that comes late meets an iteration's sample in time. -/
theorem waitResultIsSound : Obligations.WaitResultIsSound := by
  intro s l x present
  have wait := Link.timeoutWait_spec s.cfg s.link l x
  have late := Link.timeoutWait_seenLate s.cfg s.link l x
  have began : s.bus.now ≤ s.link.tick.bus.now := (Bus.later_tick s.bus).now_le
  rw [exec_timeoutWait present]
  generalize Link.timeoutWait s.cfg s.link l x = w at *
  refine ⟨_, w.1, rfl, rfl, wait.seen, fun failed => ?_, late, fun m hl hr => wait.own_other m hr hl, rfl⟩
  exact (wait.failed failed).imp id fun ⟨flags, deadline⟩ =>
    ⟨flags, Nat.le_trans (Nat.add_le_add_right began _) deadline⟩

end Sys2Proof.Machine
end

section
/-! PROOF. Receiving a byte (41_byte_handshake.md R150 to R156): against a talker that follows the protocol it is taken with its
EOI and ATN, and whatever the environment does EOI is acknowledged by a pulse after `T_EOI`. -/
namespace Sys2Proof.Machine
open Sys2Proof

/-! ### Against a talker that follows the protocol -/

/-- What the talker of `talkerScriptOf` does between "ready" and the first cell: with EOI it keeps CLK released until the
acknowledge pulse is over. -/
def talkerEoiMoves (atn : LineState) (dt : Nat) (eoi : Bool) : List EnvMove :=
  if eoi then List.replicate 5 (envTo atn .released .released dt) ++ List.replicate 3 (envTo atn .pulled .released dt)
  else [envTo atn .pulled .released dt]

/-- Whether it waits before the script or after its five moves of "ready", the talker does the same. -/
theorem lead_append_talkerScriptOf (atn : LineState) (dt m : Nat) (e : Bool) (cells : List LineState) (rest : List EnvMove) :
    List.replicate m (envTo atn .released .released dt) ++ talkerScriptOf atn dt e cells ++ rest =
      List.replicate 5 (envTo atn .released .released dt) ++ (List.replicate m (envTo atn .released .released dt) ++
        (talkerEoiMoves atn dt e ++ envTo atn .pulled .released dt ::
          (cells.flatMap (talkerCell atn dt) ++ envTo atn .pulled .released dt :: rest))) := by
  have swap : ∀ x : EnvMove, List.replicate m x ++ List.replicate 5 x = List.replicate 5 x ++ List.replicate m x := fun x => by
    rw [List.replicate_append_replicate, List.replicate_append_replicate, Nat.add_comm]
  simp only [talkerScriptOf, talkerEoiMoves, ← List.append_assoc, swap]
  simp

/-- The measurement takes the talker's EOI: CLK released for `T_EOI`, or pulled before it is over (R152). -/
theorem Link.measureEoi_talker (p : Params) (k : Link) (atn : LineState) (dt n : Nat) (e : Bool) (rest : List EnvMove)
    (script : k.bus.env = envTo atn .released .released dt ::
      (List.replicate (2 * n) (envTo atn .released .released dt) ++ (talkerEoiMoves atn dt e ++ rest)))
    (long : e = true → p.tEoi ≤ 2 * dt) (short : n = 0 ∨ (e = false ∧ 2 * n * dt < p.tEoi)) :
    ∃ j : Link, Link.measureEoi p k = (true, j) ∧ j.flags = { k.flags with eoi := e || k.flags.eoi } ∧ j.bus.env = rest := by
  cases e with
  | true =>
    obtain rfl : n = 0 := by simpa using short
    obtain ⟨j, measured, flags, env, -⟩ := Link.measureEoi_script p k atn dt true rest (by simpa [talkerEoiMoves] using script)
      long
    exact ⟨j, measured, flags, env⟩
  | false =>
    obtain ⟨j, measured, flags, env, -⟩ := Link.measureEoi_short p k atn dt n rest (by simpa [talkerEoiMoves] using script)
      (by simpa using short)
    exact ⟨j, measured, flags, env⟩

/-- `receiveByte` once its two waits before the cells have succeeded. -/
theorem Link.receiveByte_of_waits {p : Params} {k j1 j2 : Link}
    (ready : Link.timeoutWait p { k with flags := k.flags.clearForReceive } .clk .released = (true, j1))
    (measured : Link.measureEoi p (j1.release .data) = (true, j2)) :
    Link.receiveByte p k = Link.receiveCells p 8 0x00#8 j2.noteAtn := by
  simp [Link.receiveByte, ready, measured]

/-- `receiveByte` against the talker's script for any eight cells, CLK kept released for `2 * n` moves more. -/
theorem Link.receiveByte_talker (p : Params) (k : Link) (atn : LineState) (dt n : Nat) (e : Bool) (cells : List LineState)
    (rest : List EnvMove) (script : k.bus.env = List.replicate (2 * n) (envTo atn .released .released dt) ++
      talkerScriptOf atn dt e cells ++ rest) (eight : cells.length = 8) (long : e = true → p.tEoi ≤ 2 * dt)
    (short : n = 0 ∨ (e = false ∧ 2 * n * dt < p.tEoi)) :
    ∃ j : Link, Link.receiveByte p k = (cells.foldl insertBit 0x00#8, j) ∧
      j.flags = { eoi := e, atn := atn == .pulled, err := false, rst := k.flags.rst } ∧
      j.bus.own.clk = .released ∧ j.bus.own.data = .pulled ∧ j.bus.env = rest := by
  rw [lead_append_talkerScriptOf] at script
  obtain ⟨seen, flags1, env1, -⟩ :=
    Link.timeoutWait_script p { k with flags := k.flags.clearForReceive } .clk .released script rfl rfl
  generalize ready : Link.timeoutWait p { k with flags := k.flags.clearForReceive } .clk .released = w1 at seen flags1 env1
  obtain ⟨ok, j1⟩ := w1
  obtain rfl : ok = true := seen
  have env2 := (Bus.release_env j1.bus .data).trans (Bus.envMove_cons j1.bus env1).2.1
  obtain ⟨j2, measured, flags2, env3⟩ := Link.measureEoi_talker p (j1.release .data) atn dt n e _ env2 long short
  obtain ⟨flags4, env4, -⟩ := Link.noteAtn_script j2 _ _ env3
  obtain ⟨j, received, flags, env, clk, data, -⟩ := Link.receiveCells_script p atn dt cells 0x00#8 j2.noteAtn rest env4
    (.inl (by rintro rfl; simp at eight))
  refine ⟨j, ?_, ?_, clk, data, env⟩
  · rw [Link.receiveByte_of_waits ready measured]
    rw [eight] at received
    exact received
  · have flags1' : j1.flags = k.flags.clearForReceive := flags1
    rw [flags, flags4, flags2]
    simp [flags1', envTo, Flags.clearForReceive]

/-! ### Whatever the environment does -/

theorem Link.measureEoi_pulsed (p : Params) (k : Link) (released : k.bus.own.data = .released) (clear : k.flags.eoi = false)
    (eoi : (Link.measureEoi p k).2.flags.eoi = true) :
    Bus.Pulsed (k.bus.now + p.tEoi) p.tEoiAck k.bus (Link.measureEoi p k).2.bus :=
  (Link.eoiLoop_pulsed p _ _ k.tick (Nat.le_refl _) (by simpa using released) clear eoi).later
    (Nat.add_le_add_right (Bus.later_tick k.bus).now_le _) (Bus.later_tick k.bus) (.refl _)

/-- EOI is set only by the measurement, whose pulse stands on the wire when the byte is over (R152). -/
theorem Link.receiveByte_pulsed (p : Params) (k : Link) (eoi : (Link.receiveByte p k).2.flags.eoi = true) :
    Bus.Pulsed (k.bus.now + p.tEoi) p.tEoiAck k.bus (Link.receiveByte p k).2.bus := by
  have later1 := (Link.timeoutWait_spec p { k with flags := k.flags.clearForReceive } .clk .released).later
  have clear1 := Link.timeoutWait_eoi p { k with flags := k.flags.clearForReceive } .clk .released
  simp only [Link.receiveByte] at eoi ⊢
  generalize Link.timeoutWait p { k with flags := k.flags.clearForReceive } .clk .released = w1 at later1 clear1 eoi ⊢
  have later2 : k.bus.Later (w1.2.release .data).bus := later1.trans (Bus.later_release _ _)
  have pulsed : ∀ c : Bus, (Link.measureEoi p (w1.2.release .data)).2.bus.Later c →
      (Link.measureEoi p (w1.2.release .data)).2.flags.eoi = true → Bus.Pulsed (k.bus.now + p.tEoi) p.tEoiAck k.bus c :=
    fun c later3 eoi => (Link.measureEoi_pulsed p (w1.2.release .data) (by simp [Lines.set]) clear1 eoi).later
      (Nat.add_le_add_right later2.now_le _) later2 later3
  generalize Link.measureEoi p (w1.2.release .data) = w2 at pulsed eoi ⊢
  split at eoi
  case isTrue => simp [clear1] at eoi
  case isFalse notReady =>
    rw [if_neg notReady]
    split at eoi
    case isTrue failed => rw [if_pos failed]; exact pulsed _ (.refl _) eoi
    case isFalse measured =>
      rw [if_neg measured]
      have eoi2 : w2.2.flags.eoi = true := by rw [← Link.noteAtn_eoi, ← Link.receiveCells_eoi p 8 0x00#8]; exact eoi
      exact pulsed _ ((Link.noteAtn_handshake w2.2).trans (Link.receiveCells_handshake p 8 0x00#8 _)).later eoi2

/-! ### The request -/

theorem exec_receiveByte (s : State) : exec .receiveByte s =
    .next ((s.withLink (Link.receiveByte s.cfg s.link).2).complete (.byte (Link.receiveByte s.cfg s.link).1)) := rfl

/-- Settles O19: the talker's eight cells are the byte's, and eight insertions of them give it back. -/
theorem receiveByteTakesTheTalkersByte : Obligations.ReceiveByteTakesTheTalkersByte := by
  intro s atn n dt e v rest script long short
  obtain ⟨j, received, flags, clk, data, env⟩ :=
    Link.receiveByte_talker s.cfg s.link atn dt n e (cellsOf v) rest script (cellsOf_length v) long short
  have srq := (Link.receiveByte_handshake s.cfg s.link).own_srq
  rw [foldl_insertBit_cellsOf] at received
  rw [received] at srq
  rw [exec_receiveByte, received]
  exact ⟨_, rfl, rfl, flags, clk, data, srq, env, rfl⟩

/-- Settles O20: the pulse of an EOI takes the time it needs after the call, so no EOI comes earlier. -/
theorem receiveByteAlwaysEnds : Obligations.ReceiveByteAlwaysEnds := by
  intro s
  obtain ⟨failed, taken⟩ := Link.receiveByte_err s.cfg s.link
  obtain ⟨-, -, srq, rst⟩ := Link.receiveByte_handshake s.cfg s.link
  have pulsed := Link.receiveByte_pulsed s.cfg s.link
  rw [exec_receiveByte]
  generalize Link.receiveByte s.cfg s.link = r at *
  refine ⟨_, r.1, rfl, rfl, failed, taken, rst, srq, fun early => ?_, fun eoi => (pulsed eoi).newEvents, rfl⟩
  refine Bool.eq_false_iff.mpr fun eoi => Nat.not_lt.mpr ?_ early
  exact Nat.le_trans (Nat.le_add_right _ _) (pulsed eoi).now_le

end Sys2Proof.Machine
end

section
/-! PROOF. Sending a byte (41_byte_handshake.md R160 to R163, R178): against a listener that follows the protocol it is accepted,
and whatever the environment does a byte that was sent stands on the wire, for a `receiveByte` to take. -/
namespace Sys2Proof.Machine
open Sys2Proof

/-! ### Against a listener that follows the protocol -/

/-- The listener's moves for the EOI acknowledge: its pulse on DATA (R161). -/
def listenerEoiMoves (dt : Nat) (eoi : Bool) : List EnvMove :=
  if eoi then List.replicate 3 (envTo .released .released .pulled dt) ++ List.replicate 3 (envTo .released .released .released dt)
  else []

theorem listenerScript_append (dt : Nat) (e : Bool) (rest : List EnvMove) :
    listenerScript dt e ++ rest = List.replicate 4 (envTo .released .released .released dt) ++ (listenerEoiMoves dt e ++
      (List.replicate (5 * 8) (envTo .released .released .released dt) ++
        (List.replicate 2 (envTo .released .released .released dt) ++
          (List.replicate 3 (envTo .released .released .pulled dt) ++ rest)))) := by
  have still : ∀ x : EnvMove, List.replicate 42 x = List.replicate (5 * 8) x ++ List.replicate 2 x := fun x => by
    rw [List.replicate_append_replicate]
  simp only [listenerScript, listenerEoiMoves, still, List.append_assoc]

/-- What a wait or a step that the partner answered leaves: no flag written, ATN as it was, the script at its next move. -/
structure Link.Answered (k j : Link) (rest : List EnvMove) : Prop where
  flags : j.flags = k.flags
  own_atn : j.bus.own.atn = k.bus.own.atn
  env : j.bus.env = rest

theorem Link.Answered.trans {a b c : Link} {r1 r2 : List EnvMove} (h : a.Answered b r1) (g : b.Answered c r2) : a.Answered c r2 :=
  ⟨g.flags.trans h.flags, g.own_atn.trans h.own_atn, g.env⟩

/-- A wait for DATA that the partner's next three moves answer. -/
theorem Link.timeoutWait_answered (p : Params) (k : Link) (x : LineState) (dt : Nat) (rest : List EnvMove)
    (script : k.bus.env = List.replicate 3 (envTo .released .released x dt) ++ rest) :
    (Link.timeoutWait p k .data x).1 = true ∧ k.Answered (Link.timeoutWait p k .data x).2 rest := by
  obtain ⟨seen, flags, env, -, own, -⟩ := Link.timeoutWait_script p k .data x script rfl rfl
  exact ⟨seen, flags, by rw [own]; rfl, env⟩

theorem Link.awaitEoiAck_answered (p : Params) (k : Link) (e : Bool) (dt : Nat) (rest : List EnvMove)
    (script : k.bus.env = listenerEoiMoves dt e ++ rest) :
    (Link.awaitEoiAck p e k).1 = true ∧ k.Answered (Link.awaitEoiAck p e k).2 rest := by
  cases e with
  | false => exact ⟨rfl, rfl, rfl, script⟩
  | true =>
    obtain ⟨seen, pulled⟩ := Link.timeoutWait_answered p k .pulled dt _ (by simpa [listenerEoiMoves] using script)
    obtain ⟨seen', released⟩ := Link.timeoutWait_answered p _ .released dt rest pulled.env
    have eq : Link.awaitEoiAck p true k = Link.timeoutWait p (Link.timeoutWait p k .data .pulled).2 .data .released := by
      simp [Link.awaitEoiAck, seen]
    rw [eq]
    exact ⟨seen', pulled.trans released⟩

/-- Steps 4 to 6 against the listener: 40 moves for the cells, 2 for the talker's idle state, 3 for the accept. -/
theorem Link.sendTail_answered (p : Params) (v : Byte) (k : Link) (m : EnvMove) (dt : Nat) (rest : List EnvMove)
    (script : k.bus.env = List.replicate (5 * 8) m ++ (List.replicate 2 m ++
      (List.replicate 3 (envTo .released .released .pulled dt) ++ rest))) :
    (Link.sendTail p v k).1 = true ∧ k.Answered (Link.sendTail p v k).2 rest := by
  obtain ⟨env, own⟩ := Link.sendCells_script p v m 8 0 k _ script
  have flags := Link.sendCells_flags p v 8 0 k
  unfold Link.sendTail
  generalize Link.sendCells p v 8 0 k = j at env own flags ⊢
  have env1 := (Bus.pull_env j.bus .clk).trans (Bus.envMove_cons j.bus env).2.1
  have env2 := (Bus.release_env (j.bus.pull .clk) .data).trans (Bus.envMove_cons (j.bus.pull .clk) env1).2.1
  obtain ⟨seen, accepted⟩ := Link.timeoutWait_answered p ((j.pull .clk).release .data) .pulled dt rest env2
  exact ⟨seen, accepted.flags.trans flags, accepted.own_atn.trans (by simpa [Lines.set] using own), accepted.env⟩

/-- Steps 1 and 2 of `sendByte`: CLK released says "ready", and DATA released by all is the listener's answer. -/
def Link.sendReady (p : Params) (k : Link) : Bool × Link :=
  Link.timeoutWait p (Link.release { k with flags := k.flags.clearErr } .clk) .data .released

/-- A byte is sent by the steps after its waits, or a wait before the cells failed. -/
theorem Link.sendByte_cases (p : Params) (v : Byte) (e : Bool) (k : Link) :
    ((Link.sendReady p k).1 = true ∧ (Link.awaitEoiAck p e (Link.sendReady p k).2).1 = true ∧
      Link.sendByte p v e k = Link.sendTail p v (Link.awaitEoiAck p e (Link.sendReady p k).2).2) ∨
    (((Link.sendReady p k).1 = false ∨ (Link.awaitEoiAck p e (Link.sendReady p k).2).1 = false) ∧
      (Link.sendByte p v e k).1 = false) := by
  have eq : Link.sendByte p v e k = if (Link.sendReady p k).1 = false then (false, (Link.sendReady p k).2)
      else if (Link.awaitEoiAck p e (Link.sendReady p k).2).1 = false then (false, (Link.awaitEoiAck p e (Link.sendReady p k).2).2)
      else Link.sendTail p v (Link.awaitEoiAck p e (Link.sendReady p k).2).2 := Link.sendByte_eq p v e k
  cases ready : (Link.sendReady p k).1 with
  | false => simp [eq, ready]
  | true => cases acknowledged : (Link.awaitEoiAck p e (Link.sendReady p k).2).1 <;> simp [eq, ready, acknowledged]

theorem Link.sendByte_answered (p : Params) (v : Byte) (e : Bool) (k : Link) (dt : Nat) (rest : List EnvMove)
    (script : k.bus.env = listenerScript dt e ++ rest) :
    (Link.sendByte p v e k).1 = true ∧ Link.Answered { k with flags := k.flags.clearErr } (Link.sendByte p v e k).2 rest := by
  rw [listenerScript_append] at script
  have released : Link.Answered { k with flags := k.flags.clearErr } (Link.release { k with flags := k.flags.clearErr } .clk) _ :=
    ⟨rfl, by simp [Lines.set], (Bus.release_env k.bus .clk).trans (Bus.envMove_cons k.bus script).2.1⟩
  obtain ⟨ready, answered1⟩ := Link.timeoutWait_answered p _ .released dt _ released.env
  obtain ⟨acknowledged, answered2⟩ := Link.awaitEoiAck_answered p _ e dt _ answered1.env
  obtain ⟨accepted, answered3⟩ := Link.sendTail_answered p v _ _ dt rest answered2.env
  have answered := ((released.trans answered1).trans answered2).trans answered3
  rcases Link.sendByte_cases p v e k with ⟨-, -, tail⟩ | ⟨failed | failed, -⟩
  · rw [tail]; exact ⟨accepted, answered⟩
  · exact absurd (failed.symm.trans ready) (by simp)
  · exact absurd (failed.symm.trans acknowledged) (by simp)

/-! ### Whatever the environment does -/

theorem Link.awaitEoiAck_wire (p : Params) (e : Bool) {b : Bus} {out : List LineState} {ok : Bool} (k : Link)
    (wrote : Bus.Wrote b k.bus out ok) (released : k.bus.own.data = .released) :
    Bus.Wrote b (Link.awaitEoiAck p e k).2.bus out ok := by
  have pulse := Link.timeoutWait_wire p .pulled k wrote released
  have released' := (Link.timeoutWait_spec p k .data .pulled).own_released .data released
  unfold Link.awaitEoiAck
  split
  · simp only
    split
    · exact pulse
    · exact Link.timeoutWait_wire p .released _ pulse released'
  · exact wrote

theorem Link.awaitEoiAck_clocked (p : Params) (e : Bool) {b : Bus} {cs : List WireEvent} (k : Link)
    (clocked : Bus.Clocked b k.bus cs) : Bus.Clocked b (Link.awaitEoiAck p e k).2.bus cs := by
  have pulse := Link.timeoutWait_clocked p .data (by simp) .pulled k clocked
  unfold Link.awaitEoiAck
  split
  · simp only
    split
    · exact pulse
    · exact Link.timeoutWait_clocked p .data (by simp) .released _ pulse
  · exact clocked

theorem Link.awaitEoiAck_own_clk (p : Params) (e : Bool) (k : Link) :
    (Link.awaitEoiAck p e k).2.bus.own.clk = k.bus.own.clk := by
  have other := fun j x => (Link.timeoutWait_spec p j .data x).own_other .clk (by simp) (by simp)
  unfold Link.awaitEoiAck
  split
  · simp only
    split
    · exact other k .pulled
    · exact (other _ .released).trans (other k .pulled)
  · rfl

/-- A byte that was sent is sent by the steps after its waits, from a listener that has let DATA go. -/
theorem Link.sendByte_of_sent {p : Params} {v : Byte} {e : Bool} {k : Link} (sent : (Link.sendByte p v e k).1 = true) :
    (Link.sendReady p k).2.bus.own.data = .released ∧
      Link.sendByte p v e k = Link.sendTail p v (Link.awaitEoiAck p e (Link.sendReady p k).2).2 := by
  rcases Link.sendByte_cases p v e k with ⟨ready, -, tail⟩ | ⟨-, failed⟩
  · exact ⟨((Link.timeoutWait_spec p _ .data .released).seen ready).2.2, tail⟩
  · exact absurd (failed.symm.trans sent) (by simp)

/-- The release of CLK that says "ready" shows DATA as it stood; DATA is let go there only if the engine pulled it. -/
theorem Link.sendReady_wire (p : Params) (k : Link) : ∃ ok, Bus.Wrote k.bus (Link.sendReady p k).2.bus
    (if k.bus.own.clk = .pulled then [k.bus.own.data] else []) ok ∧ (k.bus.own.data = .released → ok = true) := by
  have ready : Bus.Wrote k.bus (Link.release { k with flags := k.flags.clearErr } .clk).bus _ true :=
    (Bus.Wrote.refl k.bus).releaseClk
  rw [List.nil_append] at ready
  by_cases idle : k.bus.own.data = .released
  · exact ⟨true, Link.timeoutWait_wire p .released _ ready (by simpa [Lines.set] using idle), fun _ => rfl⟩
  · obtain ⟨ok, waited⟩ := Link.timeoutWait_wire_any p .released _ ready
    exact ⟨ok, waited, fun h => absurd h idle⟩

/-- The cell of "ready" and then the byte's eight; from a talker that does not pull DATA, DATA moves under a pulled CLK alone. -/
theorem Link.sendByte_wire (p : Params) (v : Byte) (e : Bool) (k : Link) (sent : (Link.sendByte p v e k).1 = true) :
    ∃ ok, Bus.Wrote k.bus (Link.sendByte p v e k).2.bus ((if k.bus.own.clk = .pulled then [k.bus.own.data] else []) ++ cellsOf v)
      ok ∧ (k.bus.own.data = .released → ok = true) := by
  obtain ⟨released, tail⟩ := Link.sendByte_of_sent sent
  obtain ⟨ok, ready, idle⟩ := Link.sendReady_wire p k
  rw [tail]
  exact ⟨ok, Link.sendTail_wire p v _ (Link.awaitEoiAck_wire p e _ ready released), idle⟩

/-- "Ready" is a change of CLK where the engine pulled it, and leaves it released. -/
theorem Link.sendReady_clocked (p : Params) (k : Link) : (Link.sendReady p k).2.bus.own.clk = .released ∧
    ∃ ready, Bus.Clocked k.bus (Link.sendReady p k).2.bus ready ∧ ready.length = (if k.bus.own.clk = .pulled then 1 else 0) := by
  have before := (Bus.Clocked.refl k.bus).envMove
  have waited := fun cs h => Link.timeoutWait_clocked p .data (by simp) .released (b0 := k.bus) (cs := cs)
    (Link.release { k with flags := k.flags.clearErr } .clk) h
  refine ⟨(Link.timeoutWait_spec p _ .data .released).own_released .clk (by simp [Lines.get, Lines.set]), ?_⟩
  cases clk : k.bus.own.clk with
  | released => exact ⟨[], waited _ (before.drive_same .clk .released (by simpa [Lines.get] using clk)), rfl⟩
  | pulled => exact ⟨[⟨k.bus.envMove.now, .clk, .released⟩], waited _ (before.drive_clk .released (by simp [clk])), rfl⟩

/-- After "ready" CLK is pulled and released eight times and pulled, `T_BIT` or more between. -/
theorem Link.sendByte_clocked (p : Params) (v : Byte) (e : Bool) (k : Link) (sent : (Link.sendByte p v e k).1 = true) :
    ∃ ready clocks : List WireEvent, Bus.Clocked k.bus (Link.sendByte p v e k).2.bus (ready ++ clocks) ∧
      ready.length = (if k.bus.own.clk = .pulled then 1 else 0) ∧
      (clocks.map fun c => c.state) = (List.replicate 8 [LineState.pulled, .released]).flatten ++ [.pulled] ∧
      clocks.Pairwise fun c d => c.time + p.tBit ≤ d.time := by
  obtain ⟨-, tail⟩ := Link.sendByte_of_sent sent
  obtain ⟨clk, ready, clocked, length⟩ := Link.sendReady_clocked p k
  obtain ⟨clocks, all, states, spaced⟩ := Link.sendTail_clocked p v _ (Link.awaitEoiAck_clocked p e _ clocked)
    ((Link.awaitEoiAck_own_clk p e _).trans clk)
  rw [tail]
  exact ⟨ready, clocks, all, length, states, spaced⟩

/-! ### The request -/

theorem exec_sendByte (s : State) (v : Byte) (e : Bool) : exec (.sendByte v e) s =
    .next ((s.withLink (Link.sendByte s.cfg v e s.link).2).complete (.bool (Link.sendByte s.cfg v e s.link).1)) := rfl

/-- Settles O21: each wait of the sequence is answered by the listener's next three moves. -/
theorem sendByteIsAccepted : Obligations.SendByteIsAccepted := by
  intro s dt e v rest script
  obtain ⟨accepted, flags, atn, env⟩ := Link.sendByte_answered s.cfg v e s.link dt rest script
  obtain ⟨clk, data⟩ := Link.sendByte_sent s.cfg v e s.link accepted
  have srq := (Link.sendByte_handshake s.cfg v e s.link).own_srq
  rw [exec_sendByte]
  generalize Link.sendByte s.cfg v e s.link = w at *
  exact ⟨_, rfl, by rw [accepted]; rfl, flags, clk, data, atn, srq, env, rfl⟩

/-- Settles O22: the cells and the clock are those of the eight `sendCell`s, which follow the waits that succeeded. -/
theorem sendByteClocksOutTheBits : Obligations.SendByteClocksOutTheBits := by
  intro s v e
  have err := Link.sendByte_err s.cfg v e s.link
  have lines := Link.sendByte_sent s.cfg v e s.link
  have wire := Link.sendByte_wire s.cfg v e s.link
  have clock := Link.sendByte_clocked s.cfg v e s.link
  rw [exec_sendByte]
  generalize Link.sendByte s.cfg v e s.link = w at *
  refine ⟨_, w.1, rfl, rfl, err, fun sent => ?_, rfl⟩
  obtain ⟨clk, data⟩ := lines sent
  obtain ⟨ok, wrote, idle⟩ := wire sent
  obtain ⟨ready, clocks, clocked, length, states, spaced⟩ := clock sent
  exact ⟨clk, data, wrote.newEvents.1, fun h => wrote.newEvents.2.trans (idle h), ready, clocks, clocked.newEvents, length, states,
    spaced⟩

/-- Settles O23: the last eight cells of a sent byte are the byte's, and the receiver takes them from the talker's script. -/
theorem sentByteIsReceived : Obligations.SentByteIsReceived := by
  intro s t r v e atn dt cells rest run ok eight suffix script long
  obtain ⟨t', sent, run', result, -, onWire, -⟩ := sendByteClocksOutTheBits s v e
  obtain rfl : t' = t := Host.Outcome.next.inj (run'.symm.trans run)
  obtain rfl : sent = true := by simpa [ok] using result.symm
  rw [(onWire rfl).2.2.1] at suffix
  have length := cellsOf_length v
  obtain rfl : cells = cellsOf v :=
    (List.suffix_of_suffix_length_le suffix (List.suffix_append _ _) (by omega)).eq_of_length (by omega)
  obtain ⟨u, received, value, flags, -⟩ := receiveByteTakesTheTalkersByte r atn 0 dt e v rest script long (.inl rfl)
  exact ⟨u, received, value, by rw [flags], by rw [flags]⟩

end Sys2Proof.Machine
end

section
/-! PROOF. The turnaround (41_byte_handshake.md R170, R174): what `turnAround` and `undoTurnAround` leave when their wait for CLK
succeeds and when it fails. -/
namespace Sys2Proof.Machine
open Sys2Proof

/-! ### The wait for CLK -/

/-- How a wait for `x` on `l` ends: what it leaves of `k` in any case, and which end it is where the lines hold still. -/
structure Link.WaitEnd (l : Line) (x : LineState) (k : Link) (w : Bool × Link) : Prop where
  later : k.bus.Later w.2.bus
  own_other : ∀ m, m ≠ .reset → m ≠ l → w.2.bus.own.get m = k.bus.own.get m
  own_released : ∀ m, k.bus.own.get m = .released → w.2.bus.own.get m = .released
  err : k.flags.err = false → w.2.flags.err = !w.1
  seen_flags : w.1 = true → w.2.flags = k.flags
  held : k.bus.Holds .reset .released → k.bus.Holds l x → w.1 = true
  other : ∀ y, y ≠ x → k.bus.Holds .reset .released → k.bus.Holds l y →
    w.1 = false ∧ w.2.flags = k.flags.setErr ∧ w.2.bus.own.get l = .released
  reset : k.bus.Holds .reset .pulled → w.1 = false ∧ w.2.flags = k.flags.sawReset

theorem Link.timeoutWait_end (p : Params) (k : Link) (l : Line) (x : LineState) :
    Link.WaitEnd l x k (Link.timeoutWait p k l x) := by
  have spec := Link.timeoutWait_spec p k l x
  refine ⟨spec.later, spec.own_other, spec.own_released, Link.timeoutWait_err p k l x, fun seen => (spec.seen seen).1,
    fun noReset held => by rw [Link.timeoutWait_seenAtOnce p k l x noReset held], fun y other noReset held => ?_,
    fun reset => by rw [Link.timeoutWait_of_resetHeld p k l x reset]; exact ⟨rfl, rfl⟩⟩
  obtain ⟨failed, flags, own, -⟩ := Link.timeoutWait_of_otherHeld p k l other noReset held
  exact ⟨failed, flags, own⟩

/-- Two settle delays with a line action before each take at least twice `T_TURN`. -/
theorem Bus.now_le_of_twoDelays {b c e : Bus} (d : Nat) (first : b.Later c) (second : (c.delay d).Later e) :
    b.now + 2 * d ≤ (e.delay d).now := by
  have l1 := first.now_le
  have l2 := second.now_le
  have l3 := (Bus.later_envMove c).now_le
  have l4 := (Bus.later_envMove e).now_le
  simp only [Bus.delay] at l2 ⊢
  omega

/-! ### turnAround -/

/-- What `turnAround` does once CLK is let go: DATA let go, CLK pulled, each with its settle delay, and `turn` is TURNED. -/
def State.becomeTalker (s : State) : State :=
  { (((s.release .data).delay s.cfg.tTurn).pull .clk).delay s.cfg.tTurn with turn := .turned }

theorem State.becomeTalker_own (s : State) :
    s.becomeTalker.bus.own = (s.bus.own.set .data .released).set .clk .pulled := by simp [State.becomeTalker]

theorem State.becomeTalker_now (s : State) : s.bus.now + 2 * s.cfg.tTurn ≤ s.becomeTalker.bus.now :=
  Bus.now_le_of_twoDelays _ (Bus.later_release s.bus .data) (Bus.later_pull _ .clk rfl)

/-- `turnAround` ends with the failure of its wait, or goes on to make the engine the talker. -/
theorem State.turnAround_cases (s : State) (start : s.turn = .notTurned) :
    ∃ w, Link.WaitEnd .clk .released s.clearErr.link w ∧
      ((w.1 = true ∧ s.turnAround = (true, (s.clearErr.withLink w.2).becomeTalker)) ∨
        (w.1 = false ∧ s.turnAround = (false, s.clearErr.withLink w.2))) := by
  refine ⟨_, Link.timeoutWait_end s.cfg _ _ _, ?_⟩
  unfold State.turnAround State.timeoutWait
  simp only
  rw [if_neg (by simp [start])]
  split
  case isTrue failed => exact .inr ⟨failed, rfl⟩
  case isFalse seen => exact .inl ⟨by simpa using seen, rfl⟩

/-- `t` is the talker `turnAround` makes of `s`. -/
structure State.TurnedFrom (s t : State) : Prop where
  turn : t.turn = .turned
  clk : t.bus.own.clk = .pulled
  data : t.bus.own.data = .released
  own_atn : t.bus.own.atn = s.bus.own.atn
  own_srq : t.bus.own.srq = s.bus.own.srq
  now : s.bus.now + 2 * s.cfg.tTurn ≤ t.bus.now
  flags : t.flags = s.flags.clearErr
  frame : { t with bus := s.bus, flags := s.flags, turn := s.turn } = s

theorem State.turnedFrom_becomeTalker {s : State} {w : Bool × Link} (wait : Link.WaitEnd .clk .released s.clearErr.link w)
    (seen : w.1 = true) : s.TurnedFrom (s.clearErr.withLink w.2).becomeTalker := by
  have own := State.becomeTalker_own (s.clearErr.withLink w.2)
  refine ⟨rfl, by rw [own]; rfl, by rw [own]; rfl, ?_, ?_, ?_, wait.seen_flags seen, by simp [State.becomeTalker]⟩
  · rw [own]; exact wait.own_other .atn (by simp) (by simp)
  · rw [own]; exact wait.own_other .srq (by simp) (by simp)
  · exact Nat.le_trans (Nat.add_le_add_right wait.later.now_le _) (s.clearErr.withLink w.2).becomeTalker_now

/-! ### undoTurnAround -/

theorem State.undoTurnAround_wait (s : State) (start : s.turn = .turned) :
    ∃ w, Link.WaitEnd .clk .pulled s.beforeUndoWait.link w ∧ s.undoTurnAround = (w.1, s.beforeUndoWait.withLink w.2) :=
  ⟨_, Link.timeoutWait_end s.cfg _ _ _, s.undoTurnAround_eq start⟩

theorem State.beforeUndoWait_now (s : State) : s.bus.now + 2 * s.cfg.tTurn ≤ s.beforeUndoWait.bus.now :=
  Bus.now_le_of_twoDelays _ (Bus.later_pull s.bus .data rfl) (Bus.later_release _ .clk)

/-- `t` is the listener `undoTurnAround` makes of `s`, whatever its wait for CLK finds. -/
structure State.UndoneFrom (s t : State) : Prop where
  turn : t.turn = .undone
  data : t.bus.own.data = .pulled
  clk : t.bus.own.clk = .released
  own_atn : t.bus.own.atn = s.bus.own.atn
  own_srq : t.bus.own.srq = s.bus.own.srq
  now : s.bus.now + 2 * s.cfg.tTurn ≤ t.bus.now
  frame : { t with bus := s.bus, flags := s.flags, turn := s.turn } = s

theorem State.undoneFrom_beforeUndoWait {s : State} {w : Bool × Link}
    (wait : Link.WaitEnd .clk .pulled s.beforeUndoWait.link w) : s.UndoneFrom (s.beforeUndoWait.withLink w.2) := by
  have own := s.beforeUndoWait_own
  have other : ∀ m, m ≠ .reset → m ≠ .clk → w.2.bus.own.get m = ((s.bus.own.set .data .pulled).set .clk .released).get m :=
    fun m hr hl => own ▸ wait.own_other m hr hl
  exact ⟨rfl, other .data (by simp) (by simp), wait.own_released .clk (by rw [State.link_bus, own]; rfl),
    other .atn (by simp) (by simp), other .srq (by simp) (by simp), Nat.le_trans s.beforeUndoWait_now wait.later.now_le,
    by simp [State.beforeUndoWait]⟩

/-! ### The requests -/

theorem exec_turnAround (s : State) : exec .turnAround s = .next (s.turnAround.2.complete (.bool s.turnAround.1)) := rfl

theorem exec_undoTurnAround (s : State) :
    exec .undoTurnAround s = .next (s.undoTurnAround.2.complete (.bool s.undoTurnAround.1)) := rfl

/-- The result handed to the caller is written last. -/
theorem State.frame_complete {s t : State} (frame : { t with bus := s.bus, flags := s.flags, turn := s.turn } = s) (v : Value) :
    { t.complete v with bus := s.bus, flags := s.flags, turn := s.turn, result := s.result } = s :=
  congrArg (fun u : State => { u with result := s.result }) frame

/-- Settles O24: each operation is lines and settle delays around one wait for CLK, whose end tells the result and the flags. -/
theorem turnaroundSwapsTheRoles : Obligations.TurnaroundSwapsTheRoles := by
  refine ⟨fun s start noReset held => ?_, fun s start noReset held => ?_, fun s start => ?_, fun s start => ?_⟩
  · obtain ⟨w, wait, ⟨seen, ended⟩ | ⟨failed, -⟩⟩ := s.turnAround_cases start
    · obtain ⟨turn, clk, data, atn, srq, now, flags, frame⟩ := State.turnedFrom_becomeTalker wait seen
      rw [exec_turnAround, ended]
      exact ⟨_, rfl, rfl, turn, clk, data, atn, srq, now, flags, State.frame_complete frame _⟩
    · exact absurd ((wait.held noReset held).symm.trans failed) (by simp)
  · obtain ⟨w, wait, ended⟩ := s.undoTurnAround_wait start
    obtain ⟨turn, data, clk, atn, srq, now, frame⟩ := State.undoneFrom_beforeUndoWait wait
    have keeps := s.beforeUndoWait_keepsHolds
    have seen := wait.held (keeps _ _ noReset) (keeps _ _ held)
    rw [exec_undoTurnAround, ended]
    exact ⟨_, rfl, by rw [seen]; rfl, turn, data, clk, atn, srq, now, wait.seen_flags seen, State.frame_complete frame _⟩
  · obtain ⟨w, wait, ⟨seen, ended⟩ | ⟨failed, ended⟩⟩ := s.turnAround_cases start
    · obtain ⟨turn, clk, data, atn, srq, -, flags, frame⟩ := State.turnedFrom_becomeTalker wait seen
      have notFailed : ¬ w.1 = false := by simp [seen]
      rw [exec_turnAround, ended]
      exact ⟨_, true, rfl, rfl, congrArg Flags.err flags, turn, fun _ => ⟨clk, data⟩, nofun, atn, srq,
        fun noReset held => absurd (wait.other .pulled (by simp) noReset held).1 notFailed,
        fun reset => absurd (wait.reset reset).1 notFailed, State.frame_complete frame _⟩
    · have own := wait.own_other
      rw [exec_turnAround, ended]
      exact ⟨_, false, rfl, rfl, (wait.err rfl).trans (by rw [failed]), start, nofun, fun _ => own .data (by simp) (by simp),
        own .atn (by simp) (by simp), own .srq (by simp) (by simp),
        fun noReset held => ⟨rfl, (wait.other .pulled (by simp) noReset held).2⟩, fun reset => ⟨rfl, (wait.reset reset).2⟩, rfl⟩
  · obtain ⟨w, wait, ended⟩ := s.undoTurnAround_wait start
    obtain ⟨turn, data, clk, atn, srq, now, frame⟩ := State.undoneFrom_beforeUndoWait wait
    have keeps := s.beforeUndoWait_keepsHolds
    rw [exec_undoTurnAround, ended]
    refine ⟨_, w.1, rfl, rfl, wait.err rfl, turn, data, clk, atn, srq, now, fun noReset held => ?_,
      fun reset => wait.reset (keeps _ _ reset), State.frame_complete frame _⟩
    obtain ⟨failed, flags, -⟩ := wait.other .released (by simp) (keeps _ _ noReset) (keeps _ _ held)
    exact ⟨failed, flags⟩

end Sys2Proof.Machine
end

section
/-! PROOF. What a step runs, and what it does with a byte it has received: at each of the four places a byte is read at, the
samples the rules take first and the outcomes of the byte that follows them (42_atn_decoder.md R183, R190, R194, R196;
44_bus_coordinator.md R265). -/
namespace Sys2Proof.Machine
open Sys2Proof

/-! ### Requests -/

theorem fetchRequest_instr {r : OpRequest} {i : Instr} (h : decodeOp r = .instr i) (s : State) :
    fetchRequest r s = .run i s := by
  simp [fetchRequest, h]

theorem step_hostRequest {s : State} {r : OpRequest} {i : Instr} {rest : List OpRequest} (hc : s.ctl = .idle)
    (hh : s.host = r :: rest) (h : decodeOp r = .instr i) : step s = exec i { s with host := rest } := by
  simp [step, fetch, hc, fetchHost, hh, fetchRequest_instr h]

/-- From 0x18 on every select code is a data primitive's or reserved (30_encoding.md R100, R102). -/
theorem isDataPrimitive_of_decodes {r : OpRequest} {i : Instr} (select : 0x18 ≤ r.op.toNat) (h : decodeOp r = .instr i) :
    isDataPrimitive r.op = true := by
  have notReserved : ¬ 0x1E ≤ r.op.toNat := fun reserved => by
    rw [(decodeOp_reservedSelect_iff r).mpr (.inr reserved)] at h
    cases h
  simp only [isDataPrimitive, Bool.and_eq_true, decide_eq_true_eq]
  omega

theorem step_deviceRequest {s : State} {hook : Hook} {pd : Bool} {r : OpRequest} {i : Instr} {rest : List DevMove}
    (hc : s.ctl = .hook hook pd) (hd : s.device = .request r :: rest) (select : 0x18 ≤ r.op.toNat)
    (h : decodeOp r = .instr i) : step s = exec i { s with device := rest } := by
  rw [step, fetch_dataPrimitive s hook pd r rest hc hd (isDataPrimitive_of_decodes select h), fetchRequest_instr h]

theorem step_hang {s : State} {hook : Hook} {pd : Bool} {rest : List DevMove} (hc : s.ctl = .hook hook pd)
    (hd : s.device = .hang :: rest) : step s = .next { s with bus := s.bus.envMove } := by
  simp [step, fetch, hc, fetchDevice, hd]

/-! ### A byte received by the decoder -/

theorem State.handshake_of_received {s u : State} {b : Byte} (received : s.receiveByte = (b, u)) :
    State.HandshakeSpec s u := by
  have kept := s.receiveByte_handshake
  rwa [received] at kept

theorem State.cause_of_received {s u : State} {b : Byte} (received : s.receiveByte = (b, u)) : u.cause = s.cause := by
  rw [← (Prod.mk.inj received).2]
  rfl

/-- DATA pulled is the acknowledge of a byte that was taken (41_byte_handshake.md R155). -/
theorem State.data_of_received {s u : State} {b : Byte} (received : s.receiveByte = (b, u)) (err : u.flags.err = false) :
    u.bus.own.data = .pulled := by
  obtain ⟨rfl, rfl⟩ := Prod.mk.inj received
  exact (Link.receiveByte_err s.cfg s.link).2 err

section
variable {s u : State} {b : Byte} (noReset : s.sample .reset = .released)
  (received : (s.afterRead .reset).receiveByte = (b, u)) (rst : u.flags.rst = false)
include noReset received rst

/-- `readCommandByte()` once the byte's waits are over and saw no RESET. -/
theorem fetchCommand_received : fetchCommand s =
    if u.flags.err then .done (u.decodeError .timeout 0x00#8)
    else if u.flags.atn = false then .done (u.decodeError .malformed b) else .run (decodeCmd8 b) u := by
  unfold fetchCommand
  simp only [noReset, received, rst, reduceCtorEq, Bool.false_eq_true, if_false]

/-- One iteration of the payload loop once the byte's waits are over and saw no RESET. -/
theorem fetchPayload_received : fetchPayload s =
    if u.flags.err then .done (u.decodeError .timeout 0x00#8)
    else if u.flags.atn then .run (decodeCmd8 b) u else .done (u.storePayload b) := by
  unfold fetchPayload
  simp only [noReset, received, rst, reduceCtorEq, Bool.false_eq_true, if_false]

theorem step_lateByte (place : s.ctl = .primary ∨ s.ctl = .secondary ∨ s.ctl = .payload) (err : u.flags.err = true) :
    step s = .next (u.decodeError .timeout 0x00#8) := by
  have command := fetchCommand_received noReset received rst
  have payload := fetchPayload_received noReset received rst
  rw [if_pos err] at command payload
  rcases place with hc | hc | hc <;> simp only [step, fetch, hc, command, payload]

theorem step_unattendedByte (place : s.ctl = .primary ∨ s.ctl = .secondary) (err : u.flags.err = false)
    (atn : u.flags.atn = false) : step s = .next (u.decodeError .malformed b) := by
  have command := fetchCommand_received noReset received rst
  rw [if_neg (by simp [err]), if_pos atn] at command
  rcases place with hc | hc <;> simp only [step, fetch, hc, command]

theorem step_commandByte (place : s.ctl = .primary ∨ s.ctl = .secondary ∨ s.ctl = .payload) (err : u.flags.err = false)
    (atn : u.flags.atn = true) : step s = exec (decodeCmd8 b) u := by
  have command := fetchCommand_received noReset received rst
  have payload := fetchPayload_received noReset received rst
  rw [if_neg (by simp [err])] at command payload
  rw [if_neg (by simp [atn])] at command
  rw [if_pos atn] at payload
  rcases place with hc | hc | hc <;> simp only [step, fetch, hc, command, payload]

theorem step_payloadByte (hc : s.ctl = .payload) (err : u.flags.err = false) (atn : u.flags.atn = false) :
    step s = .next (u.storePayload b) := by
  have payload := fetchPayload_received noReset received rst
  rw [if_neg (by simp [err]), if_neg (by simp [atn])] at payload
  simp only [step, fetch, hc, payload]

end

/-! ### A byte received by the listen loop -/

section
variable {s u : State} {b : Byte} (hc : s.ctl = .listening) (noReset : s.sample .reset = .released)
  (noAtn : (s.afterRead .reset).sample .atn = .released)
  (received : ((s.afterRead .reset).afterRead .atn).receiveByte = (b, u)) (rst : u.flags.rst = false)
include noReset noAtn received rst

/-- One iteration of the listen loop once the byte's waits are over and saw no RESET. -/
theorem fetchListen_received : fetchListen s =
    if u.flags.err then .done (u.phaseError .timeout 0x00#8)
    else if u.flags.atn then .run (decodeCmd8 b) u else .done (u.callHook (.listenData b u.flags.eoi)) := by
  unfold fetchListen
  simp only [noReset, noAtn, received, rst, reduceCtorEq, Bool.false_eq_true, if_false]

include hc

theorem step_lateListenByte (err : u.flags.err = true) : step s = .next (u.phaseError .timeout 0x00#8) := by
  have listen := fetchListen_received noReset noAtn received rst
  rw [if_pos err] at listen
  simp only [step, fetch, hc, listen]

theorem step_commandByteInListen (err : u.flags.err = false) (atn : u.flags.atn = true) : step s = exec (decodeCmd8 b) u := by
  have listen := fetchListen_received noReset noAtn received rst
  rw [if_neg (by simp [err]), if_pos atn] at listen
  simp only [step, fetch, hc, listen]

end

/-- Settles O6: each fetch that finds an instruction hands over the one the decoder makes of the request or the byte. -/
theorem stepRunsTheDecodedInstruction : Obligations.StepRunsTheDecodedInstruction := by
  refine ⟨fun s r rest i hc hh decoded => step_hostRequest hc hh decoded, fun s hc hh => step_callsService hc hh,
    fun s hook pd r rest i hc hd select decoded => step_deviceRequest hc hd select decoded,
    fun s hook pd rest hc hd => step_hang hc hd,
    fun s t b i place noReset received rst err atn decoded => ?_,
    fun s t b i hc noReset noAtn received rst err atn decoded => ?_⟩
  · cases decoded
    exact step_commandByte noReset received rst place err atn
  · cases decoded
    exact step_commandByteInListen hc noReset noAtn received rst err atn

/-- Settles O37: each byte that is no command raises its condition where it is read, and the recovery ends in IDLE. -/
theorem lateOrUnattendedByteEndsTheEpisode : Obligations.LateOrUnattendedByteEndsTheEpisode := by
  intro s u b noReset rst undo
  refine ⟨fun place received => ?_, fun hc noAtn received err => ?_⟩
  · have record : u.record = s.record := (State.handshake_of_received received).record
    refine ⟨fun err => ?_, fun err atn outside => ?_⟩
    · obtain ⟨ended, cause, info⟩ := u.decodeError_ended .timeout 0x00#8 rst undo
      exact ⟨_, step_lateByte noReset received rst place err, cause, info, record ▸ ended⟩
    · have place' : s.ctl = .primary ∨ s.ctl = .secondary := place.imp_right fun h => h.resolve_right outside
      obtain ⟨ended, cause, info⟩ := u.decodeError_ended .malformed b rst undo
      exact ⟨_, step_unattendedByte noReset received rst place' err atn, cause, info, record ▸ ended⟩
  · have record : u.record = s.record := (State.handshake_of_received received).record
    obtain ⟨ended, cause, info⟩ := u.phaseError_ended .timeout 0x00#8 rst undo
    exact ⟨_, step_lateListenByte hc noReset noAtn received rst err, cause, info, record ▸ ended⟩

/-! ### A payload byte (42_atn_decoder.md R194, R196) -/

theorem ATNRecord.memRead_append_same (r : ATNRecord) (v : Byte) : (r.append v).memRead r.auxLen = some v := by
  simp [ATNRecord.memRead, ATNRecord.append, Memory.read_write_same]

theorem ATNRecord.memRead_append_other (r : ATNRecord) (v : Byte) {j : Nat} (other : j ≠ r.auxLen) :
    (r.append v).memRead j = r.memRead j := by
  have below : j < r.auxLen + 1 ↔ j < r.auxLen := by omega
  simp only [ATNRecord.memRead, ATNRecord.append, below, Memory.read_write_other r.aux r.auxLen j v other]

/-- A byte over the bound is not stored. -/
theorem State.storePayload_full {s : State} (full : s.record.auxLen = s.cfg.maxLen) (v : Byte) :
    s.storePayload v = s.decodeError .overflow v := if_pos full

/-- `t` is `s` after the payload byte `v` was stored: the loop goes on, or the EOI byte ends it with the device's hook. -/
structure State.Stored (s : State) (v : Byte) (t : State) : Prop where
  record : t.record = s.record.append v
  ctl : t.ctl = if s.flags.eoi = true then .hook (.processCommand t.record false) false else s.ctl
  frame : { t with record := s.record, ctl := s.ctl } = s

theorem State.storePayload_stored {s : State} (fits : s.record.auxLen ≠ s.cfg.maxLen) (v : Byte) :
    s.Stored v (s.storePayload v) := by
  unfold State.storePayload
  rw [if_neg fits]
  by_cases eoi : s.flags.eoi = true
  · rw [if_pos eoi]
    exact ⟨rfl, (if_pos eoi).symm, rfl⟩
  · rw [if_neg eoi]
    exact ⟨rfl, (if_neg eoi).symm, rfl⟩

/-- Settles O34: below the bound the byte is appended, and an append is read back at the old length only. -/
theorem payloadByteIsStored : Obligations.PayloadByteIsStored := by
  intro s u b hc noReset received rst err atn room
  have kept := State.handshake_of_received received
  have record : u.record = s.record := kept.record
  have cfg : u.cfg = s.cfg := kept.cfg
  have ctl : u.ctl = .payload := kept.ctl.trans hc
  obtain ⟨stored, goesOn, frame⟩ := State.storePayload_stored (s := u) (by rw [record, cfg]; omega) b
  rw [ctl] at goesOn
  rw [record] at stored
  refine ⟨_, step_payloadByte noReset received rst hc err atn, ?_, ?_, fun j other => ?_, ?_, goesOn, frame⟩
  · rw [stored]; rfl
  · rw [stored]; exact s.record.memRead_append_same b
  · rw [stored]; exact s.record.memRead_append_other b other
  · rw [stored]; rfl

/-- Settles O35: the bound is tested before the store, and DATA was pulled when the byte was over. -/
theorem oneByteOverTheBoundIsOverflow : Obligations.OneByteOverTheBoundIsOverflow := by
  intro s u b hc noReset received rst err atn
  have kept := State.handshake_of_received received
  have record : u.record = s.record := kept.record
  have cfg : u.cfg = s.cfg := kept.cfg
  have cause : u.cause = s.cause := (State.cause_of_received received :)
  have ended := step_payloadByte noReset received rst hc err atn
  refine ⟨fun last => ?_, fun full => ⟨State.data_of_received received err, fun undo => ?_⟩⟩
  · obtain ⟨stored, -, frame⟩ := State.storePayload_stored (s := u) (by rw [record, cfg]; omega) b
    rw [record] at stored
    refine ⟨_, ended, ?_, ?_, (congrArg State.cause frame).trans cause⟩
    · rw [stored]; exact last
    · rw [stored]; exact s.record.memRead_append_same b
  · rw [State.storePayload_full (by rw [record, cfg]; exact full)] at ended
    obtain ⟨idle, overflow, info⟩ := u.decodeError_ended .overflow b rst undo
    exact ⟨_, ended, overflow, info, record ▸ idle⟩

end Sys2Proof.Machine
end

section
/-! PROOF. The command bytes by where the engine reads them (42_atn_decoder.md R185 to R198; 44_bus_coordinator.md R260 to R265):
what selects a device, what a secondary does in each role, what ends an episode, and what is Malformed. -/
namespace Sys2Proof.Machine
open Sys2Proof

/-! ### LISTEN and TALK as primary (R189, R185) -/

theorem exec_listen_primary {s : State} (hc : s.ctl = .primary) (id : DeviceId) : exec (.listen id) s =
    .next (addressDevice id .listener .listen ((s.setCommand (listenByte id) .listen).setDeviceId id)) :=
  congrArg Host.Outcome.next (State.byPlace_primary hc)

theorem exec_talk_primary {s : State} (hc : s.ctl = .primary) (id : DeviceId) : exec (.talk id) s =
    .next (addressDevice id .talker .talk ((s.setCommand (talkByte id) .talk).setDeviceId id)) :=
  congrArg Host.Outcome.next (State.byPlace_primary hc)

theorem addressDevice_selects {s : State} {id : DeviceId} (registered : (slotById s.slots id).isSome)
    (enabled : maskHas s.enabled id = true) (r : Role) (m : ATNMode) :
    addressDevice id r m s = { (s.selected id r).setMode m with ctl := .secondary } :=
  if_pos (by simp [State.selectable, registered, enabled])

/-- Settles O26: both bytes select by `addressDevice`, which asks for the registration and the mask bit. -/
theorem listenAndTalkSelectTheDevice : Obligations.ListenAndTalkSelectTheDevice := by
  intro s id hc registered enabled
  have selects (b : Byte) (k : CmdKind) (r : Role) (m : ATNMode) :=
    addressDevice_selects (s := (s.setCommand b k).setDeviceId id) registered enabled r m
  rw [exec_listen_primary hc, exec_talk_primary hc, selects, selects]
  exact ⟨⟨_, rfl, rfl, rfl, rfl, rfl, rfl, rfl⟩, ⟨_, rfl, rfl, rfl, rfl, rfl, rfl, rfl⟩⟩

/-! ### UNLISTEN (R194; 44_bus_coordinator.md R265) -/

theorem exec_unlisten_payload {s : State} (hc : s.ctl = .payload) : exec .unlisten s = .next (s.listenPhase true) :=
  congrArg Host.Outcome.next (State.byPlace_payload hc)

theorem exec_unlisten_listening {s : State} (hc : s.ctl = .listening) : exec .unlisten s = .next s.endTransaction :=
  congrArg Host.Outcome.next (State.byPlace_listening hc)

/-- Settles O29: the payload's record goes to the hook as it stands, and listen data ends with the transaction. -/
theorem unlistenEndsPayloadAndListenData : Obligations.UnlistenEndsPayloadAndListenData :=
  ⟨fun _ hc => ⟨_, exec_unlisten_payload hc, rfl, rfl⟩,
    fun s hc => ⟨_, exec_unlisten_listening hc, s.endTransaction_ended, rfl, rfl, rfl⟩⟩

/-! ### DATA, CLOSE and OPEN (R191 to R195) -/

/-- `i` is the secondary command of channel `ch` whose byte is `b` and whose kind is `k`. -/
def IsSecondary (ch : Channel) (i : Instr) (b : Byte) (k : CmdKind) : Prop :=
  (i = .dataCmd ch ∧ b = dataByte ch ∧ k = .data) ∨ (i = .closeCmd ch ∧ b = closeByte ch ∧ k = .close) ∨
    (i = .openCmd ch ∧ b = openByte ch ∧ k = .opn)

/-- What a secondary command of this kind goes on to once it is recorded. -/
def CmdKind.phase (k : CmdKind) : State → State := if k = .opn then enterOpen else enterPhase

/-- The record after a secondary command that is served in mode `m`. -/
def ATNRecord.withSecondary (r : ATNRecord) (m : ATNMode) (b : Byte) (k : CmdKind) (ch : Channel) : ATNRecord :=
  { r with mode := m, raw := b, kind := k, channel := ch }

/-- The three secondary commands differ in their byte, their kind and the phase they go on to. -/
theorem IsSecondary.exec_eq {ch : Channel} {i : Instr} {b : Byte} {k : CmdKind} (h : IsSecondary ch i b k) (s : State) :
    exec i s = .next (s.byPlace (fun s => secondaryAsPrimary ((s.setCommand b k).setChannel ch) k.phase)
      (fun s => k.phase ((s.setCommand b k).setChannel ch)) (malformedInDecode b) (malformedInListen b)) := by
  obtain ⟨rfl, rfl, rfl⟩ | ⟨rfl, rfl, rfl⟩ | ⟨rfl, rfl, rfl⟩ := h <;> rfl

theorem secondaryAsPrimary_ofRole {s : State} {r : Role} (role : s.role = r) (served : r ≠ .none) (goOn : State → State) :
    secondaryAsPrimary s goOn = goOn (s.setMode (modeOf r)) := by
  cases r with
  | none => exact absurd rfl served
  | listener => simp [secondaryAsPrimary, role, modeOf]
  | talker => simp [secondaryAsPrimary, role, modeOf]

/-- A secondary command is served in the mode the LISTEN or TALK before it set, and as primary in that of the standing role. -/
theorem IsSecondary.exec_served {ch : Channel} {i : Instr} {b : Byte} {k : CmdKind} (h : IsSecondary ch i b k) {s : State}
    {r : Role} (served : r ≠ .none)
    (place : (s.ctl = .secondary ∧ s.record.mode = modeOf r) ∨ (s.ctl = .primary ∧ s.role = r)) :
    exec i s = .next (k.phase { s with record := s.record.withSecondary (modeOf r) b k ch }) := by
  rw [h.exec_eq]
  obtain ⟨hc, mode⟩ | ⟨hc, role⟩ := place
  · rw [State.byPlace_secondary hc, ← mode]
    rfl
  · rw [State.byPlace_primary hc]
    have recorded : ((s.setCommand b k).setChannel ch).role = r := role
    exact congrArg Host.Outcome.next (secondaryAsPrimary_ofRole recorded served _)

theorem CmdKind.phase_listen {s : State} (mode : s.record.mode = .listen) (k : CmdKind) :
    k.phase s = if k = .opn then { s with ctl := .payload } else s.listenPhase false := by
  have listens : ¬ s.record.mode = .talk := by simp [mode]
  unfold CmdKind.phase
  split
  · exact if_neg listens
  · exact if_neg listens

/-- OPEN has no payload when the engine is to talk, so all three go on to the talk phase. -/
theorem CmdKind.phase_talk {s : State} (mode : s.record.mode = .talk) (k : CmdKind) : k.phase s = s.talkPhase := by
  unfold CmdKind.phase
  split
  · exact if_pos mode
  · exact if_pos mode

/-- Settles O30: served in the mode of a listener, OPEN goes on to its payload and the two others to the hook. -/
theorem secondaryOfAListenerReachesTheDevice : Obligations.SecondaryOfAListenerReachesTheDevice := by
  intro s ch place
  have served : ∀ {i b k}, IsSecondary ch i b k → exec i s = .next
      (if k = .opn then { s with record := s.record.withSecondary .listen b k ch, ctl := .payload }
        else State.listenPhase { s with record := s.record.withSecondary .listen b k ch } false) := fun {i b k} h => by
    rw [h.exec_served (r := .listener) nofun place]
    exact congrArg Host.Outcome.next (CmdKind.phase_listen rfl k)
  refine ⟨fun i b k h => ?_, ?_⟩
  · have other : k ≠ .opn := by obtain ⟨-, -, rfl⟩ | ⟨-, -, rfl⟩ := h <;> simp
    rw [served (h.imp_right .inl), if_neg other]
    exact ⟨_, rfl, rfl, rfl, rfl⟩
  · rw [served (.inr (.inr ⟨rfl, rfl, rfl⟩)), if_pos rfl]
    exact ⟨_, rfl, rfl, rfl, rfl⟩

/-! ### Episodes for nobody (R187, R192, R198) -/

theorem exec_globalCmd_primary {s : State} (hc : s.ctl = .primary) :
    exec .globalCmd s = .next (s.setCommand 0x00#8 .global).notAddressed :=
  congrArg Host.Outcome.next (State.byPlace_primary hc)

theorem IsSecondary.exec_unserved {ch : Channel} {i : Instr} {b : Byte} {k : CmdKind} (h : IsSecondary ch i b k) {s : State}
    (hc : s.ctl = .primary) (role : s.role = .none) :
    exec i s = .next ((s.setCommand b k).setChannel ch).notAddressed := by
  have unserved : ((s.setCommand b k).setChannel ch).role = .none := role
  rw [h.exec_eq, State.byPlace_primary hc]
  simp only [secondaryAsPrimary, unserved]

/-- `notAddressed()` releases CLK and DATA and no other line. -/
theorem State.notAddressed_own_reset (s : State) : s.notAddressed.bus.own.reset = s.bus.own.reset := by
  simp [State.notAddressed, Lines.set]

/-- An episode for nobody leaves of `s` its last record, here `r`, and the end in IDLE. -/
theorem State.notAddressed_ofRecord (s : State) (r : ATNRecord) :
    let t := State.notAddressed { s with record := r }
    s.EndedIdle r t .idle ∧ t.flags = s.flags ∧ t.cause = s.cause ∧ t.causeInfo = s.causeInfo ∧
      t.bus.own.reset = s.bus.own.reset :=
  ⟨State.EndedIdle.of_same (State.notAddressed_ended { s with record := r }) rfl rfl rfl rfl rfl rfl rfl rfl, rfl, rfl, rfl,
    State.notAddressed_own_reset _⟩

/-- Settles O32: both ways to an episode for nobody record the byte and are not addressed. -/
theorem episodeForNobodyIsNotAddressed : Obligations.EpisodeForNobodyIsNotAddressed := fun s hc =>
  ⟨⟨_, exec_globalCmd_primary hc, s.notAddressed_ofRecord _⟩,
    fun _ _ _ _ role h => ⟨_, IsSecondary.exec_unserved h hc role, s.notAddressed_ofRecord _⟩⟩

/-! ### Malformed (R186, R191, R194; 44_bus_coordinator.md R265) -/

theorem State.UndoSeesReset.of_record {s : State} {r : ATNRecord} (h : State.UndoSeesReset { s with record := r }) :
    s.UndoSeesReset := h.congr rfl rfl rfl rfl

/-- `t` is what a rejected command byte `b` leaves of `s`, `r` being the record before the recovery. -/
def State.MalformedEnds (s : State) (r : ATNRecord) (b : Byte) (t : State) : Prop :=
  t.cause = .malformed ∧ t.causeInfo = b ∧ s.EndedIdle r t .error

section
variable {s : State} (rst : s.flags.rst = false) (undo : ¬ s.UndoSeesReset)
include rst undo

/-- In the decoder the record may have been written before the byte is rejected. -/
theorem malformedInDecode_ends (r : ATNRecord) (b : Byte) :
    s.MalformedEnds r b (malformedInDecode b { s with record := r }) := by
  obtain ⟨ended, cause, info⟩ := State.decodeError_ended { s with record := r } .malformed b rst fun h => undo h.of_record
  exact ⟨cause, info, ended.of_same rfl rfl rfl rfl rfl rfl rfl rfl⟩

theorem malformedInListen_ends (b : Byte) : s.MalformedEnds s.record b (malformedInListen b s) := by
  obtain ⟨ended, cause, info⟩ := s.phaseError_ended .malformed b rst undo
  exact ⟨cause, info, ended⟩

/-- A byte that the payload loop and the listen loop both reject. -/
theorem byPlace_malformed_ends (place : s.ctl = .payload ∨ s.ctl = .listening) (b : Byte) (p q : State → State) :
    s.MalformedEnds s.record b (s.byPlace p q (malformedInDecode b) (malformedInListen b)) := by
  obtain hc | hc := place
  · rw [State.byPlace_payload hc]
    exact malformedInDecode_ends rst undo s.record b
  · rw [State.byPlace_listening hc]
    exact malformedInListen_ends rst undo b

theorem invalidByte_ends_primary (hc : s.ctl = .primary) (b : Byte) :
    s.MalformedEnds { s.record with raw := b, kind := .invalid } b (invalidByte b s) := by
  rw [invalidByte, State.byPlace_primary hc]
  exact malformedInDecode_ends rst undo _ b

theorem invalidByte_ends (place : s.ctl = .secondary ∨ s.ctl = .payload ∨ s.ctl = .listening) (b : Byte) :
    s.MalformedEnds s.record b (invalidByte b s) := by
  obtain hc | place := place
  · rw [invalidByte, State.byPlace_secondary hc]
    exact malformedInDecode_ends rst undo s.record b
  · exact byPlace_malformed_ends rst undo place b _ _

end

/-- Only UNLISTEN has a place inside a payload and inside listen data. -/
theorem exec_rejectedInLoops {i : Instr} {b : Byte} (encoded : encode i = .cmd b) (other : i ≠ .unlisten) (s : State) :
    ∃ p q, exec i s = .next (s.byPlace p q (malformedInDecode b) (malformedInListen b)) := by
  cases i with
  | unlisten => exact absurd rfl other
  | globalCmd | untalk | listen _ | talk _ | dataCmd _ | closeCmd _ | openCmd _ => cases encoded; exact ⟨_, _, rfl⟩
  | invalid01_1F _ | invalid70_7F _ | invalid80_BF _ | invalidC0_DF _ => cases encoded; exact ⟨_, _, rfl⟩
  | _ => cases encoded

/-- Settles O33: every rejected byte is Malformed inside the decoder or inside the listen loop, and each recovery ends in
IDLE. -/
theorem malformedCommandIsRecovered : Obligations.MalformedCommandIsRecovered := by
  intro s rst undo
  refine ⟨fun i b invalid => ?_, fun hc => ⟨?_, fun id i addressed => ?_⟩, fun place i b encoded other => ?_⟩
  · have run : exec i s = .next (invalidByte b s) := by
      obtain ⟨x, rfl, rfl⟩ | ⟨x, rfl, rfl⟩ | ⟨x, rfl, rfl⟩ | ⟨x, rfl, rfl⟩ := invalid <;> rfl
    exact ⟨fun hc => ⟨_, run, invalidByte_ends_primary rst undo hc b⟩,
      fun place => ⟨_, run, invalidByte_ends rst undo place b⟩⟩
  · exact ⟨_, congrArg Host.Outcome.next (State.byPlace_secondary hc), malformedInDecode_ends rst undo s.record 0x00#8⟩
  · obtain rfl | rfl := addressed
    · obtain ⟨cause, info, ended⟩ := malformedInDecode_ends rst undo { s.record with deviceId := id } (listenByte id)
      exact ⟨_, id, congrArg Host.Outcome.next (State.byPlace_secondary hc), cause, congrArg Encoded.cmd info.symm, ended⟩
    · obtain ⟨cause, info, ended⟩ := malformedInDecode_ends rst undo { s.record with deviceId := id } (talkByte id)
      exact ⟨_, id, congrArg Host.Outcome.next (State.byPlace_secondary hc), cause, congrArg Encoded.cmd info.symm, ended⟩
  · obtain ⟨p, q, run⟩ := exec_rejectedInLoops encoded other s
    exact ⟨_, run, byPlace_malformed_ends rst undo place b p q⟩

end Sys2Proof.Machine
end

section
/-! PROOF. A secondary command for a talking device (44_bus_coordinator.md R270 to R272; 41_byte_handshake.md R170): the wait for
ATN's release, the one turnaround, and the device's hook or the recovery. -/
namespace Sys2Proof.Machine
open Sys2Proof

/-! ### The talk phase, by how its two waits end -/

section
variable {s u v : State}

theorem State.talkPhase_ofTurned (seen : s.timeoutWait .atn .released = (true, u)) (turned : u.turnAround = (true, v)) :
    s.talkPhase = v.callHook (.processCommand v.record false) := by
  simp [State.talkPhase, seen, turned]

theorem State.talkPhase_ofLateAtn (late : s.timeoutWait .atn .released = (false, u)) (rst : u.flags.rst = false) :
    s.talkPhase = u.phaseError .timeout 0x00#8 := by
  simp [State.talkPhase, late, rst]

theorem State.talkPhase_ofLateClk (seen : s.timeoutWait .atn .released = (true, u)) (late : u.turnAround = (false, v))
    (turn : v.turn = .notTurned) (rst : v.flags.rst = false) : s.talkPhase = v.phaseError .timeout 0x00#8 := by
  simp [State.talkPhase, seen, late, rst, turn]

/-! ### The turnaround, by how its wait ends -/

theorem State.turnAround_ofReversed (turn : s.turn ≠ .notTurned) : s.turnAround = (false, s.clearErr.turnError) := if_pos turn

theorem State.turnAround_ofLate (start : s.turn = .notTurned) (late : s.clearErr.timeoutWait .clk .released = (false, u)) :
    s.turnAround = (false, u) := by
  simp [State.turnAround, start, late]

theorem State.turnAround_ofSeen (start : s.turn = .notTurned) (seen : s.clearErr.timeoutWait .clk .released = (true, u)) :
    s.turnAround = (true, u.becomeTalker) := by
  have cfg : u.cfg = s.cfg := by rw [← (Prod.mk.inj seen).2]; rfl
  simp [State.turnAround, State.becomeTalker, start, seen, cfg]

end

/-! ### The waits neither read nor write the record -/

theorem State.timeoutWait_withRecord {s u : State} {l : Line} {x : LineState} {ok : Bool} (wait : s.timeoutWait l x = (ok, u))
    (r : ATNRecord) : State.timeoutWait { s with record := r } l x = (ok, { u with record := r }) := by
  obtain ⟨rfl, rfl⟩ := Prod.mk.inj wait
  rfl

theorem State.turnAround_withRecord {s v : State} {ok : Bool} (ended : s.turnAround = (ok, v)) (r : ATNRecord) :
    State.turnAround { s with record := r } = (ok, { v with record := r }) := by
  by_cases start : s.turn = .notTurned
  · cases wait : s.clearErr.timeoutWait .clk .released with
    | mk seen u =>
      have wait' := State.timeoutWait_withRecord wait r
      cases seen with
      | false =>
        rw [State.turnAround_ofLate start wait] at ended
        cases ended
        exact State.turnAround_ofLate (s := { s with record := r }) start wait'
      | true =>
        rw [State.turnAround_ofSeen start wait] at ended
        cases ended
        exact State.turnAround_ofSeen (s := { s with record := r }) start wait'
  · rw [State.turnAround_ofReversed start] at ended
    cases ended
    exact State.turnAround_ofReversed (s := { s with record := r }) start

/-! ### What the two waits leave -/

theorem State.turn_ofWait {s u : State} {l : Line} {x : LineState} {ok : Bool} (wait : s.timeoutWait l x = (ok, u)) :
    u.turn = s.turn := by
  rw [← (Prod.mk.inj wait).2]
  rfl

theorem State.frame_ofWait {s u : State} {l : Line} {x : LineState} {ok : Bool} (wait : s.timeoutWait l x = (ok, u)) :
    { u with bus := s.bus, flags := s.flags } = s := by
  rw [← (Prod.mk.inj wait).2]
  rfl

theorem State.flags_ofSeen {s u : State} {l : Line} {x : LineState} (seen : s.timeoutWait l x = (true, u)) :
    u.flags = s.flags := by
  obtain ⟨ok, rfl⟩ := Prod.mk.inj seen
  exact s.timeoutWait_flags_of_seen l x ok

theorem State.handshake_ofWait {s u : State} {l : Line} {x : LineState} {ok : Bool} (wait : s.timeoutWait l x = (ok, u))
    (hl : l ≠ .srq) : State.HandshakeSpec s u := by
  have kept := s.timeoutWait_handshake l x hl
  rwa [wait] at kept

/-- A wait that fails and saw no RESET has passed its deadline. -/
theorem State.flags_ofLate {s u : State} {l : Line} {x : LineState} (late : s.timeoutWait l x = (false, u))
    (rst : u.flags.rst = false) : u.flags = s.flags.setErr := by
  obtain ⟨failed, rfl⟩ := Prod.mk.inj late
  obtain ⟨saw, -⟩ | ⟨passed, -⟩ := (Link.timeoutWait_spec s.cfg s.link l x).failed failed
  · exact absurd (saw ▸ rst : s.flags.sawReset.rst = false) (by simp)
  · exact passed

/-- A turnaround that was waited for in vain and saw no RESET has turned nothing. -/
theorem State.turnAround_late {s v : State} (start : s.turn = .notTurned) (late : s.turnAround = (false, v))
    (rst : v.flags.rst = false) : v.turn = .notTurned ∧ v.flags = s.flags.setErr := by
  cases wait : s.clearErr.timeoutWait .clk .released with
  | mk ok u =>
    cases ok with
    | true => rw [State.turnAround_ofSeen start wait] at late; cases late
    | false =>
      rw [State.turnAround_ofLate start wait] at late
      obtain ⟨-, rfl⟩ := Prod.mk.inj late
      exact ⟨(State.turn_ofWait wait).trans start, (State.flags_ofLate wait rst :)⟩

/-- Only an engine that has not turned can turn around. -/
theorem State.notTurned_of_turnAround {s v : State} (turned : s.turnAround = (true, v)) : s.turn = .notTurned := by
  by_contra turn
  rw [State.turnAround_ofReversed turn] at turned
  cases turned

theorem State.turnedFrom_turnAround {s v : State} (turned : s.turnAround = (true, v)) : s.TurnedFrom v := by
  obtain ⟨w, wait, ⟨seen, ended⟩ | ⟨-, ended⟩⟩ := s.turnAround_cases (State.notTurned_of_turnAround turned)
  · rw [ended] at turned
    cases turned
    exact State.turnedFrom_becomeTalker wait seen
  · rw [ended] at turned
    cases turned

/-- What the talk phase writes on the way to the device's hook, its record and its place in the call included. -/
theorem State.frame_callHook {s u v : State} (waited : { u with bus := s.bus, flags := s.flags } = s)
    (turned : { v with bus := u.bus, flags := u.flags, turn := u.turn } = u) (r : ATNRecord) (hook : Hook) :
    { State.callHook { v with record := r } hook with
      bus := s.bus, flags := s.flags, turn := s.turn, ctl := s.ctl, record := s.record } = s :=
  calc _ = { u with bus := s.bus, flags := s.flags, turn := s.turn, ctl := s.ctl, record := s.record } :=
        congrArg (fun w : State => { w with bus := s.bus, flags := s.flags, turn := s.turn, ctl := s.ctl, record := s.record })
          turned
    _ = s := congrArg (fun w : State => { w with turn := s.turn, ctl := s.ctl, record := s.record }) waited

/-- A Timeout of a phase after waits that left `u`, seen from the state `s` before them; the record `r` was written meanwhile. -/
theorem State.timeout_ends {s u : State} (kept : State.HandshakeSpec s u) (flags : u.flags = s.flags.setErr)
    (rst : u.flags.rst = false) (undo : ¬ u.UndoSeesReset) (r : ATNRecord) :
    let t := State.phaseError { u with record := r } .timeout 0x00#8
    t.cause = .timeout ∧ t.causeInfo = 0x00#8 ∧ State.EndedIdle { s with bus := u.bus } r t .error := by
  obtain ⟨ended, cause, info⟩ := State.phaseError_ended { u with record := r } .timeout 0x00#8 rst fun h => undo h.of_record
  have same : State.EndedIdle { s with bus := u.bus, flags := s.flags.setErr } r _ .error :=
    ended.of_same rfl flags kept.cfg kept.slots kept.enabled kept.resetLatch kept.host kept.device
  exact ⟨cause, info, { same with }⟩

/-! ### Where the lines hold still -/

/-- Undoing a turnaround sees no RESET that nobody pulls. -/
theorem State.not_undoSeesReset_ofHolds {s : State} (noReset : s.bus.Holds .reset .released) (rst : s.flags.rst = false) :
    ¬ s.UndoSeesReset := by
  rintro ⟨turn, saw⟩
  rw [State.undoTurnAround_eq s turn] at saw
  have kept := (Link.timeoutWait_flags_kept s.cfg s.beforeUndoWait.link .clk .pulled
    (s.beforeUndoWait_keepsHolds _ _ noReset)).1
  exact absurd (saw.symm.trans (kept.trans rst)) (by simp)

/-- A wait for a line held at another level is late, and no RESET was seen. -/
theorem State.timeoutWait_ofOtherHeld {s : State} {l : Line} {x y : LineState} (other : y ≠ x)
    (noReset : s.bus.Holds .reset .released) (held : s.bus.Holds l y) :
    (s.timeoutWait l x).1 = false ∧ (s.timeoutWait l x).2.flags = s.flags.setErr := by
  obtain ⟨failed, flags, -, -⟩ := Link.timeoutWait_of_otherHeld s.cfg s.link l other noReset held
  exact ⟨failed, flags⟩

/-- How a turnaround ends where CLK holds still. -/
theorem State.turnAround_ofHolds {s : State} (start : s.turn = .notTurned) (noReset : s.bus.Holds .reset .released) :
    (s.bus.Holds .clk .released → s.turnAround.1 = true) ∧
    (s.bus.Holds .clk .pulled → s.turnAround.1 = false ∧ s.turnAround.2.flags = s.flags.setErr) := by
  obtain ⟨w, wait, ⟨seen, ended⟩ | ⟨failed, ended⟩⟩ := s.turnAround_cases start
  · rw [ended]
    exact ⟨fun _ => rfl, fun held => absurd ((wait.other .pulled (by simp) noReset held).1.symm.trans seen) (by simp)⟩
  · rw [ended]
    exact ⟨fun held => absurd ((wait.held noReset held).symm.trans failed) (by simp),
      fun held => ⟨rfl, (wait.other .pulled (by simp) noReset held).2.1⟩⟩

/-! ### The secondary command -/

section
variable {s : State} {ch : Channel} {i : Instr} {b : Byte} {k : CmdKind} (h : IsSecondary ch i b k)
  (place : (s.ctl = .secondary ∧ s.record.mode = .talk) ∨ (s.ctl = .primary ∧ s.role = .talker))
include h place

/-- All three secondary commands are recorded and go on to the talk phase. -/
theorem IsSecondary.exec_talk :
    exec i s = .next (State.talkPhase { s with record := s.record.withSecondary .talk b k ch }) :=
  (h.exec_served (r := .talker) nofun place).trans (congrArg Host.Outcome.next (CmdKind.phase_talk rfl k))

/-- Both waits over in time, the device's hook is called with the record, by a talker. -/
theorem IsSecondary.exec_turned {u v : State} (seen : s.timeoutWait .atn .released = (true, u))
    (turned : u.turnAround = (true, v)) :
    exec i s = .next (State.callHook { v with record := s.record.withSecondary .talk b k ch }
      (.processCommand (s.record.withSecondary .talk b k ch) false)) :=
  (h.exec_talk place).trans (congrArg Host.Outcome.next
    (State.talkPhase_ofTurned (State.timeoutWait_withRecord seen _) (State.turnAround_withRecord turned _)))

theorem IsSecondary.exec_lateAtn {u : State} (late : s.timeoutWait .atn .released = (false, u)) (rst : u.flags.rst = false) :
    exec i s = .next (State.phaseError { u with record := s.record.withSecondary .talk b k ch } .timeout 0x00#8) :=
  (h.exec_talk place).trans (congrArg Host.Outcome.next (State.talkPhase_ofLateAtn (State.timeoutWait_withRecord late _) rst))

theorem IsSecondary.exec_lateClk {u v : State} (seen : s.timeoutWait .atn .released = (true, u))
    (late : u.turnAround = (false, v)) (turn : v.turn = .notTurned) (rst : v.flags.rst = false) :
    exec i s = .next (State.phaseError { v with record := s.record.withSecondary .talk b k ch } .timeout 0x00#8) :=
  (h.exec_talk place).trans (congrArg Host.Outcome.next
    (State.talkPhase_ofLateClk (State.timeoutWait_withRecord seen _) (State.turnAround_withRecord late _) turn rst))

end

/-- Settles O31: the record is written before the waits, which do not touch it, and each end of the waits is one of the talk
phase's. -/
theorem secondaryOfATalkerTakesTheBus : Obligations.SecondaryOfATalkerTakesTheBus := by
  intro s ch i b k place h
  refine ⟨fun u v seen turned => ?_, fun u late rst undo => ?_, fun u seen start failed rst => ?_,
    fun rst noReset => ⟨fun held => ?_, fun held start => ?_⟩⟩
  · have srq := (State.handshake_ofWait seen (by simp)).link.own_srq
    obtain ⟨turn, clk, data, -, keptSrq, -, flags, frame⟩ := State.turnedFrom_turnAround turned
    rw [State.flags_ofSeen seen] at flags
    exact ⟨_, IsSecondary.exec_turned h place seen turned, rfl, rfl, turn, rfl, rfl, clk, data, keptSrq.trans srq, flags,
      State.frame_callHook (State.frame_ofWait seen) frame _ _⟩
  · have flags := State.flags_ofLate late rst
    obtain ⟨cause, info, ended⟩ := State.timeout_ends (State.handshake_ofWait late (by simp)) flags rst undo
      (s.record.withSecondary .talk b k ch)
    exact ⟨_, IsSecondary.exec_lateAtn h place late rst, cause, info, ended.record_congr rfl⟩
  · have late : u.turnAround = (false, u.turnAround.2) := Prod.ext failed rfl
    obtain ⟨turn, flags⟩ := State.turnAround_late ((State.turn_ofWait seen).trans start) late rst
    have kept := (State.handshake_ofWait seen (by simp)).trans u.turnAround_handshake
    have undo : ¬ u.turnAround.2.UndoSeesReset := fun ⟨turned, _⟩ => by simp [turn] at turned
    rw [State.flags_ofSeen seen] at flags
    obtain ⟨cause, info, ended⟩ := State.timeout_ends kept flags rst undo (s.record.withSecondary .talk b k ch)
    exact ⟨_, IsSecondary.exec_lateClk h place seen late turn rst, cause, info, ended.record_congr rfl⟩
  · obtain ⟨failed, flags⟩ := State.timeoutWait_ofOtherHeld (x := .released) (by simp) noReset held
    have rst' : (s.timeoutWait .atn .released).2.flags.rst = false := (congrArg Flags.rst flags).trans rst
    have noReset' := s.timeoutWait_keepsHolds .atn .released _ _ noReset
    exact ⟨_, Prod.ext failed rfl, rst', State.not_undoSeesReset_ofHolds noReset' rst'⟩
  · have seen : s.timeoutWait .atn .released = (true, (s.timeoutWait .atn .released).2) :=
      Prod.ext (s.timeoutWait_seenAtOnce .atn .released noReset held).1 rfl
    have keeps := s.timeoutWait_keepsHolds .atn .released
    obtain ⟨released, pulled⟩ := State.turnAround_ofHolds ((State.turn_ofWait seen).trans start) (keeps _ _ noReset)
    refine ⟨_, seen, fun clk => ⟨_, Prod.ext (released (keeps _ _ clk)) rfl⟩, fun clk => ?_⟩
    obtain ⟨failed, flags⟩ := pulled (keeps _ _ clk)
    rw [State.flags_ofSeen seen] at flags
    exact ⟨failed, (congrArg Flags.rst flags).trans rst⟩

end Sys2Proof.Machine
end

section
/-! PROOF. Every step keeps the invariant (43_device_registry.md R220, R230; 10_state.md R25, R26, R31; 44_bus_coordinator.md
R252): each command byte at the place it is read at, each request, each return of a hook, and the fetch. -/
namespace Sys2Proof.Machine
open Sys2Proof

/-! ### The command bytes -/

/-- LISTEN and TALK: a device is addressed by the primary, and Malformed at the three other places. -/
theorem addressByte_inv {s : State} (h : s.Inv) {id : DeviceId} (hid : id ≠ 31#5) (b : Byte) {k : CmdKind} {r : Role}
    (hk : k = .listen ∨ k = .talk) (hr : r ≠ .none) :
    (s.byPlace (fun s => addressDevice id r (modeOf r) ((s.setCommand b k).setDeviceId id))
      (fun s => malformedInDecode b (s.setDeviceId id)) (malformedInDecode b) (malformedInListen b)).Inv := by
  refine byPlace_inv h (fun hc => ?_) (fun hc => ?_) (fun hc => malformedInDecode_inv h hc nofun b)
    (fun hc => malformedInListen_inv h hc nofun b)
  · have latch : s.resetLatch = false := latch_clear_at h hc nofun
    exact addressDevice_inv (setDeviceId_base (setCommand_base h (primary_not_open h hc) b k) id hid) latch id r (modeOf r) hr
      rfl hk
  · have latch : s.resetLatch = false := latch_clear_at h hc nofun
    exact (setDeviceId_base h.base id hid).decodeError latch _ _

/-- The phase that a recorded secondary command goes on to. -/
theorem CmdKind.phase_inv {s : State} (b : s.Base) (latch : s.resetLatch = false) (mode : s.record.mode = modeOf s.role)
    (role : s.role ≠ .none) {k : CmdKind} (kind : s.record.kind = k) (secondary : k.isSecondary) : (k.phase s).Inv := by
  unfold CmdKind.phase
  split
  · next opn => exact enterOpen_inv b latch mode role (kind.trans opn)
  · exact enterPhase_inv b latch mode role (kind ▸ secondary)

/-- DATA, CLOSE and OPEN: served as secondary and as primary, Malformed at the two other places. -/
theorem IsSecondary.exec_inv {ch : Channel} {i : Instr} {b : Byte} {k : CmdKind} (hi : IsSecondary ch i b k) {s t : State}
    (h : s.Inv) (e : exec i s = .next t) : t.Inv := by
  have secondary : k.isSecondary := by obtain ⟨-, -, rfl⟩ | ⟨-, -, rfl⟩ | ⟨-, -, rfl⟩ := hi <;> simp [CmdKind.isSecondary]
  have recorded (notOpen : s.record.kind ≠ .opn) : ((s.setCommand b k).setChannel ch).Base :=
    setChannel_base (setCommand_base h notOpen b k) ch
  rw [hi.exec_eq] at e
  cases e
  refine byPlace_inv h (fun hc => ?_) (fun hc => ?_) (fun hc => malformedInDecode_inv h hc nofun b)
    (fun hc => malformedInListen_inv h hc nofun b)
  · have latch : s.resetLatch = false := latch_clear_at h hc nofun
    exact secondaryAsPrimary_inv (recorded (primary_not_open h hc)) latch _
      fun _ base latch mode role kind => CmdKind.phase_inv base latch mode role kind secondary
  · obtain ⟨mode, role, -⟩ := secondary_place h hc
    have latch : s.resetLatch = false := latch_clear_at h hc nofun
    exact CmdKind.phase_inv (recorded (secondary_not_open h hc)) latch mode role rfl secondary

/-- UNLISTEN and UNTALK in place of a primary or a secondary. -/
theorem endEpisode_inv_ofInv {s : State} (h : s.Inv) (hk : s.record.kind ≠ .opn) (b : Byte) (k : CmdKind) :
    (endEpisode b k s).Inv :=
  endEpisode_inv (setCommand_base h hk b k)

theorem execUnlisten_inv {s t : State} (h : s.Inv) (e : execUnlisten s = .next t) : t.Inv := by
  cases e
  refine byPlace_inv h (fun hc => endEpisode_inv_ofInv h (primary_not_open h hc) _ _)
    (fun hc => endEpisode_inv_ofInv h (secondary_not_open h hc) _ _) (fun hc => ?_) (fun _ => h.base.toIdle_return _)
  obtain ⟨mode, role, kind⟩ := payload_place h hc
  exact listenPhase_inv h.base (latch_clear_at h hc nofun) true (by rw [mode, role]; rfl) (by simp [role]) (.inr (.inr kind))

theorem execUntalk_inv {s t : State} (h : s.Inv) (e : execUntalk s = .next t) : t.Inv := by
  cases e
  exact byPlace_inv h (fun hc => endEpisode_inv_ofInv h (primary_not_open h hc) _ _)
    (fun hc => endEpisode_inv_ofInv h (secondary_not_open h hc) _ _) (fun hc => malformedInDecode_inv h hc nofun _)
    (fun hc => malformedInListen_inv h hc nofun _)

theorem execGlobalCmd_inv {s t : State} (h : s.Inv) (e : execGlobalCmd s = .next t) : t.Inv := by
  cases e
  exact byPlace_inv h (fun hc => (setCommand_base h (primary_not_open h hc) _ _).notAddressed)
    (fun hc => malformedInDecode_inv h hc nofun _) (fun hc => malformedInDecode_inv h hc nofun _)
    (fun hc => malformedInListen_inv h hc nofun _)

/-! ### The instructions -/

/-- A request that may be refused. -/
theorem State.Inv.orRefused {s t : State} (h : s.Inv) (p : Prop) [Decidable p] (sel : BitVec 5) (v : Value) (ht : t.Inv) :
    (if p then s.refuse sel else t.complete v).Inv := by
  split
  · exact h.refuse sel
  · exact ht.complete v

/-- `sendFileNotFound()` once accepted (45_device_contract.md R305). -/
theorem fileNotFound_handshake (s : State) :
    State.HandshakeSpec s (((s.release .data).release .clk).delay s.cfg.tFnf) :=
  ((s.release_handshake .data rfl).trans (State.release_handshake _ .clk rfl)).trans (State.delay_handshake _ _)

/-- A well-formed instruction keeps the invariant. Well-formedness keeps the value 31 out of `rec.device_id` (10_state.md
R25). -/
theorem exec_inv {i : Instr} {s t : State} (h : s.Inv) (wf : WellFormed i = true) (e : exec i s = .next t) : t.Inv := by
  cases i with
  | globalCmd => exact execGlobalCmd_inv h e
  | unlisten => exact execUnlisten_inv h e
  | untalk => exact execUntalk_inv h e
  | listen id => cases e; exact addressByte_inv h (bne_iff_ne.mp wf) _ (.inl rfl) nofun
  | talk id => cases e; exact addressByte_inv h (bne_iff_ne.mp wf) _ (.inr rfl) nofun
  | dataCmd ch => exact IsSecondary.exec_inv (.inl ⟨rfl, rfl, rfl⟩) h e
  | closeCmd ch => exact IsSecondary.exec_inv (.inr (.inl ⟨rfl, rfl, rfl⟩)) h e
  | openCmd ch => exact IsSecondary.exec_inv (.inr (.inr ⟨rfl, rfl, rfl⟩)) h e
  | invalid01_1F x => cases e; exact invalidByte_inv h _
  | invalid70_7F x => cases e; exact invalidByte_inv h _
  | invalid80_BF x => cases e; exact invalidByte_inv h _
  | invalidC0_DF x => cases e; exact invalidByte_inv h _
  | service => exact execService_inv h t e
  | pull l => exact execPull_inv h l t e
  | release l => exact execRelease_inv h l t e
  | read l => exact execRead_inv h l t e
  | timeoutWait l x => exact execTimeoutWait_inv h l x t e
  | sendByte v eoi => cases e; exact (h.handshake (s.sendByte_handshake v eoi)).complete _
  | receiveByte => cases e; exact (h.handshake s.receiveByte_handshake).complete _
  | turnAround => cases e; exact (h.handshake s.turnAround_handshake).complete _
  | undoTurnAround => cases e; exact (h.handshake s.undoTurnAround_handshake).complete _
  | addDevice ref id => exact execAddDevice_inv h ref id t e
  | removeDevice ref => exact execRemoveDevice_inv h ref t e
  | deviceById id => cases e; exact h.complete _
  | changeDeviceId ref newId => exact execChangeDeviceId_inv h ref newId t e
  | numDevices => cases e; exact h.complete _
  | isEnabled id => cases e; exact h.complete _
  | enableDevice id => exact execEnableDevice_inv h id t e
  | disableDevice id => exact execDisableDevice_inv h id t e
  | send b => cases e; exact h.orRefused _ _ _ (sendPrimitive_inv h b)
  | sendBuffer buffer length => cases e; exact h.orRefused _ _ _ (sendAll_inv _ h)
  | sendEOI b => cases e; exact h.orRefused _ _ _ (sendEoiPrimitive_inv h b)
  | sendFileNotFound => cases e; exact h.orRefused _ _ _ (setPhaseDone_inv (h.handshake (fileNotFound_handshake s)))
  | receive => cases e; exact h.orRefused _ _ _ (receivePrimitive_inv h)
  | receiveBuffer buffer length => cases e; exact h.orRefused _ _ _ (receiveAll_inv length h)

/-! ### The return of a hook -/

/-- The listen loop goes on, for a listener whose command was DATA. -/
theorem State.Base.toListening {s : State} (b : s.Base) (latch : s.resetLatch = false) (mode : s.record.mode = .listen)
    (role : s.role = .listener) (kind : s.record.kind = .data) : State.Inv { s with ctl := .listening } :=
  (b.congr (t := { s with ctl := .listening }) rfl rfl rfl rfl rfl rfl rfl).inv (fun _ => latch) ⟨mode, role, kind⟩

/-- The hook that takes a listen byte. -/
theorem State.Base.callListenData {s : State} (b : s.Base) (latch : s.resetLatch = false) (mode : s.record.mode = .listen)
    (role : s.role = .listener) (kind : s.record.kind = .data) (v : Byte) (eoi : Bool) :
    (s.callHook (.listenData v eoi)).Inv :=
  (b.congr (t := s.callHook (.listenData v eoi)) rfl rfl rfl rfl rfl rfl rfl).inv (fun _ => latch) ⟨mode, role, kind⟩

theorem modeOf_eq_talk {r : Role} (h : modeOf r = .talk) : r = .talker := by cases r <;> simp_all [modeOf]

theorem eq_listener_of_modeOf {r : Role} (served : r ≠ .none) (h : modeOf r ≠ .talk) : r = .listener := by
  cases r <;> simp_all [modeOf]

theorem State.hookReturn_inv {s : State} (h : s.Inv) {hook : Hook} {pd : Bool} (hc : s.ctl = .hook hook pd)
    (answer : Option (Byte × Bool)) : (s.hookReturn hook pd answer).Inv := by
  have b := h.base
  have latch : s.resetLatch = false := latch_clear_at h hc nofun
  have place := h.place_ok
  unfold State.PlaceOk at place
  rw [hc] at place
  cases hook with
  | reset dev rest => exact b.broadcast latch rest
  | processCommand r ended =>
    obtain ⟨rfl, mode, role, kind⟩ := place
    rw [State.hookReturn]
    refine b.afterHook latch _ ?_
    split
    · next talks =>
      split
      · exact b.returnSelected _ mode
      · exact b.talkTop latch talks (modeOf_eq_talk (mode.symm.trans talks))
    · next listens =>
      have listener : s.role = .listener := eq_listener_of_modeOf role (mode ▸ listens)
      split
      · exact b.toIdle_return _
      · split
        · next data => exact b.toListening latch (by rw [mode, listener]; rfl) listener data.1
        · exact b.returnSelected _ mode
  | listenData v eoi =>
    obtain ⟨mode, role, kind⟩ := place
    rw [State.hookReturn]
    refine b.afterHook latch _ ?_
    split
    · exact b.returnSelected _ (by rw [mode, role]; rfl)
    · exact b.toListening latch mode role kind
  | talkData =>
    obtain ⟨mode, role⟩ := place
    rw [State.hookReturn]
    refine b.afterHook latch _ ?_
    split
    · exact b.returnSelected _ (by rw [mode, role]; rfl)
    · exact b.talkAnswer latch mode role answer

/-! ### The fetch -/

theorem decodeOnLine_wellFormed {c : BitVec 3} {mk : Line → Instr} {i : Instr} (h : decodeOnLine c mk = .instr i)
    (wf : ∀ l, WellFormed (mk l) = true) : WellFormed i = true := by
  unfold decodeOnLine at h
  split at h
  · cases h; exact wf _
  · cases h

theorem decodeOnBuffer_wellFormed {buffer : List Byte} {length : Nat} {mk : List Byte → Nat → Instr} {i : Instr}
    (h : decodeOnBuffer buffer length mk = .instr i) (wf : length ≤ buffer.length → WellFormed (mk buffer length) = true) :
    WellFormed i = true := by
  unfold decodeOnBuffer at h
  split at h
  · next fits => cases h; exact wf fits
  · cases h

/-- A request decodes to a well-formed instruction. -/
theorem decodeOp_wellFormed {r : OpRequest} {i : Instr} (h : decodeOp r = .instr i) : WellFormed i = true := by
  unfold decodeOp at h
  split at h
  case h_2 | h_3 | h_4 | h_9 => exact decodeOnLine_wellFormed h fun _ => rfl
  case h_19 | h_23 => exact decodeOnBuffer_wellFormed h decide_eq_true
  all_goals cases h
  all_goals rfl

/-- The fetch keeps the invariant, and what it finds is well formed. -/
def Fetched.Inv : Fetched → Prop
  | .run i u => WellFormed i = true ∧ u.Inv
  | .done u => u.Inv

theorem Fetched.inv_runCmd8 {u : State} (h : u.Inv) (b : Byte) : (Fetched.run (decodeCmd8 b) u).Inv :=
  have ⟨wf, _⟩ := isCommand_decodeCmd8 b
  ⟨wf, h⟩

theorem State.Inv.ofDevice {s : State} (h : s.Inv) (moves : List DevMove) : State.Inv { s with device := moves } :=
  h.congr rfl rfl rfl rfl rfl rfl h.no_srq rfl rfl

theorem State.refuseAccess_inv {s : State} (h : s.Inv) : s.refuseAccess.Inv :=
  h.congr rfl rfl rfl rfl rfl rfl h.no_srq rfl rfl

theorem State.deviceRead_inv {s : State} (h : s.Inv) (i : Nat) : (s.deviceRead i).Inv := by
  unfold State.deviceRead
  split
  · exact h.complete _
  · exact State.refuseAccess_inv h

theorem fetchRequest_inv {s : State} (h : s.Inv) (r : OpRequest) : (fetchRequest r s).Inv := by
  unfold fetchRequest
  split
  · next decoded => exact ⟨decodeOp_wellFormed decoded, h⟩
  · exact h.refuse _

theorem fetchHost_inv {s : State} (h : s.Inv) : (fetchHost s).Inv := by
  unfold fetchHost
  split
  · exact ⟨rfl, h⟩
  · next r rest _ =>
    have requested : State.Inv { s with host := rest } := h.congr rfl rfl rfl rfl rfl rfl h.no_srq rfl rfl
    exact fetchRequest_inv requested r

theorem fetchDeviceRequest_inv {s : State} (h : s.Inv) (r : OpRequest) : (fetchDeviceRequest r s).Inv := by
  unfold fetchDeviceRequest
  split
  · exact fetchRequest_inv h r
  · exact h.refuse _

theorem fetchDevice_inv {s : State} (h : s.Inv) {hook : Hook} {pd : Bool} (hc : s.ctl = .hook hook pd) :
    (fetchDevice hook pd s).Inv := by
  unfold fetchDevice
  split
  · exact State.hookReturn_inv h hc none
  · exact fetchDeviceRequest_inv (h.ofDevice _) _
  · exact State.deviceRead_inv (h.ofDevice _) _
  · exact State.refuseAccess_inv (h.ofDevice _)
  · exact h.handshake (.of_link s s.link.tick (Link.tick_handshake _))
  · next answer rest _ => exact State.hookReturn_inv (h.ofDevice rest) hc answer

theorem fetchCommand_inv {s : State} (h : s.Inv) (running : s.ctl ≠ .idle) : (fetchCommand s).Inv := by
  have sampled := s.afterRead_handshake .reset nofun
  have seen := sampled.trans (State.setRst_handshake _)
  have received := sampled.trans (State.receiveByte_handshake _)
  have latch {u : State} (kept : State.HandshakeSpec s u) : u.resetLatch = false :=
    kept.resetLatch.trans (h.latch_clear running)
  unfold fetchCommand
  simp only
  split
  · exact (h.base.handshake seen).decodeReset (latch seen)
  · split
    · exact (h.base.handshake received).decodeReset (latch received)
    · split
      · exact (h.base.handshake received).decodeError (latch received) _ _
      · split
        · exact (h.base.handshake received).decodeError (latch received) _ _
        · exact Fetched.inv_runCmd8 (h.handshake received) _

/-- A payload byte below the bound is stored in the cell at `rec.aux_len` (10_state.md R26). -/
theorem State.Base.append {s : State} (b : s.Base) (kind : s.record.kind = .opn)
    (room : s.record.auxLen ≠ s.cfg.maxLen) (v : Byte) : State.Base { s with record := s.record.append v } where
  __ := b
  aux_bound := Nat.lt_of_le_of_ne b.aux_bound room
  aux_cells := by
    show (s.record.append v).aux.map (fun c => c.1) = List.range (s.record.auxLen + 1)
    rw [s.record.append_aux v b.aux_cells, List.map_append, b.aux_cells, List.range_succ]
    rfl
  aux_open := fun _ => kind

theorem State.storePayload_inv {s : State} (h : s.Inv) (hc : s.ctl = .payload) (v : Byte) : (s.storePayload v).Inv := by
  have latch : s.resetLatch = false := latch_clear_at h hc nofun
  obtain ⟨mode, role, kind⟩ := payload_place h hc
  unfold State.storePayload
  simp only
  split
  · exact h.base.decodeError latch _ _
  · next room =>
    have stored := h.base.append kind room v
    split
    · exact listenPhase_inv stored latch _ (by rw [role]; exact mode) (by simp [role]) (.inr (.inr kind))
    · refine stored.inv (fun _ => latch) ?_
      unfold State.PlaceOk
      rw [hc]
      exact ⟨mode, role, kind⟩

theorem fetchPayload_inv {s : State} (h : s.Inv) (hc : s.ctl = .payload) : (fetchPayload s).Inv := by
  have sampled := s.afterRead_handshake .reset nofun
  have seen := sampled.trans (State.setRst_handshake _)
  have received := sampled.trans (State.receiveByte_handshake _)
  have latch {u : State} (kept : State.HandshakeSpec s u) : u.resetLatch = false :=
    kept.resetLatch.trans (latch_clear_at h hc nofun)
  unfold fetchPayload
  simp only
  split
  · exact (h.base.handshake seen).decodeReset (latch seen)
  · split
    · exact (h.base.handshake received).decodeReset (latch received)
    · split
      · exact (h.base.handshake received).decodeError (latch received) _ _
      · split
        · exact Fetched.inv_runCmd8 (h.handshake received) _
        · exact State.storePayload_inv (h.handshake received) (received.ctl.trans hc) _

theorem fetchListen_inv {s : State} (h : s.Inv) (hc : s.ctl = .listening) : (fetchListen s).Inv := by
  have reset := s.afterRead_handshake .reset nofun
  have seen := reset.trans (State.setRst_handshake _)
  have sampled := reset.trans (State.afterRead_handshake _ .atn nofun)
  have received := sampled.trans (State.receiveByte_handshake _)
  have latch {u : State} (kept : State.HandshakeSpec s u) : u.resetLatch = false :=
    kept.resetLatch.trans (latch_clear_at h hc nofun)
  obtain ⟨mode, role, kind⟩ := listening_place h hc
  unfold fetchListen
  simp only
  split
  · exact (h.base.handshake seen).serveReset (latch seen)
  · split
    · exact (h.base.handshake sampled).returnSelected _ (by rw [sampled.record, sampled.role, mode, role]; rfl)
    · split
      · exact (h.base.handshake received).serveReset (latch received)
      · split
        · exact (h.base.handshake received).phaseError (latch received) _ _
        · split
          · exact Fetched.inv_runCmd8 (h.handshake received) _
          · exact State.Base.callListenData (h.base.handshake received) (latch received)
              (received.record.symm ▸ mode) (received.role.trans role) (received.record.symm ▸ kind) _ _

theorem fetch_inv {s : State} (h : s.Inv) : (fetch s).Inv := by
  unfold fetch
  split
  · exact fetchHost_inv h
  · next hc => exact fetchCommand_inv h (by simp [hc])
  · next hc => exact fetchCommand_inv h (by simp [hc])
  · next hc => exact fetchPayload_inv h hc
  · next hc => exact fetchListen_inv h hc
  · next hc => exact fetchDevice_inv h hc

/-! ### The step -/

/-- Settles O9: the fetch keeps the invariant and finds well-formed instructions only, and each of them keeps it. -/
theorem stepKeepsInvariant : Obligations.StepKeepsInvariant := by
  intro s t h e
  have fetched := fetch_inv h
  unfold step at e
  split at e
  · next found =>
    rw [found] at fetched
    obtain ⟨wf, kept⟩ := fetched
    exact exec_inv kept wf e
  · next found =>
    rw [found] at fetched
    cases e
    exact fetched

end Sys2Proof.Machine
end

section
/-! PROOF. The Device Registry and the enable mask (43_device_registry.md R221 to R229): each setup operation is refused outside
setup time; at setup time it does what its rule says on the chain or the mask, and the queries answer at any time. -/
namespace Sys2Proof.Machine
open Sys2Proof

/-! ### The setup operations outside setup time and at setup time (R221) -/

/-- A setup operation outside setup time is refused. -/
theorem refused_of_notSetupTime {s : State} (outside : s.record.mode ≠ .idle ∨ s.ctl ≠ .idle) (t : State) (sel : BitVec 5) :
    ∃ u, (Host.Outcome.next (if s.setupTime = false then s.refuse sel else t) : Host.Outcome State Fault Refusal) = .next u ∧
      s.Refused u sel (refusalValue sel) :=
  ⟨s.refuse sel, congrArg Host.Outcome.next (if_pos (setupTime_false outside)), s.refuse_refused sel⟩

theorem State.configError_spec (s : State) (info : Byte) : s.ConfigErrorOf (s.configError info) info :=
  ⟨rfl, rfl, rfl, rfl⟩

section
variable {s : State} (mode : s.record.mode = .idle) (ctl : s.ctl = .idle)
include mode ctl

/-- A setup operation at setup time is not refused. -/
theorem ite_atSetupTime {α : Type} (a b : α) : (if s.setupTime = false then a else b) = b :=
  if_neg (by simp [setupTime_true mode ctl])

/-- The tests of `addDevice` at setup time, in their order. -/
theorem exec_addDevice_atSetupTime (ref : DeviceRef) (id : DeviceId) : exec (.addDevice ref id) s = .next
    (if idAssignable id = false then s.configError (idInfo id)
    else if hasId s.slots id then s.configError (idInfo id)
    else if hasRef s.slots ref then s.configError 0x00#8
    else if s.slots.length = Config.nSlots then s.configError 0x00#8
    else State.complete { s with slots := s.slots ++ [{ deviceId := id, ref := ref }] } (.bool true)) :=
  congrArg Host.Outcome.next (ite_atSetupTime mode ctl _ _)

theorem exec_removeDevice_atSetupTime (ref : DeviceRef) : exec (.removeDevice ref) s = .next
    (if hasRef s.slots ref = false then s.complete (.bool false)
    else State.complete { s with slots := removeRef s.slots ref } (.bool true)) :=
  congrArg Host.Outcome.next (ite_atSetupTime mode ctl _ _)

/-- `changeDeviceId` on a reference that is not registered is no error. -/
theorem exec_changeDeviceId_unknown {ref : DeviceRef} (unknown : idOfRef s.slots ref = none) (newId : DeviceId) :
    exec (.changeDeviceId ref newId) s = .next (s.complete (.bool false)) := by
  refine congrArg Host.Outcome.next ((ite_atSetupTime mode ctl _ _).trans ?_)
  rw [unknown]

/-- The tests of `changeDeviceId` on a registered reference, in their order. -/
theorem exec_changeDeviceId_registered {ref : DeviceRef} {old : DeviceId} (registered : idOfRef s.slots ref = some old)
    (newId : DeviceId) : exec (.changeDeviceId ref newId) s = .next
    (if old = newId then s.complete (.bool true)
    else if idAssignable newId = false then s.configError (idInfo newId)
    else if hasId s.slots newId then s.configError (idInfo newId)
    else State.complete { s with slots := renumberRef s.slots ref newId } (.bool true)) := by
  refine congrArg Host.Outcome.next ((ite_atSetupTime mode ctl _ _).trans ?_)
  rw [registered]

theorem exec_enableDevice_atSetupTime (id : DeviceId) : exec (.enableDevice id) s =
    .next (State.complete { s with enabled := s.enabled ||| maskBit id } .none) :=
  congrArg Host.Outcome.next (ite_atSetupTime mode ctl _ _)

theorem exec_disableDevice_atSetupTime (id : DeviceId) : exec (.disableDevice id) s =
    .next (State.complete { s with enabled := s.enabled &&& ~~~(maskBit id) } .none) :=
  congrArg Host.Outcome.next (ite_atSetupTime mode ctl _ _)

end

/-! ### The tests of the chain and of an id -/

theorem idAssignable_eq_false_iff (id : DeviceId) : idAssignable id = false ↔ id.toNat < 4 ∨ 30 < id.toNat := by
  rw [← Bool.not_eq_true, assignable_iff]
  omega

theorem hasId_eq_false_iff (slots : List Registration) (id : DeviceId) :
    hasId slots id = false ↔ ∀ r ∈ slots, r.deviceId ≠ id := by
  simp [hasId]

theorem hasRef_eq_false_iff (slots : List Registration) (ref : DeviceRef) :
    hasRef slots ref = false ↔ ∀ r ∈ slots, r.ref ≠ ref := by
  simp [hasRef]

/-! ### addDevice (R222) -/

/-- Settles O46: none of the four tests of `addDevice` fires. -/
theorem addDeviceAppends : Obligations.AddDeviceAppends := by
  intro s ref id mode ctl low high new room
  have assignable : idAssignable id = true := (assignable_iff id).mpr ⟨low, high⟩
  have newId : hasId s.slots id = false := (hasId_eq_false_iff _ _).mpr fun r hr => (new r hr).1
  have newRef : hasRef s.slots ref = false := (hasRef_eq_false_iff _ _).mpr fun r hr => (new r hr).2
  rw [exec_addDevice_atSetupTime mode ctl, if_neg (by simp [assignable]), if_neg (by simp [newId]), if_neg (by simp [newRef]),
    if_neg room]
  exact ⟨_, rfl, rfl, rfl, rfl⟩

/-- Settles O47: the tests come in the order range, id, reference, room, and each leaves its ConfigError. -/
theorem addDeviceRejectsInOrder : Obligations.AddDeviceRejectsInOrder := by
  intro s ref id mode ctl
  rw [exec_addDevice_atSetupTime mode ctl]
  refine ⟨fun outside => ?_, fun low high used => ?_, fun low high unused rejected => ?_⟩
  · rw [if_pos ((idAssignable_eq_false_iff id).mpr outside)]
    exact ⟨_, rfl, s.configError_spec _⟩
  · rw [if_neg (by simp [(assignable_iff id).mpr ⟨low, high⟩]), if_pos ((hasId_iff _ _).mpr used)]
    exact ⟨_, rfl, s.configError_spec _⟩
  · have newId : hasId s.slots id = false := (hasId_eq_false_iff _ _).mpr unused
    rw [if_neg (by simp [(assignable_iff id).mpr ⟨low, high⟩]), if_neg (by simp [newId])]
    by_cases repeated : hasRef s.slots ref = true
    · rw [if_pos repeated]
      exact ⟨_, rfl, s.configError_spec _⟩
    · have full : s.slots.length = Config.nSlots := rejected.resolve_left fun found => repeated ((hasRef_iff _ _).mpr found)
      rw [if_neg repeated, if_pos full]
      exact ⟨_, rfl, s.configError_spec _⟩

/-! ### removeDevice (R223) -/

/-- Settles O48: the scan for the reference stops at the slot the chain is split at, or finds none. -/
theorem removeDeviceClosesTheGap : Obligations.RemoveDeviceClosesTheGap := by
  refine ⟨fun r select => by simp [decode, decodeOp, select], fun s ref outside => refused_of_notSetupTime outside _ 0x11#5,
    fun s ref mode ctl => ?_⟩
  rw [exec_removeDevice_atSetupTime mode ctl]
  refine ⟨fun before r after chain found first => ?_, fun unknown => ?_⟩
  · have registered : hasRef s.slots ref = true := (hasRef_iff _ _).mpr ⟨r, by simp [chain], found⟩
    have removed : removeRef s.slots ref = before ++ after := chain ▸ removeRef_append before r after ref found first
    rw [if_neg (by simp [registered])]
    exact ⟨_, rfl, rfl, removed, rfl⟩
  · rw [if_pos ((hasRef_eq_false_iff _ _).mpr unknown)]
    exact ⟨_, rfl, rfl, rfl⟩

/-! ### deviceById (R224) -/

/-- No registered device has an id outside the assignable range (I2). -/
theorem slotById_ofUnassignable {s : State} (h : s.Inv) {id : DeviceId} (outside : id.toNat < 4 ∨ id.toNat = 31) :
    slotById s.slots id = none := by
  refine slotById_eq_none _ _ fun r hr eq => ?_
  have assignable := (assignable_iff r.deviceId).mp (h.ids_assignable r hr)
  rw [eq] at assignable
  omega

/-- Settles O49: the answer is the scan of the chain. -/
theorem deviceByIdScansTheChain : Obligations.DeviceByIdScansTheChain := by
  refine ⟨fun r select => by simp [decode, decodeOp, select], fun s id => ⟨_, rfl, rfl, ?_, fun unused => ?_,
    fun inv outside => ?_⟩⟩
  · intro before r after chain found first
    exact congrArg (fun v => Result.completed (.ref v)) (chain ▸ slotById_append before r after id found first)
  · exact congrArg (fun v => Result.completed (.ref v)) (slotById_eq_none _ _ unused)
  · exact congrArg (fun v => Result.completed (.ref v)) (slotById_ofUnassignable inv outside)

/-! ### changeDeviceId (R225) -/

/-- Settles O50: the slot's old id is compared first, then the new id is tested for its range and its use. -/
theorem changeDeviceIdRenumbersInPlace : Obligations.ChangeDeviceIdRenumbersInPlace := by
  refine ⟨fun r select => by simp [decode, decodeOp, select],
    fun s ref newId outside => refused_of_notSetupTime outside _ 0x13#5, fun s ref newId mode ctl => ⟨?_, fun unknown => ?_⟩⟩
  · intro before r after chain found first
    have registered : idOfRef s.slots ref = some r.deviceId := chain ▸ idOfRef_append before r after ref found first
    have renumbered : renumberRef s.slots ref newId = before ++ { r with deviceId := newId } :: after :=
      chain ▸ renumberRef_append before r after ref newId found first
    rw [exec_changeDeviceId_registered mode ctl registered]
    refine ⟨fun same => ?_, fun low high unused => ?_, fun other rejected => ?_⟩
    · rw [if_pos same]
      exact ⟨_, rfl, rfl, rfl⟩
    · have other : r.deviceId ≠ newId := unused r (by simp [chain])
      rw [if_neg other, if_neg (by simp [(assignable_iff newId).mpr ⟨low, high⟩]),
        if_neg (by simp [(hasId_eq_false_iff _ _).mpr unused])]
      exact ⟨_, rfl, rfl, renumbered, rfl⟩
    · refine ⟨s.configError (idInfo newId), ?_, s.configError_spec _⟩
      rw [if_neg other]
      by_cases outside : idAssignable newId = false
      · rw [if_pos outside]
      · have used : ∃ q ∈ s.slots, q.deviceId = newId :=
          (or_assoc.mpr rejected).resolve_left fun range => outside ((idAssignable_eq_false_iff newId).mpr range)
        rw [if_neg outside, if_pos ((hasId_iff _ _).mpr used)]
  · exact ⟨_, exec_changeDeviceId_unknown mode ctl (idOfRef_eq_none _ _ unknown) newId, rfl, rfl⟩

/-! ### numDevices and isEnabled (R229, R226) -/

/-- Settles O51: the count is the chain's length, bounded by I4, and the test of the mask is its bit. -/
theorem queriesAnswerAtAnyTime : Obligations.QueriesAnswerAtAnyTime :=
  ⟨fun r => ⟨fun select => by simp [decode, decodeOp, select], fun select => by simp [decode, decodeOp, select]⟩,
    fun s => ⟨⟨_, rfl, rfl, fun inv => inv.capacity, rfl⟩,
      fun id => ⟨_, rfl, congrArg (fun b => Result.completed (.bool b)) (maskHas_eq s.enabled id), rfl⟩⟩⟩

/-! ### enableDevice and disableDevice (R227, R228) -/

theorem getLsbD_or_maskBit (m : Mask) (id j : DeviceId) :
    (m ||| maskBit id).getLsbD j.toNat = (j == id || m.getLsbD j.toNat) := by
  rw [BitVec.getLsbD_or, maskBit_getLsbD, Bool.or_comm]

theorem getLsbD_andNot_maskBit (m : Mask) (id j : DeviceId) :
    (m &&& ~~~(maskBit id)).getLsbD j.toNat = (j != id && m.getLsbD j.toNat) := by
  have width : j.toNat < 32 := j.isLt
  rw [BitVec.getLsbD_and, BitVec.getLsbD_not, maskBit_getLsbD, decide_eq_true width, Bool.true_and, Bool.and_comm]
  rfl

/-- Settles O52: a bit set twice is set, a bit cleared twice is cleared, and no other bit is written. -/
theorem enableAndDisableWriteOneBit : Obligations.EnableAndDisableWriteOneBit := by
  refine ⟨fun r => ⟨fun select => by simp [decode, decodeOp, select], fun select => by simp [decode, decodeOp, select]⟩,
    fun s id outside => ⟨refused_of_notSetupTime outside _ 0x16#5, refused_of_notSetupTime outside _ 0x17#5⟩,
    fun s id mode ctl => ⟨⟨_, exec_enableDevice_atSetupTime mode ctl id, rfl, getLsbD_or_maskBit s.enabled id, ?_, rfl⟩,
      ⟨_, exec_disableDevice_atSetupTime mode ctl id, rfl, getLsbD_andNot_maskBit s.enabled id, ?_, rfl⟩⟩⟩
  · have twice : s.enabled ||| maskBit id ||| maskBit id = s.enabled ||| maskBit id := by
      rw [BitVec.or_assoc, BitVec.or_self]
    rw [exec_enableDevice_atSetupTime (by simpa using mode) (by simpa using ctl)]
    simp only [State.complete, twice]
  · have twice : s.enabled &&& ~~~(maskBit id) &&& ~~~(maskBit id) = s.enabled &&& ~~~(maskBit id) := by
      rw [BitVec.and_assoc, BitVec.and_self]
    rw [exec_disableDevice_atSetupTime (by simpa using mode) (by simpa using ctl)]
    simp only [State.complete, twice]

/-! ### All setup operations and queries (R221) -/

/-- Settles O53: the five setup operations test for setup time first, and the three queries do not. -/
theorem setupOutsideSetupTimeIsRefused : Obligations.SetupOutsideSetupTimeIsRefused := by
  refine ⟨fun s inv ctl mode => active_none_at_setup inv (setupTime_true mode ctl), fun s ref id outside => ?_⟩
  have refused := refused_of_notSetupTime outside
  exact ⟨refused _ 0x10#5, refused _ 0x11#5, refused _ 0x13#5, refused _ 0x16#5, refused _ 0x17#5, ⟨_, _, rfl, rfl⟩,
    ⟨_, _, rfl, rfl⟩, ⟨_, _, rfl, rfl⟩⟩

end Sys2Proof.Machine
end

section
/-! PROOF. What a call that returns in IDLE has let go (44_bus_coordinator.md R252, R282): the turnaround and the two handshake
lines, at every end a running call can come to. -/
namespace Sys2Proof.Machine
open Sys2Proof

/-! ### Ends of a call -/

/-- Where `t` is the end of a call in IDLE, the turnaround is as new and both handshake lines are let go. -/
def State.IdleLetsGo (t : State) : Prop :=
  t.ctl = .idle → t.record.mode = .idle → t.turn = .notTurned ∧ t.bus.own.clk = .released ∧ t.bus.own.data = .released

theorem State.IdleLetsGo.ofRunning {t : State} (running : t.ctl ≠ .idle) : t.IdleLetsGo := fun ended => absurd ended running

theorem State.IdleLetsGo.ofSelected {t : State} (mode : t.record.mode ≠ .idle) : t.IdleLetsGo :=
  fun _ idle => absurd idle mode

theorem State.toIdle_letsGo (s : State) (m : ATNMode) : (s.toIdle.returnMode m).IdleLetsGo :=
  fun _ _ => ⟨rfl, by simp [Lines.set], by simp [Lines.set]⟩

theorem State.notAddressed_letsGo (s : State) : s.notAddressed.IdleLetsGo := State.toIdle_letsGo _ _

theorem State.endTransaction_letsGo (s : State) : s.endTransaction.IdleLetsGo := State.toIdle_letsGo _ _

theorem State.broadcast_letsGo (s : State) (refs : List DeviceRef) : (s.broadcast refs).IdleLetsGo := by
  cases refs with
  | nil => exact fun _ _ => ⟨rfl, s.broadcast_nil_released .clk rfl, s.broadcast_nil_released .data rfl⟩
  | cons dev rest => exact .ofRunning nofun

section
variable {s : State} (latch : s.resetLatch = false)
include latch

/-- Inside a call the latch is clear, so a reset that is served is broadcast. -/
theorem State.serveReset_letsGo : s.serveReset.IdleLetsGo := by
  rw [State.serveReset_ofLatchClear latch]
  exact State.broadcast_letsGo _ _

theorem State.recover_letsGo : s.recover.IdleLetsGo := by
  have ended (u : State) (latch : u.resetLatch = false) :
      State.IdleLetsGo (if u.flags.rst then u.serveReset else u.toIdle.returnMode .error) := by
    split
    · exact State.serveReset_letsGo latch
    · exact State.toIdle_letsGo _ _
  refine ended (if (s.setMode .error).turn = .turned then (s.setMode .error).undoTurnAround.2 else s.setMode .error) ?_
  split
  · exact (s.setMode .error).undoTurnAround_handshake.resetLatch.trans latch
  · exact latch

theorem State.decodeError_letsGo (c : Cause) (i : Byte) : (s.decodeError c i).IdleLetsGo := State.recover_letsGo latch

theorem State.decodeReset_letsGo : s.decodeReset.IdleLetsGo := State.serveReset_letsGo latch

theorem State.phaseError_letsGo (c : Cause) (i : Byte) : (s.phaseError c i).IdleLetsGo := State.recover_letsGo latch

/-! ### The phases and the return of a hook -/

theorem State.talkPhase_letsGo : s.talkPhase.IdleLetsGo := by
  have waited := (s.timeoutWait_handshake .atn .released nofun).resetLatch.trans latch
  have turned := (s.timeoutWait .atn .released).2.turnAround_handshake.resetLatch.trans waited
  unfold State.talkPhase
  simp only
  split
  · split
    · exact State.serveReset_letsGo waited
    · exact State.phaseError_letsGo waited _ _
  · split
    · split
      · exact State.serveReset_letsGo turned
      · split
        · exact State.phaseError_letsGo turned _ _
        · exact State.recover_letsGo turned
    · exact .ofRunning nofun

theorem State.afterHook_letsGo {goOn : State → State} (on : (goOn s).IdleLetsGo) : (s.afterHook goOn).IdleLetsGo := by
  unfold State.afterHook
  split
  · exact State.serveReset_letsGo latch
  · split
    · exact State.recover_letsGo latch
    · exact on

/-- The talk loop that ends under ATN ends with the device selected. -/
theorem State.talkTop_letsGo (mode : s.record.mode ≠ .idle) : s.talkTop.IdleLetsGo := by
  unfold State.talkTop
  simp only
  split
  · exact State.serveReset_letsGo latch
  · split
    · exact .ofSelected mode
    · exact .ofRunning nofun

theorem State.talkAnswer_letsGo (mode : s.record.mode ≠ .idle) (answer : Option (Byte × Bool)) :
    (s.talkAnswer answer).IdleLetsGo := by
  cases answer with
  | none => exact .ofSelected mode
  | some answer =>
    have sent := s.sendByte_handshake answer.1 answer.2
    have latch' := sent.resetLatch.trans latch
    have mode' := sent.record.symm ▸ mode
    simp only [State.talkAnswer]
    split
    · exact State.serveReset_letsGo latch'
    · split
      · exact State.phaseError_letsGo latch' _ _
      · split
        · exact .ofSelected mode'
        · exact State.talkTop_letsGo latch' mode'

end

theorem modeOf_ne_idle {r : Role} (served : r ≠ .none) : modeOf r ≠ .idle := by
  cases r with
  | none => exact absurd rfl served
  | listener => exact nofun
  | talker => exact nofun

theorem State.hookReturn_letsGo {s : State} (h : s.Inv) {hook : Hook} {pd : Bool} (hc : s.ctl = .hook hook pd)
    (answer : Option (Byte × Bool)) : (s.hookReturn hook pd answer).IdleLetsGo := by
  have latch : s.resetLatch = false := latch_clear_at h hc nofun
  have place := h.place_ok
  unfold State.PlaceOk at place
  rw [hc] at place
  cases hook with
  | reset dev rest => exact s.broadcast_letsGo rest
  | processCommand r ended =>
    obtain ⟨rfl, mode, role, -⟩ := place
    have selected : s.record.mode ≠ .idle := mode ▸ modeOf_ne_idle role
    refine State.afterHook_letsGo latch ?_
    split
    · split
      · exact .ofSelected selected
      · exact State.talkTop_letsGo latch selected
    · split
      · exact s.endTransaction_letsGo
      · split
        · exact .ofRunning nofun
        · exact .ofSelected selected
  | listenData v eoi =>
    obtain ⟨mode, -⟩ := place
    refine State.afterHook_letsGo latch ?_
    split
    · exact .ofSelected (by simp [mode])
    · exact .ofRunning nofun
  | talkData =>
    obtain ⟨mode, -⟩ := place
    have selected : s.record.mode ≠ .idle := by simp [mode]
    refine State.afterHook_letsGo latch ?_
    split
    · exact .ofSelected selected
    · exact State.talkAnswer_letsGo latch selected answer

/-! ### The command bytes -/

theorem addressDevice_letsGo (id : DeviceId) (r : Role) (m : ATNMode) (s : State) : (addressDevice id r m s).IdleLetsGo := by
  unfold addressDevice
  split
  · exact .ofRunning nofun
  · exact s.notAddressed_letsGo

theorem enterPhase_letsGo {s : State} (latch : s.resetLatch = false) : (enterPhase s).IdleLetsGo := by
  unfold enterPhase
  split
  · exact State.talkPhase_letsGo latch
  · exact .ofRunning nofun

theorem enterOpen_letsGo {s : State} (latch : s.resetLatch = false) : (enterOpen s).IdleLetsGo := by
  unfold enterOpen
  split
  · exact State.talkPhase_letsGo latch
  · exact .ofRunning nofun

theorem secondaryAsPrimary_letsGo {s : State} (latch : s.resetLatch = false) {goOn : State → State}
    (on : ∀ u : State, u.resetLatch = false → (goOn u).IdleLetsGo) : (secondaryAsPrimary s goOn).IdleLetsGo := by
  unfold secondaryAsPrimary
  split
  · exact s.notAddressed_letsGo
  · exact on _ latch
  · exact on _ latch

/-- A command byte lets go where its meaning at each of the four places does. -/
theorem State.byPlace_letsGo {s : State} (running : s.ctl ≠ .idle) {p q r l : State → State} (hp : (p s).IdleLetsGo)
    (hq : (q s).IdleLetsGo) (hr : (r s).IdleLetsGo) (hl : (l s).IdleLetsGo) : (s.byPlace p q r l).IdleLetsGo := by
  unfold State.byPlace
  split
  · exact hp
  · exact hq
  · exact hr
  · exact hl
  · exact .ofRunning running
  · exact .ofRunning running

section
variable {s : State} (latch : s.resetLatch = false) (running : s.ctl ≠ .idle)
include latch

theorem malformedInDecode_letsGo (b : Byte) : (malformedInDecode b s).IdleLetsGo := State.decodeError_letsGo latch _ _

theorem malformedInListen_letsGo (b : Byte) : (malformedInListen b s).IdleLetsGo := State.phaseError_letsGo latch _ _

include running

theorem addressByte_letsGo (id : DeviceId) (r : Role) (m : ATNMode) (b : Byte) (k : CmdKind) :
    (s.byPlace (fun s => addressDevice id r m ((s.setCommand b k).setDeviceId id))
      (fun s => malformedInDecode b (s.setDeviceId id)) (malformedInDecode b) (malformedInListen b)).IdleLetsGo :=
  State.byPlace_letsGo running (addressDevice_letsGo _ _ _ _) (malformedInDecode_letsGo (s := s.setDeviceId id) latch b)
    (malformedInDecode_letsGo latch b) (malformedInListen_letsGo latch b)

theorem secondaryByte_letsGo {goOn : State → State} (on : ∀ u : State, u.resetLatch = false → (goOn u).IdleLetsGo)
    (b : Byte) (k : CmdKind) (ch : Channel) :
    (s.byPlace (fun s => secondaryAsPrimary ((s.setCommand b k).setChannel ch) goOn)
      (fun s => goOn ((s.setCommand b k).setChannel ch)) (malformedInDecode b) (malformedInListen b)).IdleLetsGo :=
  State.byPlace_letsGo running (secondaryAsPrimary_letsGo (s := (s.setCommand b k).setChannel ch) latch on) (on _ latch)
    (malformedInDecode_letsGo latch b) (malformedInListen_letsGo latch b)

theorem invalidByte_letsGo (b : Byte) : (invalidByte b s).IdleLetsGo :=
  State.byPlace_letsGo running (malformedInDecode_letsGo (s := s.setCommand b .invalid) latch b)
    (malformedInDecode_letsGo latch b) (malformedInDecode_letsGo latch b) (malformedInListen_letsGo latch b)

end

/-! ### The data primitives: they end no call -/

section
variable {s : State} (running : s.ctl ≠ .idle)
include running

theorem State.setPhaseDone_running : s.setPhaseDone.ctl ≠ .idle := by
  unfold State.setPhaseDone
  split
  · exact nofun
  all_goals exact running

theorem State.primitiveFailed_running : s.primitiveFailed.ctl ≠ .idle := by
  unfold State.primitiveFailed
  split
  · exact State.setPhaseDone_running running
  · exact State.setPhaseDone_running running

theorem State.sendPrimitive_running (b : Byte) : (s.sendPrimitive b).2.ctl ≠ .idle := by
  simp only [State.sendPrimitive]
  split
  · exact State.primitiveFailed_running running
  · exact running

theorem State.sendEoiPrimitive_running (b : Byte) : (s.sendEoiPrimitive b).2.ctl ≠ .idle := by
  simp only [State.sendEoiPrimitive]
  split
  · exact State.primitiveFailed_running running
  · exact State.setPhaseDone_running (s := (s.sendByte b true).2) running

theorem State.receivePrimitive_running : s.receivePrimitive.2.ctl ≠ .idle := by
  simp only [State.receivePrimitive]
  split
  · exact State.primitiveFailed_running running
  · split
    · exact State.setPhaseDone_running (s := s.receiveByte.2.setErr) running
    · split
      · exact State.setPhaseDone_running (s := s.receiveByte.2) running
      · exact running

end

theorem State.sendAll_running (l : List Byte) : ∀ {s : State}, s.ctl ≠ .idle → (State.sendAll l s).2.ctl ≠ .idle := by
  induction l with
  | nil => exact fun running => running
  | cons b rest ih =>
    intro s running
    simp only [State.sendAll]
    split
    · exact State.sendPrimitive_running running b
    · exact ih (State.sendPrimitive_running running b)

theorem State.receiveAll_running (n : Nat) : ∀ {s : State}, s.ctl ≠ .idle → (State.receiveAll n s).2.2.ctl ≠ .idle := by
  induction n with
  | zero => exact fun running => running
  | succ n ih =>
    intro s running
    simp only [State.receiveAll]
    split
    · exact State.receivePrimitive_running running
    · split
      · exact State.receivePrimitive_running running
      · exact ih (State.receivePrimitive_running running)

/-! ### The instructions -/

/-- A request inside a call ends no call, whether it is accepted or refused. -/
theorem State.orRefused_running {s t : State} (running : s.ctl ≠ .idle) (p : Prop) [Decidable p] (sel : BitVec 5) (v : Value)
    (ht : t.ctl ≠ .idle) : (if p then s.refuse sel else t.complete v).ctl ≠ .idle := by
  split
  · exact running
  · exact ht

theorem State.onLine_running {s t : State} (running : s.ctl ≠ .idle) (l : Line) (sel : BitVec 5) (v : Value)
    (ht : t.ctl ≠ .idle) : (if s.linePresent l then t.complete v else s.refuse sel).ctl ≠ .idle := by
  split
  · exact ht
  · exact running

/-- Only a command byte ends a running call (44_bus_coordinator.md R251). -/
theorem exec_request_running {i : Instr} {r : OpRequest} (request : encode i = .op r) {s t : State} (running : s.ctl ≠ .idle)
    (e : exec i s = .next t) : t.ctl ≠ .idle := by
  have refused : s.setupTime = false := setupTime_false (.inr running)
  cases i with
  | globalCmd | unlisten | untalk | listen | talk | dataCmd | closeCmd | openCmd => cases request
  | invalid01_1F | invalid70_7F | invalid80_BF | invalidC0_DF => cases request
  | service => cases e; rw [if_pos running]; exact running
  | pull l => cases e; exact State.onLine_running running _ _ _ running
  | release l => cases e; exact State.onLine_running running _ _ _ running
  | read l => cases e; exact State.onLine_running running _ _ _ running
  | timeoutWait l x => cases e; exact State.onLine_running running _ _ _ running
  | sendByte | receiveByte => cases e; exact running
  | turnAround => cases e; exact s.turnAround_handshake.ctl ▸ running
  | undoTurnAround => cases e; exact s.undoTurnAround_handshake.ctl ▸ running
  | addDevice | removeDevice | changeDeviceId | enableDevice | disableDevice => cases e; rw [if_pos refused]; exact running
  | deviceById | numDevices | isEnabled => cases e; exact running
  | send b => cases e; exact State.orRefused_running running _ _ _ (State.sendPrimitive_running running b)
  | sendBuffer buffer length => cases e; exact State.orRefused_running running _ _ _ (State.sendAll_running _ running)
  | sendEOI b => cases e; exact State.orRefused_running running _ _ _ (State.sendEoiPrimitive_running running b)
  | sendFileNotFound =>
    cases e
    exact State.orRefused_running running _ _ _
      (State.setPhaseDone_running (s := ((s.release .data).release .clk).delay s.cfg.tFnf) running)
  | receive => cases e; exact State.orRefused_running running _ _ _ (State.receivePrimitive_running running)
  | receiveBuffer buffer length =>
    cases e
    exact State.orRefused_running running _ _ _ (State.receiveAll_running length running)

theorem exec_letsGo {i : Instr} {s t : State} (latch : s.resetLatch = false) (running : s.ctl ≠ .idle)
    (e : exec i s = .next t) : t.IdleLetsGo := by
  have malformed (b : Byte) := malformedInDecode_letsGo latch b
  have malformed' (b : Byte) := malformedInListen_letsGo latch b
  cases i with
  | globalCmd =>
    cases e
    exact State.byPlace_letsGo running (State.notAddressed_letsGo _) (malformed _) (malformed _) (malformed' _)
  | unlisten =>
    cases e
    exact State.byPlace_letsGo running (State.endTransaction_letsGo _) (State.endTransaction_letsGo _) (.ofRunning nofun)
      (State.endTransaction_letsGo _)
  | untalk =>
    cases e
    exact State.byPlace_letsGo running (State.endTransaction_letsGo _) (State.endTransaction_letsGo _) (malformed _)
      (malformed' _)
  | listen id => cases e; exact addressByte_letsGo latch running id _ _ _ _
  | talk id => cases e; exact addressByte_letsGo latch running id _ _ _ _
  | dataCmd ch => cases e; exact secondaryByte_letsGo latch running (fun _ => enterPhase_letsGo) _ _ ch
  | closeCmd ch => cases e; exact secondaryByte_letsGo latch running (fun _ => enterPhase_letsGo) _ _ ch
  | openCmd ch => cases e; exact secondaryByte_letsGo latch running (fun _ => enterOpen_letsGo) _ _ ch
  | invalid01_1F | invalid70_7F | invalid80_BF | invalidC0_DF => cases e; exact invalidByte_letsGo latch running _
  | _ => exact .ofRunning (exec_request_running rfl running e)

/-! ### The fetch -/

/-- What the fetch does itself lets go; where it finds an instruction it ends no call. -/
def Fetched.IdleLetsGo : Fetched → Prop
  | .run _ _ => True
  | .done u => u.IdleLetsGo

theorem fetchRequest_letsGo {s : State} (running : s.ctl ≠ .idle) (r : OpRequest) : (fetchRequest r s).IdleLetsGo := by
  unfold fetchRequest
  split
  · trivial
  · exact State.IdleLetsGo.ofRunning running

theorem fetchDeviceRequest_letsGo {s : State} (running : s.ctl ≠ .idle) (r : OpRequest) :
    (fetchDeviceRequest r s).IdleLetsGo := by
  unfold fetchDeviceRequest
  split
  · exact fetchRequest_letsGo running r
  · exact State.IdleLetsGo.ofRunning running

theorem State.deviceRead_letsGo {s : State} (running : s.ctl ≠ .idle) (i : Nat) : (s.deviceRead i).IdleLetsGo := by
  unfold State.deviceRead
  split
  · exact .ofRunning running
  · exact .ofRunning running

theorem fetchDevice_letsGo {s : State} (h : s.Inv) {hook : Hook} {pd : Bool} (hc : s.ctl = .hook hook pd) :
    (fetchDevice hook pd s).IdleLetsGo := by
  have running : s.ctl ≠ .idle := by simp [hc]
  unfold fetchDevice
  split
  · exact State.hookReturn_letsGo h hc none
  · next r rest _ => exact fetchDeviceRequest_letsGo (s := { s with device := rest }) running r
  · next i rest _ => exact State.deviceRead_letsGo (s := { s with device := rest }) running i
  · exact State.IdleLetsGo.ofRunning running
  · exact State.IdleLetsGo.ofRunning running
  · next answer rest _ => exact State.hookReturn_letsGo (h.ofDevice rest) hc answer

theorem fetchCommand_letsGo {s : State} (latch : s.resetLatch = false) : (fetchCommand s).IdleLetsGo := by
  unfold fetchCommand
  simp only
  split
  · exact State.decodeReset_letsGo (s := (s.afterRead .reset).setRst) latch
  · have received := (s.afterRead .reset).receiveByte_handshake.resetLatch.trans latch
    split
    · exact State.decodeReset_letsGo received
    · split
      · exact State.decodeError_letsGo received _ _
      · split
        · exact State.decodeError_letsGo received _ _
        · trivial

theorem State.storePayload_letsGo {s : State} (latch : s.resetLatch = false) (running : s.ctl ≠ .idle) (v : Byte) :
    (s.storePayload v).IdleLetsGo := by
  unfold State.storePayload
  simp only
  split
  · exact State.decodeError_letsGo latch _ _
  · split
    · exact .ofRunning nofun
    · exact .ofRunning running

theorem fetchPayload_letsGo {s : State} (latch : s.resetLatch = false) (running : s.ctl ≠ .idle) :
    (fetchPayload s).IdleLetsGo := by
  unfold fetchPayload
  simp only
  split
  · exact State.decodeReset_letsGo (s := (s.afterRead .reset).setRst) latch
  · have received := (s.afterRead .reset).receiveByte_handshake.resetLatch.trans latch
    split
    · exact State.decodeReset_letsGo received
    · split
      · exact State.decodeError_letsGo received _ _
      · split
        · trivial
        · exact State.storePayload_letsGo received running _

theorem fetchListen_letsGo {s : State} (latch : s.resetLatch = false) (mode : s.record.mode ≠ .idle) :
    (fetchListen s).IdleLetsGo := by
  unfold fetchListen
  simp only
  split
  · exact State.serveReset_letsGo (s := (s.afterRead .reset).setRst) latch
  · split
    · exact State.IdleLetsGo.ofSelected mode
    · have received := ((s.afterRead .reset).afterRead .atn).receiveByte_handshake.resetLatch.trans latch
      split
      · exact State.serveReset_letsGo received
      · split
        · exact State.phaseError_letsGo received _ _
        · split
          · trivial
          · exact State.IdleLetsGo.ofRunning nofun

theorem fetch_letsGo {s : State} (h : s.Inv) (running : s.ctl ≠ .idle) : (fetch s).IdleLetsGo := by
  have latch := h.latch_clear running
  unfold fetch
  split
  · next hc => exact absurd hc running
  · exact fetchCommand_letsGo latch
  · exact fetchCommand_letsGo latch
  · exact fetchPayload_letsGo latch running
  · next hc =>
    obtain ⟨mode, -⟩ := listening_place h hc
    exact fetchListen_letsGo latch (by simp [mode])
  · next hc => exact fetchDevice_letsGo h hc

/-! ### The step -/

theorem step_letsGo {s t : State} (h : s.Inv) (running : s.ctl ≠ .idle) (e : step s = .next t) : t.IdleLetsGo := by
  have fetched := fetch_letsGo h running
  have kept := fetch_keepsSetup s
  have inv := fetch_inv h
  unfold step at e
  split at e
  · next found =>
    rw [found] at kept inv
    obtain ⟨-, place⟩ := kept
    obtain ⟨-, inv⟩ := inv
    exact exec_letsGo (inv.latch_clear (place ▸ running)) (place ▸ running) e
  · next found =>
    rw [found] at fetched
    cases e
    exact fetched

theorem eq_none_of_modeOf {r : Role} (h : modeOf r = .idle) : r = .none := by
  by_contra served
  exact modeOf_ne_idle served h

/-- Settles O11: the invariant ties mode, role and selection where the call has ended, and every end in IDLE goes through
`toIdle()` or the end of a broadcast. -/
theorem returnToIdleLetsGo : Obligations.ReturnToIdleLetsGo := by
  intro s t h running e ended
  have inv := stepKeepsInvariant s t h e
  have mode : t.record.mode = modeOf t.role := by
    have place := inv.place_ok
    unfold State.PlaceOk at place
    rwa [ended] at place
  refine ⟨mode, fun idle => ?_⟩
  have role := eq_none_of_modeOf (mode.symm.trans idle)
  exact ⟨inv.role_active.mp role, role, step_letsGo h running e ended idle⟩

end Sys2Proof.Machine
end

section
/-! PROOF. `service()` up to its first stop (44_bus_coordinator.md R250 to R255), the end of an episode (R263), and that every
step answers a next state. -/
namespace Sys2Proof.Machine
open Sys2Proof

/-! ### Every step answers (R250) -/

/-- Every condition of 60_exceptions.md R330 is a next state, in the meaning of each instruction. -/
theorem exec_answers (i : Instr) (s : State) : ∃ t, exec i s = .next t := by
  cases i <;> exact ⟨_, rfl⟩

/-- Settles O7: a step runs an instruction, which answers, or is the engine's own work, which is a state. -/
theorem nothingIsFatal : Obligations.NothingIsFatal := by
  intro s
  unfold step
  split
  · exact exec_answers _ _
  · exact ⟨_, rfl⟩

/-! ### service() (R250 to R255) -/

/-- The two samples of the coordinator, RESET and then ATN, let their lines go (40_line_driver.md R123). -/
theorem State.bothSamples_own (s : State) : ((s.afterRead .reset).afterRead .atn).bus.own =
    { s.bus.own with reset := .released, atn := .released } := by
  simp [Lines.set]

/-- Where the engine stands after both samples: RESET was released, so the latch is clear (R253). -/
def State.sampled (s : State) : State := State.afterRead { s.afterRead .reset with resetLatch := false } .atn

theorem State.sampled_own (s : State) : s.sampled.bus.own = { s.bus.own with reset := .released, atn := .released } :=
  s.bothSamples_own

theorem State.sampled_frame (s : State) : { s.sampled with bus := s.bus, resetLatch := s.resetLatch } = s := rfl

/-- The decoder starts with a fresh record, and answers on the lines. -/
theorem State.startDecode_frame (s : State) :
    { s.startDecode with bus := s.bus, record := s.record, ctl := s.ctl } = s := rfl

section
variable {s : State} (hc : s.ctl = .idle) (rst : s.flags.rst = false) (noReset : s.sample .reset = .released)
include hc rst noReset

/-- `service()` that finds no reset answers to ATN. -/
theorem execService_ofNoReset : execService s = .next
    (if (s.afterRead .reset).sample .atn = .released then s.sampled.returnMode s.record.mode else s.sampled.startDecode) := by
  have unseen : ¬ (s.sample .reset = .pulled ∨ (s.afterRead .reset).flags.rst = true) := by
    rintro (pulled | seen)
    · exact absurd (noReset.symm.trans pulled) nofun
    · exact absurd (rst.symm.trans seen) nofun
  unfold execService
  rw [if_neg (not_not.mpr hc)]
  exact congrArg _ (if_neg unseen)

theorem exec_service_ofNoAtn (atn : (s.afterRead .reset).sample .atn = .released) :
    exec .service s = .next (s.sampled.returnMode s.record.mode) :=
  (execService_ofNoReset hc rst noReset).trans (congrArg _ (if_pos atn))

theorem exec_service_ofAtn (atn : (s.afterRead .reset).sample .atn = .pulled) :
    exec .service s = .next s.sampled.startDecode :=
  (execService_ofNoReset hc rst noReset).trans (congrArg _ (if_neg (by rw [atn]; nofun)))

end

/-- Settles O39: after the two samples `service()` returns the mode. -/
theorem serviceWithAtnReleasedOnlyReports : Obligations.ServiceWithAtnReleasedOnlyReports := by
  intro s hc rst noReset atn
  refine ⟨_, exec_service_ofNoAtn hc rst noReset atn, rfl, rfl, s.sampled_own, ?_⟩
  rw [State.returnMode, ← hc]
  rfl

/-- Settles O40: after the two samples the decoder starts. -/
theorem serviceAnswersAtn : Obligations.ServiceAnswersAtn := by
  intro s hc rst noReset atn
  have own : s.sampled.startDecode.bus.own = { s.sampled.bus.own with clk := .released, data := .pulled } := by
    simp [State.startDecode, Lines.set]
  refine ⟨_, exec_service_ofAtn hc rst noReset atn, rfl, rfl, rfl, by rw [own, s.sampled_own], ?_⟩
  calc _ = { s.sampled with bus := s.bus, record := s.record, ctl := s.ctl, resetLatch := s.resetLatch } :=
        congrArg (fun u : State => { u with bus := s.bus, record := s.record, ctl := s.ctl, resetLatch := s.resetLatch })
          s.sampled.startDecode_frame
    _ = s := congrArg (fun u : State => { u with record := s.record, ctl := s.ctl }) s.sampled_frame

/-- A reset that has been served in this assertion cycle is only reported (R253). -/
theorem State.serveReset_ofLatch {s : State} (latch : s.resetLatch = true) : s.serveReset = s.endReset := if_pos latch

/-- Settles O42: the latch keeps the broadcast from starting again, and a running call from starting at all. -/
theorem serviceStopsAtStepOne : Obligations.ServiceStopsAtStepOne := by
  refine ⟨fun s hc latch seen => ⟨(s.afterRead .reset).endReset, ?_, rfl, rfl, ?_, ?_⟩, fun s running => ?_⟩
  · exact (execService_ofReset hc seen).trans (congrArg _ (State.serveReset_ofLatch latch))
  · simp [Lines.set]
  · rw [State.endReset, State.returnMode, ← hc, ← latch]
    rfl
  · exact ⟨s.refuse 0x00#5, congrArg _ (if_pos running), rfl, rfl, rfl, rfl⟩

/-! ### UNLISTEN and UNTALK end the episode (R263) -/

/-- The record is written and the transaction ended, whatever the role. -/
theorem endEpisode_ends (b : Byte) (k : CmdKind) (s : State) :
    let t := endEpisode b k s
    s.EndedIdle { s.record with raw := b, kind := k } t .cmd ∧ t.flags = s.flags ∧ t.cause = s.cause ∧
      t.causeInfo = s.causeInfo ∧ t.bus.own.reset = s.bus.own.reset := by
  have ended := ((s.setCommand b k).setMode .cmd).endTransaction_ended
  exact ⟨(ended.of_same (s := s) rfl rfl rfl rfl rfl rfl rfl rfl).record_congr rfl, rfl, rfl, rfl,
    by simp [endEpisode, State.endTransaction, Lines.set]⟩

theorem State.byPlace_atCommand {s : State} (place : s.ctl = .primary ∨ s.ctl = .secondary) (p r l : State → State) :
    s.byPlace p p r l = p s := by
  obtain hc | hc := place
  · exact State.byPlace_primary hc
  · exact State.byPlace_secondary hc

/-- Settles O28: both bytes mean the same as primary and in place of the secondary. -/
theorem unlistenAndUntalkClearTheSelection : Obligations.UnlistenAndUntalkClearTheSelection := fun s place =>
  ⟨⟨_, congrArg Host.Outcome.next (State.byPlace_atCommand place _ _ _), endEpisode_ends 0x3F#8 .unlisten s⟩,
    ⟨_, congrArg Host.Outcome.next (State.byPlace_atCommand place _ _ _), endEpisode_ends 0x5F#8 .untalk s⟩⟩

end Sys2Proof.Machine
end

section
/-! PROOF. The return of a hook that is not `reset` (44_bus_coordinator.md R264, R265, R270): the recovery of a failure inside
it, and how the listen phase and the listen loop go on. -/
namespace Sys2Proof.Machine
open Sys2Proof

/-! ### The step of a hook's return -/

/-- The device's next move is a return. -/
theorem step_returns {s : State} {hook : Hook} {pd : Bool} {answer : Option (Byte × Bool)} {rest : List DevMove}
    (hc : s.ctl = .hook hook pd) (hd : s.device = .ret answer :: rest) :
    step s = .next (State.hookReturn { s with device := rest } hook pd answer) := by
  simp [step, fetch_hook hc, fetchDevice, hd]

/-- The device has no move left, and the hook returns its default. -/
theorem step_returnsDefault {s : State} {hook : Hook} {pd : Bool} (hc : s.ctl = .hook hook pd) (hd : s.device = []) :
    step s = .next (s.hookReturn hook pd none) := by
  simp [step, fetch_hook hc, fetchDevice, hd]

/-- A hook whose answer means nothing returns, by a move or by default. -/
theorem step_hookReturns {s : State} {hook : Hook} {pd : Bool} (hc : s.ctl = .hook hook pd) (returns : s.HookReturns) :
    ∃ answer, step s = .next (State.hookReturn { s with device := s.device.tail } hook pd answer) := by
  obtain ⟨answer, found, -⟩ := fetch_hookReturn s hook pd hc returns
  exact ⟨answer, by rw [step, found]⟩

/-! ### The tests after a hook -/

theorem State.afterHook_recovers {s : State} (rst : s.flags.rst = false) (err : s.flags.err = true) (goOn : State → State) :
    s.afterHook goOn = s.recover := by
  simp [State.afterHook, rst, err]

theorem State.hookReturn_afterHook {hook : Hook} (other : ∀ d rest, hook ≠ .reset d rest) (s : State) (pd : Bool)
    (answer : Option (Byte × Bool)) : ∃ goOn, s.hookReturn hook pd answer = s.afterHook goOn := by
  cases hook with
  | reset d rest => exact absurd rfl (other d rest)
  | processCommand r ended => rw [State.hookReturn]; exact ⟨_, rfl⟩
  | listenData b eoi => rw [State.hookReturn]; exact ⟨_, rfl⟩
  | talkData => rw [State.hookReturn]; exact ⟨_, rfl⟩

/-- Settles O45: the tests after the hook find the failure before anything else, and the recovery keeps the cause it finds. -/
theorem failureInsideAHookIsRecovered : Obligations.FailureInsideAHookIsRecovered := by
  intro s hook pd hc other returns rst err undo
  obtain ⟨answer, run⟩ := step_hookReturns hc returns
  obtain ⟨goOn, tests⟩ := State.hookReturn_afterHook other { s with device := s.device.tail } pd answer
  rw [run, tests, State.afterHook_recovers (s := { s with device := s.device.tail }) rst err]
  obtain ⟨ended, cause, info⟩ := State.recover_ended { s with device := s.device.tail } rst
    fun h => undo (h.congr rfl rfl rfl rfl)
  exact ⟨_, rfl, cause, info, ended⟩

/-! ### The hook found no reset and no failure -/

section
variable {s : State} (rst : s.flags.rst = false) (err : s.flags.err = false)
include rst err

theorem State.afterHook_goesOn (goOn : State → State) : s.afterHook goOn = goOn s := by
  simp [State.afterHook, rst, err]

theorem State.hookReturn_talkCommand {r : ATNRecord} (mode : r.mode = .talk) (ended pd : Bool)
    (answer : Option (Byte × Bool)) :
    s.hookReturn (.processCommand r ended) pd answer = if pd then s.returnMode .talk else s.talkTop := by
  rw [State.hookReturn, State.afterHook_goesOn rst err, if_pos mode]

/-- UNLISTEN closed the OPEN whose payload the hook was handed. -/
theorem State.hookReturn_closedOpen {r : ATNRecord} (mode : r.mode = .listen) (pd : Bool) (answer : Option (Byte × Bool)) :
    s.hookReturn (.processCommand r true) pd answer = s.endTransaction := by
  rw [State.hookReturn, State.afterHook_goesOn rst err, if_neg (by simp [mode]), if_pos rfl]

theorem State.hookReturn_listenCommand {r : ATNRecord} (mode : r.mode = .listen) (pd : Bool) (answer : Option (Byte × Bool)) :
    s.hookReturn (.processCommand r false) pd answer =
      if r.kind = .data ∧ pd = false then { s with ctl := .listening } else s.returnMode .listen := by
  rw [State.hookReturn, State.afterHook_goesOn rst err, if_neg (by simp [mode]), if_neg nofun]

theorem State.hookReturn_listenData (b : Byte) (eoi pd : Bool) (answer : Option (Byte × Bool)) :
    s.hookReturn (.listenData b eoi) pd answer =
      if eoi = false ∧ pd = false then { s with ctl := .listening } else s.returnMode .listen := by
  rw [State.hookReturn, State.afterHook_goesOn rst err]
  cases eoi <;> cases pd <;> rfl

theorem State.hookReturn_talkData (pd : Bool) (answer : Option (Byte × Bool)) :
    s.hookReturn .talkData pd answer = if pd then s.returnMode .talk else s.talkAnswer answer := by
  rw [State.hookReturn, State.afterHook_goesOn rst err]

end

/-! ### The listening device's hooks (R264, R265) -/

/-- Where the listen loop goes on (`stay`) and where the call returns LISTEN (`leave`), the device stays selected. -/
theorem State.listenGoesOn_orReturns (s : State) (moves : List DevMove) {stay leave : Prop} [Decidable stay]
    (opposite : leave ↔ ¬ stay) {t : State} (ht : t =
      if stay then { s with device := moves, ctl := .listening } else State.returnMode { s with device := moves } .listen) :
    (stay → t.ctl = .listening ∧ t.result = s.result) ∧ (leave → t.ctl = .idle ∧ t.result = .completed (.mode .listen)) ∧
      t.device = moves ∧ { t with ctl := s.ctl, device := s.device, result := s.result } = s := by
  by_cases h : stay
  · rw [if_pos h] at ht
    subst ht
    exact ⟨fun _ => ⟨rfl, rfl⟩, fun left => absurd h (opposite.mp left), rfl, rfl⟩
  · rw [if_neg h] at ht
    subst ht
    exact ⟨fun stays => absurd stays h, fun _ => ⟨rfl, rfl⟩, rfl, rfl⟩

/-- Settles O43: `ended` ends the transaction; else the loop goes on where the hook's own test says so. -/
theorem listenHookReturns : Obligations.ListenHookReturns := by
  intro s pd rst err returns
  refine ⟨fun r hc mode => ?_, fun r hc mode => ?_, fun b e hc => ?_⟩
  · obtain ⟨answer, run⟩ := step_hookReturns hc returns
    rw [run, State.hookReturn_closedOpen (s := { s with device := s.device.tail }) rst err mode]
    exact ⟨_, rfl, State.endTransaction_ended { s with device := s.device.tail }⟩
  · obtain ⟨answer, run⟩ := step_hookReturns hc returns
    rw [run, State.hookReturn_listenCommand (s := { s with device := s.device.tail }) rst err mode]
    exact ⟨_, rfl, s.listenGoesOn_orReturns s.device.tail (by cases pd <;> simp) rfl⟩
  · obtain ⟨answer, run⟩ := step_hookReturns hc returns
    rw [run, State.hookReturn_listenData (s := { s with device := s.device.tail }) rst err]
    exact ⟨_, rfl, s.listenGoesOn_orReturns s.device.tail (by cases e <;> simp) rfl⟩

/-! ### The listen loop (R265) -/

/-- ATN pulled ends the listen loop. -/
theorem step_listenUnderAtn {s : State} (hc : s.ctl = .listening) (noReset : s.sample .reset = .released)
    (atn : (s.afterRead .reset).sample .atn = .pulled) :
    step s = .next (((s.afterRead .reset).afterRead .atn).returnMode .listen) := by
  have found : fetchListen s = .done (((s.afterRead .reset).afterRead .atn).returnMode .listen) := by
    unfold fetchListen
    simp only [noReset, atn, reduceCtorEq, if_false, if_true]
  simp only [step, fetch, hc, found]

theorem step_listenByte {s u : State} {b : Byte} (hc : s.ctl = .listening) (noReset : s.sample .reset = .released)
    (noAtn : (s.afterRead .reset).sample .atn = .released)
    (received : ((s.afterRead .reset).afterRead .atn).receiveByte = (b, u)) (rst : u.flags.rst = false)
    (err : u.flags.err = false) (atn : u.flags.atn = false) :
    step s = .next (u.callHook (.listenData b u.flags.eoi)) := by
  have listen := fetchListen_received noReset noAtn received rst
  rw [if_neg (by simp [err]), if_neg (by simp [atn])] at listen
  simp only [step, fetch, hc, listen]

/-- Settles O36: a byte that was taken goes to the hook, and ATN is tested before the next. -/
theorem listenLoopForwardsEachByte : Obligations.ListenLoopForwardsEachByte :=
  ⟨fun _ _ _ hc noReset noAtn received rst err atn =>
      ⟨_, step_listenByte hc noReset noAtn received rst err atn, rfl, rfl⟩,
    fun s hc noReset atn => ⟨_, step_listenUnderAtn hc noReset atn, rfl, rfl, s.bothSamples_own, rfl⟩⟩

end Sys2Proof.Machine
end

section
/-! PROOF. The talk loop (44_bus_coordinator.md R270, R273, R274): its top, the answers of `talkData`, and the byte that a
listener takes. -/
namespace Sys2Proof.Machine
open Sys2Proof

/-! ### The top of the loop (R270, R273) -/

section
variable {s : State} (noReset : s.sample .reset = .released)
include noReset

theorem State.talkTop_ofNoReset : s.talkTop =
    if (s.afterRead .reset).sample .atn = .pulled then ((s.afterRead .reset).afterRead .atn).returnMode .talk
    else ((s.afterRead .reset).afterRead .atn).callHook .talkData := by
  unfold State.talkTop
  rw [if_neg (by rw [noReset]; nofun)]

theorem State.talkTop_ofAtn (atn : (s.afterRead .reset).sample .atn = .pulled) :
    s.talkTop = ((s.afterRead .reset).afterRead .atn).returnMode .talk :=
  (State.talkTop_ofNoReset noReset).trans (if_pos atn)

theorem State.talkTop_ofNoAtn (atn : (s.afterRead .reset).sample .atn = .released) :
    s.talkTop = ((s.afterRead .reset).afterRead .atn).callHook .talkData :=
  (State.talkTop_ofNoReset noReset).trans (if_neg (by rw [atn]; nofun))

theorem State.talkTop_bus : s.talkTop.bus = (s.bus.afterRead .reset).afterRead .atn := by
  cases atn : (s.afterRead .reset).sample .atn with
  | released => rw [State.talkTop_ofNoAtn noReset atn]; rfl
  | pulled => rw [State.talkTop_ofAtn noReset atn]; rfl

/-- What the top of the talk loop leaves of `s`: the next `talkData`, or under ATN the end of the phase with the device still
selected. -/
theorem State.talkTop_spec :
    ((s.afterRead .reset).sample .atn = .released → s.talkTop.ctl = .hook .talkData false ∧ s.talkTop.result = s.result) ∧
    ((s.afterRead .reset).sample .atn = .pulled → s.talkTop.ctl = .idle ∧ s.talkTop.result = .completed (.mode .talk)) ∧
    s.talkTop.bus.own = { s.bus.own with reset := .released, atn := .released } ∧
    { s.talkTop with bus := s.bus, ctl := s.ctl, result := s.result } = s := by
  have own := s.bothSamples_own
  cases atn : (s.afterRead .reset).sample .atn with
  | released =>
    rw [State.talkTop_ofNoAtn noReset atn]
    exact ⟨fun _ => ⟨rfl, rfl⟩, nofun, own, rfl⟩
  | pulled =>
    rw [State.talkTop_ofAtn noReset atn]
    exact ⟨nofun, fun _ => ⟨rfl, rfl⟩, own, rfl⟩

end

/-! ### A byte for the listener (R274) -/

/-- Which moves the device has left is nothing to `sendByte`. -/
theorem State.sendByte_withDevice {s u : State} {b : Byte} {last ok : Bool} (sent : s.sendByte b last = (ok, u))
    (moves : List DevMove) : State.sendByte { s with device := moves } b last = (ok, { u with device := moves }) := by
  obtain ⟨rfl, rfl⟩ := Prod.mk.inj sent
  simp only [State.sendByte, State.withLink, State.link]

theorem State.frame_ofSent {s u : State} {b : Byte} {last ok : Bool} (sent : s.sendByte b last = (ok, u)) :
    { u with bus := s.bus, flags := s.flags } = s := by
  obtain ⟨-, rfl⟩ := Prod.mk.inj sent
  simp only [State.withLink]

/-- How the loop goes on after the waits of a byte that saw no RESET. -/
def State.afterSent (u : State) (ok last : Bool) : State :=
  if ok = false then u.phaseError .timeout 0x00#8 else if last then (u.release .clk).returnMode .talk else u.talkTop

theorem State.afterSent_last (u : State) : u.afterSent true true = (u.release .clk).returnMode .talk := rfl

theorem State.afterSent_next (u : State) : u.afterSent true false = u.talkTop := rfl

theorem State.talkAnswer_ofSent {s u : State} {b : Byte} {last ok : Bool} (sent : s.sendByte b last = (ok, u))
    (rst : u.flags.rst = false) : s.talkAnswer (some (b, last)) = u.afterSent ok last := by
  simp only [State.talkAnswer, sent, rst, Bool.false_eq_true, if_false, State.afterSent]

theorem step_talkByte {s u : State} {b : Byte} {last ok : Bool} {rest : List DevMove} (rst : s.flags.rst = false)
    (err : s.flags.err = false) (hc : s.ctl = .hook .talkData false) (hd : s.device = .ret (some (b, last)) :: rest)
    (sent : s.sendByte b last = (ok, u)) (rst' : u.flags.rst = false) :
    step s = .next (State.afterSent { u with device := rest } ok last) := by
  rw [step_returns hc hd, State.hookReturn_talkData (s := { s with device := rest }) rst err, if_neg nofun,
    State.talkAnswer_ofSent (State.sendByte_withDevice sent rest) rst']

/-- After a byte that was taken the phase ends at EOI, and else goes on at the top of the loop. -/
theorem State.afterSent_taken {s u : State} {b : Byte} {last : Bool} (sent : s.sendByte b last = (true, u))
    (noReset : last = true ∨ u.sample .reset = .released) (rest : List DevMove) :
    let t := State.afterSent { u with device := rest } true last
    t.device = rest ∧
    (last = true → t.ctl = .idle ∧ t.result = .completed (.mode .talk) ∧
      t.bus.own = { u.bus.own with clk := .released }) ∧
    (last = false → t.bus.own = { u.bus.own with reset := .released, atn := .released }) ∧
    (last = false ∧ (u.afterRead .reset).sample .atn = .pulled → t.ctl = .idle ∧ t.result = .completed (.mode .talk)) ∧
    (last = false ∧ (u.afterRead .reset).sample .atn = .released →
      t.ctl = .hook .talkData false ∧ t.result = s.result) ∧
    t.flags = u.flags ∧
    { t with bus := s.bus, flags := s.flags, ctl := s.ctl, device := s.device, result := s.result } = s := by
  have frame := State.frame_ofSent sent
  have result : u.result = s.result := (congrArg State.result frame :)
  cases last with
  | true =>
    rw [State.afterSent_last]
    have own : (u.release .clk).bus.own = { u.bus.own with clk := .released } := by simp [Lines.set]
    exact ⟨rfl, fun _ => ⟨rfl, rfl, own⟩, nofun, nofun, nofun, rfl,
      congrArg (fun w : State => { w with ctl := s.ctl, device := s.device, result := s.result }) frame⟩
  | false =>
    rw [State.afterSent_next]
    obtain ⟨goesOn, ends, own, top⟩ := State.talkTop_spec (s := { u with device := rest }) (noReset.resolve_left nofun)
    refine ⟨(congrArg State.device top :), nofun, fun _ => own, fun ⟨_, atn⟩ => ends atn,
      fun ⟨_, atn⟩ => result ▸ goesOn atn, (congrArg State.flags top :), ?_⟩
    calc _ = { u with bus := s.bus, flags := s.flags, ctl := s.ctl, device := s.device, result := s.result } :=
          congrArg (fun w : State =>
            { w with bus := s.bus, flags := s.flags, ctl := s.ctl, device := s.device, result := s.result }) top
      _ = s := congrArg (fun w : State => { w with ctl := s.ctl, device := s.device, result := s.result }) frame

/-- What follows a byte adds to its cells on the wire only the release of CLK after the last one (R274). -/
theorem State.afterSent_wire {u : State} {last : Bool} (clk : u.bus.own.clk = .pulled) (data : u.bus.own.data = .released)
    (noReset : last = true ∨ u.sample .reset = .released) {b : Bus} {out : List LineState} {ok : Bool}
    (wrote : Bus.Wrote b u.bus out ok) :
    Bus.Wrote b (u.afterSent true last).bus (out ++ if last = true then [LineState.released] else []) ok := by
  cases last with
  | true =>
    have released := wrote.releaseClk
    rw [if_pos clk, data] at released
    rw [State.afterSent_last]
    exact released
  | false =>
    rw [State.afterSent_next, State.talkTop_bus (noReset.resolve_left nofun), if_neg nofun, List.append_nil]
    exact wrote.afterReset.envMove.drive_other .atn .released nofun nofun

/-- A byte that is not taken is Timeout and recovery (60_exceptions.md R331). -/
theorem State.afterSent_late {s u : State} {b : Byte} {last : Bool} (sent : s.sendByte b last = (false, u))
    (rst : u.flags.rst = false) (undo : ¬ u.UndoSeesReset) (rest : List DevMove) :
    let t := State.afterSent { u with device := rest } false last
    t.cause = .timeout ∧ t.causeInfo = 0x00#8 ∧ State.EndedIdle { u with device := rest } s.record t .error := by
  obtain ⟨ended, cause, info⟩ := State.phaseError_ended { u with device := rest } .timeout 0x00#8 rst
    fun h => undo (h.congr rfl rfl rfl rfl)
  have record : u.record = s.record := (congrArg State.record (State.frame_ofSent sent) :)
  exact ⟨cause, info, record ▸ ended⟩

/-! ### Against a listener that follows the protocol (41_byte_handshake.md R160) -/

/-- The environment's next move puts the lines where it says, wherever they were. -/
theorem Bus.envMove_withExt {b : Bus} (moves : b.env ≠ []) (ls : Lines) : Bus.envMove { b with ext := ls } = b.envMove := by
  unfold Bus.envMove
  cases env : b.env with
  | nil => exact absurd env moves
  | cons m rest => rfl

/-- `sendByte` begins with a release, which uses up a move: so a line that every coming move holds at `x` is held there when the
byte is over. -/
theorem Link.sendByte_holds (p : Params) (v : Byte) (e : Bool) {k : Link} {l : Line} {x : LineState} (moves : k.bus.env ≠ [])
    (held : ∀ m ∈ k.bus.env, m.ext.get l = x) : (Link.sendByte p v e k).2.bus.Holds l x := by
  let j : Link := { k with bus := { k.bus with ext := k.bus.ext.set l x } }
  have start : Link.release { j with flags := j.flags.clearErr } .clk =
      Link.release { k with flags := k.flags.clearErr } .clk :=
    congrArg (fun c : Bus => Link.mk (c.drive .clk .released) k.flags.clearErr) (Bus.envMove_withExt moves _)
  have same : Link.sendByte p v e j = Link.sendByte p v e k := by
    rw [Link.sendByte_eq, Link.sendByte_eq, start]
  rw [← same]
  exact (Link.sendByte_keepsHolds p v e j).1 l x ⟨Lines.get_set_same _ _ _, held⟩

theorem State.sendByte_holds (s : State) (v : Byte) (e : Bool) {l : Line} {x : LineState} (moves : s.bus.env ≠ [])
    (held : ∀ m ∈ s.bus.env, m.ext.get l = x) : (s.sendByte v e).2.bus.Holds l x :=
  Link.sendByte_holds s.cfg v e (k := s.link) moves held

theorem listenerScript_noAtn_noReset (dt : Nat) (e : Bool) :
    ∀ m ∈ listenerScript dt e, m.ext.atn = .released ∧ m.ext.reset = .released := by
  cases e <;> simp [listenerScript, envTo]

/-- A byte that such a listener takes, with ATN and RESET released after it for the top of the loop. -/
theorem State.sendByte_toListener {s : State} {dt : Nat} {b : Byte} {last : Bool} {env : List EnvMove}
    (script : s.bus.env = listenerScript dt last ++ env)
    (quiet : ∀ m ∈ env, m.ext.atn = .released ∧ m.ext.reset = .released) :
    ∃ u, s.sendByte b last = (true, u) ∧ u.flags = { s.flags with err := false } ∧
      u.sample .reset = .released ∧ (u.afterRead .reset).sample .atn = .released := by
  obtain ⟨accepted, flags, -, -⟩ := Link.sendByte_answered s.cfg b last s.link dt env script
  have moves : s.bus.env ≠ [] := by rw [script]; simp [listenerScript]
  have all : ∀ m ∈ s.bus.env, m.ext.atn = .released ∧ m.ext.reset = .released := by
    rw [script]
    exact List.forall_mem_append.mpr ⟨listenerScript_noAtn_noReset dt last, quiet⟩
  have reset := s.sendByte_holds b last (l := .reset) moves fun m hm => (all m hm).2
  have atn := s.sendByte_holds b last (l := .atn) moves fun m hm => (all m hm).1
  refine ⟨(s.sendByte b last).2, Prod.ext accepted rfl, flags, ?_, ?_⟩
  · rw [State.sample_eq]
    exact reset.sampled
  · rw [State.sample_eq, State.afterRead_bus]
    exact (Bus.keepsHolds_afterRead _ .reset _ _ atn).sampled

/-- From the talker's idle state to the talker's idle state: "ready" and the byte's cells stand on the wire. -/
theorem State.sendByte_idleTalker {s u : State} {b : Byte} {last : Bool} (clk : s.bus.own.clk = .pulled)
    (data : s.bus.own.data = .released) (sent : s.sendByte b last = (true, u)) :
    u.bus.own.clk = .pulled ∧ u.bus.own.data = .released ∧
      ∃ ok, Bus.Wrote s.bus u.bus (.released :: cellsOf b) ok := by
  obtain ⟨taken, rfl⟩ := Prod.mk.inj sent
  obtain ⟨clk', data'⟩ := Link.sendByte_sent s.cfg b last s.link taken
  obtain ⟨ok, wrote, -⟩ := Link.sendByte_wire s.cfg b last s.link taken
  rw [State.link_bus, if_pos clk, data] at wrote
  exact ⟨clk', data', ok, wrote⟩

/-! ### The talk loop -/

/-- `talkData` that answers `none`, by a move or by default. -/
theorem step_talkNone {s : State} {pd : Bool} {rest : List DevMove} (rst : s.flags.rst = false) (err : s.flags.err = false)
    (hc : s.ctl = .hook .talkData pd) (hd : s.device = .ret none :: rest ∨ (s.device = [] ∧ rest = [])) :
    step s = .next (if pd then State.returnMode { s with device := rest } .talk
      else State.talkAnswer { s with device := rest } none) := by
  have run : step s = .next (State.hookReturn { s with device := rest } .talkData pd none) := by
    obtain hd | ⟨hd, rfl⟩ := hd
    · exact step_returns hc hd
    · rw [← hd]
      exact step_returnsDefault hc hd
  rw [run, State.hookReturn_talkData (s := { s with device := rest }) rst err]

/-- Settles O44: each answer of `talkData` is followed by the tests of R270, on the bus the byte left. -/
theorem talkLoopAsksTheDevice : Obligations.TalkLoopAsksTheDevice := by
  intro s pd rst err
  refine ⟨fun r hc mode returns noReset => ?_, fun rest hc hd => ?_,
    fun b last rest dt env hc _ hd script quiet clk data => ?_, fun b last rest u hc hd sent rst' noReset => ?_,
    fun answer rest hc hd => ?_, fun b last rest u hc hd sent rst' undo => ?_⟩
  · obtain ⟨answer, run⟩ := step_hookReturns hc returns
    rw [run, State.hookReturn_talkCommand (s := { s with device := s.device.tail }) rst err mode]
    cases pd with
    | true => exact ⟨_, rfl, rfl, fun _ => ⟨rfl, rfl, rfl⟩, nofun, nofun, nofun, rfl⟩
    | false =>
      obtain ⟨goesOn, ends, own, frame⟩ := State.talkTop_spec (s := { s with device := s.device.tail }) noReset
      exact ⟨_, rfl, (congrArg State.device frame :), nofun, fun ⟨_, atn⟩ => goesOn atn, fun ⟨_, atn⟩ => ends atn,
        fun _ => own, congrArg (fun w : State => { w with device := s.device }) frame⟩
  · rw [step_talkNone rst err hc hd]
    cases pd with
    | true => exact ⟨_, rfl, rfl, rfl, rfl, nofun, fun _ => rfl, rfl⟩
    | false =>
      have own : (s.release .clk).bus.own = { s.bus.own with clk := .released } := by simp [Lines.set]
      exact ⟨_, rfl, rfl, rfl, rfl, fun _ => own, nofun, rfl⟩
  · obtain ⟨u, sent, flags, noReset, noAtn⟩ := State.sendByte_toListener (b := b) script quiet
    have noReset' : last = true ∨ u.sample .reset = .released := .inr noReset
    have rst' : u.flags.rst = false := flags ▸ rst
    obtain ⟨moves, ended, next, -, goesOn, flags', frame⟩ := State.afterSent_taken sent noReset' rest
    obtain ⟨clk', data', ok, wrote⟩ := State.sendByte_idleTalker clk data sent
    have wire := (State.afterSent_wire (u := { u with device := rest }) clk' data' noReset' wrote).newEvents.1
    rw [data] at wire
    refine ⟨_, step_talkByte rst err hc hd sent rst', moves, wire, fun isLast => ?_, fun isNot => ?_, ?_, flags'.trans flags,
      frame⟩
    · obtain ⟨place, result, own⟩ := ended isLast
      exact ⟨place, result, by rw [own]⟩
    · obtain ⟨place, result⟩ := goesOn ⟨isNot, noAtn⟩
      exact ⟨place, result, by rw [next isNot]; exact clk'⟩
    · cases last with
      | true => rw [(ended rfl).2.2]; exact data'
      | false => rw [next rfl]; exact data'
  · exact ⟨_, step_talkByte rst err hc hd sent rst', State.afterSent_taken sent noReset rest⟩
  · rw [step_returns hc hd, State.hookReturn_talkData (s := { s with device := rest }) rst err]
    exact ⟨_, rfl, rfl, rfl, rfl, rfl⟩
  · exact ⟨_, step_talkByte rst err hc hd sent rst', State.afterSent_late sent rst' undo rest⟩

end Sys2Proof.Machine
end

section
/-! PROOF. What a device is refused (45_device_contract.md R300; 60_exceptions.md R337, R350), and the data primitives where R300
accepts them. -/
namespace Sys2Proof.Machine
open Sys2Proof

/-! ### What is refused -/

/-- A request whose test for a refusal fires is refused. -/
theorem refused_of_test {p : Prop} [Decidable p] (test : p) (s t : State) (sel : BitVec 5) :
    ∃ u, (Host.Outcome.next (if p then s.refuse sel else t) : Host.Outcome State Fault Refusal) = .next u ∧
      s.Refused u sel (refusalValue sel) :=
  ⟨s.refuse sel, congrArg Host.Outcome.next (if_pos test), s.refuse_refused sel⟩

theorem State.inDeviceHook_eq_false {s : State} (outside : ∀ h pd, s.ctl = .hook h pd → ∃ d rest, h = .reset d rest) :
    s.inDeviceHook = false := by
  cases hc : s.ctl with
  | hook h pd =>
    obtain ⟨d, rest, rfl⟩ := outside h pd hc
    simp [State.inDeviceHook, hc]
  | _ => simp [State.inDeviceHook, hc]

theorem State.acceptsSend_eq_false {s : State}
    (outside : (∀ h pd, s.ctl = .hook h pd → ∃ d rest, h = .reset d rest) ∨ s.role ≠ .talker ∨ s.turn ≠ .turned) :
    s.acceptsSend = false := by
  rcases outside with place | role | turn
  · simp [State.acceptsSend, State.inDeviceHook_eq_false place]
  · simp [State.acceptsSend, role]
  · simp [State.acceptsSend, turn]

theorem State.acceptsReceive_eq_false {s : State}
    (outside : (∀ h pd, s.ctl = .hook h pd → ∃ d rest, h = .reset d rest) ∨ s.role ≠ .listener) :
    s.acceptsReceive = false := by
  rcases outside with place | role
  · simp [State.acceptsReceive, State.inDeviceHook_eq_false place]
  · simp [State.acceptsReceive, role]

theorem State.refuseAccess_refused (s : State) : s.Refused s.refuseAccess 0x00#5 .none := ⟨rfl, rfl, rfl, rfl⟩

/-- Below 0x18 no select code is a data primitive's (30_encoding.md R100). -/
theorem isDataPrimitive_eq_false {sel : BitVec 5} (below : sel.toNat < 0x18) : isDataPrimitive sel = false := by
  simp only [isDataPrimitive, Bool.and_eq_false_iff, decide_eq_false_iff_not]
  omega

/-! ### The accepted primitives -/

section
variable {s : State} {h : Hook} {pd : Bool}

theorem State.InTalkerHook.exec_send (talker : s.InTalkerHook h pd) (b : Byte) :
    exec (.send b) s = .next ((s.sendPrimitive b).2.complete (.bool (s.sendPrimitive b).1)) :=
  congrArg Host.Outcome.next (if_neg (by simp [talker.accepts]))

theorem State.InTalkerHook.exec_sendEOI (talker : s.InTalkerHook h pd) (b : Byte) :
    exec (.sendEOI b) s = .next ((s.sendEoiPrimitive b).2.complete (.bool (s.sendEoiPrimitive b).1)) :=
  congrArg Host.Outcome.next (if_neg (by simp [talker.accepts]))

theorem State.InTalkerHook.exec_sendBuffer (talker : s.InTalkerHook h pd) {buf : List Byte} {n : Nat} (long : n ≤ buf.length) :
    exec (.sendBuffer buf n) s =
      .next ((State.sendAll (buf.take n) s).2.complete (.bool (State.sendAll (buf.take n) s).1)) :=
  congrArg Host.Outcome.next (if_neg (by simp [talker.accepts, long]))

theorem State.InTalkerHook.exec_sendFileNotFound (talker : s.InTalkerHook h pd) : exec .sendFileNotFound s =
    .next ((((s.release .data).release .clk).delay s.cfg.tFnf).setPhaseDone.complete (.bool true)) :=
  congrArg Host.Outcome.next (if_neg (by simp [talker.accepts]))

theorem State.InListenerHook.exec_receive (listener : s.InListenerHook h pd) :
    exec .receive s = .next (s.receivePrimitive.2.complete (.byte s.receivePrimitive.1)) :=
  congrArg Host.Outcome.next (if_neg (by simp [listener.accepts]))

theorem State.InListenerHook.exec_receiveBuffer (listener : s.InListenerHook h pd) {buf : List Byte} {n : Nat}
    (long : n ≤ buf.length) : exec (.receiveBuffer buf n) s = .next ((State.receiveAll n s).2.2.complete
      (.buffer (State.receiveAll n s).1 (bufferAfter buf (State.receiveAll n s).2.1))) :=
  congrArg Host.Outcome.next (if_neg (by simp [listener.accepts, long]))

end

/-- Settles O54: the primitives test for their place and role first, a device's other requests and its writes are refused where
they are fetched, and a read is refused where the payload has no cell. -/
theorem primitiveOutsideItsRoleIsRefused : Obligations.PrimitiveOutsideItsRoleIsRefused := by
  refine ⟨fun s b buf n => ⟨fun outside => ?_, fun outside => ?_⟩, fun s h pd b buf n => ⟨fun talker long => ?_,
    fun listener long => ?_⟩, fun s h pd rest hc => ⟨fun r hd below => ?_, fun i b hd => ?_, fun i hd => ⟨fun beyond => ?_,
    fun inv below => ?_⟩⟩⟩
  · have test := State.acceptsSend_eq_false outside
    exact ⟨refused_of_test test s _ 0x18#5, refused_of_test (.inl test) s _ 0x19#5, refused_of_test test s _ 0x1A#5,
      refused_of_test test s _ 0x1B#5⟩
  · have test := State.acceptsReceive_eq_false outside
    exact ⟨refused_of_test test s _ 0x1C#5, refused_of_test (.inl test) s _ 0x1D#5⟩
  · simp only [List.forall_mem_cons]
    exact ⟨⟨_, _, talker.exec_send b, rfl⟩, ⟨_, _, talker.exec_sendBuffer long, rfl⟩, ⟨_, _, talker.exec_sendEOI b, rfl⟩,
      ⟨_, _, talker.exec_sendFileNotFound, rfl⟩, nofun⟩
  · exact ⟨⟨_, _, listener.exec_receive, rfl⟩, ⟨_, _, _, listener.exec_receiveBuffer long, rfl⟩⟩
  · exact ⟨_, step_deviceRequest_refused s h pd r rest hc hd (isDataPrimitive_eq_false below), State.refuse_refused _ _⟩
  · exact ⟨_, step_writeAux s h pd i b rest hc hd, State.refuseAccess_refused _⟩
  · have noCell : State.deviceRead { s with device := rest } i = State.refuseAccess { s with device := rest } := by
      simp [State.deviceRead, ATNRecord.memRead_of_le s.record i beyond]
    exact ⟨_, step_readAux s h pd i rest hc hd, noCell ▸ State.refuseAccess_refused _⟩
  · obtain ⟨b, cell⟩ := s.record.exists_memRead i inv.aux_cells below
    have read : State.deviceRead { s with device := rest } i = State.complete { s with device := rest } (.byte b) := by
      simp [State.deviceRead, cell]
    exact ⟨_, b, cell, step_readAux s h pd i rest hc hd, by rw [read]; exact ⟨rfl, rfl, rfl⟩⟩

end Sys2Proof.Machine
end

section
/-! PROOF. The send primitives (45_device_contract.md R301 to R304): each is `sendByte`s in a row, of which the first that fails ends
the phase; a listener that follows the protocol takes them all. -/
namespace Sys2Proof.Machine
open Sys2Proof

/-! ### The end of a phase (R301) -/

theorem State.setPhaseDone_ofHook {s : State} {h : Hook} {pd : Bool} (hc : s.ctl = .hook h pd) :
    s.setPhaseDone = { s with ctl := .hook h true } := by
  simp [State.setPhaseDone, hc]

@[simp] theorem State.setPhaseDone_flags (s : State) : s.setPhaseDone.flags = s.flags := by
  unfold State.setPhaseDone; split <;> rfl

@[simp] theorem State.primitiveFailed_flags (s : State) : s.primitiveFailed.flags = s.flags := by
  unfold State.primitiveFailed; split <;> simp

/-- `t` is what a handshake that failed and left the lines and flags `k` makes of `s` in the hook `h`: the phase has ended, with
Timeout unless a reset was seen (60_exceptions.md R331). -/
structure State.HandshakeFailed (h : Hook) (s : State) (k : Link) (t : State) : Prop where
  bus : t.bus = k.bus
  flags : t.flags = k.flags
  ctl : t.ctl = .hook h true
  timeout : k.flags.rst = false → t.cause = .timeout ∧ t.causeInfo = 0x00#8
  reset : k.flags.rst = true → t.cause = s.cause ∧ t.causeInfo = s.causeInfo
  frame : { t with bus := s.bus, flags := s.flags, cause := s.cause, causeInfo := s.causeInfo, ctl := s.ctl } = s

theorem State.primitiveFailed_spec {s : State} {h : Hook} {pd : Bool} (hc : s.ctl = .hook h pd) (k : Link) :
    State.HandshakeFailed h s k (s.withLink k).primitiveFailed := by
  unfold State.primitiveFailed
  rw [State.setPhaseDone_ofHook (s := s.withLink k) hc]
  split
  case isTrue rst => exact ⟨rfl, rfl, rfl, fun clear => absurd (rst.symm.trans clear) nofun, fun _ => ⟨rfl, rfl⟩, rfl⟩
  case isFalse clear => exact ⟨rfl, rfl, rfl, fun _ => ⟨rfl, rfl⟩, fun rst => absurd rst clear, rfl⟩

/-! ### Sending, whatever the environment does -/

/-- Everything a send primitive that ends with `w` can do to `s` in the hook `h`; `last` says that it sends EOI. -/
structure State.SendSpec (h : Hook) (pd last : Bool) (s : State) (w : Bool × State) : Prop where
  sent : w.1 = true → w.2.cause = s.cause ∧ w.2.causeInfo = s.causeInfo ∧ w.2.ctl = .hook h (pd || last)
  failed : w.1 = false → w.2.flags.err = true ∧ w.2.ctl = .hook h true ∧
    (w.2.flags.rst = false → w.2.cause = .timeout ∧ w.2.causeInfo = 0x00#8) ∧
    (w.2.flags.rst = true → w.2.cause = s.cause ∧ w.2.causeInfo = s.causeInfo)
  frame : { w.2 with bus := s.bus, flags := s.flags, cause := s.cause, causeInfo := s.causeInfo, ctl := s.ctl } = s

theorem State.SendSpec.ofFailed {s : State} {h : Hook} {pd last : Bool} (hc : s.ctl = .hook h pd) {k : Link}
    (err : k.flags.err = true) : State.SendSpec h pd last s (false, (s.withLink k).primitiveFailed) := by
  obtain ⟨-, flags, ctl, timeout, reset, frame⟩ := State.primitiveFailed_spec hc k
  exact ⟨nofun, fun _ => ⟨flags ▸ err, ctl, flags ▸ timeout, flags ▸ reset⟩, frame⟩

/-- A primitive goes on after a byte that was sent without EOI. -/
theorem State.SendSpec.andThen {s : State} {h : Hook} {pd last : Bool} {w w' : Bool × State}
    (first : State.SendSpec h pd false s w) (ok : w.1 = true) (next : State.SendSpec h pd last w.2 w') :
    State.SendSpec h pd last s w' := by
  obtain ⟨cause, info, ctl⟩ := first.sent ok
  refine ⟨cause ▸ info ▸ next.sent, cause ▸ info ▸ next.failed, ?_⟩
  calc _ = { w.2 with bus := s.bus, flags := s.flags, cause := s.cause, causeInfo := s.causeInfo, ctl := s.ctl } :=
        congrArg (fun u : State =>
          { u with bus := s.bus, flags := s.flags, cause := s.cause, causeInfo := s.causeInfo, ctl := s.ctl }) next.frame
    _ = s := first.frame

section
variable {s : State} {h : Hook} {pd : Bool} (hc : s.ctl = .hook h pd)
include hc

theorem State.sendPrimitive_spec (b : Byte) : State.SendSpec h pd false s (s.sendPrimitive b) := by
  have told := Link.sendByte_err s.cfg b false s.link
  unfold State.sendPrimitive State.sendByte
  generalize Link.sendByte s.cfg b false s.link = w at told ⊢
  simp only
  split
  case isTrue failed => exact .ofFailed hc (by rw [told, failed]; rfl)
  case isFalse => exact ⟨fun _ => ⟨rfl, rfl, by rw [Bool.or_false]; exact hc⟩, nofun, rfl⟩

theorem State.sendEoiPrimitive_spec (b : Byte) : State.SendSpec h pd true s (s.sendEoiPrimitive b) := by
  have told := Link.sendByte_err s.cfg b true s.link
  unfold State.sendEoiPrimitive State.sendByte
  generalize Link.sendByte s.cfg b true s.link = w at told ⊢
  simp only
  split
  case isTrue failed => exact .ofFailed hc (by rw [told, failed]; rfl)
  case isFalse =>
    rw [State.setPhaseDone_ofHook (s := s.withLink w.2) hc]
    exact ⟨fun _ => ⟨rfl, rfl, by rw [Bool.or_true]; rfl⟩, nofun, rfl⟩

end

theorem State.sendAll_spec {h : Hook} {pd : Bool} (bytes : List Byte) : ∀ {s : State}, s.ctl = .hook h pd →
    State.SendSpec h pd false s (State.sendAll bytes s) := by
  induction bytes with
  | nil => exact fun hc => ⟨fun _ => ⟨rfl, rfl, by rw [Bool.or_false]; exact hc⟩, nofun, rfl⟩
  | cons b bytes ih =>
    intro s hc
    have first := State.sendPrimitive_spec hc b
    simp only [State.sendAll]
    generalize s.sendPrimitive b = w at first ⊢
    split
    case isTrue failed => exact ⟨nofun, fun _ => first.failed failed, first.frame⟩
    case isFalse sent =>
      have ok : w.1 = true := Bool.eq_true_of_not_eq_false sent
      exact first.andThen ok (ih (by rw [(first.sent ok).2.2, Bool.or_false]))

/-- Settles O57: each primitive is `sendByte`s in a row, and the first that fails ends the phase. -/
theorem sendFailureEndsThePhase : Obligations.SendFailureEndsThePhase := by
  intro s h pd i b buf n talker which
  obtain ⟨last, w, run, isLast, spec⟩ : ∃ (last : Bool) (w : Bool × State), exec i s = .next (w.2.complete (.bool w.1)) ∧
      decide (i = .sendEOI b) = last ∧ State.SendSpec h pd last s w := by
    rcases which with rfl | ⟨rfl, long⟩ | rfl
    · exact ⟨false, _, talker.exec_send b, by simp, State.sendPrimitive_spec talker.ctl b⟩
    · exact ⟨false, _, talker.exec_sendBuffer long, by simp, State.sendAll_spec _ talker.ctl⟩
    · exact ⟨true, _, talker.exec_sendEOI b, by simp, State.sendEoiPrimitive_spec talker.ctl b⟩
  exact ⟨_, w.1, run, rfl, isLast ▸ spec.sent, spec.failed, congrArg (fun u : State => { u with result := s.result }) spec.frame⟩

/-! ### Sending to a listener that follows the protocol (41_byte_handshake.md R160) -/

theorem dataAtClkRelease_append_list (xs ys : List WireEvent) : ∀ d : LineState, dataAtClkRelease d (xs ++ ys) =
    dataAtClkRelease d xs ++ dataAtClkRelease (xs.foldl (fun a e => if e.line = .data then e.state else a) d) ys := by
  induction xs with
  | nil => exact fun d => rfl
  | cons x xs ih =>
    intro d
    simp only [List.cons_append, dataAtClkRelease, List.foldl_cons]
    split
    case isTrue onData => exact ih _
    case isFalse other =>
      split
      · rw [ih, List.cons_append]
      · exact ih _

/-- What was written from `a` to `b` and then from `b` to `c`. -/
theorem Bus.Wrote.trans {a b c : Bus} {out out' : List LineState} {ok ok' : Bool} (first : Bus.Wrote a b out ok)
    (next : Bus.Wrote b c out' ok') : ∃ ok'', Bus.Wrote a c (out ++ out') ok'' := by
  obtain ⟨xs, wire, levels, data, clk, -⟩ := first.ex
  obtain ⟨ys, wire', levels', data', clk', -⟩ := next.ex
  refine ⟨_, ⟨xs ++ ys, ?_, ?_, ?_, ?_, rfl⟩⟩
  · rw [wire', wire, List.reverse_append, List.append_assoc]
  · rw [dataAtClkRelease_append_list, ← data, levels, levels']
  · rw [List.foldl_append, ← data, data']
  · rw [List.foldl_append, ← clk, clk']

/-- From `s`, the talker's idle state, to `u`, that state again, DATA was `out` at the releases of CLK, and `rest` is what the
environment has left to do. -/
structure State.BytesSent (s u : State) (out : List LineState) (rest : List EnvMove) : Prop where
  env : u.bus.env = rest
  clk : u.bus.own.clk = .pulled
  data : u.bus.own.data = .released
  wrote : ∃ ok, Bus.Wrote s.bus u.bus out ok
  flags : { u.flags with err := s.flags.err } = s.flags
  frame : { u with bus := s.bus, flags := s.flags } = s

theorem State.BytesSent.trans {s u v : State} {out out' : List LineState} {rest rest' : List EnvMove}
    (first : s.BytesSent u out rest) (next : u.BytesSent v out' rest') : s.BytesSent v (out ++ out') rest' := by
  obtain ⟨ok, wrote⟩ := first.wrote
  obtain ⟨ok', wrote'⟩ := next.wrote
  refine ⟨next.env, next.clk, next.data, wrote.trans wrote', ?_, ?_⟩
  · calc _ = { u.flags with err := s.flags.err } := congrArg (fun f : Flags => { f with err := s.flags.err }) next.flags
      _ = s.flags := first.flags
  · calc _ = { u with bus := s.bus, flags := s.flags } :=
          congrArg (fun w : State => { w with bus := s.bus, flags := s.flags }) next.frame
      _ = s := first.frame

/-- A byte such a listener takes, from the talker's idle state. -/
theorem State.sendByte_delivered {s : State} (clk : s.bus.own.clk = .pulled) (data : s.bus.own.data = .released) {dt : Nat}
    {last : Bool} {rest : List EnvMove} (script : s.bus.env = listenerScript dt last ++ rest) (b : Byte) :
    ∃ u, s.sendByte b last = (true, u) ∧ u.flags = { s.flags with err := false } ∧
      s.BytesSent u (.released :: cellsOf b) rest := by
  obtain ⟨accepted, flags, -, env⟩ := Link.sendByte_answered s.cfg b last s.link dt rest script
  have sent : s.sendByte b last = (true, (s.sendByte b last).2) := Prod.ext accepted rfl
  obtain ⟨clk', data', wrote⟩ := State.sendByte_idleTalker clk data sent
  exact ⟨_, sent, flags, env, clk', data', wrote, congrArg (fun f : Flags => { f with err := s.flags.err }) flags,
    State.frame_ofSent sent⟩

theorem State.sendPrimitive_ofSent {s u : State} {b : Byte} (sent : s.sendByte b false = (true, u)) :
    s.sendPrimitive b = (true, u) := by
  simp [State.sendPrimitive, sent]

theorem State.sendEoiPrimitive_ofSent {s u : State} {b : Byte} (sent : s.sendByte b true = (true, u)) :
    s.sendEoiPrimitive b = (true, u.setPhaseDone.release .clk) := by
  simp [State.sendEoiPrimitive, sent]

/-- Bytes such a listener takes, one after the other. -/
theorem State.sendAll_delivered {dt : Nat} {rest : List EnvMove} (bytes : List Byte) : ∀ {s : State},
    s.bus.own.clk = .pulled → s.bus.own.data = .released →
    s.bus.env = (List.replicate bytes.length (listenerScript dt false)).flatten ++ rest →
    ∃ u, State.sendAll bytes s = (true, u) ∧ s.BytesSent u (bytes.flatMap fun b => .released :: cellsOf b) rest := by
  induction bytes with
  | nil => exact fun {s} clk data script => ⟨s, rfl, script, clk, data, ⟨true, .refl _⟩, rfl, rfl⟩
  | cons b bytes ih =>
    intro s clk data script
    rw [List.length_cons, List.replicate_succ, List.flatten_cons, List.append_assoc] at script
    obtain ⟨m, sent, -, first⟩ := State.sendByte_delivered clk data script b
    obtain ⟨u, all, next⟩ := ih first.clk first.data first.env
    exact ⟨u, by simp [State.sendAll, State.sendPrimitive_ofSent sent, all], first.trans next⟩

/-- Settles O55: the byte of a `sendByte` that was taken stands on the wire; `sendEOI` adds the release of CLK. -/
theorem sendDeliversTheByte : Obligations.SendDeliversTheByte := by
  intro s h pd b dt rest talker clk data
  refine ⟨fun script => ?_, fun script => ?_⟩
  · obtain ⟨u, sent, flags, env, clk', data', ⟨ok, wrote⟩, -, frame⟩ := State.sendByte_delivered clk data script b
    have wire := wrote.newEvents.1
    rw [data] at wire
    rw [talker.exec_send, State.sendPrimitive_ofSent sent]
    exact ⟨_, rfl, rfl, flags, wire, clk', data', env, congrArg (fun w : State => { w with result := s.result }) frame⟩
  · obtain ⟨u, sent, flags, env, clk', data', ⟨ok, wrote⟩, -, frame⟩ := State.sendByte_delivered clk data script b
    have place : u.ctl = .hook h pd := (congrArg State.ctl frame).trans talker.ctl
    have wire := wrote.releaseClk.newEvents.1
    rw [if_pos clk', data, data'] at wire
    rw [talker.exec_sendEOI, State.sendEoiPrimitive_ofSent sent, State.setPhaseDone_ofHook place]
    exact ⟨_, rfl, rfl, flags, wire, by simp [Lines.set], by simpa [Lines.set] using data', rfl,
      congrArg (fun w : State => { w with ctl := s.ctl, result := s.result }) frame⟩

/-- Settles O56, by induction on the bytes. -/
theorem sendBufferSendsTheBytesInOrder : Obligations.SendBufferSendsTheBytesInOrder := by
  intro s h pd buf n dt rest talker long clk data script
  have length : (buf.take n).length = n := List.length_take_of_le long
  obtain ⟨u, sent, env, clk', data', ⟨ok, wrote⟩, flags, frame⟩ :=
    State.sendAll_delivered (buf.take n) clk data (length.symm ▸ script)
  have wire := wrote.newEvents.1
  rw [data] at wire
  rw [talker.exec_sendBuffer long, sent]
  exact ⟨_, rfl, rfl, wire, clk', data', env, (congrArg Flags.rst flags :), (congrArg Flags.eoi flags :),
    (congrArg Flags.atn flags :), congrArg (fun w : State => { w with result := s.result }) frame⟩

end Sys2Proof.Machine
end

section
/-! PROOF. The receive primitives (45_device_contract.md R306, R307): each is `receiveByte`s in a row, up to the last one that is wanted,
the one with EOI or the one that fails. -/
namespace Sys2Proof.Machine
open Sys2Proof

/-! ### One byte received (R306) -/

section
variable {s u : State} {b : Byte}

theorem State.eq_withLink_ofReceived (received : s.receiveByte = (b, u)) : u = s.withLink u.link := by
  obtain ⟨-, rfl⟩ := Prod.mk.inj received
  rfl

theorem State.receivePrimitive_ofErr (received : s.receiveByte = (b, u)) (err : u.flags.err = true) :
    s.receivePrimitive = (b, u.primitiveFailed) := by
  simp [State.receivePrimitive, received, err]

theorem State.receivePrimitive_ofAtn (received : s.receiveByte = (b, u)) (err : u.flags.err = false)
    (atn : u.flags.atn = true) : s.receivePrimitive = (b, u.setErr.setPhaseDone.raise .malformed b) := by
  simp [State.receivePrimitive, received, err, atn]

theorem State.receivePrimitive_ofTaken (received : s.receiveByte = (b, u)) (err : u.flags.err = false)
    (atn : u.flags.atn = false) : s.receivePrimitive = (b, if u.flags.eoi then u.setPhaseDone else u) := by
  cases eoi : u.flags.eoi <;> simp [State.receivePrimitive, received, err, atn, eoi]

/-- A byte that is taken with neither error nor EOI is a `receiveByte` and nothing more. -/
theorem State.receivePrimitive_eq_receiveByte (err : s.receivePrimitive.2.flags.err = false)
    (eoi : s.receivePrimitive.2.flags.eoi = false) : s.receivePrimitive = s.receiveByte := by
  generalize received : s.receiveByte = r
  obtain ⟨b, u⟩ := r
  cases err' : u.flags.err with
  | true =>
    rw [State.receivePrimitive_ofErr received err', State.primitiveFailed_flags, err'] at err
    nomatch err
  | false =>
    cases atn : u.flags.atn with
    | true =>
      rw [State.receivePrimitive_ofAtn received err' atn, State.raise_flags, State.setPhaseDone_flags] at err
      nomatch err
    | false =>
      rw [State.receivePrimitive_ofTaken received err' atn] at eoi ⊢
      cases eoi' : u.flags.eoi with
      | true => simp [eoi'] at eoi
      | false => simp

end

/-! ### Bytes received one after the other (R307) -/

/-- Bytes taken in a row leave nothing but other lines and flags. -/
theorem State.Receives.eq_withLink (got : List Byte) : ∀ {s m : State}, s.Receives got m → m = s.withLink m.link := by
  induction got with
  | nil =>
    rintro s m rfl
    rfl
  | cons b got ih =>
    rintro s m ⟨-, err, eoi, next⟩
    rw [State.receivePrimitive_eq_receiveByte err eoi] at next
    exact ih (s := s.withLink s.receiveByte.2.link) next

theorem State.receiveAll_ofReceives (n : Nat) (got : List Byte) : ∀ {s m : State}, s.Receives got m →
    State.receiveAll (got.length + n) s =
      ((State.receiveAll n m).1, got ++ (State.receiveAll n m).2.1, (State.receiveAll n m).2.2) := by
  induction got with
  | nil =>
    rintro s m rfl
    rw [List.length_nil, Nat.zero_add, List.nil_append]
  | cons b got ih =>
    rintro s m ⟨value, err, eoi, next⟩
    rw [List.length_cons, Nat.add_right_comm]
    simp [State.receiveAll, err, eoi, value, ih next]

theorem State.receiveAll_ofErr {s t : State} {b : Byte} (failed : s.receivePrimitive = (b, t)) (err : t.flags.err = true)
    (left : Nat) : State.receiveAll (left + 1) s = (false, [], t) := by
  simp [State.receiveAll, failed, err]

/-- The last byte: the buffer is full, or the data ends early. -/
theorem State.receiveAll_ofLast {s t : State} {b : Byte} (taken : s.receivePrimitive = (b, t)) (err : t.flags.err = false)
    {left : Nat} (last : left = 0 ∨ t.flags.eoi = true) : State.receiveAll (left + 1) s = (left == 0, [b], t) := by
  cases left with
  | zero => simp [State.receiveAll, taken, err]
  | succ left => simp [State.receiveAll, taken, err, last.resolve_left (Nat.succ_ne_zero left)]

/-! ### Receiving from a talker that follows the protocol (41_byte_handshake.md R150) -/

theorem State.receiveByte_talker {s : State} {dt : Nat} {e : Bool} {b : Byte} {rest : List EnvMove}
    (script : s.bus.env = talkerScript .released dt e b ++ rest) (long : e = true → s.cfg.tEoi ≤ 2 * dt) :
    ∃ k : Link, s.receiveByte = (b, s.withLink k) ∧
      k.flags = { eoi := e, atn := false, err := false, rst := s.flags.rst } ∧ k.bus.own.data = .pulled ∧ k.bus.env = rest := by
  obtain ⟨k, received, flags, -, data, env⟩ :=
    Link.receiveByte_talker s.cfg s.link .released dt 0 e (cellsOf b) rest script (cellsOf_length b) long (.inl rfl)
  rw [foldl_insertBit_cellsOf] at received
  exact ⟨k, by simp [State.receiveByte, received], flags, data, env⟩

/-- The primitive that takes such a byte ends the phase where it comes with EOI. -/
theorem State.receivePrimitive_talker {s : State} {h : Hook} {pd : Bool} (hc : s.ctl = .hook h pd) {dt : Nat} {e : Bool}
    {b : Byte} {rest : List EnvMove} (script : s.bus.env = talkerScript .released dt e b ++ rest)
    (long : e = true → s.cfg.tEoi ≤ 2 * dt) : ∃ k : Link,
      s.receivePrimitive = (b, { s.withLink k with ctl := .hook h (pd || e) }) ∧
      k.flags = { eoi := e, atn := false, err := false, rst := s.flags.rst } ∧ k.bus.own.data = .pulled ∧ k.bus.env = rest := by
  obtain ⟨k, received, flags, data, env⟩ := State.receiveByte_talker script long
  refine ⟨k, ?_, flags, data, env⟩
  rw [State.receivePrimitive_ofTaken received (congrArg Flags.err flags) (congrArg Flags.atn flags), State.withLink_flags, flags]
  cases e with
  | true => rw [if_pos rfl, State.setPhaseDone_ofHook (s := s.withLink k) hc, Bool.or_true]
  | false =>
    rw [if_neg nofun, Bool.or_false, ← hc]
    rfl

theorem State.receives_talker {dt : Nat} {rest : List EnvMove} (got : List Byte) : ∀ {s : State},
    s.bus.env = got.flatMap (talkerScript .released dt false) ++ rest → ∃ m, s.Receives got m ∧ m.bus.env = rest := by
  induction got with
  | nil => exact fun {s} script => ⟨s, rfl, script⟩
  | cons b got ih =>
    intro s script
    rw [List.flatMap_cons, List.append_assoc] at script
    obtain ⟨k, received, flags, -, env⟩ := State.receiveByte_talker script nofun
    have taken := State.receivePrimitive_ofTaken received (congrArg Flags.err flags) (congrArg Flags.atn flags)
    rw [State.withLink_flags, flags, if_neg nofun] at taken
    obtain ⟨m, next, last⟩ := ih (s := s.withLink k) env
    refine ⟨m, ?_, last⟩
    unfold State.Receives
    rw [taken]
    exact ⟨rfl, congrArg Flags.err flags, congrArg Flags.eoi flags, next⟩

/-- Settles O59: bytes taken in a row, and then the last one, which fills the buffer or comes with EOI. -/
theorem receiveStoresTheBytes : Obligations.ReceiveStoresTheBytes := by
  intro s h pd dt rest listener
  refine ⟨fun b e script long => ?_, fun buf got last n e fits room early long script => ?_, fun buf => ?_⟩
  · obtain ⟨k, taken, flags, data, env⟩ := State.receivePrimitive_talker listener.ctl script long
    rw [listener.exec_receive, taken]
    exact ⟨_, rfl, rfl, flags, rfl, data, env, rfl⟩
  · obtain ⟨left, rfl⟩ : ∃ left, n = got.length + (left + 1) := ⟨n - (got.length + 1), by omega⟩
    rw [List.append_assoc] at script
    obtain ⟨m, received, script'⟩ := State.receives_talker got script
    have link := State.Receives.eq_withLink got received
    have place : m.ctl = .hook h pd := by rw [link]; exact listener.ctl
    have params : m.cfg = s.cfg := by rw [link]; rfl
    obtain ⟨k, taken, flags, -⟩ := State.receivePrimitive_talker place script' (params ▸ long)
    have last : left = 0 ∨ e = true := (Nat.eq_zero_or_pos left).imp_right fun more => early (by omega)
    have all := State.receiveAll_ofLast taken (congrArg Flags.err flags) (last.imp_right (congrArg Flags.eoi flags).trans)
    rw [listener.exec_receiveBuffer fits, State.receiveAll_ofReceives _ got received, all]
    refine ⟨_, rfl, ?_, congrArg Flags.eoi flags, congrArg Flags.err flags, rfl, ?_⟩
    · simp [bufferAfter, State.complete]
    · rw [link]; rfl
  · rw [listener.exec_receiveBuffer (Nat.zero_le _)]
    exact ⟨_, rfl, rfl, rfl⟩

/-! ### Receiving that fails -/

/-- `t` is what a receive primitive makes of `s` in the hook `h` when its handshake left the lines and flags `k` with an error or
the byte `b` under ATN: the phase has ended, with Timeout, unless a reset was seen, or Malformed (R306; 60_exceptions.md R331,
R332). -/
structure State.ReceiveFailed (h : Hook) (s : State) (k : Link) (b : Byte) (t : State) : Prop where
  bus : t.bus = k.bus
  flags : t.flags = { k.flags with err := true }
  ctl : t.ctl = .hook h true
  timeout : k.flags.err = true → k.flags.rst = false → t.cause = .timeout ∧ t.causeInfo = 0x00#8
  reset : k.flags.err = true → k.flags.rst = true → t.cause = s.cause ∧ t.causeInfo = s.causeInfo
  malformed : k.flags.err = false → t.cause = .malformed ∧ t.causeInfo = b
  frame : { t with bus := s.bus, flags := s.flags, cause := s.cause, causeInfo := s.causeInfo, ctl := s.ctl } = s

/-- A byte that fails after bytes that `s` took in a row. -/
theorem State.receivePrimitive_ofBad {s m u : State} {h : Hook} {pd : Bool} {got : List Byte} {b : Byte}
    (hc : s.ctl = .hook h pd) (received : s.Receives got m) (byte : m.receiveByte = (b, u))
    (bad : u.flags.err = true ∨ u.flags.atn = true) :
    ∃ t, m.receivePrimitive = (b, t) ∧ State.ReceiveFailed h s u.link b t := by
  have link : u = s.withLink u.link := by
    rw [State.Receives.eq_withLink got received] at byte
    exact State.eq_withLink_ofReceived (s := s.withLink m.link) byte
  cases err : u.flags.err with
  | true =>
    refine ⟨_, State.receivePrimitive_ofErr byte err, ?_⟩
    rw [link]
    obtain ⟨bus, flags, ctl, timeout, reset, frame⟩ := State.primitiveFailed_spec hc u.link
    exact ⟨bus, flags.trans (congrArg (fun e => { u.flags with err := e }) err), ctl, fun _ => timeout, fun _ => reset,
      fun clear => absurd (err.symm.trans clear) nofun, frame⟩
  | false =>
    have atn : u.flags.atn = true := bad.resolve_left (by rw [err]; nofun)
    have notErr : ¬ u.link.flags.err = true := by rw [State.link_flags, err]; nofun
    refine ⟨_, State.receivePrimitive_ofAtn byte err atn, ?_⟩
    rw [link, State.setPhaseDone_ofHook (s := (s.withLink u.link).setErr) hc]
    exact ⟨rfl, rfl, rfl, fun err => absurd err notErr, fun err => absurd err notErr, fun _ => ⟨rfl, rfl⟩, rfl⟩

/-- Settles O60: after the bytes taken in a row, a wait that failed or a byte under ATN. -/
theorem receiveFailureEndsThePhase : Obligations.ReceiveFailureEndsThePhase := by
  intro s m u h pd got b listener received byte bad i v which
  obtain ⟨t, failed, spec⟩ := State.receivePrimitive_ofBad listener.ctl received byte bad
  have run : exec i s = .next (t.complete v) := by
    have err : t.flags.err = true := congrArg Flags.err spec.flags
    rcases which with ⟨rfl, rfl, rfl⟩ | ⟨buf, n, rfl, more, fits, rfl⟩
    · obtain rfl : m = s := received
      rw [listener.exec_receive, failed]
    · obtain ⟨left, rfl⟩ : ∃ left, n = got.length + (left + 1) := ⟨n - (got.length + 1), by omega⟩
      rw [listener.exec_receiveBuffer fits, State.receiveAll_ofReceives _ got received, State.receiveAll_ofErr failed err,
        List.append_nil]
      rfl
  exact ⟨_, run, rfl, spec.flags, spec.ctl, spec.timeout, spec.reset, spec.malformed, spec.bus,
    congrArg (fun w : State => { w with result := s.result }) spec.frame⟩

end Sys2Proof.Machine
end

section
/-! PROOF. Bytes for a device that is not there, and a second reversal (60_exceptions.md R335, R338): the first ends the episode
with no condition, the second is ProtocolError before any line is touched. -/
namespace Sys2Proof.Machine
open Sys2Proof

/-! ### LISTEN and TALK of an absent or disabled device (R338; 44_bus_coordinator.md R260, R262) -/

theorem State.not_selectable {s : State} {id : DeviceId} (absent : slotById s.slots id = none ∨ maskHas s.enabled id = false) :
    ¬ s.selectable id = true := by
  obtain unregistered | disabled := absent
  · simp [State.selectable, unregistered]
  · simp [State.selectable, disabled]

/-- Either byte, once recorded, is an episode for nobody. -/
theorem addressDevice_ignores {s : State} {id : DeviceId}
    (absent : slotById s.slots id = none ∨ maskHas s.enabled id = false) (b : Byte) (k : CmdKind) (r : Role) (m : ATNMode) :
    let t := addressDevice id r m ((s.setCommand b k).setDeviceId id)
    s.EndedIdle { s.record with raw := b, kind := k, deviceId := id } t .idle ∧
      t.flags = s.flags ∧ t.cause = s.cause ∧ t.causeInfo = s.causeInfo := by
  have ignored : addressDevice id r m ((s.setCommand b k).setDeviceId id) =
      State.notAddressed { s with record := { s.record with raw := b, kind := k, deviceId := id } } :=
    if_neg (State.not_selectable absent)
  obtain ⟨ended, flags, cause, info, -⟩ := s.notAddressed_ofRecord { s.record with raw := b, kind := k, deviceId := id }
  rw [ignored]
  exact ⟨ended, flags, cause, info⟩

/-- Settles O27: neither byte selects, and a byte that selects nobody is not addressed. -/
theorem unaddressedDeviceIsIgnored : Obligations.UnaddressedDeviceIsIgnored := fun _ id hc absent =>
  ⟨⟨_, exec_listen_primary hc id, addressDevice_ignores absent _ _ _ _⟩,
    ⟨_, exec_talk_primary hc id, addressDevice_ignores absent _ _ _ _⟩⟩

/-! ### A second reversal (R335) -/

theorem State.undoTurnAround_ofUnturned {s : State} (turn : s.turn ≠ .turned) :
    s.undoTurnAround = (false, s.clearErr.turnError) := if_pos turn

/-- A talk phase of a transaction that has already turned recovers, with the ProtocolError of the turnaround. -/
theorem State.talkPhase_ofReversed {s u : State} (seen : s.timeoutWait .atn .released = (true, u)) (turn : u.turn ≠ .notTurned)
    (rst : u.flags.rst = false) : s.talkPhase = u.clearErr.turnError.recover := by
  have noReset : u.clearErr.turnError.flags.rst = false := rst
  have turned : u.clearErr.turnError.turn ≠ .notTurned := turn
  simp [State.talkPhase, seen, State.turnAround_ofReversed turn, noReset, turned]

/-- A recovery after waits that left `u`, seen from the state `s` before them; the record `r` was written meanwhile. -/
theorem State.recover_ends {s u : State} (kept : State.HandshakeSpec s u) (flags : u.flags = s.flags.setErr)
    (rst : u.flags.rst = false) (undo : ¬ u.UndoSeesReset) (r : ATNRecord) :
    let t := State.recover { u with record := r }
    t.cause = u.cause ∧ t.causeInfo = u.causeInfo ∧ State.EndedIdle { s with bus := u.bus } r t .error := by
  obtain ⟨ended, cause, info⟩ := State.recover_ended { u with record := r } rst fun h => undo h.of_record
  have same : State.EndedIdle { s with bus := u.bus, flags := s.flags.setErr } r _ .error :=
    ended.of_same rfl flags kept.cfg kept.slots kept.enabled kept.resetLatch kept.host kept.device
  exact ⟨cause, info, { same with }⟩

theorem IsSecondary.exec_reversed {s u : State} {ch : Channel} {i : Instr} {b : Byte} {k : CmdKind} (h : IsSecondary ch i b k)
    (place : (s.ctl = .secondary ∧ s.record.mode = .talk) ∨ (s.ctl = .primary ∧ s.role = .talker))
    (seen : s.timeoutWait .atn .released = (true, u)) (turn : u.turn ≠ .notTurned) (rst : u.flags.rst = false) :
    exec i s = .next (State.recover { u.clearErr.turnError with record := s.record.withSecondary .talk b k ch }) := by
  have recorded := State.timeoutWait_withRecord seen (s.record.withSecondary .talk b k ch)
  rw [h.exec_talk place, State.talkPhase_ofReversed recorded turn rst]
  rfl

/-- Settles O25: each turnaround tests `turn` before it acts, and the talk phase's recovery keeps the cause it finds. -/
theorem secondReversalIsProtocolError : Obligations.SecondReversalIsProtocolError := by
  refine ⟨fun i s reversal => ?_, fun s u ch i b k place h seen turn rst undo => ?_⟩
  · obtain ⟨rfl, turn⟩ | ⟨rfl, turn⟩ := reversal
    · rw [exec_turnAround, State.turnAround_ofReversed turn]
      exact ⟨_, rfl, rfl, rfl, rfl, rfl, rfl, rfl⟩
    · rw [exec_undoTurnAround, State.undoTurnAround_ofUnturned turn]
      exact ⟨_, rfl, rfl, rfl, rfl, rfl, rfl, rfl⟩
  · have sameTurn := State.turn_ofWait seen
    have turn' : u.turn ≠ .notTurned := sameTurn ▸ turn
    rw [State.turnAround_ofReversed turn'] at rst undo
    have kept := ((State.handshake_ofWait seen (by simp)).trans u.clearErr_handshake).trans u.clearErr.turnError_handshake
    have flags : u.clearErr.turnError.flags = s.flags.setErr :=
      congrArg (fun f : Flags => f.clearErr.setErr) (State.flags_ofSeen seen)
    obtain ⟨cause, info, ended⟩ := State.recover_ends kept flags rst undo (s.record.withSecondary .talk b k ch)
    exact ⟨_, IsSecondary.exec_reversed h place seen turn' rst, cause, sameTurn ▸ info, ended.record_congr rfl⟩

end Sys2Proof.Machine
end

section
/-! PROOF. RESET aborts whatever runs (60_exceptions.md R334, R341): wherever a running call samples it, finds it seen inside a
wait, or meets it while it recovers, the call is still the one that began, and what it does next is to serve the reset. -/
namespace Sys2Proof.Machine
open Sys2Proof

/-! ### Serving a reset later in the same call -/

/-- `u` is a later point of the call that stood at `s`: the setup, the selection and the host program's requests are those of
`s`, the latch is clear, and the device has `moves` left. -/
structure State.CallReaches (s : State) (moves : List DevMove) (u : State) : Prop where
  cfg : u.cfg = s.cfg
  slots : u.slots = s.slots
  enabled : u.enabled = s.enabled
  host : u.host = s.host
  active : u.active = s.active
  role : u.role = s.role
  latch : u.resetLatch = false
  device : u.device = moves

/-- A recovery from `u` serves a reset: one was seen, or undoing the turnaround sees one (44_bus_coordinator.md R281). -/
def State.RecoveryMeetsReset (u : State) : Prop := u.flags.rst = true ∨ u.UndoSeesReset

theorem State.RecoveryMeetsReset.congr {u v : State} (saw : u.RecoveryMeetsReset) (cfg : v.cfg = u.cfg) (bus : v.bus = u.bus)
    (flags : v.flags = u.flags) (turn : v.turn = u.turn) : v.RecoveryMeetsReset :=
  saw.imp (fun rst => (congrArg Flags.rst flags).trans rst) fun undo => undo.congr cfg bus flags turn

/-- The broadcast has begun in `t`, and the device has `moves` left. -/
def State.Aborted (s : State) (moves : List DevMove) (t : State) : Prop := s.ResetBegun t ∧ t.device = moves

namespace State.CallReaches
variable {s u v : State} {moves : List DevMove}

theorem start (latch : s.resetLatch = false) : s.CallReaches s.device s := ⟨rfl, rfl, rfl, rfl, rfl, rfl, latch, rfl⟩

theorem afterMove (latch : s.resetLatch = false) (moves : List DevMove) : s.CallReaches moves { s with device := moves } :=
  ⟨rfl, rfl, rfl, rfl, rfl, rfl, latch, rfl⟩

theorem handshake (reached : s.CallReaches moves u) (kept : State.HandshakeSpec u v) : s.CallReaches moves v :=
  ⟨kept.cfg.trans reached.cfg, kept.slots.trans reached.slots, kept.enabled.trans reached.enabled,
    kept.host.trans reached.host, kept.active.trans reached.active, kept.role.trans reached.role,
    kept.resetLatch.trans reached.latch, kept.device.trans reached.device⟩

theorem withRecord (reached : s.CallReaches moves u) (r : ATNRecord) : s.CallReaches moves { u with record := r } :=
  { reached with }

theorem ofBegun (reached : s.CallReaches moves u) (begun : u.ResetBegun v ∧ v.device = u.device) : s.Aborted moves v :=
  ⟨begun.1.congr reached.cfg reached.slots reached.enabled reached.host reached.active reached.role,
    begun.2.trans reached.device⟩

theorem serveReset (reached : s.CallReaches moves u) : s.Aborted moves u.serveReset :=
  reached.ofBegun (u.serveReset_begun reached.latch)

theorem decodeReset (reached : s.CallReaches moves u) : s.Aborted moves u.decodeReset :=
  reached.ofBegun (u.decodeReset_begun reached.latch)

theorem recover (reached : s.CallReaches moves u) (saw : u.RecoveryMeetsReset) : s.Aborted moves u.recover :=
  reached.ofBegun (u.recover_begun reached.latch saw)

theorem phaseError (reached : s.CallReaches moves u) (saw : u.RecoveryMeetsReset) (c : Cause) (info : Byte) :
    s.Aborted moves (u.phaseError c info) :=
  (reached.handshake (u.raise_handshake c info)).recover (saw.congr rfl rfl rfl rfl)

theorem decodeError (reached : s.CallReaches moves u) (saw : u.RecoveryMeetsReset) (c : Cause) (info : Byte) :
    s.Aborted moves (u.decodeError c info) :=
  ((reached.handshake (u.raise_handshake c info)).withRecord _).recover (saw.congr rfl rfl rfl rfl)

/-- RESET pulled at a sample is noted before it is served. -/
theorem noteReset (reached : s.CallReaches moves u) : s.CallReaches moves (u.afterRead .reset).setRst :=
  reached.handshake ((u.afterRead_handshake .reset nofun).trans (State.setRst_handshake _))

end State.CallReaches

/-! ### Sampled before a byte (42_atn_decoder.md R183, R194; 44_bus_coordinator.md R265) -/

section
variable {s : State} (pulled : s.sample .reset = .pulled)
include pulled

theorem step_resetBeforeDecoderByte (place : s.ctl = .primary ∨ s.ctl = .secondary ∨ s.ctl = .payload) :
    step s = .next (s.afterRead .reset).setRst.decodeReset := by
  have command : fetchCommand s = .done (s.afterRead .reset).setRst.decodeReset := if_pos pulled
  have payload : fetchPayload s = .done (s.afterRead .reset).setRst.decodeReset := if_pos pulled
  rcases place with hc | hc | hc <;> simp only [step, fetch, hc, command, payload]

theorem step_resetBeforeListenByte (hc : s.ctl = .listening) : step s = .next (s.afterRead .reset).setRst.serveReset := by
  have listen : fetchListen s = .done (s.afterRead .reset).setRst.serveReset := if_pos pulled
  simp only [step, fetch, hc, listen]

end

theorem aborts_beforeByte {s : State} (latch : s.resetLatch = false)
    (place : s.ctl = .primary ∨ s.ctl = .secondary ∨ s.ctl = .payload ∨ s.ctl = .listening)
    (pulled : s.sample .reset = .pulled) : ∃ t, step s = .next t ∧ s.Aborted s.device t := by
  have noted := (State.CallReaches.start latch).noteReset
  obtain hc | hc | hc | hc := place
  · exact ⟨_, step_resetBeforeDecoderByte pulled (.inl hc), noted.decodeReset⟩
  · exact ⟨_, step_resetBeforeDecoderByte pulled (.inr (.inl hc)), noted.decodeReset⟩
  · exact ⟨_, step_resetBeforeDecoderByte pulled (.inr (.inr hc)), noted.decodeReset⟩
  · exact ⟨_, step_resetBeforeListenByte pulled hc, noted.serveReset⟩

/-! ### Seen inside the waits of a byte, or by the recovery that the byte calls for (R183, R194, R196) -/

theorem step_resetInDecoderByte {s u : State} {b : Byte} (noReset : s.sample .reset = .released)
    (received : (s.afterRead .reset).receiveByte = (b, u)) (rst : u.flags.rst = true)
    (place : s.ctl = .primary ∨ s.ctl = .secondary ∨ s.ctl = .payload) : step s = .next u.decodeReset := by
  have command : fetchCommand s = .done u.decodeReset := by
    unfold fetchCommand
    simp only [noReset, received, rst, reduceCtorEq, if_false, if_true]
  have payload : fetchPayload s = .done u.decodeReset := by
    unfold fetchPayload
    simp only [noReset, received, rst, reduceCtorEq, if_false, if_true]
  rcases place with hc | hc | hc <;> simp only [step, fetch, hc, command, payload]

theorem step_resetInListenByte {s u : State} {b : Byte} (hc : s.ctl = .listening) (noReset : s.sample .reset = .released)
    (noAtn : (s.afterRead .reset).sample .atn = .released)
    (received : ((s.afterRead .reset).afterRead .atn).receiveByte = (b, u)) (rst : u.flags.rst = true) :
    step s = .next u.serveReset := by
  have listen : fetchListen s = .done u.serveReset := by
    unfold fetchListen
    simp only [noReset, noAtn, received, rst, reduceCtorEq, if_false, if_true]
  simp only [step, fetch, hc, listen]

/-- What is no byte for the decoder: it came late, it came without ATN where a command was due, or it is over the bound. -/
theorem step_rejectedDecoderByte {s u : State} {b : Byte} (noReset : s.sample .reset = .released)
    (received : (s.afterRead .reset).receiveByte = (b, u)) (rst : u.flags.rst = false)
    (place : s.ctl = .primary ∨ s.ctl = .secondary ∨ s.ctl = .payload)
    (rejected : u.flags.err = true ∨
      (u.flags.atn = false ∧ (s.ctl ≠ .payload ∨ s.record.auxLen = s.cfg.maxLen))) :
    ∃ c info, step s = .next (u.decodeError c info) := by
  cases err : u.flags.err with
  | true => exact ⟨_, _, step_lateByte noReset received rst place err⟩
  | false =>
    obtain ⟨atn, bound⟩ := rejected.resolve_left (by simp [err])
    by_cases hc : s.ctl = .payload
    · have kept := State.handshake_of_received received
      have full : u.record.auxLen = u.cfg.maxLen := by
        rw [kept.record, kept.cfg]
        exact bound.resolve_left (not_not.mpr hc)
      exact ⟨_, _, State.storePayload_full full b ▸ step_payloadByte noReset received rst hc err atn⟩
    · exact ⟨_, _, step_unattendedByte noReset received rst (place.imp_right fun h => h.resolve_right hc) err atn⟩

theorem aborts_inDecoderByte {s u : State} (latch : s.resetLatch = false)
    (place : s.ctl = .primary ∨ s.ctl = .secondary ∨ s.ctl = .payload) (noReset : s.sample .reset = .released)
    (received : (s.afterRead .reset).receiveByte.2 = u)
    (saw : u.flags.rst = true ∨ (u.UndoSeesReset ∧ (u.flags.err = true ∨
      (u.flags.atn = false ∧ (s.ctl ≠ .payload ∨ s.record.auxLen = s.cfg.maxLen))))) :
    ∃ t, step s = .next t ∧ s.Aborted s.device t := by
  have received' : (s.afterRead .reset).receiveByte = (_, u) := Prod.ext rfl received
  have reached := (State.CallReaches.start latch).handshake
    ((s.afterRead_handshake .reset nofun).trans (State.handshake_of_received received'))
  cases rst : u.flags.rst with
  | true => exact ⟨_, step_resetInDecoderByte noReset received' rst place, reached.decodeReset⟩
  | false =>
    obtain ⟨undo, rejected⟩ := saw.resolve_left (by simp [rst])
    obtain ⟨c, info, run⟩ := step_rejectedDecoderByte noReset received' rst place rejected
    exact ⟨_, run, reached.decodeError (.inr undo) c info⟩

theorem aborts_inListenByte {s u : State} (latch : s.resetLatch = false) (hc : s.ctl = .listening)
    (noReset : s.sample .reset = .released) (noAtn : (s.afterRead .reset).sample .atn = .released)
    (received : ((s.afterRead .reset).afterRead .atn).receiveByte.2 = u)
    (saw : u.flags.rst = true ∨ (u.UndoSeesReset ∧ u.flags.err = true)) :
    ∃ t, step s = .next t ∧ s.Aborted s.device t := by
  have received' : ((s.afterRead .reset).afterRead .atn).receiveByte = (_, u) := Prod.ext rfl received
  have reached := (State.CallReaches.start latch).handshake
    (((s.afterRead_handshake .reset nofun).trans (State.afterRead_handshake _ .atn nofun)).trans
      (State.handshake_of_received received'))
  cases rst : u.flags.rst with
  | true => exact ⟨_, step_resetInListenByte hc noReset noAtn received' rst, reached.serveReset⟩
  | false =>
    obtain ⟨undo, err⟩ := saw.resolve_left (by simp [rst])
    exact ⟨_, step_lateListenByte hc noReset noAtn received' rst err, reached.phaseError (.inr undo) _ _⟩

/-! ### Met by the recovery from a misplaced command (R186, R191; 44_bus_coordinator.md R265) -/

/-- Requests have no place to miss: only command bytes are misplaced, and UNLISTEN never is. -/
theorem encode_of_misplaced {c : Ctl} {i : Instr} (wrong : misplaced c i = true) :
    ∃ b, encode i = .cmd b ∧ i ≠ .unlisten := by
  cases i with
  | globalCmd | untalk | listen _ | talk _ | dataCmd _ | closeCmd _ | openCmd _ => exact ⟨_, rfl, nofun⟩
  | invalid01_1F _ | invalid70_7F _ | invalid80_BF _ | invalidC0_DF _ => exact ⟨_, rfl, nofun⟩
  | _ => cases wrong

/-- The engine reads a byte where one can be misplaced. -/
theorem place_of_misplaced {c : Ctl} {i : Instr} (wrong : misplaced c i = true) :
    c = .primary ∨ c = .secondary ∨ c = .payload ∨ c = .listening := by
  cases c with
  | primary => exact .inl rfl
  | secondary => exact .inr (.inl rfl)
  | payload => exact .inr (.inr (.inl rfl))
  | listening => exact .inr (.inr (.inr rfl))
  | idle | hook _ _ => cases i <;> cases wrong

/-- As primary an unclassifiable byte is misplaced, which is recorded. -/
theorem exec_misplacedPrimary {s : State} {i : Instr} (hc : s.ctl = .primary) (wrong : misplaced .primary i = true) :
    ∃ b r, exec i s = .next (malformedInDecode b { s with record := r }) := by
  cases i with
  | invalid01_1F _ | invalid70_7F _ | invalid80_BF _ | invalidC0_DF _ =>
    exact ⟨_, { s.record with raw := _, kind := .invalid }, congrArg Host.Outcome.next (State.byPlace_primary hc)⟩
  | _ => cases wrong

/-- In place of a secondary LISTEN and TALK are misplaced too, whose id is recorded (log 17), and GLOBAL. -/
theorem exec_misplacedSecondary {s : State} {i : Instr} (hc : s.ctl = .secondary) (wrong : misplaced .secondary i = true) :
    ∃ b r, exec i s = .next (malformedInDecode b { s with record := r }) := by
  cases i with
  | listen id | talk id =>
    exact ⟨_, { s.record with deviceId := id }, congrArg Host.Outcome.next (State.byPlace_secondary hc)⟩
  | globalCmd | invalid01_1F _ | invalid70_7F _ | invalid80_BF _ | invalidC0_DF _ =>
    exact ⟨_, s.record, congrArg Host.Outcome.next (State.byPlace_secondary hc)⟩
  | _ => cases wrong

/-- A command byte without a place is rejected, by the decoder, which may have recorded something of it, or by the listen
loop. -/
theorem exec_misplaced {s : State} {i : Instr} (wrong : misplaced s.ctl i = true) :
    ∃ b, exec i s = .next (malformedInListen b s) ∨
      ∃ r, exec i s = .next (malformedInDecode b { s with record := r }) := by
  obtain ⟨b, encoded, other⟩ := encode_of_misplaced wrong
  obtain ⟨p, q, run⟩ := exec_rejectedInLoops encoded other s
  obtain hc | hc | hc | hc := place_of_misplaced wrong
  · obtain ⟨b, r, run⟩ := exec_misplacedPrimary hc (hc ▸ wrong)
    exact ⟨b, .inr ⟨r, run⟩⟩
  · obtain ⟨b, r, run⟩ := exec_misplacedSecondary hc (hc ▸ wrong)
    exact ⟨b, .inr ⟨r, run⟩⟩
  · exact ⟨b, .inr ⟨s.record, run.trans (congrArg _ (State.byPlace_payload hc))⟩⟩
  · exact ⟨b, .inl (run.trans (congrArg _ (State.byPlace_listening hc)))⟩

theorem aborts_misplaced {s : State} {i : Instr} (latch : s.resetLatch = false) (wrong : misplaced s.ctl i = true)
    (saw : s.RecoveryMeetsReset) : ∃ t, exec i s = .next t ∧ s.Aborted s.device t := by
  have reached := State.CallReaches.start latch
  obtain ⟨b, run | ⟨r, run⟩⟩ := exec_misplaced wrong
  · exact ⟨_, run, reached.phaseError saw .malformed b⟩
  · exact ⟨_, run, (reached.withRecord r).decodeError (saw.congr rfl rfl rfl rfl) .malformed b⟩

/-! ### Seen inside a hook, or met by the recovery from a hook's failure (R264, R265, R270) -/

theorem State.afterHook_servesReset {s : State} (rst : s.flags.rst = true) (goOn : State → State) :
    s.afterHook goOn = s.serveReset := if_pos rst

theorem aborts_inHook {s : State} {hook : Hook} {pd : Bool} (latch : s.resetLatch = false) (hc : s.ctl = .hook hook pd)
    (other : ∀ d rest, hook ≠ .reset d rest) (returns : s.HookReturns)
    (saw : s.flags.rst = true ∨ (s.flags.rst = false ∧ s.flags.err = true ∧ s.UndoSeesReset)) :
    ∃ t, step s = .next t ∧ s.Aborted s.device.tail t := by
  have reached := State.CallReaches.afterMove latch s.device.tail
  obtain ⟨answer, run⟩ := step_hookReturns hc returns
  obtain ⟨goOn, tests⟩ := State.hookReturn_afterHook other { s with device := s.device.tail } pd answer
  rw [run, tests]
  obtain rst | ⟨rst, err, undo⟩ := saw
  · rw [State.afterHook_servesReset (s := { s with device := s.device.tail }) rst]
    exact ⟨_, rfl, reached.serveReset⟩
  · rw [State.afterHook_recovers (s := { s with device := s.device.tail }) rst err]
    exact ⟨_, rfl, reached.recover (.inr (undo.congr rfl rfl rfl rfl))⟩

/-! ### In the talk phase (R270 to R272) -/

namespace State.CallReaches
variable {s u v w : State} {moves : List DevMove}

theorem talkPhase_ofLateAtn (reached : s.CallReaches moves u) (late : u.timeoutWait .atn .released = (false, v))
    (saw : v.RecoveryMeetsReset) : s.Aborted moves u.talkPhase := by
  have reached' := reached.handshake (State.handshake_ofWait late nofun)
  cases rst : v.flags.rst with
  | true =>
    have served : u.talkPhase = v.serveReset := by simp [State.talkPhase, late, rst]
    exact served ▸ reached'.serveReset
  | false =>
    rw [State.talkPhase_ofLateAtn late rst]
    exact reached'.phaseError saw _ _

/-- A turnaround that fails: a reset seen by its wait, a Timeout, or a second reversal. -/
theorem talkPhase_ofNoTurn (reached : s.CallReaches moves u) (seen : u.timeoutWait .atn .released = (true, v))
    (failed : v.turnAround = (false, w)) (saw : w.RecoveryMeetsReset) : s.Aborted moves u.talkPhase := by
  have kept := v.turnAround_handshake
  rw [failed] at kept
  have reached' := reached.handshake ((State.handshake_ofWait seen nofun).trans kept)
  have ends : u.talkPhase = if w.flags.rst then w.serveReset
      else if w.turn = .notTurned then w.phaseError .timeout 0x00#8 else w.recover := by
    simp [State.talkPhase, seen, failed]
  rw [ends]
  split_ifs
  · exact reached'.serveReset
  · exact reached'.phaseError saw _ _
  · exact reached'.recover saw

/-- At the top of the talk loop RESET is sampled before ATN. -/
theorem talkTop_ofReset (reached : s.CallReaches moves u) (pulled : u.sample .reset = .pulled) :
    s.Aborted moves u.talkTop := by
  have served : u.talkTop = (u.afterRead .reset).setRst.serveReset := if_pos pulled
  exact served ▸ reached.noteReset.serveReset

/-- After a byte of the talk loop: a reset seen by its waits, met by the recovery, or sampled before the next. -/
theorem talkAnswer_ofReset {b : Byte} {last ok : Bool} (reached : s.CallReaches moves u)
    (sent : u.sendByte b last = (ok, v))
    (saw : v.flags.rst = true ∨ (ok = false ∧ v.UndoSeesReset) ∨ (ok = true ∧ last = false ∧ v.sample .reset = .pulled)) :
    s.Aborted moves (u.talkAnswer (some (b, last))) := by
  have kept := u.sendByte_handshake b last
  rw [sent] at kept
  have reached' := reached.handshake kept
  cases rst : v.flags.rst with
  | true =>
    have served : u.talkAnswer (some (b, last)) = v.serveReset := by simp [State.talkAnswer, sent, rst]
    exact served ▸ reached'.serveReset
  | false =>
    rw [State.talkAnswer_ofSent sent rst]
    obtain ⟨rfl, undo⟩ | ⟨rfl, rfl, pulled⟩ := saw.resolve_left (by simp [rst])
    · exact reached'.phaseError (.inr undo) _ _
    · exact reached'.talkTop_ofReset pulled

end State.CallReaches

theorem aborts_inTalkCommand {s : State} {r : ATNRecord} (latch : s.resetLatch = false)
    (hc : s.ctl = .hook (.processCommand r false) false) (mode : r.mode = .talk) (returns : s.HookReturns)
    (rst : s.flags.rst = false) (err : s.flags.err = false) (pulled : s.sample .reset = .pulled) :
    ∃ t, step s = .next t ∧ s.Aborted s.device.tail t := by
  obtain ⟨answer, run⟩ := step_hookReturns hc returns
  rw [State.hookReturn_talkCommand (s := { s with device := s.device.tail }) rst err mode, if_neg nofun] at run
  exact ⟨_, run, (State.CallReaches.afterMove latch s.device.tail).talkTop_ofReset pulled⟩

theorem aborts_inTalkByte {s u : State} {b : Byte} {last ok : Bool} {rest : List DevMove} (latch : s.resetLatch = false)
    (hc : s.ctl = .hook .talkData false) (hd : s.device = .ret (some (b, last)) :: rest) (rst : s.flags.rst = false)
    (err : s.flags.err = false) (sent : s.sendByte b last = (ok, u))
    (saw : u.flags.rst = true ∨ (ok = false ∧ u.UndoSeesReset) ∨ (ok = true ∧ last = false ∧ u.sample .reset = .pulled)) :
    ∃ t, step s = .next t ∧ s.Aborted rest t := by
  have run := step_returns hc hd
  rw [State.hookReturn_talkData (s := { s with device := rest }) rst err, if_neg nofun] at run
  exact ⟨_, run, (State.CallReaches.afterMove latch rest).talkAnswer_ofReset (State.sendByte_withDevice sent rest)
    (saw.imp_right (.imp_left fun ⟨failed, undo⟩ => ⟨failed, undo.congr rfl rfl rfl rfl⟩))⟩

theorem IsSecondary.ofInstr {ch : Channel} {i : Instr} (secondary : i = .dataCmd ch ∨ i = .closeCmd ch ∨ i = .openCmd ch) :
    ∃ b k, IsSecondary ch i b k := by
  obtain h | h | h := secondary
  · exact ⟨_, _, .inl ⟨h, rfl, rfl⟩⟩
  · exact ⟨_, _, .inr (.inl ⟨h, rfl, rfl⟩)⟩
  · exact ⟨_, _, .inr (.inr ⟨h, rfl, rfl⟩)⟩

section
variable {s u : State} {ch : Channel} {i : Instr} (latch : s.resetLatch = false)
  (place : (s.ctl = .secondary ∧ s.record.mode = .talk) ∨ (s.ctl = .primary ∧ s.role = .talker))
  (secondary : i = .dataCmd ch ∨ i = .closeCmd ch ∨ i = .openCmd ch)
include latch place secondary

theorem aborts_byLateAtn (late : s.timeoutWait .atn .released = (false, u)) (saw : u.RecoveryMeetsReset) :
    ∃ t, exec i s = .next t ∧ s.Aborted s.device t := by
  obtain ⟨b, k, h⟩ := IsSecondary.ofInstr secondary
  exact ⟨_, h.exec_talk place, ((State.CallReaches.start latch).withRecord _).talkPhase_ofLateAtn
    (State.timeoutWait_withRecord late _) (saw.congr rfl rfl rfl rfl)⟩

theorem aborts_byTurnaround (seen : s.timeoutWait .atn .released = (true, u)) (failed : u.turnAround.1 = false)
    (saw : u.turnAround.2.RecoveryMeetsReset) : ∃ t, exec i s = .next t ∧ s.Aborted s.device t := by
  obtain ⟨b, k, h⟩ := IsSecondary.ofInstr secondary
  have failed' : u.turnAround = (false, u.turnAround.2) := Prod.ext failed rfl
  exact ⟨_, h.exec_talk place, ((State.CallReaches.start latch).withRecord _).talkPhase_ofNoTurn
    (State.timeoutWait_withRecord seen _) (State.turnAround_withRecord failed' _) (saw.congr rfl rfl rfl rfl)⟩

end

/-- Settles O38: at each point the call is still the one that stood at `s`, so the reset it serves is that call's. -/
theorem resetAbortsTheEpisode : Obligations.ResetAbortsTheEpisode := fun _ latch =>
  ⟨aborts_beforeByte latch,
    fun _ => aborts_inDecoderByte latch,
    fun _ => aborts_inListenByte latch,
    fun _ => aborts_misplaced latch,
    fun _ _ hc other returns rst => aborts_inHook latch hc other returns (.inl rst),
    fun _ _ _ place secondary => ⟨aborts_byLateAtn latch place secondary, aborts_byTurnaround latch place secondary⟩,
    fun _ => aborts_inTalkCommand latch,
    fun _ _ _ _ _ => aborts_inTalkByte latch,
    fun _ _ hc other returns rst err undo => aborts_inHook latch hc other returns (.inr ⟨rst, err, undo⟩)⟩

end Sys2Proof.Machine
end
